-- ==== Sys2Proof/Word.lean ====
section
/-! DEFINITION. The word types of the machine and the plainest readings of them. -/

namespace Sys2Proof

/-- A 64-bit scalar word (R16). -/
abbrev W64 := BitVec 64
/-- A 32-bit lane register or scalar instruction word (R22, R95). -/
abbrev W32 := BitVec 32
/-- A 16-bit value: a tile handle (R19), a BF16 or FP16 pattern (R48). -/
abbrev W16 := BitVec 16
/-- One byte of memory. -/
abbrev Byte := BitVec 8
/-- Sparse data by natural key, kept in rising key order. -/
abbrev SMap (α : Type) := List (Nat × α)

/-- Bits [hi:lo] of a natural number, as a natural number (R5, R8). -/
def bitsOf (x hi lo : Nat) : Nat := x / 2 ^ lo % 2 ^ (hi + 1 - lo)

/-- Bit i of a natural number. -/
def bitOf (x i : Nat) : Bool := x / 2 ^ i % 2 == 1

/-- The n-bit pattern x read as a signed value (R122, R178). -/
def signedOf (n x : Nat) : Int := if x < 2 ^ (n - 1) then (x : Int) else (x : Int) - 2 ^ n

/-- The n-bit pattern of an integer: its value modulo 2^n. -/
def patOf (n : Nat) (x : Int) : Nat := (x % 2 ^ n).toNat

end Sys2Proof
end

