-- ==== Sys2Proof/Syntax.lean ====
section
/-! DEFINITION. The abstract syntax: operand types, and the one inductive Instr with a constructor for every row of
the opcode table. Scalar words (chapters 05, 06, 09, 10) come first, then lane words (06 to 09), then the device's
own steps, which have no encoding and come to the machine as turns of its agenda. -/

namespace Sys2Proof

/-! ## Register names and enumerations (R95, R96, R98) -/

/-- k0 to k63 (R16). -/
abbrev KReg := BitVec 6
/-- c0 to c15 (R17). -/
abbrev CBit := BitVec 4
/-- f0 to f15 (R18). -/
abbrev FReg := BitVec 4
/-- h0 to h15 (R19). -/
abbrev HReg := BitVec 4
/-- m0 to m15 (R23). -/
abbrev MReg := BitVec 4

/-- The condition codes of CMP, CMPI and VCMP (R98). -/
inductive Cond
  | eq | ne | lt | le | gt | ge | ltn | len | gtn | gen
  deriving DecidableEq, Repr

/-- The scope codes 1 to 6 (R98). -/
inductive Scope
  | skein | crew | core | die | dev | sys
  deriving DecidableEq, Repr

/-- An immediate or offset field of n bits: held in the word, or in the literal word that follows it (R97). -/
inductive Lit (n : Nat)
  | short (v : BitVec n)
  | long (v : W32)
  deriving DecidableEq, Repr

/-- The order qualifier of a scalar load, with the scope that .acq carries (R130). -/
inductive LdOrder
  | plain | acq (sc : Scope) | fresh
  deriving DecidableEq, Repr

/-- The order qualifier of a scalar store, with the scope that .rel carries (R130). -/
inductive StOrder
  | plain | rel (sc : Scope)
  deriving DecidableEq, Repr

/-- The ATM operations (R136). -/
inductive AtmOp
  | swap | add | and | or | xor | min | max | minn | maxn | cas
  deriving DecidableEq, Repr

/-- The element formats by their codes 0 to 11 (R47). -/
inductive Fmt
  | f32 | bf16 | f16 | e4m3 | e5m2 | s32 | n32 | s8 | n8 | s4 | n4 | cb4
  deriving DecidableEq, Repr

/-- The rounding modes (R57). -/
inductive Rnd
  | rne | rtz | rup | rdn
  deriving DecidableEq, Repr

/-- The beam sets that an MBEAM names (R252). -/
inductive BeamSet
  | s0 | s1 | s01
  deriving DecidableEq, Repr

/-- The kinds of FENCE (R292). -/
inductive FenceKind
  | acq | rel | ar
  deriving DecidableEq, Repr

/-- The four path counters (R21). -/
inductive Path
  | g | s | m | w
  deriving DecidableEq, Repr

/-- The fields common to LRUN, LLOOP.n and LLOOP.any: mask selector, capture count and first register, block
length and block offset (R95, R150). -/
structure Enqueue where
  msel : MReg
  qn : BitVec 4
  qk : KReg
  len : BitVec 6
  blk : BitVec 26
  deriving DecidableEq, Repr

/-! ## Lane words (R101 to R104) -/

/-- The fields of a single-op lane word other than its opcode (R101). -/
structure LaneOp where
  ty : Fmt
  dst : BitVec 8
  s1 : BitVec 8
  s2 : BitVec 8
  s3 : BitVec 8
  sq : BitVec 3
  neg : BitVec 3
  abs : BitVec 3
  msel : MReg
  reach : BitVec 3
  fill : Bool
  sat : Bool
  rnd : Rnd
  imm : BitVec 24
  deriving DecidableEq, Repr

/-- The single-op lane opcodes (R105). -/
inductive LaneCode
  | vadd | vsub | vmul | vmulh | vmad | vand | vor | vxor | vandn | vshl | vshr | vsra
  | vmin | vmax | vclz | vpopc | vbrev | vbfx | vbfi | vsel | vmov | vcmp | vlane | vfadd
  | vfsub | vfmul | vfma | vfmin | vfmax | vfcmp | vfrnd | vfrcp | vfrsq | vfsqrt | vfex2 | vflg2
  | vfsin | vfcos | vftnh | vhadd | vhmul | vhfma | vhdot | vqdot | vcvt | vcbx | vcbq | mand
  | mor | mxor | mnot | mmov | mpush | melse | mpop | mbreak | vote | vsend | vshf | vprm
  | vptld | vred | vscn | vmatch | vld | vst | vlds | vsts | vldm | vstm | vatm | vatms
  | vatmm | vpre | waitc | vdec | vrng | vtld | vtst
  deriving DecidableEq, Repr

/-- The pairable class (R104). -/
inductive PairCode
  | vadd | vsub | vmul | vmulh | vmad | vand | vor | vxor | vandn | vshl | vshr | vsra | vmin | vmax | vclz | vpopc
  | vbrev | vmov | vfadd | vfsub | vfmul | vfma | vfmin | vfmax | vhadd | vhmul | vhfma
  deriving DecidableEq, Repr

/-- One half-op of a paired lane word (R103). -/
structure HalfOp where
  op : PairCode
  ty : Fmt
  dst : BitVec 8
  s1 : BitVec 8
  s2 : BitVec 8
  s3 : BitVec 8
  neg : BitVec 2
  sat : Bool
  deriving DecidableEq, Repr

/-! ## Data that the device's own steps carry -/

/-- How a message of the fabric acts on this device (R415 to R422). -/
inductive PacketKind
  | send        -- bytes of a SEND message (R418)
  | result      -- the final sum of a chunk, sent to its owner (R419)
  | setup       -- a member's answer to COMM_SETUP (R417)
  | beacon      -- a beacon of another device of a multi-device launch (R432)
  | placed      -- a member's report that it has admitted a generation of a group (R367)
  | refused     -- a member's refusal of a generation of a group, with its REASON (R368)
  deriving DecidableEq, Repr

/-- One fabric packet: the communicator's KEY, the message it belongs to and its total length, the byte offset in
the local buffer, the bytes, for a set-up answer the member's terms and CAPC words, and for a report or a refusal its GEN and REASON
(R367, R368, R415, R417, R418). -/
structure FabricPacket where
  kind : PacketKind
  source : BitVec 128
  key : W64
  msg : Nat
  total : Nat
  offset : Nat
  bytes : List Byte
  rank : Nat
  step : Nat
  nranks : Nat
  clo : Nat
  chi : Nat
  mode : Nat
  caps : List W64
  late : List Nat
  failed : Bool
  fcode : Nat
  gen : W32
  reason : Nat
  deriving DecidableEq, Repr

/-- A partial sum, or a failure marker in its place, that arrives at a rank (R419, R422). -/
structure PartialMsg where
  key : W64
  step : Nat
  owner : Nat
  offset : Nat
  chunk : Nat
  bytes : List Byte
  late : List Nat
  failed : Bool
  fcode : Nat
  deriving DecidableEq, Repr

/-- The scheduler's name for a commission: its translation context and its identifier (R354). -/
structure CommKey where
  ctx : Nat
  id : W32
  deriving DecidableEq, Repr

/-- One stage of the boot chain: its image, the image's security version, and the SM2 signature over the image's SM3 digest, r above s
(R446). -/
structure BootStage where
  image : List Byte
  signature : BitVec 512
  version : Nat
  deriving DecidableEq, Repr

/-- The protected memories that the scrubber reads (R449), with the error-counter kind of R450. -/
inductive ScrubFinding
  | clean | correctable | uncorrectable
  deriving DecidableEq, Repr

/-! ## The instructions -/

/-- Every row of the opcode table. -/
inductive Instr
  -- integer and logical words (R122, R123)
  | add (d a b : KReg) | sub (d a b : KReg) | mul (d a b : KReg) | mulh (d a b : KReg) | mulhn (d a b : KReg)
  | div (d a b : KReg) | divn (d a b : KReg) | rem (d a b : KReg) | remn (d a b : KReg)
  | and (d a b : KReg) | or (d a b : KReg) | xor (d a b : KReg) | andn (d a b : KReg)
  | shl (d a b : KReg) | shr (d a b : KReg) | sra (d a b : KReg)
  | clz (d a : KReg) | popc (d a : KReg)
  | min (d a b : KReg) | max (d a b : KReg) | minn (d a b : KReg) | maxn (d a b : KReg)
  | mov (d a : KReg)
  -- select, address, condition words (R126 to R128)
  | sel (d : KReg) (n : CBit) (a b : KReg)
  | lea (d a b : KReg) (sh : BitVec 3)
  | cmp (n : CBit) (cc : Cond) (a b : KReg)
  | cset (n : CBit) (a : KReg)
  | cget (d : KReg) (n : CBit)
  -- immediate words (R124 to R127)
  | addi (d a : KReg) (imm : Lit 14) | andi (d a : KReg) (imm : Lit 14)
  | ori (d a : KReg) (imm : Lit 14) | xori (d a : KReg) (imm : Lit 14)
  | shli (d a : KReg) (sh : BitVec 6) | shri (d a : KReg) (sh : BitVec 6) | srai (d a : KReg) (sh : BitVec 6)
  | movi (d : KReg) (imm : Lit 14) | movh (d : KReg) (imm : Lit 14)
  | cmpi (n : CBit) (cc : Cond) (a : KReg) (imm : Lit 10)
  | ext (d a : KReg) (pos len : BitVec 6) (signed : Bool)
  | ldk (d : KReg) (idx : BitVec 14)
  -- scalar memory words (R130 to R137)
  | ld8 (d a : KReg) (ord : LdOrder) (off : Lit 9) | ld16 (d a : KReg) (ord : LdOrder) (off : Lit 9)
  | ld32 (d a : KReg) (ord : LdOrder) (off : Lit 9) | ld64 (d a : KReg) (ord : LdOrder) (off : Lit 9)
  | st8 (d a : KReg) (ord : StOrder) (off : Lit 9) | st16 (d a : KReg) (ord : StOrder) (off : Lit 9)
  | st32 (d a : KReg) (ord : StOrder) (off : Lit 9) | st64 (d a : KReg) (ord : StOrder) (off : Lit 9)
  | atm (d a b : KReg) (op : AtmOp) (wide : Bool) (sc : Scope)
  -- control transfer, exit, regions (R138 to R145)
  | br (n : CBit) (sense : Bool) (off : Lit 21) | jmp (off : Lit 21) | call (off : Lit 21)
  | loop (d : KReg) (off : Lit 14)
  | jr (a : KReg) | ret | nop | exit
  | region (idx : BitVec 14)
  -- lane issue and skein width (chapter 06)
  | lrun (e : Enqueue)
  | lloopN (e : Enqueue) (tk : KReg)
  | lloopAny (e : Enqueue) (tk : KReg) (tm : MReg)
  | lsync
  | vget (d : KReg) (n : CBit) | votew (d : KReg) (n : CBit)
  | split (d : KReg) (n : CBit) (w : BitVec 2)
  | fuse (a : KReg)
  | width (d : KReg)
  -- tiles and the Loom (chapter 09)
  | talloc (d : HReg) (a : KReg) (b : CBit)
  | tfree (a : HReg)
  | thand (d : KReg) (a : HReg) (b : KReg)
  | ttake (d : HReg) (a : KReg)
  | tzero (a : HReg)
  | tcopy (d a : HReg)
  | tileOpPerform (crew pos : Nat)
  | mbeamTile (d : FReg) (a : HReg) (b : KReg) (set : BeamSet)
  | mbeamMem (d : FReg) (a b : KReg) (set : BeamSet)
  | mloopMem (d : FReg) (a : KReg) (b : HReg) (set keep drop : Bool)
  | mloopTile (d : FReg) (a : KReg) (b : HReg) (set keep drop : Bool)
  | mstep (a : KReg) (b : HReg) (set keep drop : Bool)
  | mcvt (d a : HReg) (b : KReg)
  | mperm (n : BitVec 2) (a : KReg)
  | mcode (n : BitVec 3) (a : KReg)
  | loomOpStart (core set : Nat)
  | loomRowCommit (core set : Nat) (ecc : Bool)
  | loomOpComplete (core set : Nat)
  -- engines and synchronisation (chapter 10)
  | cpy (d : FReg) (a b : KReg) | cpyg (d : FReg) (a b : KReg) | cpyz (d : FReg) (a b : KReg) | mupd (d : FReg) (a b : KReg)
  | copyLineWrite (id : Nat)
  | copyEnd (id : Nat)
  | coll (d : FReg) (a : KReg) (b : BitVec 6) (m : MReg)
  | fwait (d : KReg) (a : FReg)
  | ftest (n : CBit) (a : FReg)
  | fcan (a : FReg)
  | fsto (d : KReg) (a : FReg)
  | fldf (d : FReg) (a : KReg)
  | bar
  | barn (n : BitVec 4) (a : KReg)
  | barnArrive (n : BitVec 4) (a : KReg)
  | fence (kind : FenceKind) (sc : Scope)
  | launch (d : FReg) (a : KReg)
  | ljoin
  | pwrq (d a : KReg)
  | bcn (sys : Bool) (a : KReg)
  | srd (d : KReg) (r : BitVec 12)
  | swr (d : KReg) (r : BitVec 12)
  | trap (imm : BitVec 12)
  | eret | eretSkip
  | lget (d : KReg) (mask : Bool) (n : BitVec 8)
  | lset (d : KReg) (mask : Bool) (n : BitVec 8)
  | yield
  | brk (imm : BitVec 12)
  -- lane words (chapters 06 to 09)
  | pairedLaneWord (h0 h1 : HalfOp)
  | vadd (o : LaneOp) | vsub (o : LaneOp) | vmul (o : LaneOp) | vmulh (o : LaneOp) | vmad (o : LaneOp)
  | vand (o : LaneOp) | vor (o : LaneOp) | vxor (o : LaneOp) | vandn (o : LaneOp)
  | vshl (o : LaneOp) | vshr (o : LaneOp) | vsra (o : LaneOp) | vmin (o : LaneOp) | vmax (o : LaneOp)
  | vclz (o : LaneOp) | vpopc (o : LaneOp) | vbrev (o : LaneOp) | vbfx (o : LaneOp) | vbfi (o : LaneOp)
  | vsel (o : LaneOp) | vmov (o : LaneOp) | vcmp (o : LaneOp) | vlane (o : LaneOp)
  | vfadd (o : LaneOp) | vfsub (o : LaneOp) | vfmul (o : LaneOp) | vfma (o : LaneOp)
  | vfmin (o : LaneOp) | vfmax (o : LaneOp) | vfcmp (o : LaneOp) | vfrnd (o : LaneOp)
  | vfrcp (o : LaneOp) | vfrsq (o : LaneOp) | vfsqrt (o : LaneOp) | vfex2 (o : LaneOp) | vflg2 (o : LaneOp)
  | vfsin (o : LaneOp) | vfcos (o : LaneOp) | vftnh (o : LaneOp)
  | vhadd (o : LaneOp) | vhmul (o : LaneOp) | vhfma (o : LaneOp) | vhdot (o : LaneOp) | vqdot (o : LaneOp)
  | vcvt (o : LaneOp) | vcbx (o : LaneOp) | vcbq (o : LaneOp)
  | mand (o : LaneOp) | mor (o : LaneOp) | mxor (o : LaneOp) | mnot (o : LaneOp) | mmov (o : LaneOp)
  | mpush (o : LaneOp) | melse (o : LaneOp) | mpop (o : LaneOp) | mbreak (o : LaneOp)
  | vote (o : LaneOp) | vsend (o : LaneOp)
  | vshf (o : LaneOp) | vprm (o : LaneOp) | vptld (o : LaneOp) | vred (o : LaneOp) | vscn (o : LaneOp) | vmatch (o : LaneOp)
  | vld (o : LaneOp) | vst (o : LaneOp) | vlds (o : LaneOp) | vsts (o : LaneOp) | vldm (o : LaneOp) | vstm (o : LaneOp)
  | vatm (o : LaneOp) | vatms (o : LaneOp) | vatmm (o : LaneOp) | vpre (o : LaneOp) | waitc (o : LaneOp)
  | vdec (o : LaneOp) | vrng (o : LaneOp) | vtld (o : LaneOp) | vtst (o : LaneOp)
  -- lane-side and memory steps
  | laneEntryStart (c : Nat)
  | loopTripTest (c : Nat)
  | loadReturn (c : Nat) (p : Path)
  | laneRetire (c : Nat)
  | skeinEnd (c : Nat)
  | takeTrap (c : Nat)
  | crewFault (c : Nat)
  | fetchSwapOut (c : Nat)
  | translationWalk (die pos : Nat)
  | sgbIdleDrain (core line : Nat)
  | mergeWindowExpiry (line : Nat)
  | hbmReadReturn (line : Nat)
  | leaveGrant (die : Nat)
  -- the Drover's steps (chapter 15)
  | collSendAck (op : Nat)
  | fabricPacketReceive (p : FabricPacket)
  | collPartialArrival (p : PartialMsg)
  | reduceCrewDispatch (ctr : Nat)
  | collLateTimeout (ctr : Nat)
  | collFailTimeout (ctr : Nat)
  | collStepEnd (op : Nat)
  -- the scheduler's steps (chapter 13)
  | launchSlotWrite (fn window slot off : Nat) (bytes : List Byte)
  | commissionEnterTable
  | commissionAdmit
  | crewPlace
  | coopReserve
  | commissionRetire (k : CommKey)
  | completionRecordWrite (k : CommKey)
  | multiPacketReplica (key : W64) (packet : List Byte)
  | startBarrierComplete (group : Nat) (gen : W32)
  | startBarrierTimeout (group : Nat) (refusedGen : Bool)
  | slotTableWrite (core off : Nat) (v : W16)
  | slotTableTakeEffect (core : Nat)
  -- save and restore (chapter 14)
  | preemptBudgetExpiry (crew : Nat)
  | crewSave (crew : Nat)
  | crewRestore (saved : Nat)
  -- commands (chapter 15)
  | withdraw (fn : Nat) | abort (fn : Nat) | preempt (fn : Nat) | restore (fn : Nat) | invalidate (fn : Nat)
  | pageResponse (fn : Nat) | commSetup (fn : Nat) | commSetupTimeout (handle : Nat) | commFree (fn : Nat)
  -- debug, trace and assay (chapter 16)
  | benchStopSpread (bench : Nat)
  | beaconArrival (bench pos : Nat)
  | traceBranchFlush (c : Nat)
  | tracePacketWrite (bench : Nat)
  | assayRecord (bench : Nat)
  | malformedCommand (fn : Nat)
  -- registers, the aperture and the device as a whole (chapters 15 to 17)
  | ringHeadWrite (die : Nat) (faultRing : Bool) (v : W64)
  | savepush (die : Nat) (addr : W64)
  | errorCounterClear (die : Nat)
  | attestationRequest (nonce : BitVec 256) (addr : W64)
  | shareWrite (die watts : Nat)
  | msixUnmask (fn vec : Nat)
  | bar4Read (off len : Nat)
  | bar4Write (off : Nat) (bytes : List Byte)
  | registerWrite (fn off : Nat) (v : W64)
  | functionLevelReset (fn : Nat)
  | moduleReset (stages : List BootStage)
  | powerClamp
  | powerClampEnd
  | thermalTrip
  | patrolScrub (die kind addr : Nat) (found : ScrubFinding)
  | dbgStop (bench : Nat)
  | dbgResume (bench : Nat)
  | dbgDump (bench : Nat)
  | trrptrWrite (bench : Nat) (v : W64)
  | asrptrWrite (bench : Nat) (v : W64)
  | asseedWrite (bench : Nat) (v : W64)
  | systemSoftwareCopy (addr : W64) (bytes : List Byte)
  | debugRead (addr : W64) (len : Nat)
  | linkRetry (die : Nat)
  | linkLost (die : Nat)
  deriving DecidableEq, Repr

end Sys2Proof
end

