-- ==== Sys2Proof/Decode.lean ====
section
/-! DEFINITION. Instruction words: the decoder (04 R94 to R109), total on any bytes, which rejects by the DETAIL of
R106, and after it the encoder, written from the same encoding tables. -/

namespace Sys2Proof

/-- What the decode checks 1 to 6 of R106 give: an instruction, or the trap ILLEGAL or ILLEGAL_PAIR with its DETAIL. -/
inductive Decoded
  | instr (i : Instr)
  | illegal (detail : Nat)
  | illegalPair (detail : Nat)
  deriving DecidableEq, Repr

/-- The first failing check of R106, orders 1 to 3: an undefined value, a nonzero reserved field, a register field out
of range. -/
def judge (undef resv range : Bool) (i : Instr) : Decoded :=
  if undef then .illegal 1 else if resv then .illegal 2 else if range then .illegal 3 else .instr i

/-- The instruction of a decoding, if there is one. -/
def Decoded.toOption : Decoded → Option Instr
  | .instr i => some i
  | _ => none

/-! ## Enumerated fields (R98, R136, R47, R57) -/

/-- Scope codes 1 to 6 (R98). -/
def scopeOf : Nat → Option Scope
  | 1 => some .skein | 2 => some .crew | 3 => some .core | 4 => some .die | 5 => some .dev | 6 => some .sys
  | _ => none

/-- The code of a scope (R98). -/
def scopeNum : Scope → Nat
  | .skein => 1 | .crew => 2 | .core => 3 | .die => 4 | .dev => 5 | .sys => 6

/-- Condition codes 0 to 9 (R98). -/
def condOf : Nat → Option Cond
  | 0 => some .eq | 1 => some .ne | 2 => some .lt | 3 => some .le | 4 => some .gt | 5 => some .ge
  | 6 => some .ltn | 7 => some .len | 8 => some .gtn | 9 => some .gen
  | _ => none

/-- The code of a condition (R98). -/
def condNum : Cond → Nat
  | .eq => 0 | .ne => 1 | .lt => 2 | .le => 3 | .gt => 4 | .ge => 5 | .ltn => 6 | .len => 7 | .gtn => 8 | .gen => 9

/-- ATM operation codes 0 to 9 (R136). -/
def atmOf : Nat → Option AtmOp
  | 0 => some .swap | 1 => some .add | 2 => some .and | 3 => some .or | 4 => some .xor
  | 5 => some .min | 6 => some .max | 7 => some .minn | 8 => some .maxn | 9 => some .cas
  | _ => none

/-- The code of an ATM operation (R136). -/
def atmNum : AtmOp → Nat
  | .swap => 0 | .add => 1 | .and => 2 | .or => 3 | .xor => 4 | .min => 5 | .max => 6 | .minn => 7 | .maxn => 8
  | .cas => 9

/-- Format codes 0 to 11 (R47). -/
def fmtOf : Nat → Option Fmt
  | 0 => some .f32 | 1 => some .bf16 | 2 => some .f16 | 3 => some .e4m3 | 4 => some .e5m2 | 5 => some .s32
  | 6 => some .n32 | 7 => some .s8 | 8 => some .n8 | 9 => some .s4 | 10 => some .n4 | 11 => some .cb4
  | _ => none

/-- The code of a format (R47). -/
def fmtNum : Fmt → Nat
  | .f32 => 0 | .bf16 => 1 | .f16 => 2 | .e4m3 => 3 | .e5m2 => 4 | .s32 => 5 | .n32 => 6 | .s8 => 7 | .n8 => 8
  | .s4 => 9 | .n4 => 10 | .cb4 => 11

/-- Width of a format in bits (R47). -/
def fmtBits : Fmt → Nat
  | .f32 => 32 | .bf16 => 16 | .f16 => 16 | .e4m3 => 8 | .e5m2 => 8 | .s32 => 32 | .n32 => 32 | .s8 => 8 | .n8 => 8
  | .s4 => 4 | .n4 => 4 | .cb4 => 4

/-- Rounding modes (R57). -/
def rndOf : Nat → Rnd
  | 0 => .rne | 1 => .rtz | 2 => .rup | _ => .rdn

/-- The code of a rounding mode (R57). -/
def rndNum : Rnd → Nat
  | .rne => 0 | .rtz => 1 | .rup => 2 | .rdn => 3

/-- System registers that the manual assigns (R29). -/
def sysAssigned (r : Nat) : Bool := r < 0x0F || (0x10 ≤ r && r < 0x18)

/-! ## Scalar fields (R95) -/

def opOf (w : Nat) : Nat := bitsOf w 31 26
def dOf (w : Nat) : Nat := bitsOf w 25 20
def aOf (w : Nat) : Nat := bitsOf w 19 14
def bOf (w : Nat) : Nat := bitsOf w 13 8
def fnOf (w : Nat) : Nat := bitsOf w 7 0

/-- A 6-bit register field. -/
def kOf (n : Nat) : KReg := BitVec.ofNat 6 n
/-- A register field of which only the low four bits may be set (R96). -/
def rOf (n : Nat) : BitVec 4 := BitVec.ofNat 4 n
/-- Out of range for a c-, f-, h- or m-register (R96). -/
def over15 (n : Nat) : Bool := 15 < n

/-- The immediate of an L major: the field, or the literal where the field holds its sentinel 2^(n-1) (R97). -/
def litOf (n field lit : Nat) : Lit n :=
  if field = 2 ^ (n - 1) then .long (BitVec.ofNat 32 lit) else .short (BitVec.ofNat n field)

/-- Whether a scalar word carries a literal (R97). -/
def hasLiteral (w : Nat) : Bool :=
  match opOf w with
  | 0x08 | 0x09 | 0x0A | 0x0B | 0x0F | 0x10 | 0x27 => bitsOf w 13 0 = 0x2000
  | 0x11 => bitsOf w 9 0 = 0x200
  | 0x18 | 0x19 | 0x1A | 0x1B | 0x1C | 0x1D | 0x1E | 0x1F => bitsOf w 8 0 = 0x100
  | 0x24 | 0x25 | 0x26 => bitsOf w 20 0 = 0x100000
  | 0x2C | 0x2D | 0x2E => true
  | _ => false

/-- A three-register word of major 0x01. -/
def sr3 (w : Nat) (c : KReg → KReg → KReg → Instr) : Decoded := .instr (c (kOf (dOf w)) (kOf (aOf w)) (kOf (bOf w)))

/-- A two-register word of major 0x01: B is zero. -/
def sr2 (w : Nat) (c : KReg → KReg → Instr) : Decoded := judge false (bOf w != 0) false (c (kOf (dOf w)) (kOf (aOf w)))

/-- Major 0x01 (R122). -/
def decodeInt (w : Nat) : Decoded :=
  match fnOf w with
  | 0x00 => sr3 w .add | 0x01 => sr3 w .sub | 0x02 => sr3 w .mul | 0x03 => sr3 w .mulh | 0x04 => sr3 w .mulhn
  | 0x05 => sr3 w .div | 0x06 => sr3 w .divn | 0x07 => sr3 w .rem | 0x08 => sr3 w .remn
  | 0x09 => sr3 w .and | 0x0A => sr3 w .or | 0x0B => sr3 w .xor | 0x0C => sr3 w .andn
  | 0x0D => sr3 w .shl | 0x0E => sr3 w .shr | 0x0F => sr3 w .sra
  | 0x10 => sr2 w .clz | 0x11 => sr2 w .popc
  | 0x12 => sr3 w .min | 0x13 => sr3 w .max | 0x14 => sr3 w .minn | 0x15 => sr3 w .maxn
  | 0x16 => sr2 w .mov
  | _ => .illegal 1

/-- Majors 0x02 to 0x05: SEL, LEA, CMP, CSET, CGET (R126 to R128). -/
def decodeSel (w : Nat) : Decoded :=
  judge false (bitsOf w 7 4 != 0) false (.sel (kOf (dOf w)) (rOf (fnOf w)) (kOf (aOf w)) (kOf (bOf w)))
def decodeLea (w : Nat) : Decoded :=
  judge false (bitsOf w 7 3 != 0) false
    (.lea (kOf (dOf w)) (kOf (aOf w)) (kOf (bOf w)) (BitVec.ofNat 3 (fnOf w)))
def decodeCmp (w : Nat) : Decoded :=
  judge (condOf (bitsOf w 3 0)).isNone (bitsOf w 25 24 != 0 || bitsOf w 7 4 != 0) false
    (.cmp (rOf (dOf w)) ((condOf (bitsOf w 3 0)).getD .eq) (kOf (aOf w)) (kOf (bOf w)))
def decodeCbit (w : Nat) : Decoded :=
  match fnOf w with
  | 0 => judge false (bOf w != 0) (over15 (dOf w)) (.cset (rOf (dOf w)) (kOf (aOf w)))
  | 1 => judge false (bOf w != 0) (over15 (aOf w)) (.cget (kOf (dOf w)) (rOf (aOf w)))
  | _ => .illegal 1

/-- An immediate form of majors 0x08 to 0x0B (R124). -/
def decodeImm (w lit : Nat) (c : KReg → KReg → Lit 14 → Instr) : Decoded :=
  .instr (c (kOf (dOf w)) (kOf (aOf w)) (litOf 14 (bitsOf w 13 0) lit))

/-- A shift by an immediate (R124). -/
def decodeShift (w : Nat) (c : KReg → KReg → BitVec 6 → Instr) : Decoded :=
  judge false (bitsOf w 13 6 != 0) false (c (kOf (dOf w)) (kOf (aOf w)) (BitVec.ofNat 6 (bitsOf w 5 0)))

/-- MOVI and MOVH (R125). -/
def decodeMovImm (w lit : Nat) (c : KReg → Lit 14 → Instr) : Decoded :=
  judge false (aOf w != 0) false (c (kOf (dOf w)) (litOf 14 (bitsOf w 13 0) lit))

/-- CMPI, EXT, LDK (R126, R127, R129). -/
def decodeCmpi (w lit : Nat) : Decoded :=
  judge (condOf (bitsOf w 13 10)).isNone (bitsOf w 25 24 != 0) false
    (.cmpi (rOf (dOf w)) ((condOf (bitsOf w 13 10)).getD .eq) (kOf (aOf w)) (litOf 10 (bitsOf w 9 0) lit))
/-- The length that EXT names: 0 encodes 64 (R126). -/
def extLen (len : Nat) : Nat := if len = 0 then 64 else len
def decodeExt (w : Nat) : Decoded :=
  judge (decide (64 < bitsOf w 13 8 + extLen (bitsOf w 7 2))) (bitOf w 0) false
    (.ext (kOf (dOf w)) (kOf (aOf w)) (BitVec.ofNat 6 (bitsOf w 13 8)) (BitVec.ofNat 6 (bitsOf w 7 2)) (bitOf w 1))
def decodeLdk (w : Nat) : Decoded :=
  judge false (aOf w != 0) false (.ldk (kOf (dOf w)) (BitVec.ofNat 14 w))

/-- The order of a load, with its scope (R130). -/
def ldOrderOf (ord sc : Nat) : LdOrder :=
  match ord with
  | 1 => .acq ((scopeOf sc).getD .skein)
  | 2 => .fresh
  | _ => .plain
/-- The order of a store, with its scope (R130). -/
def stOrderOf (ord sc : Nat) : StOrder :=
  match ord with
  | 1 => .rel ((scopeOf sc).getD .skein)
  | _ => .plain

/-- A scalar load (R130). -/
def decodeLoad (w lit : Nat) (c : KReg → KReg → LdOrder → Lit 9 → Instr) : Decoded :=
  let ord := bitsOf w 13 12; let sc := bitsOf w 11 9
  judge (ord = 3 || sc = 7 || (ord = 1 && sc = 0)) (ord != 1 && sc != 0) false
    (c (kOf (dOf w)) (kOf (aOf w)) (ldOrderOf ord sc) (litOf 9 (bitsOf w 8 0) lit))
/-- A scalar store (R130). -/
def decodeStore (w lit : Nat) (c : KReg → KReg → StOrder → Lit 9 → Instr) : Decoded :=
  let ord := bitsOf w 13 12; let sc := bitsOf w 11 9
  judge (1 < ord || sc = 7 || (ord = 1 && sc = 0)) (ord != 1 && sc != 0) false
    (c (kOf (dOf w)) (kOf (aOf w)) (stOrderOf ord sc) (litOf 9 (bitsOf w 8 0) lit))

/-- ATM (R135, R136). -/
def decodeAtm (w : Nat) : Decoded :=
  judge ((atmOf (bitsOf w 7 4)).isNone || (scopeOf (bitsOf w 2 0)).isNone) false false
    (.atm (kOf (dOf w)) (kOf (aOf w)) (kOf (bOf w)) ((atmOf (bitsOf w 7 4)).getD .swap) (bitOf w 3)
      ((scopeOf (bitsOf w 2 0)).getD .skein))

/-- BR, JMP, CALL, LOOP, JR, RET, NOP, EXIT, REGION (R138 to R145). -/
def decodeBr (w lit : Nat) : Decoded :=
  .instr (.br (rOf (bitsOf w 25 22)) (bitOf w 21) (litOf 21 (bitsOf w 20 0) lit))
def decodeJump (w lit : Nat) (c : Lit 21 → Instr) : Decoded :=
  judge false (bitsOf w 25 21 != 0) false (c (litOf 21 (bitsOf w 20 0) lit))
def decodeLoop (w lit : Nat) : Decoded :=
  judge false (aOf w != 0) false (.loop (kOf (dOf w)) (litOf 14 (bitsOf w 13 0) lit))
def decodeJr (w : Nat) : Decoded :=
  match fnOf w with
  | 0 => judge false (dOf w != 0 || bOf w != 0) false (.jr (kOf (aOf w)))
  | 1 => judge false (bitsOf w 25 8 != 0) false .ret
  | _ => .illegal 1
def decodeNop (w : Nat) : Decoded :=
  match fnOf w with
  | 0 => judge false (bitsOf w 25 8 != 0) false .nop
  | 1 => judge false (bitsOf w 25 8 != 0) false .exit
  | _ => .illegal 1
def decodeRegion (w : Nat) : Decoded :=
  judge false (bitsOf w 25 14 != 0) false (.region (BitVec.ofNat 14 w))

/-- The fields common to the SL words (R95). -/
def enqueueOf (w lit : Nat) : Enqueue :=
  { msel := rOf (bitsOf w 25 22), qn := rOf (bitsOf w 21 18), qk := kOf (bitsOf w 17 12),
    len := BitVec.ofNat 6 (bitsOf w 11 6), blk := BitVec.ofNat 26 (bitsOf lit 31 6) }
/-- The reserved-field checks of an SL word (R150); tk and tm say whether the word uses TK and TM. -/
def slResv (w lit : Nat) (tk tm : Bool) : Bool :=
  (!tk && bitsOf w 5 0 != 0) || (!tm && bitsOf lit 5 2 != 0) || bitsOf lit 1 0 != 0
    || (bitsOf w 21 18 = 0 && bitsOf w 17 12 != 0)
/-- The range check of an SL word (R150). -/
def slRange (w : Nat) : Bool :=
  8 < bitsOf w 21 18 || 64 < bitsOf w 17 12 + bitsOf w 21 18
def decodeRun (w lit : Nat) : Decoded := judge false (slResv w lit false false) (slRange w) (.lrun (enqueueOf w lit))
def decodeLoopN (w lit : Nat) : Decoded :=
  judge false (slResv w lit true false) (slRange w) (.lloopN (enqueueOf w lit) (kOf (bitsOf w 5 0)))
def decodeLoopAny (w lit : Nat) : Decoded :=
  judge false (slResv w lit true true) (slRange w)
    (.lloopAny (enqueueOf w lit) (kOf (bitsOf w 5 0)) (rOf (bitsOf lit 5 2)))

/-- Major 0x2F (R153 to R165). -/
def decodeSkein (w : Nat) : Decoded :=
  match fnOf w with
  | 0 => judge false (bitsOf w 25 8 != 0) false .lsync
  | 1 => judge false (bitsOf w 19 18 != 0 || bOf w != 0) false (.vget (kOf (dOf w)) (rOf (aOf w)))
  | 2 => judge false (bitsOf w 19 18 != 0 || bOf w != 0) false (.votew (kOf (dOf w)) (rOf (aOf w)))
  | 3 => judge (3 < bOf w) (bitsOf w 19 18 != 0) false (.split (kOf (dOf w)) (rOf (aOf w)) (BitVec.ofNat 2 (bOf w)))
  | 4 => judge false (dOf w != 0 || bOf w != 0) false (.fuse (kOf (aOf w)))
  | 5 => judge false (aOf w != 0 || bOf w != 0) false (.width (kOf (dOf w)))
  | _ => .illegal 1

/-- Major 0x30 (R234). -/
def decodeTile (w : Nat) : Decoded :=
  let d := dOf w; let a := aOf w; let b := bOf w
  match fnOf w with
  | 0 => judge false false (over15 d || over15 b) (.talloc (rOf d) (kOf a) (rOf b))
  | 1 => judge false (d != 0 || b != 0) (over15 a) (.tfree (rOf a))
  | 2 => judge false false (over15 a) (.thand (kOf d) (rOf a) (kOf b))
  | 3 => judge false (b != 0) (over15 d) (.ttake (rOf d) (kOf a))
  | 4 => judge false (d != 0 || b != 0) (over15 a) (.tzero (rOf a))
  | 5 => judge false (b != 0) (over15 d || over15 a) (.tcopy (rOf d) (rOf a))
  | _ => .illegal 1

/-- The beam sets of FN[6:5] (R252). -/
def beamSetOf : Nat → BeamSet
  | 0 => .s0 | 1 => .s1 | _ => .s01
/-- The code of a beam set (R252). -/
def beamSetNum : BeamSet → Nat
  | .s0 => 0 | .s1 => 1 | .s01 => 2

/-- Major 0x31 (R252, R255, R264, R265). -/
def decodeLoom (w : Nat) : Decoded :=
  let d := dOf w; let a := aOf w; let b := bOf w; let set := bitOf w 5; let keep := bitOf w 6; let drop := bitOf w 7
  match bitsOf w 3 0 with
  | 0 =>
    if bitOf w 4 then
      judge (bitsOf w 6 5 = 3) drop (over15 d) (.mbeamMem (rOf d) (kOf a) (kOf b) (beamSetOf (bitsOf w 6 5)))
    else
      judge (bitsOf w 6 5 = 3) drop (over15 d || over15 a)
        (.mbeamTile (rOf d) (rOf a) (kOf b) (beamSetOf (bitsOf w 6 5)))
  | 1 =>
    if bitOf w 4 then
      judge false false (over15 d || 61 < a || over15 b) (.mloopMem (rOf d) (kOf a) (rOf b) set keep drop)
    else
      judge false false (over15 d || 14 < b) (.mloopTile (rOf d) (kOf a) (rOf b) set keep drop)
  | 2 => judge false (bitOf w 4 || d != 0) (14 < b) (.mstep (kOf a) (rOf b) set keep drop)
  | 3 => judge false (bitsOf w 7 4 != 0) (over15 d || over15 a) (.mcvt (rOf d) (rOf a) (kOf b))
  | 4 => judge false (bitsOf w 7 4 != 0 || b != 0) (3 < d) (.mperm (BitVec.ofNat 2 d) (kOf a))
  | 5 => judge false (bitsOf w 7 4 != 0 || b != 0) (7 < d) (.mcode (BitVec.ofNat 3 d) (kOf a))
  | _ => .illegal 1

/-- Major 0x34 (R276). -/
def decodeEngine (w : Nat) : Decoded :=
  let d := dOf w; let a := aOf w; let b := bOf w
  match bitsOf w 3 0 with
  | 0 => judge false (bitsOf w 7 4 != 0) (over15 d || 58 < a) (.cpy (rOf d) (kOf a) (kOf b))
  | 1 => judge false (bitsOf w 7 4 != 0) (over15 d || 58 < a) (.cpyg (rOf d) (kOf a) (kOf b))
  | 2 => judge false (bitsOf w 7 4 != 0) (over15 d || 58 < a) (.cpyz (rOf d) (kOf a) (kOf b))
  | 3 => judge false (bitsOf w 7 4 != 0) (over15 d || 58 < a) (.mupd (rOf d) (kOf a) (kOf b))
  | 4 => judge false false (over15 d || 62 < a) (.coll (rOf d) (kOf a) (BitVec.ofNat 6 b) (rOf (bitsOf w 7 4)))
  | _ => .illegal 1

/-- Major 0x35 (R271). -/
def decodeFuture (w : Nat) : Decoded :=
  let d := dOf w; let a := aOf w; let b := bOf w
  match fnOf w with
  | 0 => judge false (b != 0) (over15 a) (.fwait (kOf d) (rOf a))
  | 1 => judge false (b != 0) (over15 d || over15 a) (.ftest (rOf d) (rOf a))
  | 2 => judge false (d != 0 || b != 0) (over15 a) (.fcan (rOf a))
  | 3 => judge false (b != 0) (over15 a) (.fsto (kOf d) (rOf a))
  | 4 => judge false (b != 0) (over15 d) (.fldf (rOf d) (kOf a))
  | _ => .illegal 1

/-- Major 0x36 (R289). -/
def decodeBarrier (w : Nat) : Decoded :=
  match fnOf w with
  | 0x00 => judge false (bitsOf w 25 8 != 0) false .bar
  | 0x01 => judge false (bitsOf w 25 24 != 0 || bOf w != 0) false (.barn (rOf (dOf w)) (kOf (aOf w)))
  | 0x09 => judge false (bitsOf w 25 24 != 0 || bOf w != 0) false (.barnArrive (rOf (dOf w)) (kOf (aOf w)))
  | _ => .illegal 1

/-- The FENCE kinds 1 to 3 (R99). -/
def fenceOf : Nat → FenceKind
  | 1 => .acq | 2 => .rel | _ => .ar
/-- The code of a FENCE kind (R99). -/
def fenceNum : FenceKind → Nat
  | .acq => 1 | .rel => 2 | .ar => 3

/-- Major 0x37 (R99, R292). -/
def decodeFence (w : Nat) : Decoded :=
  judge (bitsOf w 7 6 = 0 || (scopeOf (bitsOf w 2 0)).isNone) (bitsOf w 25 8 != 0 || bitsOf w 5 3 != 0) false
    (.fence (fenceOf (bitsOf w 7 6)) ((scopeOf (bitsOf w 2 0)).getD .skein))

/-- Majors 0x38, 0x39 (R293, R296, R297). -/
def decodeLaunch (w : Nat) : Decoded :=
  match fnOf w with
  | 0 => judge false (bOf w != 0) (over15 (dOf w)) (.launch (rOf (dOf w)) (kOf (aOf w)))
  | 1 => judge false (bitsOf w 25 8 != 0) false .ljoin
  | _ => .illegal 1
def decodePower (w : Nat) : Decoded :=
  match fnOf w with
  | 0 => judge false (bOf w != 0) false (.pwrq (kOf (dOf w)) (kOf (aOf w)))
  | 1 => judge (dOf w != 5 && dOf w != 6) (bOf w != 0) false (.bcn (dOf w = 6) (kOf (aOf w)))
  | _ => .illegal 1

/-- Majors 0x3A, 0x3B (R298, R299); an unassigned register number is check 5 of R106. -/
def decodeSysReg (w : Nat) : Decoded :=
  match fnOf w with
  | 0 => if sysAssigned (bitsOf w 19 8) then .instr (.srd (kOf (dOf w)) (BitVec.ofNat 12 (bitsOf w 19 8))) else .illegal 5
  | 1 => if sysAssigned (bitsOf w 19 8) then .instr (.swr (kOf (dOf w)) (BitVec.ofNat 12 (bitsOf w 19 8))) else .illegal 5
  | _ => .illegal 1
/-- LGET and LSET: the kind in SYS[11:8], the register in SYS[7:0] (R299). -/
def lxRange (w : Nat) : Bool := 1 < bitsOf w 19 16 || (bitsOf w 19 16 = 1 && 15 < bitsOf w 15 8)
def decodeSys (w : Nat) : Decoded :=
  let d := dOf w; let sys := bitsOf w 19 8
  match fnOf w with
  | 0 => judge false (d != 0) false (.trap (BitVec.ofNat 12 sys))
  | 1 => judge false (d != 0 || bitsOf w 19 9 != 0) false (if bitOf w 8 then .eretSkip else .eret)
  | 2 => judge false false (lxRange w) (.lget (kOf d) (bitOf w 16) (BitVec.ofNat 8 (bitsOf w 15 8)))
  | 3 => judge false false (lxRange w) (.lset (kOf d) (bitOf w 16) (BitVec.ofNat 8 (bitsOf w 15 8)))
  | 4 => judge false (d != 0 || sys != 0) false .yield
  | 5 => judge false (d != 0) false (.brk (BitVec.ofNat 12 sys))
  | _ => .illegal 1

/-- The scalar major-opcode map (R99): w is the first word, lit the literal word where hasLiteral says there is one. -/
def decodeScalar (w lit : Nat) : Decoded :=
  match opOf w with
  | 0x01 => decodeInt w | 0x02 => decodeSel w | 0x03 => decodeLea w | 0x04 => decodeCmp w | 0x05 => decodeCbit w
  | 0x08 => decodeImm w lit .addi | 0x09 => decodeImm w lit .andi | 0x0A => decodeImm w lit .ori
  | 0x0B => decodeImm w lit .xori
  | 0x0C => decodeShift w .shli | 0x0D => decodeShift w .shri | 0x0E => decodeShift w .srai
  | 0x0F => decodeMovImm w lit .movi | 0x10 => decodeMovImm w lit .movh
  | 0x11 => decodeCmpi w lit | 0x12 => decodeExt w | 0x13 => decodeLdk w
  | 0x18 => decodeLoad w lit .ld8 | 0x19 => decodeLoad w lit .ld16 | 0x1A => decodeLoad w lit .ld32
  | 0x1B => decodeLoad w lit .ld64
  | 0x1C => decodeStore w lit .st8 | 0x1D => decodeStore w lit .st16 | 0x1E => decodeStore w lit .st32
  | 0x1F => decodeStore w lit .st64
  | 0x20 => decodeAtm w
  | 0x24 => decodeBr w lit | 0x25 => decodeJump w lit .jmp | 0x26 => decodeJump w lit .call | 0x27 => decodeLoop w lit
  | 0x28 => decodeJr w | 0x29 => decodeNop w | 0x2A => decodeRegion w
  | 0x2C => decodeRun w lit | 0x2D => decodeLoopN w lit | 0x2E => decodeLoopAny w lit
  | 0x2F => decodeSkein w | 0x30 => decodeTile w | 0x31 => decodeLoom w
  | 0x34 => decodeEngine w | 0x35 => decodeFuture w | 0x36 => decodeBarrier w | 0x37 => decodeFence w
  | 0x38 => decodeLaunch w | 0x39 => decodePower w | 0x3A => decodeSysReg w | 0x3B => decodeSys w
  | _ => .illegal 1

/-! ## Lane words (R100 to R105) -/

/-- The lane opcode map (R105). -/
def laneCodeOf : Nat → Option LaneCode
  | 0x1 => some .vadd
  | 0x2 => some .vsub
  | 0x3 => some .vmul
  | 0x4 => some .vmulh
  | 0x5 => some .vmad
  | 0x6 => some .vand
  | 0x7 => some .vor
  | 0x8 => some .vxor
  | 0x9 => some .vandn
  | 0xa => some .vshl
  | 0xb => some .vshr
  | 0xc => some .vsra
  | 0xd => some .vmin
  | 0xe => some .vmax
  | 0xf => some .vclz
  | 0x10 => some .vpopc
  | 0x11 => some .vbrev
  | 0x12 => some .vbfx
  | 0x13 => some .vbfi
  | 0x14 => some .vsel
  | 0x15 => some .vmov
  | 0x16 => some .vcmp
  | 0x17 => some .vlane
  | 0x20 => some .vfadd
  | 0x21 => some .vfsub
  | 0x22 => some .vfmul
  | 0x23 => some .vfma
  | 0x24 => some .vfmin
  | 0x25 => some .vfmax
  | 0x26 => some .vfcmp
  | 0x27 => some .vfrnd
  | 0x28 => some .vfrcp
  | 0x29 => some .vfrsq
  | 0x2a => some .vfsqrt
  | 0x2b => some .vfex2
  | 0x2c => some .vflg2
  | 0x2d => some .vfsin
  | 0x2e => some .vfcos
  | 0x2f => some .vftnh
  | 0x30 => some .vhadd
  | 0x31 => some .vhmul
  | 0x32 => some .vhfma
  | 0x33 => some .vhdot
  | 0x34 => some .vqdot
  | 0x35 => some .vcvt
  | 0x36 => some .vcbx
  | 0x37 => some .vcbq
  | 0x40 => some .mand
  | 0x41 => some .mor
  | 0x42 => some .mxor
  | 0x43 => some .mnot
  | 0x44 => some .mmov
  | 0x45 => some .mpush
  | 0x46 => some .melse
  | 0x47 => some .mpop
  | 0x48 => some .mbreak
  | 0x49 => some .vote
  | 0x4a => some .vsend
  | 0x50 => some .vshf
  | 0x51 => some .vprm
  | 0x52 => some .vptld
  | 0x53 => some .vred
  | 0x54 => some .vscn
  | 0x55 => some .vmatch
  | 0x60 => some .vld
  | 0x61 => some .vst
  | 0x62 => some .vlds
  | 0x63 => some .vsts
  | 0x64 => some .vldm
  | 0x65 => some .vstm
  | 0x66 => some .vatm
  | 0x67 => some .vatms
  | 0x68 => some .vatmm
  | 0x69 => some .vpre
  | 0x6a => some .waitc
  | 0x6b => some .vdec
  | 0x6c => some .vrng
  | 0x6e => some .vtld
  | 0x6f => some .vtst
  | _ => none

/-- A code's opcode (R105). -/
def laneNum : LaneCode → Nat
  | .vadd => 0x1
  | .vsub => 0x2
  | .vmul => 0x3
  | .vmulh => 0x4
  | .vmad => 0x5
  | .vand => 0x6
  | .vor => 0x7
  | .vxor => 0x8
  | .vandn => 0x9
  | .vshl => 0xa
  | .vshr => 0xb
  | .vsra => 0xc
  | .vmin => 0xd
  | .vmax => 0xe
  | .vclz => 0xf
  | .vpopc => 0x10
  | .vbrev => 0x11
  | .vbfx => 0x12
  | .vbfi => 0x13
  | .vsel => 0x14
  | .vmov => 0x15
  | .vcmp => 0x16
  | .vlane => 0x17
  | .vfadd => 0x20
  | .vfsub => 0x21
  | .vfmul => 0x22
  | .vfma => 0x23
  | .vfmin => 0x24
  | .vfmax => 0x25
  | .vfcmp => 0x26
  | .vfrnd => 0x27
  | .vfrcp => 0x28
  | .vfrsq => 0x29
  | .vfsqrt => 0x2a
  | .vfex2 => 0x2b
  | .vflg2 => 0x2c
  | .vfsin => 0x2d
  | .vfcos => 0x2e
  | .vftnh => 0x2f
  | .vhadd => 0x30
  | .vhmul => 0x31
  | .vhfma => 0x32
  | .vhdot => 0x33
  | .vqdot => 0x34
  | .vcvt => 0x35
  | .vcbx => 0x36
  | .vcbq => 0x37
  | .mand => 0x40
  | .mor => 0x41
  | .mxor => 0x42
  | .mnot => 0x43
  | .mmov => 0x44
  | .mpush => 0x45
  | .melse => 0x46
  | .mpop => 0x47
  | .mbreak => 0x48
  | .vote => 0x49
  | .vsend => 0x4a
  | .vshf => 0x50
  | .vprm => 0x51
  | .vptld => 0x52
  | .vred => 0x53
  | .vscn => 0x54
  | .vmatch => 0x55
  | .vld => 0x60
  | .vst => 0x61
  | .vlds => 0x62
  | .vsts => 0x63
  | .vldm => 0x64
  | .vstm => 0x65
  | .vatm => 0x66
  | .vatms => 0x67
  | .vatmm => 0x68
  | .vpre => 0x69
  | .waitc => 0x6a
  | .vdec => 0x6b
  | .vrng => 0x6c
  | .vtld => 0x6e
  | .vtst => 0x6f

/-- The single-op word of a code. -/
def laneInstr : LaneCode → LaneOp → Instr
  | .vadd, o => .vadd o
  | .vsub, o => .vsub o
  | .vmul, o => .vmul o
  | .vmulh, o => .vmulh o
  | .vmad, o => .vmad o
  | .vand, o => .vand o
  | .vor, o => .vor o
  | .vxor, o => .vxor o
  | .vandn, o => .vandn o
  | .vshl, o => .vshl o
  | .vshr, o => .vshr o
  | .vsra, o => .vsra o
  | .vmin, o => .vmin o
  | .vmax, o => .vmax o
  | .vclz, o => .vclz o
  | .vpopc, o => .vpopc o
  | .vbrev, o => .vbrev o
  | .vbfx, o => .vbfx o
  | .vbfi, o => .vbfi o
  | .vsel, o => .vsel o
  | .vmov, o => .vmov o
  | .vcmp, o => .vcmp o
  | .vlane, o => .vlane o
  | .vfadd, o => .vfadd o
  | .vfsub, o => .vfsub o
  | .vfmul, o => .vfmul o
  | .vfma, o => .vfma o
  | .vfmin, o => .vfmin o
  | .vfmax, o => .vfmax o
  | .vfcmp, o => .vfcmp o
  | .vfrnd, o => .vfrnd o
  | .vfrcp, o => .vfrcp o
  | .vfrsq, o => .vfrsq o
  | .vfsqrt, o => .vfsqrt o
  | .vfex2, o => .vfex2 o
  | .vflg2, o => .vflg2 o
  | .vfsin, o => .vfsin o
  | .vfcos, o => .vfcos o
  | .vftnh, o => .vftnh o
  | .vhadd, o => .vhadd o
  | .vhmul, o => .vhmul o
  | .vhfma, o => .vhfma o
  | .vhdot, o => .vhdot o
  | .vqdot, o => .vqdot o
  | .vcvt, o => .vcvt o
  | .vcbx, o => .vcbx o
  | .vcbq, o => .vcbq o
  | .mand, o => .mand o
  | .mor, o => .mor o
  | .mxor, o => .mxor o
  | .mnot, o => .mnot o
  | .mmov, o => .mmov o
  | .mpush, o => .mpush o
  | .melse, o => .melse o
  | .mpop, o => .mpop o
  | .mbreak, o => .mbreak o
  | .vote, o => .vote o
  | .vsend, o => .vsend o
  | .vshf, o => .vshf o
  | .vprm, o => .vprm o
  | .vptld, o => .vptld o
  | .vred, o => .vred o
  | .vscn, o => .vscn o
  | .vmatch, o => .vmatch o
  | .vld, o => .vld o
  | .vst, o => .vst o
  | .vlds, o => .vlds o
  | .vsts, o => .vsts o
  | .vldm, o => .vldm o
  | .vstm, o => .vstm o
  | .vatm, o => .vatm o
  | .vatms, o => .vatms o
  | .vatmm, o => .vatmm o
  | .vpre, o => .vpre o
  | .waitc, o => .waitc o
  | .vdec, o => .vdec o
  | .vrng, o => .vrng o
  | .vtld, o => .vtld o
  | .vtst, o => .vtst o

/-- The code and fields of a single-op lane word. -/
def laneParts : Instr → Option (LaneCode × LaneOp)
  | .vadd o => some (.vadd, o)
  | .vsub o => some (.vsub, o)
  | .vmul o => some (.vmul, o)
  | .vmulh o => some (.vmulh, o)
  | .vmad o => some (.vmad, o)
  | .vand o => some (.vand, o)
  | .vor o => some (.vor, o)
  | .vxor o => some (.vxor, o)
  | .vandn o => some (.vandn, o)
  | .vshl o => some (.vshl, o)
  | .vshr o => some (.vshr, o)
  | .vsra o => some (.vsra, o)
  | .vmin o => some (.vmin, o)
  | .vmax o => some (.vmax, o)
  | .vclz o => some (.vclz, o)
  | .vpopc o => some (.vpopc, o)
  | .vbrev o => some (.vbrev, o)
  | .vbfx o => some (.vbfx, o)
  | .vbfi o => some (.vbfi, o)
  | .vsel o => some (.vsel, o)
  | .vmov o => some (.vmov, o)
  | .vcmp o => some (.vcmp, o)
  | .vlane o => some (.vlane, o)
  | .vfadd o => some (.vfadd, o)
  | .vfsub o => some (.vfsub, o)
  | .vfmul o => some (.vfmul, o)
  | .vfma o => some (.vfma, o)
  | .vfmin o => some (.vfmin, o)
  | .vfmax o => some (.vfmax, o)
  | .vfcmp o => some (.vfcmp, o)
  | .vfrnd o => some (.vfrnd, o)
  | .vfrcp o => some (.vfrcp, o)
  | .vfrsq o => some (.vfrsq, o)
  | .vfsqrt o => some (.vfsqrt, o)
  | .vfex2 o => some (.vfex2, o)
  | .vflg2 o => some (.vflg2, o)
  | .vfsin o => some (.vfsin, o)
  | .vfcos o => some (.vfcos, o)
  | .vftnh o => some (.vftnh, o)
  | .vhadd o => some (.vhadd, o)
  | .vhmul o => some (.vhmul, o)
  | .vhfma o => some (.vhfma, o)
  | .vhdot o => some (.vhdot, o)
  | .vqdot o => some (.vqdot, o)
  | .vcvt o => some (.vcvt, o)
  | .vcbx o => some (.vcbx, o)
  | .vcbq o => some (.vcbq, o)
  | .mand o => some (.mand, o)
  | .mor o => some (.mor, o)
  | .mxor o => some (.mxor, o)
  | .mnot o => some (.mnot, o)
  | .mmov o => some (.mmov, o)
  | .mpush o => some (.mpush, o)
  | .melse o => some (.melse, o)
  | .mpop o => some (.mpop, o)
  | .mbreak o => some (.mbreak, o)
  | .vote o => some (.vote, o)
  | .vsend o => some (.vsend, o)
  | .vshf o => some (.vshf, o)
  | .vprm o => some (.vprm, o)
  | .vptld o => some (.vptld, o)
  | .vred o => some (.vred, o)
  | .vscn o => some (.vscn, o)
  | .vmatch o => some (.vmatch, o)
  | .vld o => some (.vld, o)
  | .vst o => some (.vst, o)
  | .vlds o => some (.vlds, o)
  | .vsts o => some (.vsts, o)
  | .vldm o => some (.vldm, o)
  | .vstm o => some (.vstm, o)
  | .vatm o => some (.vatm, o)
  | .vatms o => some (.vatms, o)
  | .vatmm o => some (.vatmm, o)
  | .vpre o => some (.vpre, o)
  | .waitc o => some (.waitc, o)
  | .vdec o => some (.vdec, o)
  | .vrng o => some (.vrng, o)
  | .vtld o => some (.vtld, o)
  | .vtst o => some (.vtst, o)
  | _ => none

/-- The pairable opcodes (R104). -/
def pairCodeOf : Nat → Option PairCode
  | 0x1 => some .vadd
  | 0x2 => some .vsub
  | 0x3 => some .vmul
  | 0x4 => some .vmulh
  | 0x5 => some .vmad
  | 0x6 => some .vand
  | 0x7 => some .vor
  | 0x8 => some .vxor
  | 0x9 => some .vandn
  | 0xa => some .vshl
  | 0xb => some .vshr
  | 0xc => some .vsra
  | 0xd => some .vmin
  | 0xe => some .vmax
  | 0xf => some .vclz
  | 0x10 => some .vpopc
  | 0x11 => some .vbrev
  | 0x15 => some .vmov
  | 0x20 => some .vfadd
  | 0x21 => some .vfsub
  | 0x22 => some .vfmul
  | 0x23 => some .vfma
  | 0x24 => some .vfmin
  | 0x25 => some .vfmax
  | 0x30 => some .vhadd
  | 0x31 => some .vhmul
  | 0x32 => some .vhfma
  | _ => none

/-- The lane opcode of a pairable code. -/
def pairLane : PairCode → LaneCode
  | .vadd => .vadd
  | .vsub => .vsub
  | .vmul => .vmul
  | .vmulh => .vmulh
  | .vmad => .vmad
  | .vand => .vand
  | .vor => .vor
  | .vxor => .vxor
  | .vandn => .vandn
  | .vshl => .vshl
  | .vshr => .vshr
  | .vsra => .vsra
  | .vmin => .vmin
  | .vmax => .vmax
  | .vclz => .vclz
  | .vpopc => .vpopc
  | .vbrev => .vbrev
  | .vmov => .vmov
  | .vfadd => .vfadd
  | .vfsub => .vfsub
  | .vfmul => .vfmul
  | .vfma => .vfma
  | .vfmin => .vfmin
  | .vfmax => .vfmax
  | .vhadd => .vhadd
  | .vhmul => .vhmul
  | .vhfma => .vhfma

/-- What a register field of a lane word names: nothing, v-registers from this one on (the count), a v-register or a
q-slot, an m-register, an m-register or a q-slot, a q-slot. -/
inductive Use
  | none
  | v (n : Nat)
  | vq
  | m
  | mq
  | q
  deriving DecidableEq, Repr

/-- What a single-op word uses (R102): its register fields; the NEG and ABS bits it may set (S1 is bit 2); REACH,
FILL, SAT, RND; the bits of IMM that have a meaning. -/
structure LaneShape where
  dst : Use
  s1 : Use
  s2 : Use
  s3 : Use
  na : Nat
  reach : Bool
  fill : Bool
  sat : Bool
  rnd : Bool
  imm : Nat
  deriving DecidableEq, Repr

/-- A word with these register fields and nothing else. -/
def plainShape (dst s1 s2 s3 : Use) : LaneShape :=
  { dst, s1, s2, s3, na := 0, reach := false, fill := false, sat := false, rnd := false, imm := 0 }

/-- Bits [hi:lo] of the immediate. -/
def immBits (o : LaneOp) (hi lo : Nat) : Nat := bitsOf o.imm.toNat hi lo

/-- CNT as the number of registers moved per lane, from a 2-bit field (R206). -/
def cntOf : Nat → Nat
  | 0 => 1 | 1 => 2 | _ => 4

/-- Whether a word is one of the atomics (R203). -/
def isAtomic : LaneCode → Bool
  | .vatm | .vatms | .vatmm => true
  | _ => false

/-- The base and offset fields of a memory word by its AMODE (R204). -/
def memShape (c : LaneCode) (o : LaneOp) (dst s3 : Use) (mask : Nat) : LaneShape :=
  let am := immBits o 23 22; let aop := immBits o 18 15
  let fl := isAtomic c && 8 ≤ aop && aop ≤ 10
  { plainShape dst (if am = 2 then .v 2 else .q) (if am = 0 then .v 1 else .none) s3 with
    sat := fl, rnd := fl, imm := mask + (if am = 0 then 0x300000 else 0) }

/-- What each single-op word uses (07, 06, 08, 09). -/
def laneShape (c : LaneCode) (o : LaneOp) : LaneShape :=
  let n := cntOf (immBits o 15 14)
  match c with
  | .vadd | .vsub | .vmul => { plainShape (.v 1) .vq .vq .none with sat := true }
  | .vmulh | .vand | .vor | .vxor | .vandn | .vshl | .vshr | .vsra | .vmin | .vmax => plainShape (.v 1) .vq .vq .none
  | .vmad => { plainShape (.v 1) .vq .vq .vq with sat := true }
  | .vclz | .vpopc | .vbrev | .vmov => plainShape (.v 1) .vq .none .none
  | .vbfx => { plainShape (.v 1) .vq .none .none with imm := 0x7FF }
  | .vbfi => { plainShape (.v 1) .vq .vq .none with imm := 0x7FF }
  | .vsel => plainShape (.v 1) .vq .vq .m
  | .vcmp => { plainShape .m .vq .vq .none with imm := 0xF }
  | .vlane => { plainShape (.v 1) .none .none .none with imm := 0x3, reach := immBits o 1 0 != 0 }
  | .vfadd | .vfsub | .vfmul => { plainShape (.v 1) .vq .vq .none with na := 6, sat := true, rnd := true }
  | .vfma => { plainShape (.v 1) .vq .vq .vq with na := 7, sat := true, rnd := true }
  | .vfmin | .vfmax => { plainShape (.v 1) .vq .vq .none with na := 6 }
  | .vfcmp => { plainShape .m .vq .vq .none with na := 6, imm := 0xF }
  | .vfrnd | .vfrcp | .vfrsq | .vfsqrt | .vfex2 | .vflg2 | .vfsin | .vfcos | .vftnh =>
    { plainShape (.v 1) .vq .none .none with na := 4, rnd := true }
  | .vhadd | .vhmul => { plainShape (.v 1) .vq .vq .none with na := 6, sat := true, rnd := true }
  | .vhfma => { plainShape (.v 1) .vq .vq .vq with na := 7, sat := true, rnd := true }
  | .vhdot => { plainShape (.v 1) .vq .vq .vq with na := 7 }
  | .vqdot => { plainShape (.v 1) .vq .vq .vq with na := 7, imm := 1 }
  | .vcvt =>
    let fl := immBits o 3 0 ≤ 4
    { plainShape (.v 1) .vq (if immBits o 10 10 = 1 then .vq else .none) .none with
      na := if fl then 4 else 0, rnd := true, imm := 0x7FF }
  | .vcbx => { plainShape (.v 1) .vq (if immBits o 7 7 = 1 then .vq else .none) .none with
      imm := if o.ty = .f32 then 0x3F else 0xFF }
  | .vcbq =>
    let p := immBits o 7 7 = 1
    { plainShape (.v 1) .vq (if immBits o 6 6 = 1 then .vq else .none) (if p then .vq else .none) with
      na := 4, rnd := true, imm := if p then 0x3FFF else 0xFF }
  | .mand | .mor | .mxor => plainShape .m .m .m .none
  | .mnot => plainShape .m .m .none .none
  | .mmov => plainShape .m .mq .none .none
  | .mpush | .vote => plainShape .none .m .none .none
  | .melse | .mpop | .mbreak => plainShape .none .none .none .none
  | .vsend => plainShape .none (.v 1) .none .none
  | .vshf =>
    let idx := immBits o 1 0 = 0
    { plainShape (.v 1) .vq (if idx then .vq else .none) .none with
      reach := true, fill := true, imm := if idx then 0x3 else 0x3F03 }
  | .vprm => { plainShape (.v 1) .vq .none .none with reach := true, fill := true, imm := 0x3 }
  | .vptld => { plainShape .none .vq .none .none with imm := 0x3 }
  | .vred | .vscn =>
    let op := immBits o 3 0
    { plainShape (.v 1) .vq .none .none with
      na := if 6 ≤ op then 4 else 0, reach := true, rnd := op = 6, imm := if c = .vscn then 0x1F else 0xF }
  | .vmatch => { plainShape (.v 1) .vq .none .none with reach := true, imm := 0x7FFF }
  | .vld => memShape c o (.v n) .none 0xC8FFFF
  | .vlds | .vldm => memShape c o (.v n) .none 0xC0FFFF
  | .vst | .vsts | .vstm => memShape c o .none (if n = 1 then .vq else .v n) 0xC0FFFF
  | .vatm | .vatms | .vatmm =>
    memShape c o (if immBits o 19 19 = 1 then .v 1 else .none) (if immBits o 18 15 = 7 then .v 2 else .v 1) 0xCFBFFF
  | .vpre => memShape c o .none .none 0xC83FFF
  | .waitc => { plainShape .none .none .none .none with imm := 0xFFFFFF }
  | .vdec => { plainShape (.v 2) .q (.v 1) .q with imm := if immBits o 19 18 = 0 then 0xFF000 else 0xFE000 }
  | .vrng =>
    match immBits o 1 0 with
    | 0 => { plainShape (.v 1) .none .none .none with imm := 3 }
    | 1 => { plainShape .none .vq .vq .none with imm := 3 }
    | _ => { plainShape (.v 2) .none .none .none with imm := 3 }
  | .vtld => { plainShape (.v (cntOf (immBits o 17 16))) .q (.v 1) .none with imm := 0x3FFFF }
  | .vtst => { plainShape .none .q (.v 1) (.v (cntOf (immBits o 17 16))) with imm := 0x3FFFF }

/-- A bit field of VBFX, VBFI or VMATCH that does not fit a register (R179, R200). -/
def badField (pos len : Nat) : Bool := len = 0 || 32 < len || 32 < pos + len

/-- The AOP codes undefined for a word (R215). -/
def badAop (c : LaneCode) (aop : Nat) : Bool := 13 < aop || (c != .vatmm && 10 < aop)

/-- Check 1 of R106 on a single-op word. -/
def laneUndef (c : LaneCode) (o : LaneOp) : Bool :=
  decide (5 < o.reach.toNat) ||
  match c with
  | .vbfx | .vbfi => badField (immBits o 4 0) (immBits o 10 5)
  | .vcmp => 9 < immBits o 3 0
  | .vlane => immBits o 1 0 = 3
  | .vfcmp => 7 < immBits o 3 0
  | .vcvt => 11 < immBits o 3 0 || 32 / fmtBits ((fmtOf (immBits o 3 0)).getD .f32) ≤ immBits o 6 4
      || 32 / fmtBits o.ty ≤ immBits o 9 7
  | .vcbq => 12 < immBits o 13 10
  | .vred | .vscn => 8 < immBits o 3 0
  | .vmatch => badField (immBits o 8 4) (immBits o 14 9)
  | .vld | .vst | .vlds | .vsts | .vldm | .vstm => immBits o 23 22 = 3 || immBits o 15 14 = 3
  | .vatm | .vatms | .vatmm => immBits o 23 22 = 3 || badAop c (immBits o 18 15)
  | .vpre => immBits o 23 22 = 3
  | .vdec => immBits o 19 18 = 3 || (immBits o 19 18 != 0 && 16 < immBits o 17 13)
  | .vrng => immBits o 1 0 = 3
  | .vtld | .vtst => immBits o 17 16 = 3
  | _ => false

/-- A register field or its SQ bit is against the word's use of it (check 2 of R106, R102, R173). -/
def useResv (u : Use) (field : Nat) (sq : Bool) : Bool :=
  match u with
  | .none => field != 0 || sq
  | .v _ | .m => sq
  | .vq | .mq => false
  | .q => !sq

/-- The TYPEs that the words of chapter 8 do not turn away (R205). -/
def tyMem (f : Fmt) : Bool := f != .s4 && f != .n4 && f != .cb4

/-- Words of which TYPE is reserved (R154, R158, R195, R220). In WAITC the TYPEs that R205 turns away fall under check 4, as in every word of
its chapter; in VRNG every TYPE that a kind does not take does (R224; log 79). -/
def typeResv (c : LaneCode) (o : LaneOp) : Bool :=
  match c with
  | .mand | .mor | .mxor | .mnot | .mmov | .mpush | .melse | .mpop | .mbreak | .vote | .vsend => true
  | .waitc => tyMem o.ty
  | _ => false

/-- Check 2 of R106 on a single-op word. -/
def laneResv (c : LaneCode) (o : LaneOp) : Bool :=
  let h := laneShape c o
  (typeResv c o && o.ty != .f32) || useResv h.dst o.dst.toNat false
    || useResv h.s1 o.s1.toNat (bitOf o.sq.toNat 2) || useResv h.s2 o.s2.toNat (bitOf o.sq.toNat 1)
    || useResv h.s3 o.s3.toNat (bitOf o.sq.toNat 0)
    || Nat.lor o.neg.toNat h.na != h.na || Nat.lor o.abs.toNat h.na != h.na
    || (!h.reach && o.reach != 0) || (!h.fill && o.fill) || (!h.sat && o.sat) || (!h.rnd && o.rnd != .rne)
    || Nat.lor o.imm.toNat h.imm != h.imm

/-- A register field is out of range (check 3 of R106): nv is the declared count of v-registers (R22). -/
def useRange (nv : Nat) (u : Use) (field : Nat) (sq : Bool) : Bool :=
  match u with
  | .none => false
  | .v n => nv < field + n
  | .vq => if sq then 7 < field else nv ≤ field
  | .m => 15 < field
  | .mq => if sq then 7 < field else 15 < field
  | .q => 7 < field

/-- The alignment of register numbers that a word asks for (R204, R206, R215, R224). -/
def regOdd (c : LaneCode) (o : LaneOp) : Bool :=
  let am := immBits o 23 22; let n := cntOf (immBits o 15 14); let nt := cntOf (immBits o 17 16)
  match c with
  | .vld | .vlds | .vldm => (am = 2 && o.s1.toNat % 2 = 1) || o.dst.toNat % n != 0
  | .vst | .vsts | .vstm => (am = 2 && o.s1.toNat % 2 = 1) || o.s3.toNat % n != 0
  | .vatm | .vatms | .vatmm => (am = 2 && o.s1.toNat % 2 = 1) || (immBits o 18 15 = 7 && o.s3.toNat % 2 = 1)
  | .vpre => am = 2 && o.s1.toNat % 2 = 1
  | .vrng => immBits o 1 0 = 2 && o.dst.toNat % 2 = 1
  | .vtld => o.dst.toNat % nt != 0
  | .vtst => o.s3.toNat % nt != 0
  | _ => false

/-- Check 3 of R106 on a single-op word. -/
def laneRange (nv : Nat) (c : LaneCode) (o : LaneOp) : Bool :=
  let h := laneShape c o
  useRange nv h.dst o.dst.toNat false || useRange nv h.s1 o.s1.toNat (bitOf o.sq.toNat 2)
    || useRange nv h.s2 o.s2.toNat (bitOf o.sq.toNat 1) || useRange nv h.s3 o.s3.toNat (bitOf o.sq.toNat 0)
    || regOdd c o

/-- Sets of formats that words accept. -/
def tyInt (f : Fmt) : Bool := f = .s32 || f = .n32
def tyIntP (f : Fmt) : Bool := f = .s32 || f = .n32 || f = .s8 || f = .n8
def tyNeutral (f : Fmt) : Bool := f = .f32 || f = .s32 || f = .n32
def tyFloat (f : Fmt) : Bool := f = .f32 || f = .bf16 || f = .f16
def tyHalf (f : Fmt) : Bool := f = .bf16 || f = .f16

/-- The element size of a memory TYPE in bytes (R205). -/
def elemBytes (f : Fmt) : Nat := fmtBits f / 8

/-- The TYPE that each atomic operation accepts (R215). -/
def aopType (aop : Nat) (f : Fmt) : Bool :=
  if aop < 8 then tyInt f
  else if aop = 8 || aop = 11 || aop = 12 then f = .f32
  else if aop = 9 then f = .bf16 else if aop = 10 then f = .f16 else f = .n32

/-- Check 4 of R106: the word accepts this TYPE. -/
def laneType (c : LaneCode) (o : LaneOp) : Bool :=
  match c with
  | .vadd | .vsub | .vmin | .vmax => tyIntP o.ty
  | .vmul | .vmulh | .vmad | .vbfx => tyInt o.ty
  | .vand | .vor | .vxor | .vandn | .vshl | .vshr | .vsra | .vclz | .vpopc | .vbrev | .vbfi | .vsel | .vmov | .vcmp
  | .vlane | .vshf | .vprm | .vptld | .vmatch | .vdec => tyNeutral o.ty
  | .vfadd | .vfsub | .vfmul | .vfma | .vfmin | .vfmax | .vfcmp | .vfrnd
  | .vfrcp | .vfrsq | .vfsqrt | .vfex2 | .vflg2 | .vfsin | .vfcos | .vftnh => tyFloat o.ty
  | .vhadd | .vhmul | .vhfma | .vhdot => tyHalf o.ty
  | .vqdot => o.ty = .e4m3 || o.ty = .e5m2
  | .vcvt => o.ty != .cb4 && immBits o 3 0 != 11
  | .vcbx => o.ty = .f32 || o.ty = .bf16
  | .vcbq | .vpre => o.ty = .f32
  | .mand | .mor | .mxor | .mnot | .mmov | .mpush | .melse | .mpop | .mbreak | .vote | .vsend => true
  | .waitc => tyMem o.ty
  | .vred | .vscn => if immBits o 3 0 < 6 then tyInt o.ty else o.ty = .f32
  | .vld | .vst | .vlds | .vsts | .vldm | .vstm =>
    tyMem o.ty && (immBits o 15 14 = 0 || elemBytes o.ty = 4)
  | .vatm | .vatms | .vatmm => aopType (immBits o 18 15) o.ty
  | .vrng => if immBits o 1 0 = 0 then o.ty = .n32 || o.ty = .f32 else o.ty = .f32
  | .vtld | .vtst => tyMem o.ty && (immBits o 17 16 = 0 || elemBytes o.ty = 4)

/-- The DETAIL of the first decode check that a single-op word fails, if it fails one (R106). -/
def laneFault (nv : Nat) (c : LaneCode) (o : LaneOp) : Option Nat :=
  if laneUndef c o then some 1 else if laneResv c o then some 2 else if laneRange nv c o then some 3
  else if laneType c o then none else some 4

/-- The fields of a single-op word (R101); TYPE 12 to 15 is taken up by the decoder. -/
def laneFields (w : Nat) : LaneOp :=
  { ty := (fmtOf (bitsOf w 87 84)).getD .f32, dst := BitVec.ofNat 8 (bitsOf w 83 76), s1 := BitVec.ofNat 8 (bitsOf w 75 68),
    s2 := BitVec.ofNat 8 (bitsOf w 67 60), s3 := BitVec.ofNat 8 (bitsOf w 59 52), sq := BitVec.ofNat 3 (bitsOf w 51 49),
    neg := BitVec.ofNat 3 (bitsOf w 48 46), abs := BitVec.ofNat 3 (bitsOf w 45 43), msel := rOf (bitsOf w 42 39),
    reach := BitVec.ofNat 3 (bitsOf w 38 36), fill := bitOf w 35, sat := bitOf w 34, rnd := rndOf (bitsOf w 33 32),
    imm := BitVec.ofNat 24 (bitsOf w 23 0) }

/-- A single-op lane word (R101, R106). -/
def decodeSingle (nv w : Nat) : Decoded :=
  match laneCodeOf (bitsOf w 94 88), fmtOf (bitsOf w 87 84) with
  | some c, some _ =>
    let o := laneFields w
    if laneUndef c o then .illegal 1 else if bitsOf w 31 24 != 0 then .illegal 2
    else match laneFault nv c o with
      | some d => .illegal d
      | none => .instr (laneInstr c o)
  | _, _ => .illegal 1

/-! ## Paired words (R103, R104) -/

/-- The register sources that a pairable code reads: S1, S2, S3 (R177, R183, R189). -/
def pairSources : PairCode → Nat
  | .vclz | .vpopc | .vbrev | .vmov => 1
  | .vmad | .vfma | .vhfma => 3
  | _ => 2

/-- A pairable code of floating-point type (R183, R189). -/
def pairFloat : PairCode → Bool
  | .vfadd | .vfsub | .vfmul | .vfma | .vfmin | .vfmax | .vhadd | .vhmul | .vhfma => true
  | _ => false

/-- The single-op fields that a half-op stands for (R201). -/
def halfLane (h : HalfOp) : LaneOp :=
  { ty := h.ty, dst := h.dst, s1 := h.s1, s2 := h.s2, s3 := h.s3, sq := 0,
    neg := BitVec.ofNat 3 (2 * h.neg.toNat), abs := 0, msel := 0, reach := 0, fill := false, sat := h.sat, rnd := .rne,
    imm := 0 }

/-- The DETAIL of the first of checks 1 to 4 that a half-op of the pairable class fails, or 0. -/
def halfFault (nv : Nat) (h : HalfOp) : Nat := (laneFault nv (pairLane h.op) (halfLane h)).getD 0

/-- The v-registers that a half-op reads. -/
def halfReads (h : HalfOp) : List Nat :=
  match pairSources h.op with
  | 1 => [h.s1.toNat]
  | 2 => [h.s1.toNat, h.s2.toNat]
  | _ => [h.s1.toNat, h.s2.toNat, h.s3.toNat]

/-- The source set of a paired word: the distinct registers that its half-ops read (R104). -/
def sourceSet (h0 h1 : HalfOp) : List Nat := (halfReads h0 ++ halfReads h1).eraseDups

/-- Two registers of a list share a bank (R104, condition 2). -/
def bankClash : List Nat → Bool
  | [] => false
  | r :: rs => rs.any (fun x => x % 4 = r % 4) || bankClash rs

/-- The number of the first of conditions 2 to 4 of R104 that a pair breaks, or 0. -/
def pairFault (h0 h1 : HalfOp) : Nat :=
  if bankClash (sourceSet h0 h1) then 2
  else if 3 < (sourceSet h0 h1).length then 3
  else if h0.dst = h1.dst then 4 else 0

/-- The fields of a half-op, whose bits are h (R103). -/
def halfFields (h : Nat) (c : PairCode) (t : Fmt) : HalfOp :=
  { op := c, ty := t, dst := BitVec.ofNat 8 (bitsOf h 35 28), s1 := BitVec.ofNat 8 (bitsOf h 27 20),
    s2 := BitVec.ofNat 8 (bitsOf h 19 12), s3 := BitVec.ofNat 8 (bitsOf h 11 4), neg := BitVec.ofNat 2 (bitsOf h 3 2),
    sat := bitOf h 1 }

/-- A half-op as read: a defined pairable op, or none of that, with the number of the check from 1 to 4 that it fails
(0 if none; R106). -/
def halfOf (nv h : Nat) : Option HalfOp × Nat :=
  match laneCodeOf (bitsOf h 46 40), fmtOf (bitsOf h 39 36) with
  | some _, some t =>
    match pairCodeOf (bitsOf h 46 40) with
    | some c =>
      let f := halfFields h c t
      (some f, if halfFault nv f = 1 then 1 else if bitOf h 0 then 2 else halfFault nv f)
    | none => (none, if bitOf h 0 then 2 else 0)
  | _, _ => (none, 1)

/-- The earlier of two failing checks, where 0 is none. -/
def firstCheck (a b : Nat) : Nat := if a = 0 then b else if b = 0 then a else min a b

/-- A paired lane word (R103, R104, R106). -/
def decodePair (nv w : Nat) : Decoded :=
  let a := halfOf nv (bitsOf w 94 48)
  let b := halfOf nv (bitsOf w 47 1)
  let early := firstCheck (firstCheck a.2 b.2) (if bitOf w 0 then 2 else 0)
  if early != 0 then .illegal early
  else match a.1, b.1 with
    | some h0, some h1 => if pairFault h0 h1 = 0 then .instr (.pairedLaneWord h0 h1) else .illegalPair (pairFault h0 h1)
    | _, _ => .illegalPair 1

/-- A lane word of 96 bits, for a kernel that declares nv vector registers (R100, R106). -/
def decodeLane (nv w : Nat) : Decoded := if bitOf w 95 then decodePair nv w else decodeSingle nv w

/-! ## Bytes (R95, R100) -/

/-- A list of bytes as a little-endian number. -/
def leNat : List Byte → Nat
  | [] => 0
  | b :: bs => b.toNat + 256 * leNat bs

/-- The n low bytes of a number, lowest first. -/
def leBytes : Nat → Nat → List Byte
  | 0, _ => []
  | n + 1, x => BitVec.ofNat 8 x :: leBytes n (x / 256)

/-- The scalar instruction that starts a list of bytes; bytes that are missing read as zero. -/
def decodeScalarBytes (bs : List Byte) : Decoded := decodeScalar (leNat (bs.take 4)) (leNat ((bs.drop 4).take 4))

/-- The lane word that starts a list of bytes. -/
def decodeLaneBytes (nv : Nat) (bs : List Byte) : Decoded := decodeLane nv (leNat (bs.take 12))

/-- The instruction that the decoder reads from the bits w of nbits bits, numbered as the opcode table numbers them: a
lane word where there are 96 bits (with all 256 vector registers declared), else a scalar word and its literal. -/
def decodeTableWord (nbits w : Nat) : Option Instr :=
  if nbits = 96 then (decodeLaneBytes 256 (leBytes 12 w)).toOption
  else (decodeScalarBytes (leBytes 8 (w % 2 ^ nbits))).toOption

/-! ## The encoder -/

/-- Format SR. -/
def encSR (op d a b fn : Nat) : Nat := op * 2 ^ 26 + d * 2 ^ 20 + a * 2 ^ 14 + b * 2 ^ 8 + fn
/-- Format SI. -/
def encSI (op d a imm : Nat) : Nat := op * 2 ^ 26 + d * 2 ^ 20 + a * 2 ^ 14 + imm
/-- Format SB. -/
def encSB (op cond sense off : Nat) : Nat := op * 2 ^ 26 + cond * 2 ^ 22 + sense * 2 ^ 21 + off
/-- Format SX. -/
def encSX (op d sys fn : Nat) : Nat := op * 2 ^ 26 + d * 2 ^ 20 + sys * 2 ^ 8 + fn
/-- A bit as a number. -/
def bnum (b : Bool) : Nat := if b then 1 else 0

/-- The immediate field of an L major: the value, or the sentinel (R97). -/
def litField {n : Nat} : Lit n → Nat
  | .short v => v.toNat
  | .long _ => 2 ^ (n - 1)
/-- A word with its literal, if it carries one: the number of bits, and the bits. -/
def withLit {n : Nat} (w : Nat) : Lit n → Nat × Nat
  | .short _ => (32, w)
  | .long v => (64, w + v.toNat * 2 ^ 32)

/-- A word of 32 bits. -/
def one (w : Nat) : Option (Nat × Nat) := some (32, w)

def encInt (fn : Nat) (d a b : KReg) : Option (Nat × Nat) := one (encSR 0x01 d.toNat a.toNat b.toNat fn)
def encImm (op : Nat) (d a : KReg) (i : Lit 14) : Option (Nat × Nat) :=
  some (withLit (encSI op d.toNat a.toNat (litField i)) i)
def encShift (op : Nat) (d a : KReg) (sh : BitVec 6) : Option (Nat × Nat) := one (encSI op d.toNat a.toNat sh.toNat)
def encLoad (op : Nat) (d a : KReg) (o : LdOrder) (i : Lit 9) : Option (Nat × Nat) :=
  let os := match o with
    | .plain => 0
    | .acq sc => 0x1000 + scopeNum sc * 2 ^ 9
    | .fresh => 0x2000
  some (withLit (encSI op d.toNat a.toNat (os + litField i)) i)
def encStore (op : Nat) (d a : KReg) (o : StOrder) (i : Lit 9) : Option (Nat × Nat) :=
  let os := match o with
    | .plain => 0
    | .rel sc => 0x1000 + scopeNum sc * 2 ^ 9
  some (withLit (encSI op d.toNat a.toNat (os + litField i)) i)
def encJump (op : Nat) (i : Lit 21) : Option (Nat × Nat) := some (withLit (encSB op 0 0 (litField i)) i)
/-- Format SL with its literal (R95, R150). -/
def encSL (op : Nat) (e : Enqueue) (tk tm : Nat) : Option (Nat × Nat) :=
  some (64, op * 2 ^ 26 + e.msel.toNat * 2 ^ 22 + e.qn.toNat * 2 ^ 18 + e.qk.toNat * 2 ^ 12 + e.len.toNat * 2 ^ 6 + tk
    + (e.blk.toNat * 2 ^ 6 + tm * 2 ^ 2) * 2 ^ 32)
def encLoop (fn : Nat) (d : FReg) (a : KReg) (b : HReg) (set keep drop : Bool) : Option (Nat × Nat) :=
  one (encSR 0x31 d.toNat a.toNat b.toNat (bnum drop * 128 + bnum keep * 64 + bnum set * 32 + fn))
def encEngine (fn : Nat) (d : FReg) (a b : KReg) : Option (Nat × Nat) := one (encSR 0x34 d.toNat a.toNat b.toNat fn)

/-- The bits of a single-op lane word (R101). -/
def encLane (c : LaneCode) (o : LaneOp) : Nat :=
  laneNum c * 2 ^ 88 + fmtNum o.ty * 2 ^ 84 + o.dst.toNat * 2 ^ 76 + o.s1.toNat * 2 ^ 68 + o.s2.toNat * 2 ^ 60
    + o.s3.toNat * 2 ^ 52 + o.sq.toNat * 2 ^ 49 + o.neg.toNat * 2 ^ 46 + o.abs.toNat * 2 ^ 43 + o.msel.toNat * 2 ^ 39
    + o.reach.toNat * 2 ^ 36 + bnum o.fill * 2 ^ 35 + bnum o.sat * 2 ^ 34 + rndNum o.rnd * 2 ^ 32 + o.imm.toNat

/-- The bits of a half-op (R103). -/
def encHalf (h : HalfOp) : Nat :=
  laneNum (pairLane h.op) * 2 ^ 40 + fmtNum h.ty * 2 ^ 36 + h.dst.toNat * 2 ^ 28 + h.s1.toNat * 2 ^ 20
    + h.s2.toNat * 2 ^ 12 + h.s3.toNat * 2 ^ 4 + h.neg.toNat * 2 ^ 2 + bnum h.sat * 2

/-- The number of bits and the bits of a scalar instruction; none for what is not one. -/
def encodeScalar : Instr → Option (Nat × Nat)
  | .add d a b => encInt 0x00 d a b | .sub d a b => encInt 0x01 d a b | .mul d a b => encInt 0x02 d a b
  | .mulh d a b => encInt 0x03 d a b | .mulhn d a b => encInt 0x04 d a b
  | .div d a b => encInt 0x05 d a b | .divn d a b => encInt 0x06 d a b
  | .rem d a b => encInt 0x07 d a b | .remn d a b => encInt 0x08 d a b
  | .and d a b => encInt 0x09 d a b | .or d a b => encInt 0x0A d a b | .xor d a b => encInt 0x0B d a b
  | .andn d a b => encInt 0x0C d a b
  | .shl d a b => encInt 0x0D d a b | .shr d a b => encInt 0x0E d a b | .sra d a b => encInt 0x0F d a b
  | .clz d a => encInt 0x10 d a 0 | .popc d a => encInt 0x11 d a 0
  | .min d a b => encInt 0x12 d a b | .max d a b => encInt 0x13 d a b
  | .minn d a b => encInt 0x14 d a b | .maxn d a b => encInt 0x15 d a b
  | .mov d a => encInt 0x16 d a 0
  | .sel d n a b => one (encSR 0x02 d.toNat a.toNat b.toNat n.toNat)
  | .lea d a b sh => one (encSR 0x03 d.toNat a.toNat b.toNat sh.toNat)
  | .cmp n cc a b => one (encSR 0x04 n.toNat a.toNat b.toNat (condNum cc))
  | .cset n a => one (encSR 0x05 n.toNat a.toNat 0 0)
  | .cget d n => one (encSR 0x05 d.toNat n.toNat 0 1)
  | .addi d a i => encImm 0x08 d a i | .andi d a i => encImm 0x09 d a i
  | .ori d a i => encImm 0x0A d a i | .xori d a i => encImm 0x0B d a i
  | .shli d a sh => encShift 0x0C d a sh | .shri d a sh => encShift 0x0D d a sh | .srai d a sh => encShift 0x0E d a sh
  | .movi d i => encImm 0x0F d 0 i | .movh d i => encImm 0x10 d 0 i
  | .cmpi n cc a i => some (withLit (encSI 0x11 n.toNat a.toNat (condNum cc * 2 ^ 10 + litField i)) i)
  | .ext d a pos len signed =>
    one (encSI 0x12 d.toNat a.toNat (pos.toNat * 2 ^ 8 + len.toNat * 2 ^ 2 + bnum signed * 2))
  | .ldk d idx => one (encSI 0x13 d.toNat 0 idx.toNat)
  | .ld8 d a o i => encLoad 0x18 d a o i | .ld16 d a o i => encLoad 0x19 d a o i
  | .ld32 d a o i => encLoad 0x1A d a o i | .ld64 d a o i => encLoad 0x1B d a o i
  | .st8 d a o i => encStore 0x1C d a o i | .st16 d a o i => encStore 0x1D d a o i
  | .st32 d a o i => encStore 0x1E d a o i | .st64 d a o i => encStore 0x1F d a o i
  | .atm d a b op wide sc =>
    one (encSR 0x20 d.toNat a.toNat b.toNat (atmNum op * 2 ^ 4 + bnum wide * 2 ^ 3 + scopeNum sc))
  | .br n sense i => some (withLit (encSB 0x24 n.toNat (bnum sense) (litField i)) i)
  | .jmp i => encJump 0x25 i | .call i => encJump 0x26 i
  | .loop d i => encImm 0x27 d 0 i
  | .jr a => one (encSR 0x28 0 a.toNat 0 0) | .ret => one (encSR 0x28 0 0 0 1)
  | .nop => one (encSR 0x29 0 0 0 0) | .exit => one (encSR 0x29 0 0 0 1)
  | .region idx => one (encSI 0x2A 0 0 idx.toNat)
  | .lrun e => encSL 0x2C e 0 0
  | .lloopN e tk => encSL 0x2D e tk.toNat 0
  | .lloopAny e tk tm => encSL 0x2E e tk.toNat tm.toNat
  | .lsync => one (encSR 0x2F 0 0 0 0)
  | .vget d n => one (encSR 0x2F d.toNat n.toNat 0 1) | .votew d n => one (encSR 0x2F d.toNat n.toNat 0 2)
  | .split d n w => one (encSR 0x2F d.toNat n.toNat w.toNat 3)
  | .fuse a => one (encSR 0x2F 0 a.toNat 0 4) | .width d => one (encSR 0x2F d.toNat 0 0 5)
  | .talloc d a b => one (encSR 0x30 d.toNat a.toNat b.toNat 0)
  | .tfree a => one (encSR 0x30 0 a.toNat 0 1)
  | .thand d a b => one (encSR 0x30 d.toNat a.toNat b.toNat 2)
  | .ttake d a => one (encSR 0x30 d.toNat a.toNat 0 3)
  | .tzero a => one (encSR 0x30 0 a.toNat 0 4)
  | .tcopy d a => one (encSR 0x30 d.toNat a.toNat 0 5)
  | .mbeamTile d a b set => one (encSR 0x31 d.toNat a.toNat b.toNat (beamSetNum set * 32))
  | .mbeamMem d a b set => one (encSR 0x31 d.toNat a.toNat b.toNat (beamSetNum set * 32 + 16))
  | .mloopMem d a b set keep drop => encLoop 0x11 d a b set keep drop
  | .mloopTile d a b set keep drop => encLoop 0x01 d a b set keep drop
  | .mstep a b set keep drop => encLoop 0x02 0 a b set keep drop
  | .mcvt d a b => one (encSR 0x31 d.toNat a.toNat b.toNat 3)
  | .mperm n a => one (encSR 0x31 n.toNat a.toNat 0 4)
  | .mcode n a => one (encSR 0x31 n.toNat a.toNat 0 5)
  | .cpy d a b => encEngine 0 d a b | .cpyg d a b => encEngine 1 d a b
  | .cpyz d a b => encEngine 2 d a b | .mupd d a b => encEngine 3 d a b
  | .coll d a b m => one (encSR 0x34 d.toNat a.toNat b.toNat (m.toNat * 16 + 4))
  | .fwait d a => one (encSR 0x35 d.toNat a.toNat 0 0)
  | .ftest n a => one (encSR 0x35 n.toNat a.toNat 0 1)
  | .fcan a => one (encSR 0x35 0 a.toNat 0 2)
  | .fsto d a => one (encSR 0x35 d.toNat a.toNat 0 3)
  | .fldf d a => one (encSR 0x35 d.toNat a.toNat 0 4)
  | .bar => one (encSR 0x36 0 0 0 0)
  | .barn n a => one (encSR 0x36 n.toNat a.toNat 0 1)
  | .barnArrive n a => one (encSR 0x36 n.toNat a.toNat 0 9)
  | .fence kind sc => one (encSR 0x37 0 0 0 (fenceNum kind * 64 + scopeNum sc))
  | .launch d a => one (encSR 0x38 d.toNat a.toNat 0 0) | .ljoin => one (encSR 0x38 0 0 0 1)
  | .pwrq d a => one (encSR 0x39 d.toNat a.toNat 0 0)
  | .bcn sys a => one (encSR 0x39 (if sys then 6 else 5) a.toNat 0 1)
  | .srd d r => one (encSX 0x3A d.toNat r.toNat 0) | .swr d r => one (encSX 0x3A d.toNat r.toNat 1)
  | .trap imm => one (encSX 0x3B 0 imm.toNat 0)
  | .eret => one (encSX 0x3B 0 0 1) | .eretSkip => one (encSX 0x3B 0 1 1)
  | .lget d mask n => one (encSX 0x3B d.toNat (bnum mask * 256 + n.toNat) 2)
  | .lset d mask n => one (encSX 0x3B d.toNat (bnum mask * 256 + n.toNat) 3)
  | .yield => one (encSX 0x3B 0 0 4)
  | .brk imm => one (encSX 0x3B 0 imm.toNat 5)
  | _ => none

/-- The words of an instruction: the number of bits, and the bits as the opcode table numbers them. A device step has
no words. -/
def encode (i : Instr) : Option (Nat × Nat) :=
  match i with
  | .pairedLaneWord h0 h1 => some (96, 2 ^ 95 + encHalf h0 * 2 ^ 48 + encHalf h1 * 2)
  | _ =>
    match laneParts i with
    | some (c, o) => some (96, encLane c o)
    | none => encodeScalar i

end Sys2Proof
end

