-- ==== Sys2Proof/Machine/Flags.lean ====
section
/-! DEFINITION. Condition codes (04 R98, 05 R127) and the clamps that saturation uses (02 R52). -/

namespace Sys2Proof.Machine

/-- a cc b for two patterns of n bits: the signed and the natural comparisons (R98, R127, R181). -/
def condHolds (n : Nat) (cc : Cond) (a b : Nat) : Bool :=
  match cc with
  | .eq => a = b
  | .ne => a ≠ b
  | .lt => signedOf n a < signedOf n b
  | .le => signedOf n a ≤ signedOf n b
  | .gt => signedOf n a > signedOf n b
  | .ge => signedOf n a ≥ signedOf n b
  | .ltn => a < b
  | .len => a ≤ b
  | .gtn => a > b
  | .gen => a ≥ b

/-- x held to the range [lo, hi]. -/
def clampInt (lo hi x : Int) : Int := if x < lo then lo else if hi < x then hi else x

end Sys2Proof.Machine
end

