-- ==== Sys2Proof/Machine/Number.lean ====
section
/-! DEFINITION. Number formats (02 R47 to R70): values of patterns, rounding, NaN payloads, conversion, codebooks and
permutation tables. A magnitude is an exact fraction of natural numbers. -/

namespace Sys2Proof.Machine

/-! ## Formats (R48 to R52) -/

/-- A floating-point format: exponent bits, mantissa bits, and whether it is E4M3, which has no infinity (R48). -/
structure FloatFmt where
  eb : Nat
  mb : Nat
  e4m3 : Bool
  deriving DecidableEq, Repr

/-- The five floating-point formats; any other code is read as FP32 and never reaches a float operation (R48). -/
def floatOf : Fmt → FloatFmt
  | .bf16 => ⟨8, 7, false⟩
  | .f16 => ⟨5, 10, false⟩
  | .e4m3 => ⟨4, 3, true⟩
  | .e5m2 => ⟨5, 2, false⟩
  | _ => ⟨8, 23, false⟩

/-- Whether a format is floating point (R47). -/
def isFloat : Fmt → Bool
  | .f32 | .bf16 | .f16 | .e4m3 | .e5m2 => true
  | _ => false

/-- Whether an integer format is signed (R52). -/
def isSigned : Fmt → Bool
  | .s32 | .s8 | .s4 => true
  | _ => false

/-- bias (R48). -/
def biasOf (q : FloatFmt) : Nat := 2 ^ (q.eb - 1) - 1
/-- emin = 1 - bias (R48). -/
def eminOf (q : FloatFmt) : Int := 1 - (biasOf q : Int)

/-- imin and imax (R52). -/
def imin (f : Fmt) : Int := if isSigned f then -(2 : Int) ^ (fmtBits f - 1) else 0
def imax (f : Fmt) : Int := if isSigned f then (2 : Int) ^ (fmtBits f - 1) - 1 else (2 : Int) ^ fmtBits f - 1

/-- What a pattern means: a NaN, an infinity, or a finite value n / d with its sign (R49). -/
inductive Val
  | nan
  | inf (neg : Bool)
  | fin (neg : Bool) (n d : Nat)
  deriving DecidableEq, Repr

/-- n × 2^e as a fraction. -/
def scaled (n : Nat) (e : Int) : Nat × Nat := if 0 ≤ e then (n * 2 ^ e.toNat, 1) else (n, 2 ^ (-e).toNat)

/-- The fields of a pattern: sign, biased exponent, mantissa. -/
def signBit (q : FloatFmt) (b : Nat) : Bool := bitOf b (q.eb + q.mb)
def expField (q : FloatFmt) (b : Nat) : Nat := b / 2 ^ q.mb % 2 ^ q.eb
def manField (q : FloatFmt) (b : Nat) : Nat := b % 2 ^ q.mb

/-- A pattern from its fields. -/
def packFloat (q : FloatFmt) (neg : Bool) (e m : Nat) : Nat := bnum neg * 2 ^ (q.eb + q.mb) + e * 2 ^ q.mb + m

/-- decode of a floating-point pattern (R49). -/
def decodeFloat (q : FloatFmt) (b : Nat) : Val :=
  let s := signBit q b; let e := expField q b; let m := manField q b
  if e = 0 then
    let v := scaled m (eminOf q - q.mb); .fin s v.1 v.2
  else if e = 2 ^ q.eb - 1 && !q.e4m3 then if m = 0 then .inf s else .nan
  else if q.e4m3 && e = 15 && m = 7 then .nan
  else let v := scaled (2 ^ q.mb + m) ((e : Int) - biasOf q - q.mb); .fin s v.1 v.2

/-- An integer pattern as a number (R52). -/
def decodeInteger (f : Fmt) (b : Nat) : Int := if isSigned f then signedOf (fmtBits f) b else b

/-- decode of any numeric format. -/
def decodeVal (f : Fmt) (b : Nat) : Val :=
  if isFloat f then decodeFloat (floatOf f) b
  else let x := decodeInteger f b; .fin (x < 0) x.natAbs 1

def isNan (f : Fmt) (b : Nat) : Bool := decodeFloat (floatOf f) b = .nan
def isInf (f : Fmt) (b : Nat) : Bool :=
  match decodeFloat (floatOf f) b with
  | .inf _ => true
  | _ => false
/-- A nonzero pattern with exponent field 0 (R49). -/
def isSubnormal (f : Fmt) (b : Nat) : Bool := expField (floatOf f) b = 0 && manField (floatOf f) b ≠ 0

/-- The infinity pattern of a sign (R50). -/
def infPat (q : FloatFmt) (neg : Bool) : Nat := packFloat q neg (2 ^ q.eb - 1) 0
/-- The largest finite pattern of a sign (R50). -/
def maxPat (q : FloatFmt) (neg : Bool) : Nat :=
  if q.e4m3 then packFloat q neg 15 6 else packFloat q neg (2 ^ q.eb - 2) (2 ^ q.mb - 1)
/-- The zero pattern of a sign. -/
def zeroPat (q : FloatFmt) (neg : Bool) : Nat := packFloat q neg 0 0

/-! ## Rounding (R57, R58) -/

/-- floor(log2(n / d)) for n and d not zero. -/
def log2Frac (n d : Nat) : Int :=
  let e : Int := (Nat.log2 n : Int) - Nat.log2 d
  let below := if 0 ≤ e then n < d * 2 ^ e.toNat else n * 2 ^ (-e).toNat < d
  if below then e - 1 else e

/-- The integer that n / d rounds to; neg is the sign of the value whose magnitude this is (R57). -/
def roundInt (rm : Rnd) (neg : Bool) (n d : Nat) : Nat :=
  let f := n / d; let r := n % d
  match rm with
  | .rne => if d < 2 * r || (d = 2 * r && f % 2 = 1) then f + 1 else f
  | .rtz => f
  | .rup => if neg || r = 0 then f else f + 1
  | .rdn => if neg && r ≠ 0 then f + 1 else f

/-- round_to (R58) on the exact value of sign neg and magnitude n / d; sat is ov = SAT. -/
def roundTo (q : FloatFmt) (neg : Bool) (n d : Nat) (rm : Rnd) (sat : Bool) : Nat × Bool :=
  if n = 0 then (zeroPat q neg, false)
  else
    let e0 := max (log2Frac n d) (eminOf q)
    let sh := e0 - q.mb
    let k0 := if 0 ≤ sh then roundInt rm neg n (d * 2 ^ sh.toNat) else roundInt rm neg (n * 2 ^ (-sh).toNat) d
    let e := if k0 = 2 ^ (q.mb + 1) then e0 + 1 else e0
    let k := if k0 = 2 ^ (q.mb + 1) then 2 ^ q.mb else k0
    let be := (e + biasOf q).toNat
    let tooBig := if q.e4m3 then 15 < be || (be = 15 && k = 15) else 2 ^ q.eb - 1 ≤ be
    if 2 ^ q.mb ≤ k && tooBig then
      if sat || q.e4m3 then (maxPat q neg, true)
      else if rm = .rtz || (rm = .rup && neg) || (rm = .rdn && !neg) then (maxPat q neg, false)
      else (infPat q neg, false)
    else if k < 2 ^ q.mb then (packFloat q neg 0 k, false)
    else (packFloat q neg be (k - 2 ^ q.mb), false)

/-- vflush (R60); flush is the mode FLUSH. -/
def vflush (flush : Bool) (f : Fmt) (b : Nat) : Nat :=
  if flush && isFloat f && isSubnormal f b then zeroPat (floatOf f) (signBit (floatOf f) b) else b

/-! ## NaN payloads (R61 to R64) -/

/-- fold14 and fold3 (R62). -/
def fold14 (a : Nat) : Nat :=
  (bitsOf a 13 0).xor ((bitsOf a 27 14).xor ((bitsOf a 41 28).xor ((bitsOf a 55 42).xor (bitsOf a 56 56))))
def fold3 (f : Nat) : Nat :=
  (bitsOf f 2 0).xor ((bitsOf f 5 3).xor ((bitsOf f 8 6).xor ((bitsOf f 11 9).xor (bitsOf f 13 12))))

/-- Kinds of R61: 0 ARITH, 1 FUNC, 2 LOOM. -/
def kindArith : Nat := 0
def kindFunc : Nat := 1
def kindLoom : Nat := 2

/-- The NaN that an operation creates without a payload (R50). -/
def plainNan (f : Fmt) (neg : Bool) : Nat :=
  match f with
  | .bf16 => bnum neg * 0x8000 + 0x7FC0
  | .f16 => bnum neg * 0x8000 + 0x7E00
  | .e4m3 => bnum neg * 0x80 + 0x7F
  | .e5m2 => bnum neg * 0x80 + 0x7E
  | _ => bnum neg * 0x80000000 + 0x7FC00000

/-- nan_new (R61). -/
def nanNew (f : Fmt) (lw lane kind : Nat) : Nat :=
  match f with
  | .f32 => 0x7FC00000 + fold14 lw * 256 + lane % 64 * 4 + kind
  | .f16 => 0x7E00 + fold3 (fold14 lw) * 64 + lane % 64
  | .bf16 => 0x7FC0 + lane % 64
  | _ => plainNan f false

/-- A NaN pattern with its quiet bit set (R51); E4M3 has none, and its two NaNs stay. -/
def quietNan (f : Fmt) (b : Nat) : Nat :=
  match f with
  | .f32 => b.lor 0x400000
  | .bf16 => b.lor 0x40
  | .f16 => b.lor 0x200
  | .e5m2 => (b.lor 2) - (b.lor 2) % 2
  | _ => b

/-- nan_conv (R64). -/
def nanConv (df sf : Fmt) (b : Nat) : Nat :=
  let s := signBit (floatOf sf) b
  match sf, df with
  | .f32, .f32 | .bf16, .bf16 | .f16, .f16 => quietNan sf b
  | .f32, .f16 => plainNan .f16 s + fold3 (bitsOf b 21 8) * 64 + bitsOf b 7 2
  | .f32, .bf16 => plainNan .bf16 s + bitsOf b 7 2
  | .f16, .f32 => plainNan .f32 s + bitsOf b 8 6 * 256 + bitsOf b 5 0 * 4 + 3
  | .f16, .bf16 => plainNan .bf16 s + bitsOf b 5 0
  | .bf16, .f32 => plainNan .f32 s + bitsOf b 5 0 * 4 + 3
  | .bf16, .f16 => plainNan .f16 s + bitsOf b 5 0
  | _, _ => plainNan df s

/-- nan_first over sources of one format (R63): the first NaN of a list, quiet. -/
def nanFirst (f : Fmt) (xs : List Nat) : Nat :=
  match xs.find? (isNan f) with
  | some b => quietNan f b
  | none => plainNan f false

/-! ## Exact arithmetic on finite values -/

/-- A signed fraction. -/
structure Frac where
  n : Int
  d : Nat
  deriving DecidableEq, Repr

def Frac.add (x y : Frac) : Frac := ⟨x.n * y.d + y.n * x.d, x.d * y.d⟩
def Frac.mul (x y : Frac) : Frac := ⟨x.n * y.n, x.d * y.d⟩
/-- x < y. -/
def Frac.lt (x y : Frac) : Bool := x.n * y.d < y.n * x.d
/-- |x|. -/
def Frac.abs (x : Frac) : Frac := ⟨x.n.natAbs, x.d⟩

/-- A finite value as a signed fraction; 0 for a NaN or an infinity, which callers treat before. -/
def Val.frac : Val → Frac
  | .fin neg n d => ⟨if neg then -(n : Int) else n, d⟩
  | _ => ⟨0, 1⟩
/-- The sign of a value. -/
def Val.neg : Val → Bool
  | .nan => false
  | .inf s => s
  | .fin s _ _ => s
def Val.isZero : Val → Bool
  | .fin _ n _ => n = 0
  | _ => false
def Val.isInf : Val → Bool
  | .inf _ => true
  | _ => false

/-- round_to of a nonzero signed fraction. -/
def roundFrac (q : FloatFmt) (x : Frac) (rm : Rnd) (sat : Bool) : Nat × Bool :=
  roundTo q (x.n < 0) x.n.natAbs x.d rm sat

/-! ## The vector operation (R184, R185) -/

inductive VfOp
  | add | sub | mul | fma
  deriving DecidableEq, Repr

/-- The patterns that an operation reads. -/
def vfReads (op : VfOp) (a b c : Nat) : List Nat := if op = .fma then [a, b, c] else [a, b]

/-- The zero that an exact zero result is (R185): the addends' common sign if every addend is a zero of one sign. -/
def zeroSum (q : FloatFmt) (x y : Val) (rm : Rnd) : Nat :=
  if x.isZero && y.isZero && x.neg == y.neg then zeroPat q x.neg else zeroPat q (rm = .rdn)

/-- A value with its sign turned. -/
def Val.negate : Val → Val
  | .nan => .nan
  | .inf s => .inf (!s)
  | .fin s n d => .fin (!s) n d

/-- The exact product of two values neither of which is NaN, and not an infinity by a zero. -/
def Val.times (x y : Val) : Val :=
  match x, y with
  | .fin s n d, .fin t m e => .fin (s != t) (n * m) (d * e)
  | _, _ => .inf (x.neg != y.neg)

/-- The rounded sum of two values neither of which is NaN; infinities of opposite sign give the created NaN. -/
def sumVal (f : Fmt) (x y : Val) (rm : Rnd) (sat flush : Bool) (lw lane : Nat) : Nat :=
  let q := floatOf f
  match x, y with
  | .inf s, .inf t => if s = t then infPat q s else nanNew f lw lane kindArith
  | .inf s, _ => infPat q s
  | _, .inf t => infPat q t
  | _, _ =>
    let e := x.frac.add y.frac
    if e.n = 0 then zeroSum q x y rm else vflush flush f (roundFrac q e rm sat).1

/-- vf_op (R184): the sources come after ABS and NEG. -/
def vfOp (op : VfOp) (f : Fmt) (a b c : Nat) (rm : Rnd) (sat flush : Bool) (lw lane : Nat) : Nat :=
  let q := floatOf f
  let a := vflush flush f a; let b := vflush flush f b; let c := vflush flush f c
  if (vfReads op a b c).any (isNan f) then nanFirst f (vfReads op a b c)
  else
    let x := decodeFloat q a; let y := decodeFloat q b; let z := decodeFloat q c
    let badMul := (x.isInf && y.isZero) || (x.isZero && y.isInf)
    match op with
    | .add => sumVal f x y rm sat flush lw lane
    | .sub => sumVal f x y.negate rm sat flush lw lane
    | .mul =>
      if badMul then nanNew f lw lane kindArith
      else match x.times y with
        | .fin s n d => if n = 0 then zeroPat q s else vflush flush f (roundTo q s n d rm sat).1
        | v => infPat q v.neg
    | .fma => if badMul then nanNew f lw lane kindArith else sumVal f (x.times y) z rm sat flush lw lane

/-- Order of two values that are not NaN, as numbers: x < y. -/
def Val.lt (x y : Val) : Bool :=
  match x, y with
  | .inf s, .inf t => s && !t
  | .inf s, _ => s
  | _, .inf t => !t
  | _, _ => x.frac.lt y.frac

/-- VFMIN and VFMAX (R185): -0 stands below +0, and equal values return source 1. -/
def vfMinMax (max : Bool) (f : Fmt) (a b : Nat) (flush : Bool) : Nat :=
  let a := vflush flush f a; let b := vflush flush f b
  if isNan f a || isNan f b then nanFirst f [a, b]
  else
    let x := decodeFloat (floatOf f) a; let y := decodeFloat (floatOf f) b
    let below (u v : Val) : Bool := u.lt v || (u.isZero && v.isZero && u.neg && !v.neg)
    if max then (if below x y then b else a) else (if below y x then b else a)

/-- VFCMP's conditions by their codes (R186). -/
def vfCompare (code : Nat) (f : Fmt) (a b : Nat) (flush : Bool) : Bool :=
  let a := vflush flush f a; let b := vflush flush f b
  let un := isNan f a || isNan f b
  let x := decodeFloat (floatOf f) a; let y := decodeFloat (floatOf f) b
  let eq := !un && !x.lt y && !y.lt x
  match code with
  | 0 => eq
  | 1 => !eq
  | 2 => !un && x.lt y
  | 3 => !un && (x.lt y || eq)
  | 4 => !un && y.lt x
  | 5 => !un && (y.lt x || eq)
  | 6 => un
  | _ => !un

/-- VFRND (R187). -/
def vfRound (f : Fmt) (a : Nat) (rm : Rnd) (flush : Bool) : Nat :=
  let q := floatOf f
  let a := vflush flush f a
  match decodeFloat q a with
  | .nan => nanFirst f [a]
  | .inf _ => a
  | .fin s n d => if n = 0 then a else vflush flush f (roundTo q s (roundInt rm s n d) 1 .rne false).1

/-! ## Conversion (R65) -/

/-- A signed integer placed in the range of an integer format: its pattern, and whether it was outside. -/
def intPat (f : Fmt) (x : Int) : Nat × Bool :=
  if imax f < x then (patOf (fmtBits f) (imax f), true)
  else if x < imin f then (patOf (fmtBits f) (imin f), true)
  else (patOf (fmtBits f) x, false)

/-- cvt (R65). -/
def cvt (d s : Fmt) (b : Nat) (rm : Rnd) (flush : Bool) : Nat × Bool :=
  let b := vflush flush s b
  match decodeVal s b with
  | .nan => if isFloat d then (nanConv d s b, false) else (0, true)
  | .inf neg =>
    if isFloat d then
      if (floatOf d).e4m3 then (maxPat (floatOf d) neg, true) else (infPat (floatOf d) neg, false)
    else (patOf (fmtBits d) (if neg then imin d else imax d), true)
  | .fin neg n e =>
    if isFloat d then
      if d = s then (b, false)
      else let r := roundTo (floatOf d) neg n e rm true; (vflush flush d r.1, r.2)
    else
      let k : Int := roundInt rm neg n e
      intPat d (if neg then -k else k)

/-! ## Codebooks (R68, R69) -/

/-- cb_value (R68): entry c of a codebook, a BF16 pattern. -/
def cbValue (cb : List W16) (c : Nat) : Nat := (cb.getD (c % 16) 0).toNat

/-- A distance: none is +inf. -/
abbrev Dist := Option Frac
/-- Distance of an entry from x (R69). -/
def cbDist (x e : Val) : Dist :=
  match x, e with
  | .inf s, .inf t => if s = t then some ⟨0, 1⟩ else none
  | .inf _, _ => none
  | _, .inf _ => none
  | _, _ => some ((x.frac.add (e.negate).frac).abs)
def distLt (a b : Dist) : Bool :=
  match a, b with
  | some x, some y => x.lt y
  | some _, none => true
  | none, _ => false

/-- The lowest candidate at the smallest distance. -/
def cbBest (x : Val) : List (Nat × Val) → Option (Nat × Dist)
  | [] => none
  | (c, e) :: rest =>
    match cbBest x rest with
    | none => some (c, cbDist x e)
    | some (c', d') => if distLt d' (cbDist x e) then some (c', d') else some (c, cbDist x e)

/-- Entries that a directed mode may choose (R69). -/
def cbEligible (rm : Rnd) (x e : Val) : Bool :=
  match rm with
  | .rne => true
  | .rtz => e.isZero || (e.neg == x.neg && !(if x.neg then e.lt x else x.lt e))
  | .rup => !e.lt x
  | .rdn => !x.lt e

/-- cb_near (R69) on an FP32 pattern. -/
def cbNear (cb : List W16) (x : Nat) (rm : Rnd) (flush : Bool) : Nat × Bool :=
  let x := vflush flush .f32 x
  let es := (List.range 16).map fun c => (c, decodeFloat (floatOf .bf16) (cbValue cb c))
  let v := decodeFloat (floatOf .f32) x
  if v = .nan then
    match es.find? (fun p => p.2 = .nan) with
    | some p => (p.1, false)
    | none => (0, true)
  else
    let cand := es.filter fun p => p.2 ≠ .nan
    match cbBest v cand with
    | none => (0, true)
    | some best =>
      let pick := ((cbBest v (cand.filter fun p => cbEligible rm v p.2)).getD best).1
      (pick, !(cand.any (fun p => !v.lt p.2) && cand.any (fun p => !p.2.lt v)))

/-! ## Permutation tables (R70) -/

/-- perm_pos over the entries p of a table of length len (R70). -/
def permPos (len : Nat) (p : List Nat) (j : Nat) : Nat := j / len * len + p.getD (j % len) 0

/-- The logical position of physical channel ch: the j with perm_pos(t, j) = ch (R194, R264). -/
def permInv (len : Nat) (p : List Nat) (ch : Nat) : Nat := ch / len * len + p.findIdx (· = ch % len)

end Sys2Proof.Machine
end

