-- ==== Sys2Proof/Machine/Contract.lean ====
section
/-! DEFINITION. Arithmetic contracts (03): the published classes, Loom summation, capability codes. -/

namespace Sys2Proof.Machine

/-! ## Contracts (R72 to R75, R32, R82, R84) -/

/-- The operand classes (R73), with the numbers k of R88. -/
inductive OpClass
  | c16 | c8 | ccb4
  deriving DecidableEq, Repr

/-- A contract's class (R72): group size, adder width, STK, FLUSH_IN, FLUSH_PROD. -/
structure ClassFields where
  g : Nat
  w : Nat
  stk : Bool
  flushIn : Bool
  flushProd : Bool
  deriving DecidableEq, Repr

/-- The published contracts (R75); contract 5's where a number is not published, which never runs (R74). -/
def classOf (contract : Nat) (c : OpClass) : ClassFields :=
  match contract, c with
  | 1, .c16 | 2, .c16 => ⟨4, 26, false, false, true⟩
  | 1, _ | 2, _ => ⟨8, 22, false, true, false⟩
  | 3, .c16 | 4, .c16 => ⟨8, 34, true, false, false⟩
  | 3, .c8 | 4, .c8 => ⟨16, 25, false, false, false⟩
  | 3, .ccb4 | 4, .ccb4 => ⟨16, 32, true, false, false⟩
  | 6, .c16 => ⟨32, 48, true, false, false⟩
  | 6, .c8 => ⟨32, 32, true, false, false⟩
  | 6, .ccb4 => ⟨32, 40, true, false, false⟩
  | _, .c16 => ⟨16, 40, true, false, false⟩
  | _, .c8 => ⟨16, 25, false, false, false⟩
  | _, .ccb4 => ⟨16, 32, true, false, false⟩

/-- The vector subnormal mode is FLUSH (R75). -/
def flushOf (contract : Nat) : Bool := contract = 1 || contract = 2

/-- The function-table revision of a contract (R75). -/
def ftrevOf (contract : Nat) : Nat :=
  match contract with
  | 1 => 1 | 2 => 2 | 3 => 2 | 4 => 3 | 5 => 4 | 6 => 4 | _ => 0

/-- CAPC0 to CAPC7 (R32); torhw says that contracts 1 and 2 are in hardware. -/
def capcOf (torhw : Bool) (i : Nat) : Nat :=
  match i with
  | 0 => if torhw then 0x01CE else 0x0145
  | 1 => if torhw then 0x02CE else 0x0245
  | 2 => 0x02CF
  | 3 => 0x03FF
  | 4 => 0x04FF
  | 5 => 0x04FF
  | _ => 0

/-- The number k of a class (R88); CVEC is 3. -/
def classNum : OpClass → Nat
  | .c16 => 0 | .c8 => 1 | .ccb4 => 2

/-- The 2-bit code of class k of a CAPC word (R31). -/
def capcCode (capc k : Nat) : Nat := bitsOf capc (2 * k + 1) (2 * k)

/-- The class of a step from its operand formats (R73). -/
def classFor (bf af : Fmt) : OpClass :=
  if bf = .cb4 then .ccb4
  else if bf = .bf16 || bf = .f16 || af = .bf16 || af = .f16 then .c16 else .c8

/-! ## Loom summation (R77 to R80) -/

/-- A term: a NaN already in FP32, the invalid product, or a value (R78). -/
inductive Term
  | nan (b : Nat)
  | invalid
  | val (v : Val)
  deriving DecidableEq, Repr

/-- loom_term (R78). -/
def loomTerm (cls : ClassFields) (af : Fmt) (a : Nat) (bf : Fmt) (b : Nat) : Term :=
  let a := vflush cls.flushIn af a; let b := vflush cls.flushIn bf b
  if isNan af a then .nan (nanConv .f32 af a)
  else if isNan bf b then .nan (nanConv .f32 bf b)
  else
    let x := decodeFloat (floatOf af) a; let y := decodeFloat (floatOf bf) b
    if (x.isInf && y.isZero) || (x.isZero && y.isInf) then .invalid
    else match x.times y with
      | .fin s n d =>
        let small := scaled 1 (eminOf (floatOf af))
        .val (if cls.flushProd && n * small.2 < small.1 * d then .fin s 0 1 else .fin s n d)
      | v => .val v

/-- ceil(log2(n)) for n at least 1. -/
def ceilLog2 (n : Nat) : Nat := if n ≤ 1 then 0 else Nat.log2 (n - 1) + 1

/-- The first NaN of a list of terms (R79). -/
def firstNan : List Term → Option Nat
  | [] => none
  | .nan b :: _ => some b
  | _ :: ts => firstNan ts

/-- The finite value of a term, as a fraction. -/
def termFrac : Term → Frac
  | .val v => v.frac
  | _ => ⟨0, 1⟩

/-- floor(log2(|x|)) of the largest nonzero addend (R79). -/
def sumEmax (xs : List Frac) : Int :=
  (xs.filter (·.n ≠ 0)).foldl (fun m x => max m (log2Frac x.n.natAbs x.d)) (-100000)

/-- floor(|x| / 2^u) and whether bits fell below (R79). -/
def truncAt (x : Frac) (u : Int) : Nat × Bool :=
  let n := if 0 ≤ u then x.n.natAbs else x.n.natAbs * 2 ^ (-u).toNat
  let d := if 0 ≤ u then x.d * 2 ^ u.toNat else x.d
  (n / d, n % d ≠ 0)

/-- v lies exactly halfway between two adjacent FP32 values (R79): rounding it up and down gives different patterns, and
it is as far from the one as from the other. -/
def fp32Tie (v : Frac) : Bool :=
  let e := max (log2Frac v.n.natAbs v.d) (-126)
  let sh := e - 23
  let n := if 0 ≤ sh then v.n.natAbs else v.n.natAbs * 2 ^ (-sh).toNat
  let d := if 0 ≤ sh then v.d * 2 ^ sh.toNat else v.d
  2 * (n % d) = d

/-- The rounded sum of a group whose addends are all finite and not all zero (R79). -/
def groupSum (cls : ClassFields) (gw : Nat) (xs : List Frac) : Nat :=
  let u := sumEmax xs - ((cls.w : Int) - 2 - ceilLog2 (gw + 2))
  let st := xs.any fun x => (truncAt x u).2
  let s : Int := xs.foldl (fun t x => t + (if x.n < 0 then -((truncAt x u).1 : Int) else (truncAt x u).1)) 0
  if s = 0 then 0
  else
    let sc := scaled s.natAbs u
    let v : Frac := ⟨if s < 0 then -(sc.1 : Int) else sc.1, sc.2⟩
    let r := if cls.stk && st && fp32Tie v then (roundFrac (floatOf .f32) v (if 0 < s then .rup else .rdn) false).1
      else (roundFrac (floatOf .f32) v .rne false).1
    vflush (cls.flushIn || cls.flushProd) .f32 r

/-- loom_group (R79) with gw terms in place of G where a lane dot form is summed (R81). -/
def loomGroup (cls : ClassFields) (gw acc : Nat) (t : List Term) (lw col : Nat) : Nat :=
  let acc := vflush (cls.flushIn || cls.flushProd) .f32 acc
  let x0 : Term := if isNan .f32 acc then .nan (quietNan .f32 acc) else .val (decodeFloat (floatOf .f32) acc)
  let xs := x0 :: t
  let infs := xs.filterMap fun x => match x with
    | .val (.inf s) => some s
    | _ => none
  match firstNan xs with
  | some b => quietNan .f32 b
  | none =>
    if xs.any (· = .invalid) || (infs.any id && infs.any not) then nanNew .f32 lw (col % 64) kindLoom
    else match infs with
      | s :: _ => infPat (floatOf .f32) s
      | [] =>
        let fs := xs.map termFrac
        if fs.all (·.n = 0) then
          (if xs.all (fun x => match x with
            | .val v => v.neg
            | _ => false) then 0x80000000 else 0)
        else groupSum cls gw fs

/-- A list cut into pieces of g elements; fuel bounds the number of pieces. -/
def chunks {α : Type} (g : Nat) : Nat → List α → List (List α)
  | 0, _ => []
  | fuel + 1, l => if l.isEmpty then [] else l.take g :: chunks g fuel (l.drop g)

/-- The padding of a short last group: +0 terms (R77). -/
def padGroup (g : Nat) (t : List Term) : List Term := t ++ List.replicate (g - t.length) (.val (.fin false 0 1))

/-- loom_step (R77): ab holds the operand patterns in K order. -/
def loomStep (cls : ClassFields) (acc : Nat) (af bf : Fmt) (ab : List (Nat × Nat)) (lw col : Nat) : Nat :=
  (chunks cls.g ab.length ab).foldl
    (fun acc t => loomGroup cls cls.g acc (padGroup cls.g (t.map fun p => loomTerm cls af p.1 bf p.2)) lw col) acc

/-- The integer step of R80: the new accumulator, and whether a clamp acted. -/
def intStep (g : Nat) (acc : Int) (af bf : Fmt) (ab : List (Nat × Nat)) : Int × Bool :=
  (chunks g ab.length ab).foldl
    (fun (p : Int × Bool) t =>
      let s := t.foldl (fun x q => x + decodeInteger af q.1 * decodeInteger bf q.2) p.1
      let c := clampInt (imin .s32) (imax .s32) s
      (c, p.2 || c ≠ s)) (acc, false)

/-! ## Communicators (R92, R93) -/

/-- Contract n qualifies for a member with this CAPC word (R92). -/
def capcQualifies (n capc : Nat) : Bool :=
  2 ≤ capcCode capc 0 && 2 ≤ capcCode capc 1 && 2 ≤ capcCode capc 3 && (n < 4 || 2 ≤ capcCode capc 2)

/-- The agreed contract of a communicator, from every member's CAPC words: the highest that qualifies (R92). -/
def agreedContract (lo hi : Nat) (members : List (List Nat)) : Option Nat :=
  ((List.range 9).filter fun n => 1 ≤ n && lo ≤ n && n ≤ hi &&
    members.all fun m => capcQualifies n (m.getD (n - 1) 0)).getLast?

/-- coll_add (R93). -/
def collAdd (contract : Nat) (f : Fmt) (x y : Nat) : Nat :=
  if isFloat f then
    let fl := flushOf contract
    let x := vflush fl f x; let y := vflush fl f y
    if isNan f x || isNan f y then nanFirst f [x, y]
    else sumVal f (decodeFloat (floatOf f) x) (decodeFloat (floatOf f) y) .rne false fl 0 0
  else (x + y) % 2 ^ fmtBits f

end Sys2Proof.Machine
end

