-- ==== Sys2Proof/Config.lean ====
section
/-! DEFINITION. What the module fixes (00 R1, R3; 11 R301), and the free values: constants with no body, so that no
proof can learn what they are. -/

namespace Sys2Proof.Config

/-- Dies of a module (R1). -/
def dies : Nat := 4
/-- Cores of a die (R1). -/
def coresPerDie : Nat := 48
/-- Cores of a module (R3). -/
def cores : Nat := 192
/-- Benches of a module (R3). -/
def benches : Nat := 768
/-- Scalar contexts of a bench (R11). -/
def ctxPerBench : Nat := 32
/-- Scalar contexts of a module. -/
def contexts : Nat := 24576
/-- Bytes of a line (R301). -/
def lineBytes : Nat := 128
/-- Scratchpad lines of a core (R3). -/
def spadLines : Nat := 4096
/-- Tile slots of a core (R3). -/
def tileSlots : Nat := 256
/-- Crews that one core holds at most (R360). -/
def crewsPerCore : Nat := 32
/-- Entries of a store-gather buffer (R301). -/
def sgbEntries : Nat := 64
/-- Ways and sets of a core's L1: 384 KiB of 128 bytes, 12-way (R301). -/
def l1Ways : Nat := 12
def l1Sets : Nat := 256
/-- L2 slices of a die, and lines of a slice of 2 MiB (R301). -/
def slicesPerDie : Nat := 32
def sliceCap : Nat := 16384
/-- Non-leaf entries of a die's walk cache (R325). -/
def walkCacheLen : Nat := 4096
/-- Lines of a core's instruction caches: 64 KiB ctrl and 128 KiB lane (R301). -/
def icLines : Bool → Nat
  | false => 512
  | true => 1024
/-- Entries of a bench's micro-TLB, a core's TLB and a die's TLB (R325). -/
def tlbBench : Nat := 64
def tlbCore : Nat := 2048
def tlbDie : Nat := 32768
/-- Walks that a die runs at once (R3). -/
def walksPerDie : Nat := 512
/-- Nesting depth limit (R3). -/
def maxDepth : Nat := 10
/-- Control-queue and back-queue entries (R27). -/
def queueLen : Nat := 32
def backLen : Nat := 8
/-- Entries of a Loom queue (R248). -/
def loomQueueLen : Nat := 8
/-- Taken launches held, and entries of the scheduler table (R348). -/
def heldLaunches : Nat := 1024
def tableLen : Nat := 8192
/-- Beacons queued by a die (R432), and trace packets queued by a bench (R437). -/
def beaconQueue : Nat := 16
def traceQueue : Nat := 64
/-- Counters of a die's Drover (R419). -/
def dieCounters : Nat := 4096
/-- Ranges of a core's range-acquire list (R343). -/
def rangeList : Nat := 16
/-- The generic scratchpad window's first address (R41). -/
def windowBase : Nat := 0x01FFFF0000000000
/-- First byte of the Mart range and of the host-link window, and the end of the physical space (R304). -/
def hbmEnd : Nat := 0x6000000000
def martBase : Nat := 0x8000000000
def martEnd : Nat := 0x8008000000
def hostBase : Nat := 0x10000000000
def physEnd : Nat := 0x100000000000
/-- The pre-emption budget, 20 us, in thirds of a nanosecond (R390). -/
def budget3 : Nat := 60000

/-- The cache line or translation that a full cache gives up: the victim is the cache's own choice (R314, R325; log 8). -/
opaque victim : Nat → Nat
/-- The set of the L1 in which a line falls, before the number of sets is taken: the spec gives none (R301; log 8). -/
opaque l1Index : Nat → Nat
/-- The byte a copy writes where its source and destination overlap: no defined mix (R281; log 16). -/
opaque overlapByte : Nat → Nat → Byte
/-- The second operand of a MUPD .cas, which the spec does not name (R281; log 16). -/
opaque mupdOther : Nat → Nat
/-- The byte address and the lane that a NaN made by MUPD carries, which the spec does not name (R61, R281; log 16). -/
opaque mupdPlace : Nat → Nat
/-- What the network did to a collective's packets, by draw and field: congestion marks and packets sent again (R423; log 2); and an entropy
value that cannot be read (R421; log 72). -/
opaque network : Nat → Nat → Nat
/-- The cycle counts of an assay record, by draw and by field (R439; log 3). -/
opaque cycles : Nat → Nat → W32
/-- The entry of a CONTIG group that a walk uses when the sixteen differ (R323; log 17). -/
opaque contigPick : Nat → Nat
/-- A quote's SM2 signature under the module's fused key (R447; log 15). -/
opaque quoteSignature : BitVec 256 → BitVec 512
/-- The bytes of the attestation certificate (R447; log 15). -/
opaque certificate : Nat → W64
/-- The translation context in which the Steward reaches memory: one of its own, whose number the spec does not give (R448; log 15). -/
opaque stewardContext : Nat
/-- A die's own fabric endpoint address, which system software assigns (R415, R448; log 15). -/
opaque endpoint : Nat → BitVec 128
/-- The pattern that the scrubber writes over an uncorrectable word, by byte address (R449; log 7). -/
opaque poisonPattern : Nat → Byte
/-- A temperature or power reading that no step of the model states (R445; log 2). -/
opaque sensor : Nat → Byte

end Sys2Proof.Config
end

