-- ==== Sys2Proof/Machine/State.lean ====
section
/-! DEFINITION. The state of one module as plain data, the reasons a step can stop, and the state after reset. Each
field's docstring names the rule of spec/ that gives it. -/

namespace Sys2Proof.Machine

/-! ## Why a step stops -/

/-- The machine stops. -/
inductive Fault
  /-- Raised by step when the clocks of all dies have stopped after a thermal trip (R444) and the turn needs a clock.
  Safe: the spec says nothing issues then. -/
  | clocksStopped
  deriving DecidableEq, Repr

/-- The model gives the instruction or the turn no meaning in this state. -/
inductive Refusal
  /-- Raised by an arm of exec whose instruction has no meaning yet. Safe. -/
  | notModelled (mnemonic : String)
  /-- Raised by a device step, or by a turn of the agenda, whose guard does not hold: the spec has no such step in
  this state. Safe: nothing is claimed of a step that cannot occur. -/
  | notEnabled (name : String)
  deriving DecidableEq, Repr

/-! ## Traps (R37, R377) -/

/-- The trap causes (R377). -/
inductive Cause
  | illegal | illegalPair | fetch | eccUncorr | align | access | xlate | handleStale | handleForeign | matrixWidth
  | layoutMismatch | stampMix | range | depth | fuseMismatch | decodeLength | collLate | watch | syscall
  deriving DecidableEq, Repr

/-- A trap to be taken: its cause and DETAIL, and for a lane word its address, TRAPMASK and REPLAY (R37, R380). done
marks a lane word that has completed (R222); pushLoop marks the trap of push_loop (R157). -/
structure Trap where
  cause : Cause
  detail : Nat
  lane : Bool
  lw : W64
  mask : W64
  replay : Bool
  done : Bool
  pushLoop : Bool
  deriving DecidableEq, Repr

/-! ## A skein (R15) -/

/-- One mask-stack entry above the base (R157). -/
structure MaskEntry where
  value : W64
  rest : W64
  loop : Bool
  deriving DecidableEq, Repr

/-- The kind of a control-queue entry (R146). -/
inductive EntryKind
  | run | loopN | loopAny
  deriving DecidableEq, Repr

/-- A control-queue entry (R146) with its progress (R380, R399). region is the serial number of the region it was
enqueued in (R393); depth0 is the stack depth at its start (R152). -/
structure QEntry where
  kind : EntryKind
  block : W64
  len : Nat
  msel : MReg
  q : List W64
  control : W64
  count : W64
  tm : MReg
  region : Nat
  started : Bool
  word : Nat
  trip : Nat
  depth0 : Nat
  deriving DecidableEq, Repr

/-- A back-queue entry (R154). -/
structure BackEntry where
  vote : Bool
  valid : Bool
  value : W64
  deriving DecidableEq, Repr

/-- An outstanding memory operation (R21): its path, the global lines of a store that its core's store-gather
buffer still holds (R219), whether a lane word waits for its data to retire (R379), and whether the scalar stream stands at it until it
returns, as at an acquire load (R133). -/
structure OutOp where
  path : Path
  lines : List Nat
  data : Bool
  holds : Bool
  deriving DecidableEq, Repr

/-- A lane word that has issued and not retired (R379): the RANGE bit it sets and the stack depth it leaves (R34), and
the path on which the data of its lanes is still to return. -/
structure Unretired where
  range : Bool
  depth : Nat
  awaits : Option Path
  deriving DecidableEq, Repr

/-- The wait of a word whose arrival stands (R381): at a barrier, released from a barrier, or at FUSE with its tag. -/
inductive Wait
  | none
  | barrier (n : Nat)
  | released (n : Nat)
  | fuse (tag : W64)
  deriving DecidableEq, Repr

/-- One SPLIT not yet undone (R163, R164): the family, the child number, and what FUSE gives back. -/
structure SplitLevel where
  family : Nat
  child : Nat
  width : BitVec 3
  strand : BitVec 6
  pChild : BitVec 4
  deriving DecidableEq, Repr

/-- The lane shadow (R393). -/
structure LaneShadow where
  stack : List MaskEntry
  base : W64
  m : SMap W64
  gens : List W64
  deriving DecidableEq, Repr

/-- The context's region (R142, R143, R391, R393). index is none in the entry region. -/
structure Region where
  start : W64
  index : Option Nat
  serial : Nat
  committed : Bool
  k : SMap W64
  c : W16
  /-- the live-in k-registers and c-bits -/
  liveK : W64
  liveC : W16
  shadow : Option LaneShadow
  futures : List FReg
  deriving DecidableEq, Repr

/-- A scalar context with the lane side of its skein (R15). -/
structure Skein where
  /-- the context holds a skein (R11) -/
  live : Bool
  /-- the crew it belongs to, and its crew index (R13) -/
  crew : Nat
  index : Nat
  /-- k1 to k63 that are not zero (R16); the c-bits (R17); futures that are not EMPTY (R18); handles (R19) -/
  k : SMap W64
  c : W16
  f : SMap W64
  h : SMap W16
  /-- scalar PC and L-PC (R20) -/
  pc : W64
  lpc : W64
  /-- outstanding operations, oldest first; the path counters count them (R21) -/
  out : List OutOp
  /-- CONTROL (R36) -/
  control : W64
  /-- TRAPCAUSE, TRAPPC, TRAPLW, TRAPMASK (R37) -/
  trapcause : W64
  trappc : W64
  traplw : W64
  trapmask : W64
  /-- fields of SKST (R33); SPLITDEPTH is the length of splits -/
  width : BitVec 3
  strand : BitVec 6
  child : BitVec 4
  fusecode : BitVec 3
  range : Bool
  mdepth : Nat
  /-- lane words issued and not retired, oldest first (R379) -/
  unret : List Unretired
  /-- m1 to m15 (R23), the base entry (R25), the pushed entries, top first (R157) -/
  m : SMap W64
  base : W64
  stack : List MaskEntry
  /-- control queue, back-queue, oldest first (R27) -/
  queue : List QEntry
  back : List BackEntry
  /-- SPLITs not undone, latest first (R163) -/
  splits : List SplitLevel
  wait : Wait
  /-- handler state (R299, R382) -/
  handler : Bool
  /-- a trap that waits to be taken (R378, R382) -/
  pend : Option Trap
  /-- lanes of the next lane word that await replay (R385, R399), and the start position of a VDEC of which lanes have been performed (R222) -/
  replay : Option W64
  decodeAt : Option W32
  /-- the cycle in which its latest lane memory word issued -/
  openedAt : Nat
  /-- the trapping lane word has completed (R222), or its trap was push_loop's (R157) -/
  trapDone : Bool
  trapPush : Bool
  /-- q0 to q7 and MSEL of the entry that carries the trapping lane word (R399) -/
  tq : List W64
  tmsel : MReg
  region : Region
  /-- EXIT has issued (R144) -/
  exited : Bool
  /-- after YIELD: the cycle from which the context may be selected again, 0 where none holds it back, and the contexts of its bench
  that have been selected since (R299) -/
  yieldUntil : Nat
  yieldSeen : List Nat
  /-- order of placement on the core (R371) -/
  age : Nat
  /-- the next issue of each stream is not tested for breakpoints and watchpoints (R429) -/
  untested : Bool
  untestedLane : Bool
  /-- a pre-emption request with the time its budget ends, in thirds of a nanosecond (R390); the skein has stopped -/
  preempt : Option Nat
  stopped : Bool
  /-- a pre-emption request that waits until the bench resumes (R428) -/
  asked : Bool
  /-- the skein's registers were discarded at this save (R399) -/
  discarded : Bool
  /-- branch outcomes collected, with the cycle of the first (R436) -/
  branches : List Bool
  branchAt : Nat
  deriving DecidableEq, Repr

/-! ## A crew (R28) -/

/-- One crew-relative tile slot (R228). freeing: TFREE has issued and earlier operations remain (R236). rewritten
lists the bytes written since the tile became poisoned (R233). orphan: the skein whose index the Owner field holds has ended, and no skein
owns the tile (R230, R456). -/
structure Slot where
  gen : Nat
  alloc : Bool
  first : Bool
  desc : W64
  owner : Option Nat
  orphan : Bool
  stamp : Nat
  poisoned : Bool
  rewritten : List Nat
  withdrawn : Bool
  freeing : Bool
  deriving DecidableEq, Repr

/-- A permutation table (R70) with its load count (R265). -/
structure PermTable where
  len : Nat
  p : List Nat
  loads : Nat
  deriving DecidableEq, Repr

/-- What a queued tile-store operation does (R239, R264). -/
inductive TileAct
  | zero
  | copy
  | cvt (ctl : W64) (table : PermTable) (cbs : List (List W16)) (ctx : Nat)
  deriving DecidableEq, Repr

/-- A tile operation that has reached the tile store and is not performed (R231): its place in the order, and its
tiles by first slot with the descriptors they had. -/
structure TileOp where
  seq : Nat
  act : TileAct
  dst : Nat
  dstDesc : W64
  src : Nat
  srcDesc : W64
  deriving DecidableEq, Repr

/-- A barrier (R289, R290): the crew indices that have arrived in this phase, and the phase's count (0 before the
first arrival). -/
structure Barrier where
  arrived : List Nat
  count : Nat
  deriving DecidableEq, Repr

/-- A word that has issued: its address, and the cycle of its issue. -/
structure Issued where
  pc : W64
  since : Nat
  deriving DecidableEq, Repr

/-- An entry of the future table (R269, R272); pc is the address of the word that issued the operation (R431). -/
structure FutEntry where
  busy : Bool
  seq : Nat
  kind : Nat
  value : W64
  detached : Bool
  ctx : Nat
  reg : FReg
  control : W64
  word : Issued
  deriving DecidableEq, Repr

/-- A fetch of a crew that a page request holds (R387): who is 2 × the fetching skein's crew index, plus 1 for a lane word; denied says
that the verdict was DENY, which its word has still to meet. -/
structure FetchWait where
  who : Nat
  page : Nat
  denied : Bool
  deriving DecidableEq, Repr

/-- Where a crew stands (R361, R395, R400). -/
inductive CrewStatus
  | running | saved | readyAgain | ended
  deriving DecidableEq, Repr

/-- A crew (R13, R15, R28, R45). -/
structure Crew where
  /-- its commission's place in the scheduler table -/
  comm : Nat
  x : Nat
  y : Nat
  z : Nat
  lin : Nat
  core : Nat
  baseLine : Nat
  nLines : Nat
  ptag : Nat
  /-- crew-relative slot to physical slot (R226, R319) -/
  rename : List Nat
  slots : List Slot
  tileOps : List TileOp
  tileSeq : Nat
  perms : List PermTable
  cbs : List (List W16)
  pats : List (List (BitVec 6))
  bars : List Barrier
  futs : List FutEntry
  /-- CONTROL as each operation recorded it at issue, by TAG; unlisted is 0 (R273) -/
  futCtl : SMap W64
  /-- standing leave, and the tokens that operations hold from it (R296, R376) -/
  standing : Nat
  standHeld : Nat
  /-- crew indices held for ended child 0s (R13) -/
  reserved : List Nat
  status : CrewStatus
  /-- why it is to be saved: 1 PREEMPT, 2 SWAP, 3 FAULT (R398), 0 none -/
  saveKind : Nat
  /-- the fetches for which it was swapped out and that wait for a verdict or have a DENY to meet (R387) -/
  fetches : List FetchWait
  /-- the crew-fault record's cause, TIME and index (R386) -/
  faultCause : W32
  faultTime : W64
  faultIndex : Nat
  deriving DecidableEq, Repr

/-- The children of one SPLIT (R163): their number, width code and the child numbers that have ended (R166). -/
structure Family where
  crew : Nat
  core : Nat
  bench : Nat
  n : Nat
  wcode : BitVec 3
  pWidth : BitVec 3
  pStrand : BitVec 6
  pChild : BitVec 4
  index : Nat
  up : List SplitLevel
  ended : List Nat
  deriving DecidableEq, Repr

/-! ## Commissions (R14, R354) -/

/-- The states of a commission (R354). -/
inductive CState
  | queued | ready | admitted | running | draining | retired | refused | withdrawn | aborted
  deriving DecidableEq, Repr

/-- A commission: the fields of its launch packet (R349), of its image (R351, R352), its arguments (R129) and its
progress (R354, R359, R361, R365). -/
structure Commission where
  /-- the order of entry in the scheduler table -/
  uid : Nat
  key : CommKey
  tenant : Nat
  prio : Nat
  depth : Nat
  contract : Nat
  named : Nat
  nskein : Nat
  widthSel : Nat
  width : BitVec 3
  nx : Nat
  ny : Nat
  nz : Nat
  diemask : Nat
  coop : Bool
  nowait : Bool
  multi : Bool
  group : Nat
  gen : W32
  irq : Bool
  vector : Nat
  record : W64
  image : W64
  args : W64
  arglen : Nat
  pres : List W32
  malformed : Bool
  fromLaunch : Bool
  parent : Option Nat
  fut : Option (Nat × Nat)
  secs : List (Nat × Nat)
  vregs : Nat
  scratch : Nat
  slots : Nat
  argv : List W64
  state : CState
  reason : Nat
  tadmit : W64
  tfinal : W64
  readySeq : Nat
  started : Nat
  placed : Nat
  ended : Nat
  lastCore : Nat
  /-- a co-operative reservation has been made (R363), or it waits for one (R364) -/
  reserved : Bool
  waiting : Bool
  /-- waits for a page verdict during admission (R353) -/
  paging : Bool
  /-- a reduce crew's commission (R362): the launch counter it serves -/
  drover : Option Nat
  /-- the completion record is still to be written (R359) -/
  recordDue : Bool
  /-- the start barrier has completed (R368) -/
  startOk : Bool
  /-- the window's context entry was valid when the packet was taken (R405), and TIME then (R368) -/
  windowOk : Bool
  taken : Nat
  /-- the cores that have held a crew of it (R314) -/
  seen : List Nat
  deriving DecidableEq, Repr

/-! ## Memory system (R301, R307 to R327) -/

/-- Full/empty bit and span tag of a scratchpad line (R317). -/
structure LineState where
  empty : Bool
  tag : BitVec 3
  deriving DecidableEq, Repr

/-- A store-gather entry (R311): the bytes written, the contexts that wrote them, the cycle of the last write. -/
structure SgbEntry where
  core : Nat
  line : Nat
  bytes : SMap Byte
  writers : List Nat
  last : Nat
  deriving DecidableEq, Repr

/-- A copy of a line in a core's L1 (R314) or in one of its instruction caches (R301). -/
structure CacheLine where
  core : Nat
  line : Nat
  data : List Byte
  deriving DecidableEq, Repr

/-- An instruction-cache line; lane says which of the two caches (R301). -/
structure CodeLine where
  core : Nat
  lane : Bool
  line : Nat
  data : List Byte
  deriving DecidableEq, Repr

/-- A merging window (R309). readers are the cores that joined it, and Config.cores + d for the translation unit of die d. -/
structure MergeWindow where
  line : Nat
  opened : Nat
  readers : List Nat
  closed : Bool
  deriving DecidableEq, Repr

/-- A leaf of a translation (R322). -/
structure Leaf where
  frame : Nat
  bits : Nat
  stamp : Nat
  priv : Bool
  mart : Bool
  x : Bool
  w : Bool
  tenant : Nat
  deriving DecidableEq, Repr

/-- Where a translation is cached (R325). -/
inductive TlbPlace
  | bench (b : Nat) | core (c : Nat) | die (d : Nat)
  deriving DecidableEq, Repr

/-- A cached translation (R325): base is the virtual address of the page. -/
structure TlbEntry where
  place : TlbPlace
  tctx : Nat
  base : Nat
  leaf : Leaf
  deriving DecidableEq, Repr

/-- A non-leaf entry that a die's walk cache holds (R325): its level, and the virtual addresses that it covers as a number. -/
structure WalkCached where
  die : Nat
  tctx : Nat
  level : Nat
  cover : Nat
  entry : Nat
  deriving DecidableEq, Repr

/-- A walk that is due, posted to system software, ended without a translation, or ended at a word in error (R315, R325, R326). -/
inductive WalkStatus
  | due | posted | failed | error
  deriving DecidableEq, Repr

/-- A walk request of a die: the contexts whose accesses wait (R325, R326); kind is the KIND of R326. -/
structure WalkReq where
  die : Nat
  tctx : Nat
  page : Nat
  kind : Nat
  tenant : Nat
  status : WalkStatus
  waiters : List Nat
  deriving DecidableEq, Repr

/-- A completed collective range that a core has not dropped (R343). -/
structure RangeAcq where
  core : Nat
  lines : List Nat
  deriving DecidableEq, Repr

/-- The memory system between the cores and the storage. -/
structure MemSys where
  sgb : List SgbEntry
  l1 : List CacheLine
  ic : List CodeLine
  /-- lines that an L2 slice holds (R307) -/
  l2 : List Nat
  windows : List MergeWindow
  /-- 4-byte words under poison, by address divided by 4 (R449) -/
  poison : List Nat
  tlb : List TlbEntry
  walks : List WalkReq
  /-- the walk caches of the dies (R325) -/
  walkCache : List WalkCached
  /-- translations that the dies have obtained and no invalidation has hit: the frames in which cached lines may lie (R314, R327) -/
  mapped : List TlbEntry
  ranges : List RangeAcq
  /-- source bytes of copies as they stood before a later store, by 2^48 · place + storage address (R281) -/
  kept : SMap Byte
  /-- words of the register files with an uncorrectable error, by their numbers in Machine/Names.lean (R449) -/
  badRegs : List Nat
  deriving DecidableEq, Repr

/-! ## The Loom (R244 to R263) -/

/-- A resident beam (R253). -/
structure Beam where
  fmt : Fmt
  kb : Nat
  nb : Nat
  perm : Nat
  table : PermTable
  elems : List (List Nat)
  cb : List W16
  /-- a cell holds an uncorrectable error (R449) -/
  bad : Bool
  deriving DecidableEq, Repr

/-- The kinds of Loom operation. -/
inductive LoomKind
  | mbeam | mloop | mstep
  deriving DecidableEq, Repr

/-- A line of memory that a Loom operation has read: its virtual line number and bytes, the places of the bytes in words with an
uncorrectable error, and whether it carried another span tag than SPAN (R261, R263). -/
structure LoomLine where
  line : Nat
  bytes : List Byte
  bad : List Nat
  tag : Bool
  deriving DecidableEq, Repr

/-- An operation in the Loom's queues (R248): its issuer, its operands as they stood at issue, and its progress. pages holds
its issue translations, data the lines of memory that it has read, and left the virtual lines that it has still to read (R261). perm is the layout word's PERM;
index is its issuer's crew index, failed a code of R263, and poisons says that such a failure poisons the tile that it writes (R233); leave is the tokens it holds;
place is its place among the engine operations that reach memory lines (R280). -/
structure LoomOp where
  kind : LoomKind
  ctx : Nat
  index : Nat
  crew : Nat
  fut : Option Nat
  seq : Nat
  lw : W64
  mem : Bool
  wide : Bool
  set : Nat
  tileSlot : Nat
  tileDesc : W64
  accSlot : Nat
  accDesc : W64
  base : W64
  lay : W64
  loopw : W64
  fmt : Fmt
  kb : Nat
  nb : Nat
  perm : Nat
  table : PermTable
  cb : List W16
  pages : List (Nat × Leaf)
  data : List LoomLine
  left : List Nat
  drop : Bool
  region : Nat
  started : Bool
  leave : Nat
  standing : Bool
  row : Nat
  failed : Nat
  poisons : Bool
  cancelled : Bool
  place : Nat
  deriving DecidableEq, Repr

/-- One beam set (R247): its holder, its beam, and the last MBEAM for a restore (R268). -/
structure SetState where
  holder : Option Nat
  beam : Option Beam
  last : Option LoomOp
  deriving DecidableEq, Repr

/-- The Loom of a core: its operations by number, the queue of each set, the two sets. -/
structure Loom where
  ops : List (Nat × LoomOp)
  q0 : List Nat
  q1 : List Nat
  set0 : SetState
  set1 : SetState
  nextOp : Nat
  deriving DecidableEq, Repr

/-! ## Copies (R276 to R285) -/

/-- The copy kinds. -/
inductive CopyKind
  | cpy | cpyg | cpyz | mupd
  deriving DecidableEq, Repr

/-- One slice of a copy (R278): its issuer's future and rows, the storage lines in which it still has bytes to write, and
its place in the order of engine operations (R280). -/
structure Slice where
  ctx : Nat
  fut : Nat
  row0 : Nat
  rows : Nat
  lines : List Nat
  seq : Nat
  deriving DecidableEq, Repr

/-- A copy, open or started (R278, R280, R281, R283). desc holds the six descriptor registers; pages the translations made at
issue; expanded, pos and ended how far a compressed stream has been read (R282); written the bytes that a fingerprint covers,
by place in the rows; badPages the pages that were denied, with their codes; again says that its rows are being translated
again (R327, R389); recLeaf is the translation of its record's address, which stands (R284). -/
structure Copy where
  id : Nat
  crew : Nat
  core : Nat
  tctx : Nat
  tenant : Nat
  contract : Nat
  kind : CopyKind
  desc : List W64
  slices : List Slice
  pages : List (Nat × Leaf)
  started : Bool
  again : Bool
  recLeaf : Option Leaf
  cancelled : Bool
  leave : Nat
  standing : Bool
  waiting : Bool
  expanded : List Byte
  pos : Nat
  ended : Bool
  produced : Nat
  flags : Nat
  code : Nat
  badPages : List (Nat × Nat)
  written : SMap Byte
  lastTime : W64
  deriving DecidableEq, Repr

/-! ## Weighmaster, cores, benches -/

/-- Who waits for or holds leave (R375). -/
inductive LeaveOwner
  | loom (core op : Nat) | copy (id : Nat) | coll (id : Nat)
  deriving DecidableEq, Repr

/-- A request in a die's leave queue (R376). -/
structure LeaveReq where
  owner : LeaveOwner
  tokens : Nat
  deriving DecidableEq, Repr

/-- A beacon that is on its way (R297, R432): what it carries, whether its scope is .sys, and the benches it has reached. -/
structure Beacon where
  payload : W32
  time : W64
  commid : W64
  skid : W64
  sys : Bool
  reached : List Nat
  deriving DecidableEq, Repr

/-- A die's Weighmaster (R374 to R376) and its other die-wide state. -/
structure Die where
  share : Nat
  granted : Nat
  leaveQ : List LeaveReq
  /-- beacons queued (R432) -/
  beacons : List Beacon
  /-- error counters, CE and UE of kinds 0 to 7 (R450) -/
  ce : List Nat
  ue : List Nat
  /-- save pool and pushes discarded (R414) -/
  pool : List Nat
  poolDrops : Nat
  /-- BAR4 accesses to unmapped or host-window addresses (R407) -/
  bar4Drops : Nat
  deriving DecidableEq, Repr

/-- A core's slot table and tenant map (R369, R370) and placement-tag counter (R318). later holds the writes that
wait to take effect, with the cycle at which they do. -/
structure CoreSt where
  slottab : List Byte
  tmap : List W16
  later : List (Nat × Nat × W16)
  rrPtr : Nat
  ptagCtr : Nat
  deriving DecidableEq, Repr

/-- A register write held by a stopped bench (R427, R431): context, kind, register, value, producer, lane stream, whether the value has
arrived, and the lanes still to be written. Beside the kinds of R431, 16 is SKST.RANGE and 17 SKST.MDEPTH. -/
structure Held where
  ctx : Nat
  kind : Nat
  reg : Nat
  value : W64
  producer : Issued
  lane : Bool
  ready : Bool
  lanes : W64
  deriving DecidableEq, Repr

/-- A tagged lane word's assay record before it is written (R438, R439). left counts the lane words of its context, itself the last of
them, that have still to retire before the record is written. -/
structure Assay where
  lw : W64
  tissue : W64
  comm : W32
  tenant : Nat
  ctx : Nat
  active : Nat
  passes : Nat
  trapped : Bool
  stopped : Bool
  level : Nat
  left : Nat
  deriving DecidableEq, Repr

/-- A bench's debug block (R424 to R440). -/
structure Bench where
  stopped : Bool
  dumpdone : Bool
  stopcause : Nat
  stoptime : W64
  /-- SPREAD of its latest stop, which stands though the bench resumes (R427) -/
  spreading : Nat
  stopctl : W64
  dumpaddr : W64
  bpaddr : List W64
  bpctl : List W64
  wpbase : List W64
  wpctl : List W64
  trbase : W64
  trsize : W64
  trwptr : W64
  trrptr : W64
  trctl : W64
  trlost : W64
  /-- packets queued, oldest first, each as its words (R437) -/
  packets : List (List W64)
  lost : Nat
  full : Bool
  lastCycle : Nat
  /-- contexts whose next packet needs a SYNC, and packets since the last SYNC by context (R436, R437) -/
  needSync : List Nat
  sinceSync : SMap Nat
  asctl : W64
  asbase : W64
  assize : W64
  aswptr : W64
  asrptr : W64
  aslost : W64
  asgen : W64
  ascount : Nat
  asnext : Nat
  tagged : List Assay
  held : List Held
  /-- the outstanding operations of each context as they stood at the stop cycle (R430) -/
  stood : SMap (List OutOp)
  deriving DecidableEq, Repr

/-! ## Host interface (R403 to R414, R474) -/

/-- A command ring (R409). -/
structure CmdRing where
  base : W64
  size : W64
  tail : W64
  head : W64
  vec : W64
  deriving DecidableEq, Repr

/-- A page-request or crew-fault ring (R413), with the records held while it is full or disabled. -/
structure RecRing where
  base : W64
  size : W64
  head : W64
  tail : W64
  vec : W64
  held : List (BitVec 256)
  deriving DecidableEq, Repr

/-- An MSI-X vector (R474): message address and data, mask and pending bits. -/
structure MsixVec where
  addr : W64
  data : W32
  masked : Bool
  pending : Bool
  deriving DecidableEq, Repr

/-- A command that has started and not completed (R409, R410): function, entry address, OP, and what it waits for. bufs are the buffers
of the crews that it has saved, whose records are to be written. A COMM_SETUP that waits for a page of its rank table has OP 9, its
descriptor in arg, and in saved the verdict: 0 none yet, 1 RETRY, 2 DENY (R416). -/
structure Busy where
  fn : Nat
  entry : Nat
  op : Nat
  crews : List Nat
  saved : Nat
  arg : Nat
  bufs : List Nat
  deriving DecidableEq, Repr

/-- A launch packet that has been taken and has not entered the table (R348). -/
structure Taken where
  window : Nat
  fromLaunch : Option (Nat × Nat)
  parent : Option Nat
  bytes : List Byte
  group : Option Nat
  /-- the window's context entry was valid (R405); TIME in nanoseconds (R368) -/
  valid : Bool
  time : Nat
  deriving DecidableEq, Repr

/-- A crew that stands in a save image (R395, R400), with what the image does not hold: its skeins by the contexts that they
had, its tables as they stood, its copies, the last MBEAM of each set that it held (R268), and the registers and generator states of
its strands by their old places. kind is the image's KIND. -/
structure SavedCrew where
  crew : Nat
  was : Crew
  addr : Nat
  kind : Nat
  skeins : SMap Skein
  copies : List Copy
  beams : List (Nat × LoomOp)
  regs : SMap W32
  gens : SMap W64
  held : Bool
  deriving DecidableEq, Repr

/-- The host interface of the module. -/
structure HostIf where
  /-- context table, eight 64-bit words an entry, by 8 c + i (R405) -/
  ctxTab : SMap W64
  /-- command rings by function (R409), commands in progress -/
  cmd : List (Nat × CmdRing)
  busy : List Busy
  apbase : W64
  /-- MSI-X vectors by 2048 fn + vector, functions enabled, functions masked (R474), messages sent -/
  msix : List (Nat × MsixVec)
  msixOn : List Nat
  msixMask : List Nat
  msgs : List (W64 × W32)
  /-- page-request ring of die d at 2 d, crew-fault ring at 2 d + 1 (R413) -/
  rings : List (Nat × RecRing)
  /-- intake window bytes by 65536 c + offset (R347), launches taken (R348) -/
  windows : SMap Byte
  taken : List Taken
  saved : List SavedCrew
  shareDrops : Nat
  mailNonce : BitVec 256
  mailAddr : W64
  /-- the last value a host read returned, and whether the last system operation reported STALE_PLACEMENT (R318) -/
  lastRead : List Byte
  lastStale : Bool
  deriving DecidableEq, Repr

/-! ## Fabric (R415 to R423) -/

/-- A communicator (R416, R417). -/
structure Communicator where
  handle : Nat
  key : W64
  nranks : Nat
  rank : Nat
  tctx : Nat
  tenant : Nat
  clo : Nat
  chi : Nat
  mode : Nat
  delivery : Nat
  cc : Nat
  group : Bool
  ranktab : W64
  buf : W64
  buflen : W64
  stage : W64
  enttab : W64
  stride : Nat
  tlate : Nat
  tfail : Nat
  agreed : Nat
  ready : Bool
  /-- set-up answers received: rank and CAPC words (R417) -/
  answers : List (Nat × List W64)
  mismatch : Bool
  began : Nat
  lastgen : W32
  freeing : Bool
  /-- members' reports to the start barrier, by rank, each with its GEN, and refusals with GEN and REASON (R368) -/
  reports : List (Nat × Nat)
  refusals : List (Nat × Nat × Nat)
  deriving DecidableEq, Repr

/-- A launch counter (R419) with the chunk it serves (R422): part says that the partial stands at STAGE, own is the local
contribution with the operation that made it. flushed: the chunk has gone on without the local contribution; fcode is the cause with
which it failed (R423). -/
structure Counter where
  id : Nat
  comm : Nat
  step : Nat
  owner : Nat
  offset : Nat
  chunk : Nat
  fmt : Fmt
  part : Bool
  own : Option (List Byte)
  op : Option Nat
  src : W64
  late : List Nat
  flushed : Bool
  failed : Bool
  fcode : Nat
  partTime : Nat
  ownTime : Nat
  sent : Bool
  deriving DecidableEq, Repr

/-- A contribution of a COLL: peer rank, offset in the buffer, source address and source bytes (R287, R288). -/
structure Contrib where
  peer : Nat
  offset : Nat
  src : W64
  bytes : List Byte
  deriving DecidableEq, Repr

/-- A COLL in progress (R287, R288): what it contributes, the contributions to its own rank still to be written, the acknowledgements
and folds still to come, the chunks it owns that have not ended, the worst outcome, and what its record needs (R423). -/
structure CollOp where
  id : Nat
  crew : Nat
  fut : Nat
  comm : Nat
  step : Nat
  reduce : Bool
  fmt : Fmt
  chunk : Nat
  record : W64
  tctx : Nat
  tenant : Nat
  contribs : List Contrib
  locals : List Contrib
  began : Nat
  bytes : Nat
  toAck : Nat
  toFold : Nat
  owned : List Nat
  outcome : Nat
  fcode : Nat
  late : List Nat
  leave : Nat
  standing : Bool
  waiting : Bool
  /-- the entropy-table entries with which packets of the step have been sent (R423) -/
  used : List Nat
  deriving DecidableEq, Repr

/-- A message of which some packets have arrived: communicator key, sending rank, message number, bytes so far, its lowest buffer offset so far,
lines written (R415). -/
structure Incoming where
  key : W64
  rank : Nat
  msg : Nat
  count : Nat
  first : Nat
  lines : List Nat
  deriving DecidableEq, Repr

/-- What a message to a peer device is (R366, R367, R417 to R419, R422, R432). -/
inductive TxKind
  | send | partialSum | result | marker | setup | replica | placed | refused | beacon | ack
  deriving DecidableEq, Repr

/-- A message that this device has sent to the fabric: communicator, peer rank, step and owner, byte offset and bytes, the
entropy value and egress port of each of its packets (R421), late ranks (R422), a failure marker's cause (R423), the collective
operation that waits for its acknowledgement, and the entropy-table entry of its packets. -/
structure TxMsg where
  kind : TxKind
  comm : Nat
  peer : Nat
  step : Nat
  owner : Nat
  offset : Nat
  bytes : List Byte
  packets : List (Nat × Nat)
  late : List Nat
  fcode : Nat
  op : Option Nat
  entry : Option Nat
  deriving DecidableEq, Repr

/-- What was sent in a step of a communicator before the COLL that its record belongs to: bytes, and the table entries of the packets
(R423). -/
structure EarlySent where
  comm : Nat
  step : Nat
  bytes : Nat
  entries : List Nat
  deriving DecidableEq, Repr

/-- A packet that the Steward of a die has sent to the fabric, with its source address (R448). -/
structure StewardMsg where
  die : Nat
  source : BitVec 128
  bytes : List Byte
  deriving DecidableEq, Repr

/-- The fabric side of the module. -/
structure Fabric where
  comms : List Communicator
  counters : List Counter
  ops : List CollOp
  sent : List TxMsg
  receiving : List Incoming
  /-- beacons that other devices have sent (R432) -/
  beacons : List Beacon
  early : List EarlySent
  /-- under ROD, the number of the next message from a sending endpoint to a die's, where it is not 0 (R415) -/
  rodNext : List (BitVec 128 × Nat × Nat)
  /-- packets that the Stewards have sent, and those of each die whose source was replaced (R448) -/
  steward : List StewardMsg
  forged : List Nat
  nextId : Nat
  deriving DecidableEq, Repr

/-! ## The whole module -/

/-- The part and its fuses (R441, R442, R404), its rollback counter among them (R446). -/
structure Part where
  is384P : Bool
  torhw : Bool
  decomp : Bool
  stepping : Byte
  rollback : Nat
  bootKey : BitVec 512
  deriving DecidableEq, Repr

/-- Device status and boot measurements (R445, R446). -/
structure DevSt where
  ready : Bool
  thermal : Bool
  clamp : Bool
  clamps : Nat
  tmax : Byte
  meas : List (BitVec 256)
  /-- arithmetic cycles since reset, and TIME in thirds of a nanosecond (R38, R3) -/
  cycle : Nat
  time3 : Nat
  deriving DecidableEq, Repr

/-- The update that the lanes of an atomic word make of an element, or of one half of a packed pair (R215, R217): the fields of its word, the
half, true for the high one, and the v-register that receives the olds. -/
structure LaneUpdate where
  aop : Nat
  ty : Fmt
  rnd : Rnd
  sat : Bool
  flush : Bool
  lw : Nat
  half : Option Bool
  dst : Option Nat
  deriving DecidableEq, Repr

/-- What an access that waits will do: a scalar load or store, which may be a release; a scalar atomic with its operands; one lane of a lane
load, of n registers; or the updates of lanes at one element, each lane with its operands, in ascending order, which have begun or not. -/
inductive LateAct
  | load (d : KReg) (plain : Bool)
  | store (bytes : List Byte) (rel : Option Scope)
  | atomic (d : KReg) (op : AtmOp) (b cmp : Nat)
  | fill (lane dst : Nat) (t : Fmt) (n : Nat) (plain : Bool)
  | update (u : LaneUpdate) (lanes : List (Nat × Nat × Nat)) (opened : Bool)
  deriving DecidableEq, Repr

/-- An access of a skein that has issued and is performed after later ones of it (R334): the word, the storage address, the
bytes, what it does, and the scope for which it comes before what follows it: its own where it is an acquire, or that of a later release
or fence (R133, R336). -/
structure LateOp where
  ctx : Nat
  word : Issued
  addr : Nat
  size : Nat
  act : LateAct
  scope : Option Scope
  deriving DecidableEq, Repr

/-- A turn of the agenda: which agent moves next (log 1). late and lateLane are a scalar and a lane word that issue and, where
they access memory, are performed after words that follow them; perform is the access that stands at a place among those that wait, and of
the updates at one element only some of the lanes' (R334, log 81). cycle lists the words that issue in one cycle, each by its context and true for a lane
word (R370 to R373). hostMem is the host's own write of its memory, which the
host-link window reaches (R304, log 6); steward is a packet that a die's Steward sends with a source address of its choice (R448). -/
inductive Turn
  | scalar (c : Nat)
  | lane (c : Nat)
  | late (c : Nat)
  | lateLane (c : Nat)
  | perform (pos lanes : Nat)
  | cycle (words : List (Nat × Bool))
  | event (i : Instr)
  | hostMem (addr : Nat) (bytes : List Byte)
  | steward (die : Nat) (source : BitVec 128) (bytes : List Byte)
  | idle
  deriving DecidableEq, Repr

/-- The state of one module. -/
structure State where
  /-- turns that come next, before the default order (log 1) -/
  agenda : List Turn
  /-- the context whose word executes, and the default order's last context (log 1) -/
  cur : Nat
  rr : Nat
  /-- free values drawn so far (log 7) -/
  freeCtr : Nat
  part : Part
  dev : DevSt
  /-- scalar contexts by 128 core + 32 bench + context (R383) -/
  ctxs : SMap Skein
  /-- lane registers that are not zero, by 256 physical lane + register; generator states by physical lane, where the
  physical lane is 256 bench + 4 strand + position (R22, R223) -/
  vregs : SMap W32
  gens : SMap W64
  crews : SMap Crew
  nextCrew : Nat
  families : SMap Family
  nextFamily : Nat
  /-- every byte of storage that is not zero, in rising address order: physical addresses below 2^44 (R304), the
  scratchpad of core k from 2^44 + 2^19 k (R316), its tile store from 2^45 + 2^20 k (R226) -/
  mem : List Host.Cell
  /-- scratchpad lines that are not full with tag 0, by address divided by 128 (R317) -/
  lineSt : SMap LineState
  ms : MemSys
  looms : SMap Loom
  /-- copies; the next copy number, and the next place in the order of engine operations (R280) -/
  copies : List Copy
  nextCopy : Nat
  nextPlace : Nat
  coreSt : SMap CoreSt
  dies : SMap Die
  benches : SMap Bench
  comms : List Commission
  /-- next READY sequence number, and the counter of assigned identifiers (R350, R356) -/
  nextReady : Nat
  nextId : Nat
  host : HostIf
  fab : Fabric
  /-- accesses of skeins that have issued and are still to be performed, oldest first (R334) -/
  late : List LateOp
  deriving DecidableEq, Repr

/-! ## Empty records -/

/-- The entry region of a context (R143). -/
def Region.entry (start : W64) : Region :=
  { start, index := none, serial := 0, committed := false, k := [], c := 0, liveK := BitVec.allOnes 64,
    liveC := BitVec.allOnes 16, shadow := none, futures := [] }

/-- A context that holds no skein; its fields are those of kernel entry (R44). -/
def Skein.empty : Skein :=
  { live := false, crew := 0, index := 0, k := [], c := 0, f := [], h := [], pc := 0, lpc := 0, out := [],
    control := 1, trapcause := 0, trappc := 0, traplw := 0, trapmask := 0, width := 0, strand := 0, child := 0,
    fusecode := 0, range := false, mdepth := 0, unret := [], m := [], base := 0xF, stack := [], queue := [],
    back := [], splits := [], wait := .none, handler := false, pend := none, replay := none, decodeAt := none, openedAt := 0, trapDone := false,
    trapPush := false, tq := [], tmsel := 0, region := Region.entry 0, exited := false, yieldUntil := 0, yieldSeen := [], age := 0,
    untested := false, untestedLane := false, preempt := none, stopped := false, asked := false, discarded := false, branches := [], branchAt := 0 }

/-- A reserved, unallocated tile slot at crew start (R228). -/
def Slot.fresh : Slot :=
  { gen := 1, alloc := false, first := false, desc := 0, owner := none, orphan := false, stamp := 0, poisoned := false,
    rewritten := [], withdrawn := false, freeing := false }

/-- The identity permutation of crew start (R45, log 19). -/
def PermTable.identity : PermTable := { len := 1, p := [0], loads := 0 }

/-- A barrier with no arrivals (R45). -/
def Barrier.fresh : Barrier := { arrived := [], count := 0 }

/-- A free entry of the future table (R269). -/
def FutEntry.free : FutEntry :=
  { busy := false, seq := 0, kind := 0, value := 0, detached := false, ctx := 0, reg := 0, control := 0, word := ⟨0, 0⟩ }

/-- A commission record that names nothing. -/
def Commission.empty : Commission :=
  { uid := 0, key := ⟨0, 0⟩, tenant := 0, prio := 0, depth := 0, contract := 5, named := 0, nskein := 1, widthSel := 0, width := 3,
    nx := 1, ny := 1, nz := 1, diemask := 0, coop := false, nowait := false, multi := false, group := 0, gen := 0,
    irq := false, vector := 0, record := 0, image := 0, args := 0, arglen := 0, pres := [], malformed := false,
    fromLaunch := false, parent := none, fut := none, secs := [], vregs := 256, scratch := 0, slots := 0, argv := [],
    state := .queued, reason := 0, tadmit := 0, tfinal := 0, readySeq := 0, started := 0, placed := 0, ended := 0,
    lastCore := 0, reserved := false, waiting := false, paging := false, drover := none, recordDue := false,
    startOk := false, windowOk := true, taken := 0, seen := [] }

/-- The crew record before a placement fills it (R45). -/
def Crew.empty : Crew :=
  { comm := 0, x := 0, y := 0, z := 0, lin := 0, core := 0, baseLine := 0, nLines := 0, ptag := 0, rename := [],
    slots := [], tileOps := [], tileSeq := 0, perms := List.replicate 4 PermTable.identity,
    cbs := List.replicate 8 (List.replicate 16 0), pats := List.replicate 4 ((List.range 64).map (BitVec.ofNat 6)),
    bars := List.replicate 16 Barrier.fresh, futs := List.replicate 64 FutEntry.free, futCtl := [], standing := 0, standHeld := 0,
    reserved := [], status := .running, saveKind := 0, fetches := [], faultCause := 0, faultTime := 0,
    faultIndex := 0 }

/-- A family record that names nothing. -/
def Family.empty : Family :=
  { crew := 0, core := 0, bench := 0, n := 0, wcode := 0, pWidth := 0, pStrand := 0, pChild := 0, index := 0, up := [],
    ended := [] }

/-- A full line with span tag 0 (R45). -/
def LineState.full : LineState := { empty := false, tag := 0 }

/-- A beam set that no crew holds (R247). -/
def SetState.empty : SetState :=
  { holder := none, beam := none, last := none }

/-- A Loom with nothing queued. -/
def Loom.empty : Loom :=
  { ops := [], q0 := [], q1 := [], set0 := SetState.empty, set1 := SetState.empty, nextOp := 0 }

/-- A core's tables at reset (R318, R369). -/
def CoreSt.reset : CoreSt :=
  { slottab := List.replicate 64 0, tmap := List.replicate 16 0, later := [], rrPtr := 0, ptagCtr := 1 }

/-- A die at reset: the share is set at bring-up (R451). -/
def Die.reset : Die :=
  { share := 650, granted := 0, leaveQ := [], beacons := [], ce := List.replicate 8 0, ue := List.replicate 8 0,
    pool := [], poolDrops := 0, bar4Drops := 0 }

/-- A debug block at reset (R424). -/
def Bench.reset : Bench :=
  { stopped := false, dumpdone := false, stopcause := 0, stoptime := 0, spreading := 0, stopctl := 0, dumpaddr := 0,
    bpaddr := List.replicate 4 0, bpctl := List.replicate 4 0, wpbase := List.replicate 4 0,
    wpctl := List.replicate 4 0, trbase := 0, trsize := 0, trwptr := 0, trrptr := 0, trctl := 0, trlost := 0,
    packets := [], lost := 0, full := false, lastCycle := 0, needSync := [], sinceSync := [], asctl := 0, asbase := 0,
    assize := 0, aswptr := 0, asrptr := 0, aslost := 0, asgen := 0, ascount := 0, asnext := 0, tagged := [],
    held := [], stood := [] }

/-- A command ring at reset (R409). -/
def CmdRing.reset : CmdRing := { base := 0, size := 0, tail := 0, head := 0, vec := 0 }

/-- A record ring at reset (R413). -/
def RecRing.reset : RecRing := { base := 0, size := 0, head := 0, tail := 0, vec := 0, held := [] }

/-- An MSI-X vector at reset: masked (R474). -/
def MsixVec.reset : MsixVec := { addr := 0, data := 0, masked := true, pending := false }

/-- Nothing cached, buffered or waiting. -/
def MemSys.empty : MemSys :=
  { sgb := [], l1 := [], ic := [], l2 := [], windows := [], poison := [], tlb := [], walks := [], walkCache := [], mapped := [], ranges := [], kept := [], badRegs := [] }

/-- The host interface at reset (R405, R407, R409, R413, R474). -/
def HostIf.reset : HostIf :=
  { ctxTab := [], cmd := [], busy := [], apbase := 0, msix := [], msixOn := [], msixMask := [], msgs := [], rings := [],
    windows := [], taken := [], saved := [], shareDrops := 0, mailNonce := 0, mailAddr := 0, lastRead := [],
    lastStale := false }

/-- No communicator (R416). -/
def Fabric.reset : Fabric :=
  { comms := [], counters := [], ops := [], sent := [], receiving := [], beacons := [], early := [], rodNext := [], steward := [], forged := List.replicate 4 0, nextId := 1 }

/-- Device status at reset (R445, R446, R38). -/
def DevSt.reset : DevSt :=
  { ready := false, thermal := false, clamp := false, clamps := 0, tmax := 0, meas := List.replicate 4 0, cycle := 0,
    time3 := 0 }

/-- The part assumed at reset: FZ6-384 with every optional unit (log 10). Its fused boot key is the base point of the SM2 curve, which stands
for any key that has signatures (log 15). -/
def Part.full : Part :=
  { is384P := false, torhw := true, decomp := true, stepping := 0, rollback := 0,
    bootKey := 0x32C4AE2C1F1981195F9904466A39C9948FE30BBFF2660BE1715A4589334C74C7BC3736A2F4F6779C59BDCEE36B692153D0A9877CC62A474002DF32E52139F0A0 }

/-- The module right after reset: nothing placed, memory with nothing listed, bring-up still to run (R451). -/
def State.reset : State :=
  { agenda := [], cur := 0, rr := 0, freeCtr := 0, part := Part.full, dev := DevSt.reset, ctxs := [], vregs := [],
    gens := [], crews := [], nextCrew := 0, families := [], nextFamily := 0, mem := [], lineSt := [],
    ms := MemSys.empty, looms := [], copies := [], nextCopy := 0, nextPlace := 0, coreSt := [], dies := [], benches := [], comms := [],
    nextReady := 0, nextId := 0, host := HostIf.reset, fab := Fabric.reset, late := [] }

end Sys2Proof.Machine
end

