-- ==== Sys2Proof/Machine/Store.lean ====
section
/-! DEFINITION. Maps by natural key, kept in rising key order, and the canonical list of the storage bytes. -/

namespace Sys2Proof.Machine

/-! ## Maps -/

/-- The entry of a key, if there is one. -/
def smFind {α : Type} : SMap α → Nat → Option α
  | [], _ => none
  | (j, v) :: m, k => if j = k then some v else smFind m k

/-- The entry of a key, or the default. -/
def smGet {α : Type} (d : α) (m : SMap α) (k : Nat) : α := (smFind m k).getD d

/-- A map with an entry put in its place. -/
def smPut {α : Type} : SMap α → Nat → α → SMap α
  | [], k, v => [(k, v)]
  | (j, w) :: m, k, v => if k < j then (k, v) :: (j, w) :: m else if k = j then (k, v) :: m else (j, w) :: smPut m k v

/-- A map without a key. -/
def smDel {α : Type} (m : SMap α) (k : Nat) : SMap α := m.filter fun p => p.1 ≠ k

/-- A map whose key holds v, where an entry equal to the default is not listed. -/
def smSet {α : Type} [DecidableEq α] (d : α) (m : SMap α) (k : Nat) (v : α) : SMap α :=
  if v = d then smDel m k else smPut m k v

/-- Keys strictly rising. -/
def smSorted {α : Type} : SMap α → Bool
  | [] => true
  | [_] => true
  | (j, _) :: (k, w) :: m => decide (j < k) && smSorted ((k, w) :: m)

/-- An element of a list of fixed length replaced; none beyond its end. -/
def listSet {α : Type} : List α → Nat → α → List α
  | [], _, _ => []
  | _ :: t, 0, v => v :: t
  | x :: t, n + 1, v => x :: listSet t n v

/-- A list without its repeats. -/
def distinct (l : List Nat) : List Nat := l.foldl (fun r x => if r.contains x then r else r ++ [x]) []

/-- A list in the order of le, where elements that le does not tell apart keep their order. -/
def insertBy {α : Type} (le : α → α → Bool) (x : α) : List α → List α
  | [] => [x]
  | y :: l => if le x y then x :: y :: l else y :: insertBy le x l
def sortBy {α : Type} (le : α → α → Bool) (l : List α) : List α := l.foldr (insertBy le) []

/-- The entry of a list of pairs by natural number (unordered tables: rings, vectors). -/
def alGet {α : Type} (d : α) (m : List (Nat × α)) (k : Nat) : α := smGet d m k

/-! ## Storage -/

/-- The canonical form of storage: addresses strictly rising, and no byte that is zero, since an unlisted byte reads
as zero (log 5). -/
def Memory.wf (m : List Host.Cell) : Bool := smSorted m && m.all fun c => c.2 ≠ 0

/-- One byte of storage. -/
def memByte (m : List Host.Cell) (a : Nat) : Byte := smGet 0 m a

/-- Storage with one byte written. -/
def memPut (m : List Host.Cell) (a : Nat) (b : Byte) : List Host.Cell := smSet 0 m a b

/-- Storage with bytes written from an address upward. -/
def memWrite (m : List Host.Cell) (a : Nat) : List Byte → List Host.Cell
  | [] => m
  | b :: bs => memWrite (memPut m a b) (a + 1) bs

/-- The n bytes of storage from an address upward. -/
def memRead (m : List Host.Cell) (a n : Nat) : List Byte := (List.range n).map fun i => memByte m (a + i)

/-- First storage address of a core's scratchpad and of its tile store. -/
def spadBase (core : Nat) : Nat := 2 ^ 44 + 2 ^ 19 * core
def tileBase (core : Nat) : Nat := 2 ^ 45 + 2 ^ 20 * core

end Sys2Proof.Machine
end

