-- ==== Sys2Proof/Machine/Memory.lean ====
section
/-! DEFINITION. The memory system (11, 12): contexts and their owners, regions, caches, the store-gather buffers,
translation, and single accesses. -/

namespace Sys2Proof.Machine

/-! ## Contexts, crews, commissions -/

/-- The core, bench and die of a scalar context (R383's numbering). -/
def coreOf (c : Nat) : Nat := c / 128
def benchOf (c : Nat) : Nat := c / 32
def dieOfCore (k : Nat) : Nat := k / Config.coresPerDie
def dieOf (c : Nat) : Nat := dieOfCore (coreOf c)

/-- A context, and the state with a context replaced. -/
def State.ctx (s : State) (c : Nat) : Skein := smGet Skein.empty s.ctxs c
def State.setCtx (s : State) (c : Nat) (k : Skein) : State := { s with ctxs := smSet Skein.empty s.ctxs c k }
/-- The context whose word executes. -/
def State.me (s : State) : Skein := s.ctx s.cur
def State.setMe (s : State) (k : Skein) : State := s.setCtx s.cur k

/-- A crew, and the state with a crew replaced. -/
def State.crew (s : State) (n : Nat) : Crew := smGet Crew.empty s.crews n
def State.setCrew (s : State) (n : Nat) (w : Crew) : State := { s with crews := smPut s.crews n w }
/-- The crew of the context whose word executes. -/
def State.myCrew (s : State) : Crew := s.crew s.me.crew
def State.setMyCrew (s : State) (w : Crew) : State := s.setCrew s.me.crew w

/-- A commission of the scheduler table. -/
def State.commission (s : State) (uid : Nat) : Commission := (s.comms.find? fun m => m.uid = uid).getD Commission.empty
/-- The commission of a context's crew. -/
def State.commOf (s : State) (c : Nat) : Commission := s.commission (s.crew (s.ctx c).crew).comm
def State.myComm (s : State) : Commission := s.commOf s.cur

/-- TIME in nanoseconds (R38). -/
def State.time (s : State) : Nat := s.dev.time3 / 3

def State.core (s : State) (k : Nat) : CoreSt := smGet CoreSt.reset s.coreSt k
def State.setCore (s : State) (k : Nat) (v : CoreSt) : State := { s with coreSt := smSet CoreSt.reset s.coreSt k v }
def State.die (s : State) (d : Nat) : Die := smGet Die.reset s.dies d
def State.setDie (s : State) (d : Nat) (v : Die) : State := { s with dies := smSet Die.reset s.dies d v }
def State.bench (s : State) (b : Nat) : Bench := smGet Bench.reset s.benches b
def State.setBench (s : State) (b : Nat) (v : Bench) : State := { s with benches := smSet Bench.reset s.benches b v }
def State.loom (s : State) (k : Nat) : Loom := smGet Loom.empty s.looms k
def State.setLoom (s : State) (k : Nat) (v : Loom) : State := { s with looms := smSet Loom.empty s.looms k v }

/-- The contexts that hold skeins of a crew. -/
def State.crewCtxs (s : State) (n : Nat) : List Nat :=
  (s.ctxs.filter fun p => p.2.live && p.2.crew = n).map (·.1)

/-- A draw of the free-value counter (log 7). -/
def State.draw (s : State) : Nat × State := (s.freeCtr, { s with freeCtr := s.freeCtr + 1 })

/-! ## The context table (R405) -/

/-- A context table entry as one number of 512 bits. -/
def State.ctxEntry (s : State) (t : Nat) : Nat :=
  (List.range 8).foldl (fun x i => x + (smGet 0 s.host.ctxTab (8 * t + i)).toNat * 2 ^ (64 * i)) 0
def ctxValid (e : Nat) : Bool := bitOf e 0
def ctxFunc (e : Nat) : Nat := bitsOf e 8 2
def ctxTenant (e : Nat) : Nat := bitsOf e 23 16
def ctxRoot (e : Nat) : Nat := bitsOf e 191 128
def ctxTrapVec (e : Nat) : Nat := bitsOf e 255 199
def ctxTrapLen (e : Nat) : Nat := bitsOf e 383 352
def ctxFrameBase (e : Nat) : Nat := bitsOf e 456 400

/-! ## Regions (R304, R305) -/

/-- What a storage address reaches. -/
inductive RegionKind
  | hbm | mart | host | spad | hole
  deriving DecidableEq, Repr

/-- The region of a storage address (R304; scratchpads stand from 2^44 up). -/
def regionOf (a : Nat) : RegionKind :=
  if a < Config.hbmEnd then .hbm
  else if Config.martBase ≤ a && a < Config.martEnd then .mart
  else if Config.hostBase ≤ a && a < Config.physEnd then .host
  else if Config.physEnd ≤ a then .spad
  else .hole

/-- The die that holds a line (R305, R306). -/
def homeDie (a : Nat) : Nat :=
  match regionOf a with
  | .hbm => ((bitsOf a 14 12).xor ((bitsOf a 22 20).xor (bitsOf a 30 28))) / 2
  | .mart => bitsOf a 26 25
  | _ => 0

/-- The home slice of an HBM address on its home die (R305). -/
def homeSlice (a : Nat) : Nat := (bitsOf a 11 7).xor (bitsOf a 19 15)
/-- The home slice of an HBM address among the slices of the module (R305, R301). -/
def sliceNo (a : Nat) : Nat := Config.slicesPerDie * homeDie a + homeSlice a
/-- The bank and the word in it of a Mart address, on its die (R306). -/
def martBank (a : Nat) : Nat := bitsOf (bitsOf a 24 2) 9 0
def martWord (a : Nat) : Nat := bitsOf (bitsOf a 24 2) 22 10

def lineOf (a : Nat) : Nat := a / Config.lineBytes

/-! ## Poison (R315, R449) -/

/-- Some 4-byte word of the n bytes at a holds an uncorrectable error. -/
def State.poisoned (s : State) (a n : Nat) : Bool := s.ms.poison.any fun w => 4 * w < a + n && a < 4 * w + 4

/-- Bytes written: the words that they cover whole hold data again (R449). -/
def unpoison (p : List Nat) (a n : Nat) : List Nat := p.filter fun w => !(a ≤ 4 * w && 4 * w + 4 ≤ a + n)

/-- Storage bytes written at their target. -/
def State.write (s : State) (a : Nat) (bs : List Byte) : State :=
  { s with mem := memWrite s.mem a bs, ms := { s.ms with poison := unpoison s.ms.poison a bs.length } }

/-- Storage bytes at their target. -/
def State.read (s : State) (a n : Nat) : List Byte := memRead s.mem a n
def State.readNat (s : State) (a n : Nat) : Nat := leNat (s.read a n)

/-- A count that stays at 2^32 - 1 (R450). -/
def bump32 (n : Nat) : Nat := min (n + 1) (2 ^ 32 - 1)

/-- An error of a kind is counted (R450). -/
def State.countError (s : State) (die kind : Nat) (bad : Bool) : State :=
  let d := s.die die
  s.setDie die (if bad then { d with ue := listSet d.ue kind (bump32 (d.ue.getD kind 0)) }
    else { d with ce := listSet d.ce kind (bump32 (d.ce.getD kind 0)) })

/-! ## Ownership and empty lines (R209, R280, R310, R317) -/

def State.lineState (s : State) (line : Nat) : LineState := smGet LineState.full s.lineSt line
def State.setLine (s : State) (line : Nat) (v : LineState) : State :=
  { s with lineSt := smSet LineState.full s.lineSt line v }

/-- A line of the host-link window, which no copy owns (R280). -/
def hostLine (line : Nat) : Bool := Config.hostBase ≤ 128 * line && decide (128 * line < Config.physEnd)

/-- A copy still has bytes to write in the line, or the line is marked empty. -/
def State.lineBusy (s : State) (line : Nat) : Bool :=
  (s.lineState line).empty || (!hostLine line && s.copies.any fun y => y.slices.any fun z => z.lines.contains line)

/-- A slice before a place in the order of engine operations has bytes to write in the line (R280). -/
def State.lineBefore (s : State) (line place : Nat) : Bool :=
  s.copies.any fun y => y.slices.any fun z => decide (z.seq < place) && z.lines.contains line

/-! ## L2 slices (R307, R309) -/

/-- The element of a list that a full cache gives up: its own choice (log 8). -/
def State.victimOf {α : Type} (s : State) (l : List α) : Option α := l[Config.victim s.freeCtr % l.length]?

/-- The lines of a slice that its 2 MiB hold, as numbers of lines. -/
def State.sliceLines (s : State) (line : Nat) : List Nat :=
  s.ms.l2.filter fun l => sliceNo (Config.lineBytes * l) = sliceNo (Config.lineBytes * line)

/-- A line enters its home slice; a full slice gives one of its own lines up (R305, R307, log 8). -/
def State.l2Hold (s : State) (line : Nat) : State :=
  if s.ms.l2.contains line then s
  else
    let mine := s.sliceLines line
    let gone := if Config.sliceCap ≤ mine.length then s.victimOf mine else none
    let s1 := if gone.isSome then s.draw.2 else s
    let keep := match gone with
      | some v => s1.ms.l2.erase v
      | none => s1.ms.l2
    { s1 with ms := { s1.ms with l2 := line :: keep } }

/-- A merging window that a read arriving now joins: 64 cycles from its miss, and no write has closed it (R309). -/
def windowOpen (now line : Nat) (w : MergeWindow) : Bool := !w.closed && (w.line = line) && decide (now < w.opened + 64)

/-- A read that reaches the slice of an HBM line: a miss opens a merging window or joins the one that is open (R309). reader is
the core, or for the translation unit of die d the number Config.cores + d. -/
def State.sliceRead (s : State) (reader a : Nat) : State :=
  if regionOf a ≠ .hbm || s.ms.l2.contains (lineOf a) then s
  else
    let mine := windowOpen s.dev.cycle (lineOf a)
    let join (w : MergeWindow) : MergeWindow := if mine w then { w with readers := w.readers ++ [reader] } else w
    if s.ms.windows.any mine then { s with ms := { s.ms with windows := s.ms.windows.map join } }
    else { s with ms := { s.ms with windows :=
        s.ms.windows ++ [{ line := lineOf a, opened := s.dev.cycle, readers := [reader], closed := false }] } }

/-- The reads of several storage addresses, by lines. -/
def State.sliceReads (s : State) (reader : Nat) (as : List Nat) : State :=
  (distinct (as.map lineOf)).foldl (fun s l => s.sliceRead reader (Config.lineBytes * l)) s

/-- A write that reaches the slice closes the line's merging window (R309), and the slice holds the line. -/
def State.sliceWrite (s : State) (a : Nat) : State :=
  if regionOf a ≠ .hbm then s
  else
    let ws := s.ms.windows.map fun w => if w.line = lineOf a then { w with closed := true } else w
    State.l2Hold { s with ms := { s.ms with windows := ws } } (lineOf a)

/-- Bytes written at their home slice, bank or scratchpad by any agent. -/
def State.writeHome (s : State) (a : Nat) (bs : List Byte) : State := (s.write a bs).sliceWrite a

/-- Bytes written at their targets as one write: a word whose four bytes are among them holds data again (R449). -/
def State.writeBytes (s : State) (l : List (Nat × Byte)) : State :=
  let has (a : Nat) : Bool := l.any fun p => p.1 = a
  let s1 := { s with mem := l.foldl (fun m p => memPut m p.1 p.2) s.mem,
                     ms := { s.ms with poison := s.ms.poison.filter fun w => !((List.range 4).all fun i => has (4 * w + i)) } }
  (distinct (l.map fun p => lineOf p.1)).foldl (fun s n => s.sliceWrite (Config.lineBytes * n)) s1

/-! ## The store-gather buffer (R311 to R313) -/

def State.sgbFind (s : State) (core line : Nat) : Option SgbEntry :=
  s.ms.sgb.find? fun e => e.core = core && e.line = line

/-- An operation that waits for a global line no longer waits for it (R219). -/
def dropLine (line : Nat) (k : Skein) : Skein :=
  { k with out := k.out.map fun o => { o with lines := o.lines.filter (· ≠ line) } }

/-- The bytes of an entry with their storage addresses: of two values of one byte the last is the one that a read finds. -/
def SgbEntry.stores (e : SgbEntry) : List (Nat × Byte) :=
  e.bytes.reverse.filterMap fun p => if p.1 < Config.lineBytes then some (Config.lineBytes * e.line + p.1, p.2) else none

/-- An entry drains: its stores are performed, and their counters may fall (R312, R219). -/
def State.sgbDrain (s : State) (core line : Nat) : State :=
  match s.sgbFind core line with
  | none => s
  | some e =>
    let s1 := s.writeBytes e.stores
    { s1 with
      ms := { s1.ms with sgb := s1.ms.sgb.filter fun x => !(x.core = core && x.line = line) }
      ctxs := s1.ctxs.map fun p => if coreOf p.1 = core then (p.1, dropLine line p.2) else p }

/-- Every entry of a list of lines of a core drains. -/
def State.sgbDrainLines (s : State) (core : Nat) (lines : List Nat) : State :=
  lines.foldl (fun s l => s.sgbDrain core l) s

/-- Every entry of a core drains (R312). -/
def State.sgbDrainCore (s : State) (core : Nat) : State :=
  s.sgbDrainLines core ((s.ms.sgb.filter fun e => e.core = core).map (·.line))

/-- Every entry of a core that holds a store of a context drains (R312). -/
def State.sgbDrainCtx (s : State) (c : Nat) : State :=
  s.sgbDrainLines (coreOf c) ((s.ms.sgb.filter fun e => e.core = coreOf c && e.writers.contains c).map (·.line))

/-- Every buffer's entry for a line drains (R310). -/
def State.sgbDrainAll (s : State) (line : Nat) : State :=
  ((s.ms.sgb.filter fun e => e.line = line).map (·.core)).foldl (fun s k => s.sgbDrain k line) s

/-- Bytes put into an entry; a byte written twice keeps the later store (R311). -/
def sgbBytes (m : SMap Byte) (i : Nat) : List Byte → SMap Byte
  | [] => m
  | b :: bs => sgbBytes (smPut m i b) (i + 1) bs

/-- A global store of a context enters its core's buffer; a full buffer drains its oldest entry first (R311, R312). The
bytes lie in one line. -/
def State.sgbStore (s : State) (c a : Nat) (bs : List Byte) : State :=
  let core := coreOf c; let line := lineOf a; let i := a % Config.lineBytes
  match s.sgbFind core line with
  | some e =>
    let e' := { e with bytes := sgbBytes e.bytes i bs, last := s.dev.cycle,
                       writers := if e.writers.contains c then e.writers else e.writers ++ [c] }
    { s with ms := { s.ms with sgb := s.ms.sgb.map fun x => if (x.core = core) && (x.line = line) then e' else x } }
  | none =>
    let mine := s.ms.sgb.filter fun e => e.core = core
    let s1 := if Config.sgbEntries ≤ mine.length then
        (match mine with
          | e :: _ => s.sgbDrain core e.line
          | [] => s)
      else s
    { s1 with ms := { s1.ms with sgb := s1.ms.sgb ++
        [{ core, line, bytes := sgbBytes [] i bs, writers := [c], last := s1.dev.cycle }] } }

/-- What a read that looks in a core's buffer returns: the buffered bytes, the rest from the target (R313, R331). -/
def State.readFresh (s : State) (core a n : Nat) : List Byte :=
  if regionOf a = .hbm then
    (List.range n).map fun i =>
      match s.sgbFind core (lineOf (a + i)) with
      | some e => (smFind e.bytes ((a + i) % Config.lineBytes)).getD (memByte s.mem (a + i))
      | none => memByte s.mem (a + i)
  else s.read a n

/-! ### Sources of copies (R281) -/

/-- The key of a kept source byte: the place of its slice, and its storage address. -/
def keptKey (place a : Nat) : Nat := 2 ^ 48 * place + a

/-- The bytes at an address are kept for a slice, where none is kept yet. -/
def keepRun (place : Nat) : SMap Byte → Nat → List Byte → SMap Byte
  | m, _, [] => m
  | m, a, b :: bs => keepRun place (if (smFind m (keptKey place a)).isSome then m else smPut m (keptKey place a) b) (a + 1) bs

/-- Before bytes are overwritten, they are kept for the slices at some places. -/
def State.keepFor (s : State) (places : List Nat) (core a n : Nat) : State :=
  if places.isEmpty then s
  else { s with ms := { s.ms with kept := places.foldl (fun m q => keepRun q m a (s.readFresh core a n)) s.ms.kept } }

/-- The Loom operations of a context that have still to read lines of memory (R261). -/
def State.loomOut (s : State) (c : Nat) : List LoomOp :=
  (smGet Loom.empty s.looms (coreOf c)).ops.filterMap fun q => if decide (q.2.ctx = c) && !q.2.left.isEmpty then some q.2 else none

/-- The places of a context's slices and Loom operations that may still read source bytes: a store of the context that follows the word is
not read by them (R281, R134; log 16). -/
def State.placesOf (s : State) (c : Nat) : List Nat :=
  (s.copies.flatMap fun y => (y.slices.filter fun z => decide (z.ctx = c) && !z.lines.isEmpty).map (·.seq))
    ++ (s.loomOut c).map (·.place)

/-- What a context is about to overwrite is kept for its slices. -/
def State.keepMine (s : State) (c a n : Nat) : State := s.keepFor (s.placesOf c) (coreOf c) a n

/-- Slices of a context, or its Loom operations, have still to read source bytes: a release that follows their words waits, since the
reads stand at the words (R281, R338, R342; log 16). -/
def State.readsOut (s : State) (c : Nat) : Bool :=
  (s.copies.any fun y => !y.cancelled && decide (y.kind ≠ .cpyz) && y.slices.any fun z => decide (z.ctx = c) && !z.lines.isEmpty)
    || !(s.loomOut c).isEmpty

/-- A store of a context at a storage address: into the buffer for HBM, at the target elsewhere (R132, R311). It answers
the state and the line that the store still waits for. -/
def State.store (s : State) (c a : Nat) (bs : List Byte) : State × List Nat :=
  let s1 := s.keepMine c a bs.length
  if regionOf a = .hbm then (s1.sgbStore c a bs, [lineOf a]) else (s1.write a bs, [])


/-! ## The L1 (R314) -/

def State.l1Find (s : State) (core line : Nat) : Option CacheLine :=
  s.ms.l1.find? fun e => e.core = core && e.line = line

/-- The L1 lines of a core that share a set of twelve with a line, where the set is full (R301). Which set a line falls in is
the cache's own choice (log 8). -/
def State.l1Set (s : State) (core line : Nat) : List CacheLine :=
  let mine := s.ms.l1.filter fun e => e.core = core
  if mine.length < Config.l1Ways then []
  else
    let set := mine.filter fun e => Config.l1Index e.line % Config.l1Sets = Config.l1Index line % Config.l1Sets
    if set.length < Config.l1Ways then [] else set

/-- A line is copied into a core's L1 from its home slice (R314, R331). A line with an uncorrectable word is not kept (R449). -/
def State.l1Fill (s : State) (core line : Nat) : State :=
  if s.poisoned (Config.lineBytes * line) Config.lineBytes then s
  else
    let gone := s.victimOf (s.l1Set core line)
    let s1 := if gone.isSome then s.draw.2 else s
    let keep := match gone with
      | some v => s1.ms.l1.erase v
      | none => s1.ms.l1
    { s1 with ms := { s1.ms with l1 := keep ++
        [{ core, line, data := memRead s1.mem (Config.lineBytes * line) Config.lineBytes }] } }

/-- Lines of a core's L1 in [lo, hi) are dropped. -/
def State.l1Drop (s : State) (core lo hi : Nat) : State :=
  { s with ms := { s.ms with l1 := s.ms.l1.filter fun e => !(e.core = core && lo ≤ e.line && e.line < hi) } }

/-- A plain load: from the L1 where it holds the line, which is otherwise filled (R133, R313, R331). -/
def State.readPlain (s : State) (core a n : Nat) : State × List Byte :=
  if regionOf a ≠ .hbm then (s, s.read a n)
  else match s.l1Find core (lineOf a) with
    | some e => (s, (e.data.drop (a % Config.lineBytes)).take n)
    | none => ((s.sliceRead core a).l1Fill core (lineOf a), s.readFresh core a n)

/-- A load of an ordering: plain, or one that never reads an L1 copy. -/
def State.loadBytes (s : State) (core a n : Nat) (plain : Bool) : State × List Byte :=
  if plain then s.readPlain core a n else (s.sliceRead core a, s.readFresh core a n)

/-- A read that looks in a core's buffer meets an uncorrectable error: a byte that the buffer does not hold lies in a word in
error (R313, R315). -/
def State.freshBad (s : State) (core a n : Nat) : Bool :=
  (List.range n).any fun i => s.poisoned (a + i) 1 &&
    (regionOf a ≠ .hbm || (match s.sgbFind core (lineOf (a + i)) with
      | some e => (smFind e.bytes ((a + i) % Config.lineBytes)).isNone
      | none => true))

/-- A load's data returns with an uncorrectable error (R131, R208): an L1 copy holds none. -/
def State.loadBad (s : State) (core a n : Nat) (plain : Bool) : Bool :=
  s.poisoned a n && s.freshBad core a n && !(plain && decide (regionOf a = .hbm) && (s.l1Find core (lineOf a)).isSome)

/-! ## Range-acquire lists (R343) -/

/-- A core drops the lines of every posted range at its first acquire of scope dev or sys. -/
def State.acquireRanges (s : State) (core : Nat) : State :=
  let mine := s.ms.ranges.filter fun r => r.core = core
  let s1 := mine.foldl (fun s r => r.lines.foldl (fun s l => s.l1Drop core l (l + 1)) s) s
  { s1 with ms := { s1.ms with ranges := s1.ms.ranges.filter fun r => r.core ≠ core } }

/-- Scopes at and above a rank: the codes of R98. -/
def scopeWide (sc : Scope) : Bool := sc = .dev || sc = .sys
/-- Scopes of die or wider: a release of one drains the buffer (R312). -/
def scopeDie (sc : Scope) : Bool := sc = .die || sc = .dev || sc = .sys

/-! ## Translation (R321 to R326) -/

/-- What a walk ends in. -/
inductive WalkEnd
  | leaf (l : Leaf)
  | invalid
  | malformed
  /-- the walk read a word in error (R315) -/
  | error
  /-- the walk has to wait: an entry lies in a line that a copy owns (R342), or 512 walks of the die run (R3) -/
  | busy
  deriving DecidableEq, Repr

/-- The page size in bits that a leaf at a level maps (R321). -/
def levelBits (lv : Nat) (contig : Bool) : Nat := if lv = 0 then (if contig then 16 else 12) else 12 + 9 * lv

/-- A valid table entry is malformed (R323). -/
def entryBad (lv e : Nat) : Bool :=
  let leaf := bitOf e 1; let frame := bitsOf e 43 12 * 4096
  (bitsOf e 63 60 ≠ 0) || (bitsOf e 51 44 ≠ 0) || bitOf e 7
    || (!leaf && ((bitsOf e 11 2 ≠ 0) || (bitsOf e 59 52 ≠ 0)))
    || (leaf && 3 ≤ lv) || (!leaf && lv = 0)
    || (leaf && lv < 3 && frame % 2 ^ levelBits lv false ≠ 0)
    || (bitOf e 2 && bitOf e 3)
    || (leaf && bitOf e 4 && lv = 2)
    || (bitOf e 4 != (regionOf frame = .mart))

/-- The leaf that a table entry describes. -/
def leafOf (lv e : Nat) : Leaf :=
  let bits := levelBits lv (bitOf e 6)
  { frame := bitsOf e 43 12 * 4096 / 2 ^ bits * 2 ^ bits, bits, stamp := bitsOf e 11 8, priv := bitOf e 5,
    mart := bitOf e 4, x := bitOf e 3, w := bitOf e 2, tenant := bitsOf e 59 52 }

/-- The sixteen entries of a CONTIG group agree except in the index that FRAME holds (R323). -/
def contigSame (es : List Nat) : Bool :=
  es.zipIdx.all fun p => p.1 = es.getD 0 0 - bitsOf (es.getD 0 0) 15 12 * 4096 + p.2 * 4096

/-- What a valid leaf entry at level 0 with CONTIG gives: any entry of its group where they differ (R323, log 17). -/
def contigEnd (s : State) (table idx e : Nat) : WalkEnd :=
  let es := (List.range 16).map fun i => s.readNat (table + 8 * (idx / 16 * 16 + i)) 8
  if contigSame es then .leaf (leafOf 0 e)
  else
    let e' := es.getD (Config.contigPick s.freeCtr % 16) e
    if !bitOf e' 0 then .invalid
    else if entryBad 0 e' then .malformed
    else .leaf (leafOf 0 (e'.lor 0x40))

/-- A table entry that a walk used: its level, its address, its value, and whether the walk cache gave it. -/
structure WalkStep where
  level : Nat
  addr : Nat
  entry : Nat
  cached : Bool
  deriving DecidableEq, Repr

/-- The virtual addresses that one entry of a level covers, as a number. -/
def coverOf (va lv : Nat) : Nat := va / 2 ^ (12 + 9 * lv)

/-- The non-leaf entry that a die's walk cache holds for an address at a level (R325). -/
def State.walkHit (s : State) (die tctx va lv : Nat) : Option Nat :=
  (s.ms.walkCache.find? fun e => (e.die = die) && (e.tctx = tctx) && (e.level = lv) && (e.cover = coverOf va lv)).map (·.entry)

/-- A walk from a table at a level; fuel is the number of levels left (R321, R325). hit gives what a walk cache holds of a level.
The entries used follow, from the root down. A walk waits for an entry in a line that a copy owns (R342). A table whose FRAME no storage
stands behind reads zero, so that its entry is not valid: the spec says nothing of it, and this is the model's choice (log 84). -/
def walkFrom (s : State) (hit : Nat → Option Nat) (va : Nat) : Nat → Nat → WalkEnd × List WalkStep
  | 0, _ => (.malformed, [])
  | lv + 1, table =>
    let idx := bitsOf va (20 + 9 * lv) (12 + 9 * lv)
    let a := table + 8 * idx
    let e := (hit lv).getD (s.readNat a 8)
    let st : WalkStep := { level := lv, addr := a, entry := e, cached := (hit lv).isSome }
    if (hit lv).isNone && s.lineBusy (lineOf a) then (.busy, [])
    else if (hit lv).isNone && s.poisoned a 8 then (.error, [st])
    else if !bitOf e 0 then (.invalid, [st])
    else if entryBad lv e then (.malformed, [st])
    else if bitOf e 1 then ((if lv = 0 && bitOf e 6 then contigEnd s table idx e else .leaf (leafOf lv e)), [st])
    else
      let r := walkFrom s hit va lv (bitsOf e 43 12 * 4096)
      (r.1, st :: r.2)

/-- A walk of a translation context with what a walk cache holds (R321): its root is a table entry with LEAF 0. No page is mapped
in the generic scratchpad window (R41). -/
def State.walkWith (s : State) (hit : Nat → Option Nat) (tctx va : Nat) : WalkEnd × List WalkStep :=
  let r := ctxRoot (s.ctxEntry tctx)
  if Config.windowBase ≤ va then (.malformed, [])
  else if !bitOf r 0 then (.invalid, [])
  else if bitOf r 1 || entryBad 5 r then (.malformed, [])
  else walkFrom s hit va 5 (bitsOf r 43 12 * 4096)

/-- A walk of a die's translation unit, which reads the levels that its walk cache does not hold (R325). -/
def State.dieWalk (s : State) (die tctx va : Nat) : WalkEnd × List WalkStep := s.walkWith (s.walkHit die tctx va) tctx va

/-- A non-leaf entry enters a die's walk cache; a full one gives an entry up (R325, log 8). -/
def State.walkKeep (s : State) (die tctx va lv entry : Nat) : State :=
  let mine := s.ms.walkCache.filter fun e => e.die = die
  let gone := if Config.walkCacheLen ≤ mine.length then s.victimOf mine else none
  let s1 := if gone.isSome then s.draw.2 else s
  let keep := match gone with
    | some v => s1.ms.walkCache.erase v
    | none => s1.ms.walkCache
  { s1 with ms := { s1.ms with walkCache := { die, tctx, level := lv, cover := coverOf va lv, entry } :: keep } }

/-- What the reads of a walk leave in the memory system: each reaches its entry's home slice, and a valid non-leaf entry that is
not malformed enters the walk cache (R307, R325). -/
def State.walkReads (s : State) (die tctx va : Nat) (steps : List WalkStep) : State :=
  steps.foldl (fun s st =>
    if st.cached then s
    else
      let s1 := s.sliceRead (Config.cores + die) st.addr
      if bitOf st.entry 0 && !bitOf st.entry 1 && !entryBad st.level st.entry && !s.poisoned st.addr 8
      then s1.walkKeep die tctx va st.level st.entry else s1) s

def tlbMatch (p : TlbPlace) (tctx va : Nat) (e : TlbEntry) : Bool :=
  e.place = p && e.tctx = tctx && va / 2 ^ e.leaf.bits = e.base / 2 ^ e.leaf.bits

def State.tlbAt (s : State) (p : TlbPlace) (tctx va : Nat) : Option Leaf :=
  (s.ms.tlb.find? (tlbMatch p tctx va)).map (·.leaf)

/-- The size of a translation cache (R325). -/
def tlbSize : TlbPlace → Nat
  | .bench _ => Config.tlbBench
  | .core _ => Config.tlbCore
  | .die _ => Config.tlbDie

/-- A die's translation is noted with those that its cached lines may lie in (R314, R327). -/
def noteMapped (e : TlbEntry) (l : List TlbEntry) : List TlbEntry :=
  match e.place with
  | .die _ => if l.contains e then l else e :: l
  | .core _ | .bench _ => l

/-- A translation enters one cache that does not hold it; a full cache gives one up (R325, log 8). -/
def State.tlbAdd (s : State) (p : TlbPlace) (tctx va : Nat) (l : Leaf) : State :=
  if (s.tlbAt p tctx va).isSome then s
  else
    let mine := s.ms.tlb.filter fun e => e.place = p
    let gone := if tlbSize p ≤ mine.length then s.victimOf mine else none
    let s1 := if gone.isSome then s.draw.2 else s
    let keep := match gone with
      | some v => s1.ms.tlb.filter (· ≠ v)
      | none => s1.ms.tlb
    let e : TlbEntry := { place := p, tctx, base := va / 2 ^ l.bits * 2 ^ l.bits, leaf := l }
    { s1 with ms := { s1.ms with tlb := e :: keep, mapped := noteMapped e s1.ms.mapped } }

/-- A translation fills every level of a context's path (R325). -/
def State.tlbFill (s : State) (c tctx va : Nat) (l : Leaf) : State :=
  ((s.tlbAdd (.die (dieOf c)) tctx va l).tlbAdd (.core (coreOf c)) tctx va l).tlbAdd (.bench (benchOf c)) tctx va l

/-- Walks of a die that run or wait to run. -/
def State.walksDue (s : State) (die : Nat) : Nat := (s.ms.walks.filter fun r => decide (r.die = die) && decide (r.status = .due)).length

/-- What a die's translation unit gives an engine, the scheduler or a hint: what its cache holds, else what a walk gives, whose reads reach
the slices and whose translation the cache keeps (R307, R325). A walk that has to wait has had no effect. -/
def State.dieLeaf (s : State) (die tctx va : Nat) : State × WalkEnd :=
  match s.tlbAt (.die die) tctx va with
  | some l => (s, .leaf l)
  | none =>
    if Config.walksPerDie ≤ s.walksDue die then (s, .busy)
    else
      let (e, steps) := s.dieWalk die tctx va
      match e with
      | .busy => (s, .busy)
      | .leaf l => ((s.walkReads die tctx va steps).tlbAdd (.die die) tctx va l, .leaf l)
      | .invalid | .malformed | .error => (s.walkReads die tctx va steps, e)

/-- The end alone, and what translations of several addresses leave behind. -/
def State.dieView (s : State) (die tctx va : Nat) : WalkEnd := (s.dieLeaf die tctx va).2
def State.dieTouch (s : State) (die tctx : Nat) (vas : List Nat) : State := vas.foldl (fun s va => (s.dieLeaf die tctx va).1) s

/-- The translation that a context's caches hold, nearest first, with the nearer levels filled (R325). -/
def State.tlbLook (s : State) (c tctx va : Nat) : Option (State × Leaf) :=
  match s.tlbAt (.bench (benchOf c)) tctx va with
  | some l => some (s, l)
  | none =>
    match s.tlbAt (.core (coreOf c)) tctx va with
    | some l => some (s.tlbAdd (.bench (benchOf c)) tctx va l, l)
    | none =>
      match s.tlbAt (.die (dieOf c)) tctx va with
      | some l => some (s.tlbFill c tctx va l, l)
      | none => none

/-- What an attempt to translate gives: a leaf, a wait for the walk or a verdict, no translation, or a walk that met a word in
error (R315, R326). -/
inductive Xlate
  | ok (l : Leaf)
  | wait
  | denied
  | error
  deriving DecidableEq, Repr

/-- The walk request of a context for a page. -/
def walkIs (die tctx page : Nat) (r : WalkReq) : Bool := r.die = die && r.tctx = tctx && r.page = page

/-- A request that has ended without a translation. -/
def walkOver (r : WalkReq) : Bool := r.status = .failed || r.status = .error

/-- A context leaves a request; a request that nobody waits for and that has ended is gone. -/
def leaveWalk (c : Nat) (r : WalkReq) : WalkReq := { r with waiters := r.waiters.filter (· ≠ c) }
def walkAlive (r : WalkReq) : Bool := !(walkOver r && r.waiters.isEmpty)

/-- A context's access joins the walk of its page, or starts one (R325, R326). -/
def State.joinWalk (s : State) (c tctx va kind tenant : Nat) : State :=
  let page := va / 4096
  let mine (r : WalkReq) : Bool := walkIs (dieOf c) tctx page r && !walkOver r
  let join (r : WalkReq) : WalkReq :=
    if mine r && !r.waiters.contains c then { r with waiters := r.waiters ++ [c] } else r
  if s.ms.walks.any mine then { s with ms := { s.ms with walks := s.ms.walks.map join } }
  else { s with ms := { s.ms with walks := s.ms.walks ++
      [{ die := dieOf c, tctx, page, kind, tenant, status := .due, waiters := [c] }] } }

/-- Translation for an access of a context (R325, R326). kind is the KIND of R326. A verdict concerns the access that
waits for it, which consumes it. -/
def State.translate (s : State) (c va kind : Nat) : State × Xlate :=
  let m := s.commOf c; let tctx := m.key.ctx
  match s.tlbLook c tctx va with
  | some (s', l) => (s', .ok l)
  | none =>
    let mine (r : WalkReq) : Bool := walkIs (dieOf c) tctx (va / 4096) r && walkOver r
    match s.ms.walks.find? fun r => mine r && r.waiters.contains c with
    | some r0 =>
      let ws := (s.ms.walks.map fun r => if mine r then leaveWalk c r else r).filter walkAlive
      ({ s with ms := { s.ms with walks := ws } }, if r0.status = .error then .error else .denied)
    | none => (s.joinWalk c tctx va kind m.tenant, .wait)

/-- A context's accesses no longer wait for any verdict that has come (R326). -/
def State.forgetVerdicts (s : State) (c : Nat) : State :=
  let ws := (s.ms.walks.map fun r => if walkOver r then leaveWalk c r else r).filter walkAlive
  { s with ms := { s.ms with walks := ws } }

/-- The storage address that a leaf gives. -/
def Leaf.phys (l : Leaf) (va : Nat) : Nat := l.frame + va % 2 ^ l.bits

/-- The accesses that page attributes tell apart (R324). -/
inductive PageUse
  | read | write | fetch
  deriving DecidableEq, Repr

/-- The page admits the access (R324), and the address is mapped (R304). -/
def pageOk (l : Leaf) (u : PageUse) (tenant va : Nat) : Bool :=
  (match u with
    | .read => true
    | .write => l.w
    | .fetch => l.x) && (!l.priv || l.tenant = tenant) && regionOf (l.phys va) ≠ .hole
    && decide (l.phys va < Config.physEnd)

end Sys2Proof.Machine
end

