-- ==== Sys2Proof/Machine/Debug.lean ====
section
/-! DEFINITION. The debug block of a bench (16): trace packets, bench stops, breakpoints and watchpoints. -/

namespace Sys2Proof.Machine

/-! ## Registers of a context that debug reads (R16, R23, R25, R33, R35) -/

/-- A k-register; k0 reads as 0 (R16). -/
def kGet (x : Skein) (r : Nat) : W64 := if r = 0 then 0 else smGet 0 x.k r
/-- A k-register written; a write to k0 is discarded (R16). -/
def kSet (x : Skein) (r : Nat) (v : W64) : Skein := if r = 0 then x else { x with k := smSet 0 x.k r v }

/-- The width in lanes of a width code (R33). -/
def lanesOf (w : BitVec 3) : Nat := 4 * 2 ^ w.toNat

/-- SKID (R35). -/
def skidOf (x : Skein) (c : Nat) : Nat := coreOf c * 2 ^ 24 + benchOf c % 4 * 2 ^ 16 + c % 32 * 2 ^ 8 + x.index

/-! ## Trace (R434 to R437) -/

/-- Trace is enabled on a bench and admits a tenant (R424, R434). -/
def traceOn (b : Bench) (tenant : Nat) : Bool :=
  let ctl := b.trctl.toNat
  bitOf ctl 0 && decide (12 ≤ b.trsize.toNat) && decide (b.trsize.toNat ≤ 30)
    && (!bitOf ctl 5 || decide (bitsOf ctl 15 8 = tenant))

/-- A count that stays at its greatest value. -/
def satInc (w : W64) : W64 := if w = BitVec.allOnes 64 then w else w + 1

/-- The size of the trace buffer and its free bytes (R437). -/
def traceSize (b : Bench) : Nat := 2 ^ b.trsize.toNat
def traceFree (b : Bench) : Nat :=
  traceSize b - (b.trwptr.toNat + traceSize b - b.trrptr.toNat % traceSize b) % traceSize b

/-- A packet is made: queued, or dropped and counted (R437). -/
def queuePacket (b : Bench) (cycle : Nat) (ws : List W64) : Bench :=
  let b := { b with lastCycle := cycle }
  if b.full || decide (Config.traceQueue ≤ b.packets.length) then { b with lost := b.lost + 1, trlost := satInc b.trlost }
  else { b with packets := b.packets ++ [ws] }

/-- A LOST packet is queued once the queue, and the buffer behind the packets that are queued, have room for it; every context then needs
a SYNC (R437). -/
def reportLost (b : Bench) (cycle : Nat) : Bench :=
  if b.lost ≠ 0 && !b.full && bitOf b.trctl.toNat 0 && decide (b.packets.length < Config.traceQueue)
      && decide (8 * (b.packets.map List.length).foldl (· + ·) 0 + 16 ≤ traceFree b) then
    { b with packets := b.packets ++ [[BitVec.ofNat 64 (6 * 2 ^ 60 + min b.lost (2 ^ 44 - 1))]], lost := 0,
             lastCycle := cycle, needSync := List.range 32 }
  else b

/-- Word 0 of a packet (R435). -/
def packetHead (type ctx delta payload : Nat) : W64 :=
  BitVec.ofNat 64 (type * 2 ^ 60 + ctx % 32 * 2 ^ 55 + delta * 2 ^ 44 + payload)

/-- A SYNC packet of a context: PC of its next scalar word, TIME (R435, R436). -/
def State.traceSyncOnly (s : State) (c : Nat) : State :=
  let b := queuePacket (s.bench (benchOf c)) s.dev.cycle
    [packetHead 5 c 0 0, (s.ctx c).pc, BitVec.ofNat 64 s.time]
  s.setBench (benchOf c) { b with needSync := b.needSync.filter (· ≠ c % 32), sinceSync := smDel b.sinceSync (c % 32) }

/-- The limit of packets between two SYNC packets of a context; none if SYNCLOG is 0 (R434). -/
def syncLimit (b : Bench) : Option Nat :=
  let lg := bitsOf b.trctl.toNat 20 16
  if lg = 0 then none else some (2 ^ min (max lg 4) 20)

/-- A SYNC must stand before the context's next packet, whatever its type: the first since EN was set or since a LOST, or one whose DELTA
would exceed its field (R436). -/
def State.syncFirst (s : State) (c : Nat) : Bool :=
  let b := s.bench (benchOf c)
  b.needSync.contains (c % 32) || decide (2047 < s.dev.cycle - b.lastCycle)

/-- A SYNC is due after 2^SYNCLOG packets of the context (R434, R436). -/
def State.syncCount (s : State) (c : Nat) : Bool :=
  let b := s.bench (benchOf c)
  match syncLimit b with
  | some n => decide (n ≤ smGet 0 b.sinceSync (c % 32))
  | none => false

/-- A SYNC stands before the context's next packet (R436). -/
def State.syncDue (s : State) (c : Nat) : Bool := s.syncFirst c || s.syncCount c

/-- A packet of a context, a SYNC before it if sync says so: type, payload and later words (R435). -/
def State.tracePacket (s : State) (sync : Bool) (c type payload : Nat) (rest : List W64) : State :=
  let s1 := if sync then s.traceSyncOnly c else s
  let b := s1.bench (benchOf c)
  let b' := queuePacket b s1.dev.cycle (packetHead type c (s1.dev.cycle - b.lastCycle) payload :: rest)
  s1.setBench (benchOf c) { b' with sinceSync := smPut b'.sinceSync (c % 32) (smGet 0 b'.sinceSync (c % 32) + 1) }

/-- A packet of a context that follows any SYNC due. -/
def State.tracePlain (s : State) (c type payload : Nat) (rest : List W64) : State := s.tracePacket (s.syncDue c) c type payload rest

/-- Outcomes as a number, the first in bit 0. -/
def outcomeBits : List Bool → Nat
  | [] => 0
  | b :: bs => bnum b + 2 * outcomeBits bs

/-- The pending BRANCH packet of a context is made, before a SYNC that the count of packets makes due (R436). -/
def State.traceFlush (s : State) (c : Nat) : State :=
  let x := s.ctx c
  if x.branches = [] then s
  else
    let s1 := s.setCtx c { x with branches := [], branchAt := 0 }
    if traceOn (s.bench (benchOf c)) (s.commOf c).tenant && bitOf (s.bench (benchOf c)).trctl.toNat 1 then
      s1.tracePacket (s1.syncFirst c) c 1 (x.branches.length * 2 ^ 38 + outcomeBits x.branches) []
    else s1

/-- A packet of a context, the pending BRANCH packet first where a SYNC or an LRUN packet follows (R436). -/
def State.traceMake (s : State) (c type payload : Nat) (rest : List W64) : State :=
  let s1 := if type = 4 || s.syncDue c then s.traceFlush c else s
  s1.tracePlain c type payload rest

/-- A packet of a type that TRCTL enables by a bit (R434). -/
def State.trace (s : State) (c bit type payload : Nat) (rest : List W64) : State :=
  let b := s.bench (benchOf c)
  if traceOn b (s.commOf c).tenant && bitOf b.trctl.toNat bit then s.traceMake c type payload rest else s

/-- A SYNC point of a context (R436). -/
def State.traceSync (s : State) (c : Nat) : State :=
  if traceOn (s.bench (benchOf c)) (s.commOf c).tenant then (s.traceFlush c).traceSyncOnly c else s

/-- The outcome of a BR or LOOP is collected; the 32nd makes the packet (R436). -/
def State.traceBranch (s : State) (c : Nat) (taken : Bool) : State :=
  let b := s.bench (benchOf c)
  if traceOn b (s.commOf c).tenant && bitOf b.trctl.toNat 1 then
    let x := s.ctx c
    let s1 := s.setCtx c { x with branches := x.branches ++ [taken],
                                  branchAt := if x.branches = [] then s.dev.cycle else x.branchAt }
    if 32 ≤ x.branches.length + 1 then s1.traceFlush c else s1
  else s

/-- A MASK packet (R435, R436): its kind and the mask. -/
def State.traceMask (s : State) (c kind : Nat) (mask : W64) : State := s.trace c 2 7 kind [mask]

/-! ## Bench stops (R426, R427) -/

/-- A counted operation has returned: nothing of it stands in the store-gather buffer, and its lanes have all been performed (R219). -/
def returned (o : OutOp) : Bool := o.lines.isEmpty

/-- The oldest outstanding operation of a path taken out of a list. -/
def popPath (p : Path) : List OutOp → Option (OutOp × List OutOp)
  | [] => none
  | o :: rest =>
    if o.path = p then some (o, rest)
    else match popPath p rest with
      | some (q, l) => some (q, o :: l)
      | none => none

/-- The data of the oldest lane word that awaits some on a path has returned. -/
def dataBack (p : Path) : List Unretired → List Unretired
  | [] => []
  | u :: rest => if u.awaits = some p then { u with awaits := none } :: rest else u :: dataBack p rest

/-- The operations of a path that have returned are counted so, in issue order (R21). -/
def returnPath (p : Path) : Nat → Skein → Skein
  | 0, x => x
  | n + 1, x =>
    match popPath p x.out with
    | some (o, rest) => if returned o then returnPath p n { x with out := rest, unret := if o.data then dataBack p x.unret else x.unret } else x
    | none => x
def returnAll (x : Skein) : Skein := [Path.g, .s, .m, .w].foldl (fun x p => returnPath p x.out.length x) x

/-- At a stop the operations of a context that have written their registers have returned (R219); those of one with accesses that wait stay
outstanding. -/
def State.stopCtx (s : State) (b : Nat) (p : Nat × Skein) : Nat × Skein :=
  if decide (benchOf p.1 = b) && s.late.all fun o => o.ctx ≠ p.1 then (p.1, returnAll p.2) else p

/-- A stop request takes effect; a bench that has stopped keeps its first cause. A tagged word that has issued and not retired meets the
stop before its write-back (R439). SPREAD, as it stands, chooses the other benches that are to stop (R427). The outstanding operations of
its contexts are kept as they stand (R430). -/
def State.stopBench (s : State) (b cause : Nat) : State :=
  let v := s.bench b
  if v.stopped then s
  else
    let s1 := { s with ctxs := s.ctxs.map (s.stopCtx b) }
    s1.setBench b { v with
      stopped := true, stopcause := cause, stoptime := BitVec.ofNat 64 s.time,
      spreading := if cause = 5 then 0 else bitsOf v.stopctl.toNat 3 2,
      stood := (s1.ctxs.filter fun p => benchOf p.1 = b).map fun p => (p.1 % 32, p.2.out),
      tagged := v.tagged.map fun r => { r with stopped := r.stopped || decide (0 < r.left) } }

/-- A breakpoint or a watchpoint stops a bench before a word of a context issues: after RESUME the word's first issue is not tested
(R429). -/
def State.stopAt (s : State) (b cause c : Nat) (lane : Bool) : State :=
  let s1 := s.stopBench b cause
  let x := s1.ctx c
  s1.setCtx c { x with untested := x.untested || !lane, untestedLane := x.untestedLane || lane }

/-! ## Breakpoints and watchpoints (R429) -/

/-- The lowest n below 4 that satisfies a test. -/
def firstOf4 (f : Nat → Bool) : Option Nat :=
  if f 0 then some 0 else if f 1 then some 1 else if f 2 then some 2 else if f 3 then some 3 else none

/-- The breakpoint that a word of a context matches, and whether it stops the bench. -/
def State.breakHit (s : State) (c : Nat) (lane : Bool) (addr : W64) : Option (Nat × Bool) :=
  let b := s.bench (benchOf c)
  let x := s.ctx c
  if x.handler || (if lane then x.untestedLane else x.untested) then none
  else
    let ctl (n : Nat) : Nat := (b.bpctl.getD n 0).toNat
    (firstOf4 fun n =>
      bitOf (ctl n) 0 && (bitOf (ctl n) 1 == lane) && (!bitOf (ctl n) 3 || decide (bitsOf (ctl n) 8 4 = c % 32))
        && decide (bitsOf (b.bpaddr.getD n 0).toNat 56 2 = bitsOf addr.toNat 56 2)).map
      fun n => (n, bitOf (ctl n) 2)

/-- An access of n bytes at a virtual address matches a watchpoint; one of length 0 matches nothing. -/
def watchMatch (base : W64) (ctl c va n : Nat) (rd wr : Bool) : Bool :=
  let len := bitsOf ctl 63 32
  bitOf ctl 0 && ((rd && bitOf ctl 1) || (wr && bitOf ctl 2)) && (!bitOf ctl 4 || decide (bitsOf ctl 9 5 = c % 32))
    && decide (len ≠ 0) && decide (va < base.toNat + len) && decide (base.toNat < va + n)

/-- The lowest watchpoint that an access of a context matches, and whether it stops the bench. -/
def State.watchHit (s : State) (c va n : Nat) (lane rd wr : Bool) : Option (Nat × Bool) :=
  let b := s.bench (benchOf c)
  let x := s.ctx c
  if x.handler || (if lane then x.untestedLane else x.untested) then none
  else
    let ctl (i : Nat) : Nat := (b.wpctl.getD i 0).toNat
    (firstOf4 fun i => watchMatch (b.wpbase.getD i 0) (ctl i) c va n rd wr).map fun i => (i, bitOf (ctl i) 3)

end Sys2Proof.Machine
end

