-- ==== Sys2Proof/Machine/Function.lean ====
section
/-! DEFINITION. The function instructions (03 R83 to R86). A result that is not a fraction is evaluated in fixed point
with prec fractional bits, far more than any format keeps, and rounded from there (log 11). -/

namespace Sys2Proof.Machine

/-- Fractional bits of the fixed-point evaluation (log 11). -/
def fxBits : Nat := 1400
/-- One, in fixed point. -/
def fxOne : Nat := 2 ^ fxBits

/-- The sum over k of sign^k x^(2k+1) / (2k+1), in fixed point: atan (alternating) or atanh of x. -/
def oddSeries (alt : Bool) (x2 : Nat) : Nat → Nat → Nat → Int
  | 0, _, _ => 0
  | fuel + 1, p, k =>
    if p = 0 then 0
    else
      let t : Int := p / (2 * k + 1)
      (if alt && k % 2 = 1 then -t else t) + oddSeries alt x2 fuel (p * x2 / fxOne) (k + 1)

/-- atanh(n / d) in fixed point, for n / d at most 1/3. -/
def fxAtanh (n d : Nat) : Nat := let x := n * fxOne / d; (oddSeries false (x * x / fxOne) 800 x 0).toNat
/-- atan(1 / d) in fixed point. -/
def fxAtanInv (d : Nat) : Nat := let x := fxOne / d; (oddSeries true (x * x / fxOne) 800 x 0).toNat
/-- ln 2. -/
def fxLn2 : Nat := 2 * fxAtanh 1 3
/-- pi, by Machin's formula. -/
def fxPi : Nat := 16 * fxAtanInv 5 - 4 * fxAtanInv 239

/-- The exponential series of a fixed-point r: the sum over k of r^k / k!. -/
def expSeries (r : Nat) : Nat → Nat → Nat → Nat
  | 0, _, _ => 0
  | fuel + 1, p, k => if p = 0 then 0 else p + expSeries r fuel (p * r / fxOne / (k + 1)) (k + 1)
/-- exp(r) for 0 ≤ r < 1. -/
def fxExp (r : Nat) : Nat := expSeries r 400 fxOne 0

/-- The sine (k starts at 1) or cosine (k starts at 0) series of r. -/
def trigSeries (r2 : Nat) : Nat → Nat → Nat → Bool → Int
  | 0, _, _, _ => 0
  | fuel + 1, p, k, neg =>
    if p = 0 then 0
    else (if neg then -(p : Int) else p) + trigSeries r2 fuel (p * r2 / fxOne / ((k + 1) * (k + 2))) (k + 2) (!neg)

/-- sin or cos of n / d, signed, in fixed point. -/
def fxTrig (cos neg : Bool) (n d : Nat) : Int :=
  let r := (n * fxOne / d) % (2 * fxPi)
  let r2 := r * r / fxOne
  let v := if cos then trigSeries r2 600 fxOne 0 false else trigSeries r2 600 r 1 false
  if neg && !cos then -v else v

/-- A fixed-point value as a fraction; an inexact one stands between two fixed-point numbers. -/
def fxFrac (v : Int) : Frac := ⟨2 * v + 1, 2 * fxOne⟩

/-- 2^(n/d) as a fraction, exact where n / d is an integer (R83). Beyond the reach of every format it is 2^300 or
2^-600. -/
def exp2Frac (neg : Bool) (n d : Nat) : Frac :=
  if 256 * d < n then (if neg then ⟨1, 2 ^ 600⟩ else ⟨2 ^ 300, 1⟩)
  else
    let x : Int := if neg then -(n : Int) else n
    let i := x / d; let f := (x % d).toNat
    let m : Frac := if f = 0 then ⟨1, 1⟩ else fxFrac (fxExp (f * fxLn2 / d))
    let s := scaled 1 i
    m.mul ⟨s.1, s.2⟩

/-- log2(n / d), exact for a power of two (R83). -/
def log2Val (n d : Nat) : Frac :=
  let e := log2Frac n d
  let s := scaled 1 (-e)
  let mn := n * s.1; let md := d * s.2
  if mn = md then ⟨e, 1⟩
  else fxFrac (e * fxOne + (2 * fxAtanh (mn - md) (mn + md) * fxOne / fxLn2 : Nat))

/-- tanh(n / d) as a fraction below 1 (R83). -/
def tanhFrac (n d : Nat) : Frac :=
  if 128 * d < n then ⟨2 ^ 360 - 1, 2 ^ 360⟩
  else
    let z := 2 * n * fxOne / d
    let k := z / fxLn2
    let e := fxExp (z % fxLn2) * 2 ^ k
    fxFrac ((e - fxOne) * fxOne / (e + fxOne) : Nat)

/-- The integer square root, by fuel bits. -/
def isqrtBits (n : Nat) : Nat → Nat → Nat
  | 0, r => r
  | k + 1, r => isqrtBits n k (if (r + 2 ^ k) * (r + 2 ^ k) ≤ n then r + 2 ^ k else r)
def isqrt (n : Nat) : Nat := isqrtBits n (Nat.log2 n / 2 + 1) 0

/-- sqrt(n / d): exact where it is a fraction over 2^300, else just above the fixed-point number below it (R83). -/
def sqrtFrac (n d : Nat) : Frac :=
  let x := n * 2 ^ 600 / d
  let r := isqrt x
  if r * r = x && (n * 2 ^ 600) % d = 0 then ⟨r, 2 ^ 300⟩ else ⟨2 * r + 1, 2 ^ 301⟩

/-- The functions by their opcodes (R188). -/
inductive Func
  | rcp | rsq | sqrt | ex2 | lg2 | sin | cos | tnh
  deriving DecidableEq, Repr

/-- prec(rev, f) (R84). -/
def funcPrec (rev : Nat) (f : Func) : Nat :=
  match f with
  | .rcp | .rsq | .sqrt => if rev ≤ 2 then 16 else 24
  | .ex2 | .lg2 | .tnh => if rev = 1 then 12 else if rev ≤ 3 then 16 else 22
  | .sin | .cos => if rev ≤ 2 then 12 else if rev = 3 then 16 else 22

/-- 1.0 in a format. -/
def onePat (q : FloatFmt) (neg : Bool) : Nat := packFloat q neg (biasOf q) 0

/-- The fixed cases of R85. -/
def funcFixed (f : Func) (fmt : Fmt) (v : Val) (lw lane : Nat) : Option Nat :=
  let q := floatOf fmt; let nan := nanNew fmt lw lane kindFunc
  let below := match v with
    | .fin s n _ => s && n ≠ 0
    | .inf s => s
    | .nan => false
  match f, v with
  | _, .nan => none
  | .rcp, .inf s => some (zeroPat q s)
  | .rcp, .fin s n _ => if n = 0 then some (infPat q s) else none
  | .sqrt, .inf s => some (if s then nan else infPat q false)
  | .sqrt, .fin s n _ => if n = 0 then some (zeroPat q s) else if below then some nan else none
  | .rsq, .inf s => some (if s then nan else zeroPat q false)
  | .rsq, .fin s n _ => if n = 0 then some (infPat q s) else if below then some nan else none
  | .ex2, .inf s => some (if s then zeroPat q false else infPat q false)
  | .ex2, _ => none
  | .lg2, .inf s => some (if s then nan else infPat q false)
  | .lg2, .fin _ n _ => if n = 0 then some (infPat q true) else if below then some nan else none
  | .sin, .inf _ => some nan
  | .sin, .fin s n _ => if n = 0 then some (zeroPat q s) else none
  | .cos, .inf _ => some nan
  | .cos, .fin _ n _ => if n = 0 then some (onePat q false) else none
  | .tnh, .inf s => some (onePat q s)
  | .tnh, .fin s n _ => if n = 0 then some (zeroPat q s) else none

/-- The mathematical value of a function on a finite operand that is no fixed case (R83). -/
def funcVal (f : Func) (neg : Bool) (n d : Nat) : Frac :=
  let sg (x : Frac) : Frac := if neg then ⟨-x.n, x.d⟩ else x
  match f with
  | .rcp => sg ⟨d, n⟩
  | .sqrt => sqrtFrac n d
  | .rsq => sqrtFrac d n
  | .ex2 => exp2Frac neg n d
  | .lg2 => log2Val n d
  | .sin => fxFrac (fxTrig false neg n d)
  | .cos => fxFrac (fxTrig true neg n d)
  | .tnh => sg (tanhFrac n d)

/-- fn_eval (R83). -/
def fnEval (rev : Nat) (f : Func) (fmt : Fmt) (b : Nat) (rm : Rnd) (flush : Bool) (lw lane : Nat) : Nat :=
  let q := floatOf fmt
  let b := vflush flush fmt b
  if isNan fmt b then nanFirst fmt [b]
  else match funcFixed f fmt (decodeFloat q b) lw lane with
    | some r => vflush flush fmt r
    | none =>
      match decodeFloat q b with
      | .fin s n d =>
        let p := min (funcPrec rev f) (q.mb + 1)
        let y := funcVal f s n d
        let r :=
          if y.n = 0 then zeroPat q s
          else
            let r0 := (roundFrac ⟨q.eb, p - 1, false⟩ y rm false).1
            r0 * 2 ^ (q.mb - (p - 1))
        vflush flush fmt r
      | _ => b

end Sys2Proof.Machine
end

