-- ==== Sys2Proof/Machine/Ops.lean ====
section
/-! DEFINITION. The named operations over registers, addresses, futures, regions and traps that the meanings share. -/

namespace Sys2Proof.Machine

/-- What a meaning answers. -/
abbrev Out := Host.Outcome State Fault Refusal

/-! ## Registers of a context (R16, R17, R19, R23 to R25) -/

/-- A k-register of the context whose word executes. -/
def State.kv (s : State) (r : KReg) : W64 := kGet s.me r.toNat
def State.setK (s : State) (r : KReg) (v : W64) : State := s.setMe (kSet s.me r.toNat v)

def cGet (x : Skein) (n : CBit) : Bool := x.c.getLsbD n.toNat
/-- A 16-bit set with one bit written. -/
def bitPut (w : W16) (n : Nat) (b : Bool) : W16 :=
  (w &&& ~~~(1#16 <<< n)) ||| (if b then 1#16 <<< n else 0)
def cSet (x : Skein) (n : CBit) (b : Bool) : Skein := { x with c := bitPut x.c n.toNat b }
def State.cv (s : State) (n : CBit) : Bool := cGet s.me n
def State.setC (s : State) (n : CBit) (b : Bool) : State := s.setMe (cSet s.me n b)

def fGet (x : Skein) (r : Nat) : W64 := smGet 0 x.f r
def fSet (x : Skein) (r : Nat) (v : W64) : Skein := { x with f := smSet 0 x.f r v }
def hGet (x : Skein) (r : HReg) : W16 := smGet 0 x.h r.toNat
def hSet (x : Skein) (r : HReg) (v : W16) : Skein := { x with h := smSet 0 x.h r.toNat v }

/-- Ones in the lanes of a skein's width (R23). -/
def onesW (w : BitVec 3) : W64 := BitVec.ofNat 64 (2 ^ lanesOf w - 1)
/-- An m-register: m0 is ones in the width, and bits at and above the width read zero (R23). -/
def mGet (x : Skein) (n : Nat) : W64 := if n = 0 then onesW x.width else smGet 0 x.m n &&& onesW x.width
/-- An m-register written: a write to m0 is ignored, and so are bits at and above the width (R23). -/
def mSet (x : Skein) (n : Nat) (v : W64) : Skein :=
  if n = 0 then x else { x with m := smSet 0 x.m n (v &&& onesW x.width) }

/-- The value of the top entry of the mask stack (R24, R25). -/
def topMask (x : Skein) : W64 :=
  match x.stack with
  | e :: _ => e.value
  | [] => x.base

/-- Lanes below the width that the mask stack and a selected mask both hold. -/
def heldLanes (x : Skein) (sel : Nat) : W64 := topMask x &&& mGet x sel &&& onesW x.width

/-- The depth of the mask stack (R25). -/
def depthOf (x : Skein) : Nat := x.stack.length
/-- cut_to (R152). -/
def cutTo (d : Nat) (x : Skein) : Skein := { x with stack := x.stack.drop (x.stack.length - d) }

/-- The physical lane of lane l of a context (R11, R22). -/
def physLane (x : Skein) (c l : Nat) : Nat := 256 * benchOf c + 4 * x.strand.toNat + l
def State.vGet (s : State) (c l n : Nat) : W32 := smGet 0 s.vregs (256 * physLane (s.ctx c) c l + n)
def State.vSet (s : State) (c l n : Nat) (v : W32) : State :=
  { s with vregs := smSet 0 s.vregs (256 * physLane (s.ctx c) c l + n) v }

/-- SKST (R33). -/
def skstOf (x : Skein) : Nat :=
  x.strand.toNat * 2 ^ 32 + x.mdepth * 2 ^ 24 + x.child.toNat * 2 ^ 20 + x.splits.length * 2 ^ 16
    + x.fusecode.toNat * 2 ^ 8 + bnum x.range * 2 ^ 4 + x.width.toNat

/-! ## Path counters (R21, R219) -/

def pathCount (x : Skein) (p : Path) : Nat := (x.out.filter fun o => o.path = p).length
/-- A counter at 63 holds the next word of its path at issue. -/
def pathFull (x : Skein) (p : Path) : Bool := decide (63 ≤ pathCount x p)
def pushOut (p : Path) (lines : List Nat) (x : Skein) (holds : Bool := false) : Skein :=
  { x with out := x.out ++ [{ path := p, lines, data := false, holds }] }

/-- The lane work before a scalar word is complete (R153): the queue is empty and every lane word has retired, so that its loads
have returned. Its atomics were performed, and its stores performed or buffered, as its lanes passed. -/
def laneIdle (x : Skein) : Bool := x.queue.isEmpty && x.unret.isEmpty

/-- The mark, among the lines that it waits for, of a lane memory word that has issued and whose lanes have not all been performed. -/
def openMark : Nat := 2 ^ 60
/-- A lane memory word of the context has issued, and lanes of it wait (R208, R209). -/
def wordOpen (x : Skein) : Bool := x.out.any fun o => o.lines.contains openMark

/-- Lane words of the context that have issued can still trap, or have not retired (R378, R379). -/
def lanesOut (x : Skein) : Bool := !x.unret.isEmpty || wordOpen x

/-- The conditions of SPLIT and of a FUSE arrival (R163, R166). -/
def quiet (x : Skein) : Bool := x.queue.isEmpty && x.unret.isEmpty && x.out.isEmpty

/-! ## Moving the scalar stream -/

/-- The value of an immediate or offset, sign-extended to 64 bits (R97, R124). -/
def litVal {n : Nat} : Lit n → W64
  | .short v => v.signExtend 64
  | .long v => v.signExtend 64
/-- The bytes of a word with this field (R97). -/
def litSize {n : Nat} : Lit n → W64
  | .short _ => 4
  | .long _ => 8

/-- The region of a context is committed (R391). -/
def commit (x : Skein) : Skein := { x with region := { x.region with committed := true } }

/-- A code address in a PC: bits [63:57] are zero (R20; log 75). -/
def codeAddr (v : W64) : W64 := v &&& 0x1FFFFFFFFFFFFFF

/-- The scalar PC takes a value, and the word has issued: a word of handler state commits the region (R391), and the next
issue is tested again (R429). -/
def moveTo (pc : W64) (x : Skein) : Skein :=
  let x1 := { x with pc := codeAddr pc, untested := false }
  if x.handler then commit x1 else x1
def State.goto (s : State) (pc : W64) : State := s.setMe (moveTo pc s.me)
/-- The next word follows at n bytes. -/
def State.past (s : State) (n : W64) : State := s.goto (s.me.pc + n)
def State.commitMe (s : State) : State := s.setMe (commit s.me)

/-! ## Trap frames and skein records (R383, R399) -/

/-- COUNTERS (R399). -/
def countersOf (x : Skein) : Nat :=
  pathCount x .g * 2 ^ 24 + pathCount x .s * 2 ^ 16 + pathCount x .m * 2 ^ 8 + pathCount x .w

def waitCode : Wait → Nat
  | .none => 0
  | .barrier _ | .released _ => 1
  | .fuse _ => 2
def waitTag : Wait → W64
  | .fuse t => t
  | _ => 0

/-- STATE of a skein record (R399); ended is bit 3. -/
def recordState (x : Skein) (ended : Bool) : Nat :=
  bnum x.handler + 2 * bnum x.region.committed + 4 * bnum x.discarded + 8 * bnum ended + 16 * waitCode x.wait
    + 64 * bnum x.region.shadow.isSome + 128 * bnum x.replay.isSome + 256 * x.index

def le8 (v : W64) : List Byte := leBytes 8 v.toNat
def leList (l : List W64) : List Byte := l.flatMap le8
/-- A list cut or filled with zeros to a length. -/
def padTo (n : Nat) (l : List Byte) : List Byte := l.take n ++ List.replicate (n - l.length) 0

/-- REGN index of a region as the record holds it (R143, R399). -/
def regionIndex (r : Region) : W64 :=
  match r.index with
  | some i => BitVec.ofNat 64 i
  | none => BitVec.allOnes 64

/-- Bytes 0x000 to 0x3FF of a skein record, which are the trap frame (R383, R399). -/
def recordHead (x : Skein) (ended : Bool) : List Byte :=
  padTo 1024 (
    leList ((List.range 64).map fun i => kGet x i) ++ leBytes 8 x.c.toNat ++ le8 x.pc ++ le8 x.lpc
      ++ leBytes 8 (skstOf x) ++ le8 x.control ++ leList [x.trapcause, x.trappc, x.traplw, x.trapmask]
      ++ leBytes 8 (recordState x ended) ++ le8 (waitTag x.wait) ++ leBytes 8 (countersOf x)
      ++ leList ((List.range 8).map fun i => x.tq.getD i 0) ++ padTo 0x60 (leBytes 8 x.tmsel.toNat)
      ++ leList ((List.range 16).map fun i => fGet x i)
      ++ ((List.range 16).flatMap fun i => leBytes 2 (smGet 0 x.h i).toNat)
      ++ le8 x.region.start ++ le8 (regionIndex x.region))

/-- TRAPFRAME (R383). -/
def State.trapFrame (s : State) (c : Nat) : Nat :=
  (ctxFrameBase (s.ctxEntry (s.commOf c).key.ctx) + 1024 * c) / 1024 * 1024 % 2 ^ 57

/-! ## Addresses (R39, R41, R42, R131, R324) -/

/-- What an address gives: a storage address with the leaf that a page gave, a wait, or a trap. -/
inductive Reach
  | ok (s : State) (a : Nat) (l : Option Leaf)
  | wait (s : State)
  | trap (s : State) (c : Cause)
  deriving DecidableEq, Repr

/-- The storage address of an offset of a crew's scratchpad allocation (R41, R316). -/
def spadAddr (w : Crew) (off : Nat) : Nat := spadBase w.core + 128 * w.baseLine + off
/-- The n bytes at an offset lie in the allocation. -/
def spadIn (w : Crew) (off n : Nat) : Bool := decide (off + n ≤ 128 * w.nLines)

/-- Checks 1 to 4 of R131 on n bytes at a virtual address: range, alignment, allocation, translation. -/
def State.reach4 (s : State) (c va n align kind : Nat) : Reach :=
  if 2 ^ 57 ≤ va then .trap s .access
  else if va % align ≠ 0 then .trap s .align
  else if Config.windowBase ≤ va then
    let w := s.crew (s.ctx c).crew
    if spadIn w (va - Config.windowBase) n then .ok s (spadAddr w (va - Config.windowBase)) none else .trap s .access
  else
    match s.translate c va kind with
    | (s1, .ok l) => .ok s1 (l.phys va) (some l)
    | (s1, .wait) => .wait s1
    | (s1, .denied) => .trap s1 .xlate
    | (s1, .error) => .trap s1 .eccUncorr

/-- Check 5 of R131: the page admits the access; an atomic does not reach the host-link window (R304, R324). -/
def pageGate (tenant va : Nat) (u : PageUse) (atomic : Bool) : Reach → Reach
  | .ok s a (some l) =>
    if pageOk l u tenant va && !(atomic && decide (regionOf a = .host)) then .ok s a (some l) else .trap s .access
  | r => r

/-- All checks of R131. -/
def State.reach (s : State) (c va n align kind : Nat) (u : PageUse) (atomic : Bool) : Reach :=
  pageGate (s.commOf c).tenant va u atomic (s.reach4 c va n align kind)

/-- The path of a storage address (R21, R132). -/
def pathOf (a : Nat) : Path :=
  match regionOf a with
  | .mart => .m
  | .spad => .s
  | _ => .g

/-- Pages checked one by one, each with the leaf that is listed for it, or translated; the leaves of new pages follow in order (R279,
R266). -/
def reachPages (c kind tenant : Nat) (u : PageUse) (atomic : Bool) :
    List Nat → State → List (Nat × Leaf) → Sum (State × List (Nat × Leaf)) Reach
  | [], s, ps => .inl (s, ps)
  | p :: rest, s, ps =>
    let old := ps.find? fun q => q.1 = p
    let r := match old with
      | some q => Reach.ok s (q.2.phys (4096 * p)) (some q.2)
      | none => s.reach4 c (4096 * p) 1 1 kind
    match pageGate tenant (4096 * p) u atomic r with
    | .ok s1 _ (some l) => reachPages c kind tenant u atomic rest s1 (if old.isSome then ps else ps ++ [(p, l)])
    | .ok s1 _ none => reachPages c kind tenant u atomic rest s1 ps
    | r => .inr r

/-- The pages that n bytes at a virtual address touch. -/
def pagesOf (va n : Nat) : List Nat := (List.range ((va + n - 1) / 4096 + 1 - va / 4096)).map (va / 4096 + ·)

/-- A range of n bytes is checked as R131 says, byte by byte, without alignment: the range and the window first, then its pages. -/
def State.reachRange (s : State) (c va n kind : Nat) (u : PageUse) (atomic : Bool) (ps : List (Nat × Leaf)) :
    Sum (State × List (Nat × Leaf)) Reach :=
  if 2 ^ 57 < va + n then .inr (.trap s .access)
  else if n = 0 then .inl (s, ps)
  else if decide (Config.windowBase < va + n) && !spadIn (s.crew (s.ctx c).crew) (va + n - 1 - Config.windowBase) 1 then .inr (.trap s .access)
  else reachPages c kind (s.commOf c).tenant u atomic ((pagesOf va n).filter fun p => 4096 * p < Config.windowBase) s ps

/-- An address of a scalar word: a multiple of 4 in the 57-bit space (R20). -/
def alignPc (v : Nat) : W64 := BitVec.ofNat 64 (v % 2 ^ 57 / 4 * 4)

/-- The storage address that a crew's window or a list of leaves gives a virtual address. -/
def leafAddr (w : Crew) (ps : List (Nat × Leaf)) (va : Nat) : Nat :=
  if Config.windowBase ≤ va then spadAddr w (va - Config.windowBase)
  else match ps.find? fun q => q.1 = va / 4096 with
    | some q => q.2.phys va
    | none => 0

/-! ## Crew faults and stops (R386, R392) -/

/-- A request reaches a skein (R390, R392): one in handler state, or one that waits at FUSE or a barrier, stops precisely;
any other has the budget. While the bench is stopped the request waits (R428). -/
def State.requestStop (s : State) (c : Nat) : State :=
  let x := s.ctx c
  if x.stopped || x.preempt.isSome then s
  else if (s.bench (benchOf c)).stopped then s.setCtx c { x with asked := true }
  else if x.handler || decide (x.wait ≠ .none) then s.setCtx c { x with stopped := true }
  else s.setCtx c { x with preempt := some (s.dev.time3 + Config.budget3) }

/-- Requests reach several skeins. -/
def State.requestStops (s : State) (cs : List Nat) : State := cs.foldl State.requestStop s

/-- A trap that has no handler: the crew is to be saved with kind FAULT; the skein stops as it stands, the others are
asked to stop (R386). -/
def State.crewFaultAt (s : State) (c : Nat) : State :=
  let x := s.ctx c
  let w := s.crew x.crew
  if w.saveKind = 3 then s.setCtx c { x with stopped := true, pend := none }
  else
    let s1 := (s.setCtx c { x with stopped := true, preempt := none, pend := none }).setCrew x.crew
      { w with saveKind := 3, faultCause := x.trapcause.setWidth 32, faultTime := BitVec.ofNat 64 s.time, faultIndex := x.index }
    s1.requestStops ((s1.crewCtxs x.crew).filter (· ≠ c))

/-! ## Taking a trap (R37, R378 to R386) -/

/-- TRAPCAUSE codes (R377). -/
def causeCode : Cause → Nat
  | .illegal => 0x01 | .illegalPair => 0x02 | .fetch => 0x03 | .eccUncorr => 0x04 | .align => 0x05 | .access => 0x06
  | .xlate => 0x07 | .handleStale => 0x09 | .handleForeign => 0x0A | .matrixWidth => 0x0B | .layoutMismatch => 0x0C
  | .stampMix => 0x0D | .range => 0x0E | .depth => 0x0F | .fuseMismatch => 0x10 | .decodeLength => 0x11
  | .collLate => 0x12 | .watch => 0x13 | .syscall => 0x14

/-- TRAPCAUSE of a trap (R37). -/
def causeWord (t : Trap) : W64 :=
  BitVec.ofNat 64 (t.detail % 2 ^ 16 * 2 ^ 16 + bnum t.replay * 2 ^ 9 + bnum t.lane * 2 ^ 8 + causeCode t.cause)

/-- The trap registers, and what the context keeps of the trap for ERET (R37, R380, R385). The entry that carries a
trapping lane word gives TQ and TMSEL (R399). -/
def trapRegs (t : Trap) (x : Skein) : Skein :=
  { x with
    trapcause := causeWord t, trappc := x.pc, traplw := if t.lane then t.lw else 0, trapmask := t.mask, pend := none,
    replay := if t.lane then none else x.replay, decodeAt := if t.lane && !t.replay then none else x.decodeAt, trapDone := t.done, trapPush := t.pushLoop,
    tq := if t.lane then (match x.queue with
      | e :: _ => e.q
      | [] => []) else x.tq,
    tmsel := if t.lane then (match x.queue with
      | e :: _ => e.msel
      | [] => 0) else x.tmsel,
    untested := if t.lane then x.untested else false, untestedLane := if t.lane then false else x.untestedLane }

/-- Several stores of one context, each into the buffer or at its target; they are not counted (R382). -/
def State.storeRun (s : State) (c : Nat) : List (Nat × List Byte) → State
  | [] => s
  | (a, bs) :: rest => (s.store c a bs).1.storeRun c rest

/-- The trap frame's bytes by lines. -/
def frameLines (a : Nat) (bs : List Byte) : List (Nat × List Byte) :=
  (List.range 8).map fun i => (a + 128 * i, (bs.drop (128 * i)).take 128)

/-- A trap must wait for lane words that have issued (R378): a scalar trap for every one of them, a lane trap for those before it. -/
def trapHeld (t : Trap) (x : Skein) : Bool := if t.lane then !x.unret.isEmpty else lanesOut x

/-- A trap is taken: the frame is written, the context enters handler state, and its next word stands at TRAPVEC. While
lane words that have issued have not retired, while the bench is stopped, or while the frame's translation is missing, the
trap waits. In handler state, without a TRAPVEC, or with a frame that cannot be written, it is a crew fault. -/
def State.takeTrap (s : State) (c : Nat) (t : Trap) : State :=
  let x := s.ctx c
  if trapHeld t x || (s.bench (benchOf c)).stopped then s.setCtx c { x with pend := some t }
  else
    let x1 := trapRegs t x
    let vec := ctxTrapVec (s.ctxEntry (s.commOf c).key.ctx)
    if x.handler || vec = 0 then (s.setCtx c x1).crewFaultAt c
    else
      match s.reach c (s.trapFrame c) 1024 8 1 .write false with
      | .wait s1 => s1.setCtx c { x with pend := some t }
      | .trap s1 _ => (s1.setCtx c x1).crewFaultAt c
      | .ok s1 a _ =>
        if (List.range 8).any fun i => s1.lineBusy (lineOf a + i) then s1.setCtx c { x with pend := some t }
        else
          let s2 := (s1.storeRun c (frameLines a (recordHead x1 false))).forgetVerdicts c
          let y := (s2.ctx c)
          let y1 := { trapRegs t y with handler := true, exited := false, pc := alignPc vec }
          let s3 := s2.setCtx c (if x.preempt.isSome then { y1 with preempt := none, stopped := true } else y1)
          s3.traceSync c

/-- The trap of a scalar word (R121). -/
def scalarTrap (cause : Cause) (detail : Nat) (mask : W64 := 0) : Trap :=
  { cause, detail, lane := false, lw := 0, mask, replay := false, done := false, pushLoop := false }

/-- The word traps. -/
def State.trapS (s : State) (cause : Cause) (detail : Nat) (mask : W64 := 0) : Out :=
  .next (s.takeTrap s.cur (scalarTrap cause detail mask))

/-- The word cannot issue yet, and has had no effect (R381). -/
def State.stall (s : State) : Out := .next s

/-- A word that is not issued in handler state (R384). -/
def State.outside (s : State) (k : State → Out) : Out := if s.me.handler then s.trapS .illegal 0x18 else k s

/-! ## Progress of the lanes -/

/-- The head entry leaves the queue, or the lanes stand at its next word (R147, R152). An entry that repeats stands past its
last word until its next test. -/
def laneNext (x : Skein) : Skein :=
  match x.queue with
  | [] => x
  | e :: rest =>
    if e.word + 1 < e.len then { x with queue := { e with word := e.word + 1 } :: rest }
    else match e.kind with
      | .run => { x with queue := rest }
      | .loopN =>
        if e.trip + 1 < e.count.toNat then { x with queue := { e with word := e.len, trip := e.trip + 1 } :: rest }
        else cutTo e.depth0 { x with queue := rest }
      | .loopAny => { x with queue := { e with word := e.len, trip := e.trip + 1 } :: rest }

/-! ## Returning from a trap (R385) -/

/-- The depth left by a cut shows with the lane words before it (R34). -/
def showDepth (x : Skein) : Skein :=
  match x.unret.getLast? with
  | none => { x with mdepth := depthOf x }
  | some u => { x with unret := x.unret.dropLast ++ [{ u with depth := depthOf x }] }

/-- The lanes pass over the word at which they stand (R385). -/
def passWord (x : Skein) : Skein := showDepth (laneNext { x with replay := none, decodeAt := none })

/-- The head entry is passed over whole (R157). -/
def dropEntry (x : Skein) : Skein := { x with queue := x.queue.drop 1 }

/-- What ERET does to the lanes, by the trap registers (R385). -/
def resumeLanes (skip : Bool) (x : Skein) : Skein :=
  if !bitOf x.trapcause.toNat 8 then x
  else if x.trapPush then (if skip then dropEntry x else x)
  else if x.trapDone || skip then passWord x
  else if bitOf x.trapcause.toNat 9 then { x with replay := some x.trapmask } else { x with replay := none, decodeAt := none }

/-- The first issue after the ERET of a WATCH trap is not tested (R429). -/
def watchPass (x : Skein) : Skein :=
  if bitsOf x.trapcause.toNat 7 0 ≠ 0x13 then x
  else if bitOf x.trapcause.toNat 8 then { x with untestedLane := true } else { x with untested := true }

/-- The word at a code address, as the caches and tables give it. -/
def State.codeWord (s : State) (c va : Nat) : Nat :=
  match s.dieView (dieOf c) (s.commOf c).key.ctx va with
  | .leaf l => s.readNat (l.phys va) 4
  | _ => 0

/-- It is not to be read yet. -/
def State.codeBusy (s : State) (c va : Nat) : Bool :=
  match s.dieView (dieOf c) (s.commOf c).key.ctx va with
  | .leaf l => s.lineBusy (lineOf (l.phys va))
  | e => decide (e = .busy)

/-- The context leaves handler state with its registers, its resume PC and its lanes (R385). -/
def State.leaveHandler (s : State) (c : Nat) (skip : Bool) (resume : W64) (x : Skein) : State :=
  let past : W64 :=
    if skip && !bitOf x.trapcause.toNat 8 then (if hasLiteral (s.codeWord c resume.toNat) then 8 else 4) else 0
  let y := resumeLanes skip { x with handler := false, pc := codeAddr (resume + past) }
  (s.setCtx c (commit (if skip then y else watchPass y))).traceSync c

/-- k1 to k63 from bytes in the layout of a frame. -/
def frameK (bs : List Byte) : SMap W64 :=
  (List.range 63).foldl (fun m i => smSet 0 m (i + 1) (BitVec.ofNat 64 (leNat ((bs.drop (8 * (i + 1))).take 8)))) []

/-- ERET in handler state: the frame is reloaded as .fresh loads, and the context resumes (R385). -/
def State.eret (s : State) (skip : Bool) : Out :=
  let c := s.cur
  match s.reach c (s.trapFrame c) 1024 8 0 .read false with
  | .wait s1 => .next s1
  | .trap s1 cause => s1.trapS cause 0
  | .ok s1 a _ =>
    if (List.range 8).any fun i => s1.lineBusy (lineOf a + i) then .next s1
    else if s1.freshBad (coreOf c) a 1024 then s1.trapS .eccUncorr 0
    else
      let bs := s1.readFresh (coreOf c) a 1024
      let resume := alignPc (leNat ((bs.drop 0x208).take 8))
      if skip && s1.codeBusy c resume.toNat then .next s1
      else
      let s2 := s1.sliceReads (coreOf c) ((List.range 8).map fun i => a + 128 * i)
      let x := { s1.ctx c with k := frameK bs, c := BitVec.ofNat 16 (leNat ((bs.drop 0x200).take 2)), untested := false }
      .next (s2.leaveHandler c skip resume x)

/-! ## Futures (R18, R269 to R272) -/

/-- A future value (R18). -/
def futVal (state kind tag status : Nat) : W64 :=
  BitVec.ofNat 64 (state * 2 ^ 61 + kind * 2 ^ 56 + tag % 2 ^ 24 * 2 ^ 32 + status % 2 ^ 32)
def futState (v : W64) : Nat := bitsOf v.toNat 63 61
def futKind (v : W64) : Nat := bitsOf v.toNat 60 56
def futTag (v : W64) : Nat := bitsOf v.toNat 55 32
def futStatus (v : W64) : Nat := bitsOf v.toNat 31 0
def isPending (v : W64) : Bool := decide (futState v = 1)

/-- The entry of a TAG in a crew's table, if the entry is held with that sequence number (R269). -/
def futEntry (w : Crew) (tag : Nat) : Option FutEntry :=
  match w.futs[tag % 64]? with
  | some e => if e.busy && decide (e.seq = tag / 64) then some e else none
  | none => none

def setFutEntry (w : Crew) (i : Nat) (e : FutEntry) : Crew := { w with futs := listSet w.futs i e }

/-- A free entry keeps its sequence number, so that the next one differs. -/
def freeEntry (e : FutEntry) : FutEntry := { FutEntry.free with seq := e.seq }

/-- An entry is freed: its future is discarded (R269, R270). -/
def State.freeFuture (s : State) (n tag : Nat) : State :=
  match futEntry (s.crew n) tag with
  | some e => s.setCrew n (setFutEntry (s.crew n) (tag % 64) (freeEntry e))
  | none => s

/-- The TAGs of pending operations, those whose futures have been discarded among them (R269), of the crews and cores that a test chooses;
those of saved crews' copies too. -/
def State.pendingTags (s : State) (p : Nat → Nat → Bool) : List Nat :=
  let here (n : Nat) : Bool := p n (s.crew n).core
  (s.looms.flatMap fun q => (q.2.ops.filter fun o => p o.2.crew q.1).filterMap fun o => o.2.fut)
    ++ ((s.copies ++ s.host.saved.flatMap (·.copies)).filter fun y => p y.crew y.core).flatMap (fun y => y.slices.map (·.fut))
    ++ ((s.fab.ops.filter fun o => here o.crew).map (·.fut))
    ++ (s.host.taken.filterMap fun t => t.fromLaunch.bind fun q => if here q.1 then some q.2 else none)
    ++ (s.comms.filterMap fun m => m.fut.bind fun q => if here q.1 then some q.2 else none)

/-- The sequence numbers that they have: those of the tables' entries, and of operations whose futures are discarded. -/
def State.usedSeqs (s : State) (p : Nat → Nat → Bool) : List Nat :=
  (s.crews.filter fun q => p q.1 q.2.core).flatMap (fun q => (q.2.futs.filter (·.busy)).map (·.seq)) ++ (s.pendingTags p).map (· / 64)

/-- The sequence numbers that a new future of a core avoids: all of the device, so that a saved crew keeps its TAGs on whatever core it is
restored (R269, R400; log 33); or the core's, where the device has too many. -/
def State.takenSeqs (s : State) (core : Nat) : List Nat :=
  let all := s.usedSeqs fun _ _ => true
  if all.length < 2 ^ 18 then all else s.usedSeqs fun _ k => decide (k = core)

/-- The first sequence number from q on that is not in a list. -/
def freshSeq (used : List Nat) : Nat → Nat → Nat
  | 0, q => q % 2 ^ 18
  | fuel + 1, q => if used.contains (q % 2 ^ 18) then freshSeq used fuel (q + 1) else q % 2 ^ 18

/-- The first free entry of a crew's table. -/
def freeIndex (w : Crew) : Option Nat := (List.range 64).find? fun i => !(w.futs.getD i FutEntry.free).busy

/-- A value is written into a future register: a pending future that it held is discarded (R270), and the register belongs to
the region (R393). -/
def State.writeF (s : State) (c : Nat) (r : FReg) (v : W64) : State :=
  let old := fGet (s.ctx c) r.toNat
  let s1 := if isPending old then s.freeFuture (s.ctx c).crew (futTag old) else s
  let x := fSet (s1.ctx c) r.toNat v
  s1.setCtx c { x with region := { x.region with futures := if x.region.futures.contains r then x.region.futures
    else x.region.futures ++ [r] } }

/-- An operation takes entry i, and the register holds its pending future: the state, and the TAG (R18, R269). -/
def State.newFuture (s : State) (i : Nat) (r : FReg) (kind : Nat) : State × Nat :=
  let c := s.cur
  let n := s.me.crew
  let e := (s.crew n).futs.getD i FutEntry.free
  let used := s.takenSeqs (coreOf c)
  let q := freshSeq used (used.length + 1) (e.seq + 1)
  let tag := q * 64 + i
  let w := setFutEntry (s.crew n) i
    { busy := true, seq := q, kind, value := futVal 1 kind tag 0, detached := false, ctx := c, reg := r,
      control := s.me.control, word := ⟨s.me.pc, s.dev.cycle⟩ }
  let s1 := s.setCrew n { w with futCtl := smSet 0 w.futCtl tag s.me.control }
  (s1.writeF c r (futVal 1 kind tag 0), tag)

/-- A register write at a stopped bench is held in its pending list (R427). -/
def State.holdWrite (s : State) (c kind reg : Nat) (v : W64) (producer : Issued) : State :=
  let b := s.bench (benchOf c)
  s.setBench (benchOf c) { b with held := b.held ++ [{ ctx := c % 32, kind, reg, value := v, producer, lane := false, ready := true, lanes := 0 }] }

/-- So is the write of a v-register in some lanes. -/
def State.holdLane (s : State) (c reg : Nat) (v : W64) (producer : Issued) (lanes : W64) : State :=
  let b := s.bench (benchOf c)
  s.setBench (benchOf c) { b with held := b.held ++ [{ ctx := c % 32, kind := 5, reg, value := v, producer, lane := true, ready := true, lanes }] }

/-- An operation ends: its final STATE and STATUS reach the register that holds its future, or the entry if the future is
detached (R269, R272). A future that was discarded receives nothing. -/
def State.endFuture (s : State) (n tag state status : Nat) : State :=
  match futEntry (s.crew n) tag with
  | none => s
  | some e =>
    let v := futVal state e.kind tag status
    if e.detached then s.setCrew n (setFutEntry (s.crew n) (tag % 64) { e with value := v })
    else
      let s1 := s.freeFuture n tag
      if (s.bench (benchOf e.ctx)).stopped then s1.holdWrite e.ctx 2 e.reg.toNat v e.word
      else s1.setCtx e.ctx (fSet (s1.ctx e.ctx) e.reg.toNat v)

/-- The CONTROL value that an operation recorded at issue (R273). -/
def State.futControl (s : State) (n tag : Nat) : W64 := smGet 0 (s.crew n).futCtl tag

end Sys2Proof.Machine
end

