-- ==== Sys2Proof/Machine/ScalarInt.lean ====
section
/-! DEFINITION. Integer, immediate, condition and argument words (05 R122 to R129). -/

namespace Sys2Proof.Machine

/-- kD receives a value, and the next word follows at n bytes. -/
def State.result (s : State) (d : KReg) (v : W64) (n : W64 := 4) : State := (s.setK d v).past n

/-- The value of a signed integer modulo 2^64. -/
def wrap64 (x : Int) : W64 := BitVec.ofInt 64 x

/-- The word is one that handler state also admits (R384): two sources and a result. -/
def State.bin (s : State) (d a b : KReg) (f : W64 → W64 → W64) : Out := .next (s.result d (f (s.kv a) (s.kv b)))

/-! ## Major 0x01 (R122, R123) -/

def execAdd (d a b : KReg) (s : State) : Out := s.bin d a b fun x y => x + y
def execSub (d a b : KReg) (s : State) : Out := s.bin d a b fun x y => x - y
def execMul (d a b : KReg) (s : State) : Out := s.bin d a b fun x y => x * y
def execMulh (d a b : KReg) (s : State) : Out := s.bin d a b fun x y => wrap64 (x.toInt * y.toInt / 2 ^ 64)
def execMulhn (d a b : KReg) (s : State) : Out := s.bin d a b fun x y => BitVec.ofNat 64 (x.toNat * y.toNat / 2 ^ 64)

/-- Signed quotient, toward zero; all ones for a zero divisor (R123). -/
def quotS (x y : W64) : W64 := if y = 0 then BitVec.allOnes 64 else wrap64 (x.toInt.tdiv y.toInt)
/-- Signed remainder, with the dividend's sign; the dividend for a zero divisor (R123). -/
def remS (x y : W64) : W64 := if y = 0 then x else wrap64 (x.toInt - x.toInt.tdiv y.toInt * y.toInt)
/-- Natural quotient and remainder (R123). -/
def quotN (x y : W64) : W64 := if y = 0 then BitVec.allOnes 64 else BitVec.ofNat 64 (x.toNat / y.toNat)
def remN (x y : W64) : W64 := if y = 0 then x else BitVec.ofNat 64 (x.toNat - x.toNat / y.toNat * y.toNat)

def execDiv (d a b : KReg) (s : State) : Out := s.bin d a b quotS
def execDivn (d a b : KReg) (s : State) : Out := s.bin d a b quotN
def execRem (d a b : KReg) (s : State) : Out := s.bin d a b remS
def execRemn (d a b : KReg) (s : State) : Out := s.bin d a b remN
def execAnd (d a b : KReg) (s : State) : Out := s.bin d a b fun x y => x &&& y
def execOr (d a b : KReg) (s : State) : Out := s.bin d a b fun x y => x ||| y
def execXor (d a b : KReg) (s : State) : Out := s.bin d a b fun x y => x ^^^ y
def execAndn (d a b : KReg) (s : State) : Out := s.bin d a b fun x y => x &&& ~~~y

/-- The three shifts by a count below 64 (R122). -/
def shlBy (x : W64) (n : Nat) : W64 := x <<< n
def shrBy (x : W64) (n : Nat) : W64 := x >>> n
def sraBy (x : W64) (n : Nat) : W64 := x.sshiftRight n

def execShl (d a b : KReg) (s : State) : Out := s.bin d a b fun x y => shlBy x (y.toNat % 64)
def execShr (d a b : KReg) (s : State) : Out := s.bin d a b fun x y => shrBy x (y.toNat % 64)
def execSra (d a b : KReg) (s : State) : Out := s.bin d a b fun x y => sraBy x (y.toNat % 64)

/-- The number of leading zero bits of an n-bit pattern, and of one bits. -/
def leadZeros (n x : Nat) : Nat := if x = 0 then n else n - 1 - Nat.log2 x
def oneCount (n x : Nat) : Nat := ((List.range n).filter fun i => bitOf x i).length

def execClz (d a : KReg) (s : State) : Out := .next (s.result d (BitVec.ofNat 64 (leadZeros 64 (s.kv a).toNat)))
def execPopc (d a : KReg) (s : State) : Out := .next (s.result d (BitVec.ofNat 64 (oneCount 64 (s.kv a).toNat)))

/-- The smaller and the larger of two words under an order. -/
def pickMin (n : Nat) (cc : Cond) (x y : BitVec n) : BitVec n := if condHolds n cc x.toNat y.toNat then x else y

def execMin (d a b : KReg) (s : State) : Out := s.bin d a b fun x y => pickMin 64 .le x y
def execMax (d a b : KReg) (s : State) : Out := s.bin d a b fun x y => pickMin 64 .ge x y
def execMinn (d a b : KReg) (s : State) : Out := s.bin d a b fun x y => pickMin 64 .len x y
def execMaxn (d a b : KReg) (s : State) : Out := s.bin d a b fun x y => pickMin 64 .gen x y
def execMov (d a : KReg) (s : State) : Out := .next (s.result d (s.kv a))

/-! ## SEL, LEA, conditions (R126 to R128) -/

def execSel (d : KReg) (n : CBit) (a b : KReg) (s : State) : Out :=
  .next (s.result d (if s.cv n then s.kv a else s.kv b))
def execLea (d a b : KReg) (sh : BitVec 3) (s : State) : Out := .next (s.result d (s.kv a + s.kv b <<< sh.toNat))
def execCmp (n : CBit) (cc : Cond) (a b : KReg) (s : State) : Out :=
  .next ((s.setC n (condHolds 64 cc (s.kv a).toNat (s.kv b).toNat)).past 4)
def execCset (n : CBit) (a : KReg) (s : State) : Out := .next ((s.setC n (s.kv a != 0)).past 4)
def execCget (d : KReg) (n : CBit) (s : State) : Out := .next (s.result d (if s.cv n then 1 else 0))

/-! ## Immediate forms (R124, R125, R127) -/

/-- One source, an immediate and a result. -/
def State.imm (s : State) (d a : KReg) (i : Lit 14) (f : W64 → W64 → W64) : Out :=
  .next (s.result d (f (s.kv a) (litVal i)) (litSize i))

def execAddi (d a : KReg) (imm : Lit 14) (s : State) : Out := s.imm d a imm fun x y => x + y
def execAndi (d a : KReg) (imm : Lit 14) (s : State) : Out := s.imm d a imm fun x y => x &&& y
def execOri (d a : KReg) (imm : Lit 14) (s : State) : Out := s.imm d a imm fun x y => x ||| y
def execXori (d a : KReg) (imm : Lit 14) (s : State) : Out := s.imm d a imm fun x y => x ^^^ y
def execShli (d a : KReg) (sh : BitVec 6) (s : State) : Out := .next (s.result d (shlBy (s.kv a) sh.toNat))
def execShri (d a : KReg) (sh : BitVec 6) (s : State) : Out := .next (s.result d (shrBy (s.kv a) sh.toNat))
def execSrai (d a : KReg) (sh : BitVec 6) (s : State) : Out := .next (s.result d (sraBy (s.kv a) sh.toNat))
def execMovi (d : KReg) (imm : Lit 14) (s : State) : Out := .next (s.result d (litVal imm) (litSize imm))
/-- kD[63:32] := imm[31:0] (R125). -/
def execMovh (d : KReg) (imm : Lit 14) (s : State) : Out :=
  .next (s.result d ((litVal imm) <<< 32 ||| (s.kv d &&& 0xFFFFFFFF)) (litSize imm))
def execCmpi (n : CBit) (cc : Cond) (a : KReg) (imm : Lit 10) (s : State) : Out :=
  .next ((s.setC n (condHolds 64 cc (s.kv a).toNat (litVal imm).toNat)).past (litSize imm))

/-- The field of n bits at pos, zero- or sign-extended (R126). -/
def extField (x : W64) (pos n : Nat) (signed : Bool) : W64 :=
  let f := bitsOf x.toNat (pos + n - 1) pos
  if signed then wrap64 (signedOf n f) else BitVec.ofNat 64 f
def execExt (d a : KReg) (pos len : BitVec 6) (signed : Bool) (s : State) : Out :=
  .next (s.result d (extField (s.kv a) pos.toNat (extLen len.toNat) signed))

/-- LDK reads the argument store of the commission (R129). -/
def execLdk (d : KReg) (idx : BitVec 14) (s : State) : Out := .next (s.result d (s.myComm.argv.getD idx.toNat 0))

end Sys2Proof.Machine
end

