-- ==== Sys2Proof/Machine/Leave.lean ====
section
/-! DEFINITION. Weighmaster leave (13 R374 to R376; 10 R296). -/

namespace Sys2Proof.Machine

/-- The tokens of a die's pool that nobody holds (R374). -/
def poolFree (d : Die) : Nat := d.share - 200 - d.granted

/-- Tokens that a crew's standing leave takes from the pool: what is set, or what its operations still hold (R296). -/
def crewLeave (w : Crew) : Nat := max w.standing w.standHeld

/-- The die of a crew. -/
def crewDie (w : Crew) : Nat := dieOfCore w.core

/-- A crew's standing leave changes, and the pool with it. -/
def State.setStanding (s : State) (n standing held : Nat) : State :=
  let w := s.crew n
  let w1 := { w with standing, standHeld := held }
  let d := s.die (crewDie w)
  (s.setCrew n w1).setDie (crewDie w) { d with granted := d.granted + crewLeave w1 - crewLeave w }

/-- Standing leave covers a cost (R376). -/
def standingCovers (w : Crew) (cost : Nat) : Bool := decide (cost + w.standHeld ≤ w.standing)

/-- A request of an owner waits in a die's queue. -/
def State.leaveQueued (s : State) (die : Nat) (o : LeaveOwner) : Bool := (s.die die).leaveQ.any fun r => r.owner = o

/-- A request joins a die's queue. -/
def State.askLeave (s : State) (die : Nat) (o : LeaveOwner) (tokens : Nat) : State :=
  let d := s.die die
  s.setDie die { d with leaveQ := d.leaveQ ++ [{ owner := o, tokens }] }

/-- A request is dropped from a die's queue. -/
def State.dropLeave (s : State) (die : Nat) (o : LeaveOwner) : State :=
  let d := s.die die
  s.setDie die { d with leaveQ := d.leaveQ.filter fun r => r.owner ≠ o }

/-- Tokens return to where they came from (R376, R296). -/
def State.returnLeave (s : State) (n tokens : Nat) (standing : Bool) : State :=
  let w := s.crew n
  if standing then s.setStanding n w.standing (w.standHeld - tokens)
  else
    let d := s.die (crewDie w)
    s.setDie (crewDie w) { d with granted := d.granted - tokens }

/-- An element of a list of pairs changed by its number. -/
def alMod {α : Type} (m : List (Nat × α)) (k : Nat) (f : α → α) : List (Nat × α) :=
  m.map fun p => if p.1 = k then (p.1, f p.2) else p

/-- The tokens granted stand with their owner. -/
def State.giveLeave (s : State) (o : LeaveOwner) (tokens : Nat) : State :=
  match o with
  | .loom k i => let lm := s.loom k; s.setLoom k { lm with ops := alMod lm.ops i fun y => { y with leave := tokens } }
  | .copy i => { s with copies := s.copies.map fun y => if y.id = i then { y with leave := tokens, waiting := false } else y }
  | .coll i => { s with fab := { s.fab with ops := s.fab.ops.map fun y =>
      if y.id = i then { y with leave := tokens, waiting := false } else y } }

/-- PWRQ (R296): an increase that does not fit, or that other requests stand before, is not granted. -/
def execPwrq (d a : KReg) (s : State) : Out :=
  s.outside fun s =>
    let n := s.me.crew; let w := s.myCrew
    let want := (s.kv a).toNat % 2 ^ 16
    let die := s.die (crewDie w)
    let more := max want w.standHeld - crewLeave w
    let ok := decide (more = 0) || (!s.dev.clamp && die.leaveQ.isEmpty && decide (more ≤ poolFree die))
    let s1 := if ok then s.setStanding n want w.standHeld else s
    .next ((s1.commitMe).result d (BitVec.ofNat 64 (crewLeave (s1.crew n))))

end Sys2Proof.Machine
end

