-- ==== Sys2Proof/Machine/Commissions.lean ====
section
/-! DEFINITION. Commissions in the scheduler table: launch packets, entry, prerequisites and final states (13 R348 to R359). -/

namespace Sys2Proof.Machine

/-! ## States (R354) -/

/-- RETIRED, REFUSED, WITHDRAWN and ABORTED are final. -/
def isFinal (st : CState) : Bool := st = .retired || st = .refused || st = .withdrawn || st = .aborted

/-- Commissions that have not reached a final state (R348). -/
def State.tableCount (s : State) : Nat := (s.comms.filter fun m => !isFinal m.state).length
def State.tableFull (s : State) : Bool := decide (Config.tableLen ≤ s.tableCount)

/-- The table with a commission changed. -/
def State.setComm (s : State) (m : Commission) : State :=
  { s with comms := s.comms.map fun o => if o.uid = m.uid then m else o }

/-- The non-final commission of a context and an identifier. -/
def State.findComm (s : State) (k : CommKey) : Option Commission :=
  s.comms.find? fun m => decide (m.key = k) && !isFinal m.state && m.drover.isNone

/-! ## Prerequisites (R355) -/

/-- No non-final commission of the context has a prerequisite's identifier. -/
def State.preMet (s : State) (m : Commission) : Bool := m.pres.all fun p => (s.findComm ⟨m.key.ctx, p⟩).isNone

/-- A commission becomes READY (COMMISSION_READY). -/
def State.makeReady (s : State) (m : Commission) : State :=
  if m.state = .queued && s.preMet m then
    { s.setComm { m with state := .ready, readySeq := s.nextReady } with nextReady := s.nextReady + 1 }
  else s

/-- The test of every queued commission of a context. -/
def State.testReady (s : State) (ctx : Nat) : State :=
  (s.comms.filter fun m => m.key.ctx = ctx && m.state = .queued).foldl State.makeReady s

/-! ## Final states (R294, R354, R359) -/

/-- STATE and STATUS of a LAUNCH future (R294). -/
def launchEnd (m : Commission) : Nat × Nat :=
  match m.state with
  | .retired => (2, m.key.id.toNat)
  | .refused => (3, m.reason)
  | .aborted => (3, 12)
  | _ => (4, 0)

/-- A commission reaches a final state. -/
def State.finish (s : State) (m : Commission) (st : CState) (reason : Nat) : State :=
  let m1 := { m with state := st, reason, tfinal := BitVec.ofNat 64 s.time, waiting := false, paging := false, reserved := false,
                     recordDue := m.drover.isNone && (m.record ≠ 0 || m.irq) }
  let s1 := s.setComm m1
  let s2 := match m1.fut with
    | some (n, tag) => let r := launchEnd m1; s1.endFuture n tag r.1 r.2
    | none => s1
  s2.testReady m.key.ctx

/-! ## Launch packets (R349, R350) -/

/-- A malformed packet (R350). -/
def packetBad (p : Nat) (fromLaunch : Bool) : Bool :=
  let f (hi lo : Nat) : Nat := bitsOf p hi lo
  let npre := f 306 304
  f 1023 976 ≠ 0 || f 959 576 ≠ 0 || f 447 432 ≠ 0 || f 383 352 ≠ 0 || f 335 332 ≠ 0 || f 319 308 ≠ 0 || f 255 249 ≠ 0
    || ((List.range 4).any fun i => decide (npre ≤ i) && f (479 + 32 * i) (448 + 32 * i) ≠ 0)
    || f 975 960 ≠ 1 || f 301 300 = 3 || decide (4 < npre) || decide (2048 < f 331 320) || decide (32 < f 245 240)
    || decide (5 < f 248 246) || f 207 192 = 0 || f 223 208 = 0 || f 239 224 = 0
    || f 63 0 % 4096 ≠ 0 || f 127 64 % 8 ≠ 0 || f 191 128 % 64 ≠ 0
    || (!bitOf p 303 && (f 431 416 ≠ 0 || f 415 384 ≠ 0)) || (bitOf p 307 && !bitOf p 302)
    || (!fromLaunch && f 287 256 = 0)

/-- An assigned identifier: the counter's next value with bit 31 set, skipping values in use (R350). -/
def freshId (s : State) (ctx : Nat) : Nat → Nat → Nat
  | 0, n => n
  | fuel + 1, n => if (s.findComm ⟨ctx, BitVec.ofNat 32 (2 ^ 31 + n % 2 ^ 31)⟩).isSome then freshId s ctx fuel (n + 1) else n

/-- The commission that a taken launch makes; its identifier, tenant, depth, and the group of a replica are given. -/
def commOfPacket (p : Nat) (uid : Nat) (key : CommKey) (tenant depth : Nat) (t : Taken) : Commission :=
  let f (hi lo : Nat) : Nat := bitsOf p hi lo
  { Commission.empty with
    uid, key, tenant, depth, prio := f 301 300, named := f 291 288, nskein := f 245 240, widthSel := f 248 246,
    nx := f 207 192, ny := f 223 208, nz := f 239 224, diemask := if f 339 336 = 0 then 15 else f 339 336,
    coop := bitOf p 302 || bitOf p 303, nowait := bitOf p 307, multi := bitOf p 303,
    group := t.group.getD (f 431 416), gen := BitVec.ofNat 32 (f 415 384), irq := bitOf p 351, vector := f 350 340,
    record := BitVec.ofNat 64 (f 191 128), image := BitVec.ofNat 64 (f 63 0), args := BitVec.ofNat 64 (f 127 64),
    arglen := f 331 320, pres := (List.range (min 4 (f 306 304))).map fun i => BitVec.ofNat 32 (f (479 + 32 * i) (448 + 32 * i)),
    fromLaunch := t.fromLaunch.isSome, parent := t.parent, fut := t.fromLaunch, lastCore := Config.cores - 1,
    windowOk := t.valid, taken := t.time }

/-- A taken launch enters the table as QUEUED, and is refused at once if malformed; a child has its parent's context and
tenant (R350). -/
def State.enterTable (s : State) (t : Taken) : State :=
  let p := leNat t.bytes
  let bad := packetBad p t.fromLaunch.isSome
  let parent := t.parent.map fun n => s.commission (s.crew n).comm
  let ctx := (parent.map (·.key.ctx)).getD t.window
  let depth := (parent.map (·.depth + 1)).getD 0
  let tenant := (parent.map (·.tenant)).getD (bitsOf p 299 292)
  let assign := t.fromLaunch.isSome && bitsOf p 287 256 = 0 && !bad
  let n := freshId s ctx Config.tableLen s.nextId
  let id : W32 := BitVec.ofNat 32 (if assign then 2 ^ 31 + n % 2 ^ 31 else bitsOf p 287 256)
  let m := commOfPacket p s.nextReady ⟨ctx, id⟩ tenant depth t
  let s1 := { s with comms := s.comms ++ [m], nextReady := s.nextReady + 1,
                     nextId := if assign then (n + 1) % 2 ^ 31 else s.nextId }
  if bad then s1.finish m .refused 1 else s1.makeReady m

/-- The last commission that entered the table. -/
def State.lastComm (s : State) (uid : Nat) : Option Commission := s.comms.find? fun m => m.uid = uid

/-! ## COMMISSION_ENTER_TABLE (R348) -/

/-- The oldest held launch enters the table while the table has room. -/
def execCommissionEnterTable (s : State) : Out :=
  match s.host.taken with
  | [] => .refused (.notEnabled "COMMISSION_ENTER_TABLE")
  | t :: rest =>
    if s.tableFull then .refused (.notEnabled "COMMISSION_ENTER_TABLE")
    else .next ({ s with host := { s.host with taken := rest } }.enterTable t)

/-! ## Withdrawal (R275, R354) -/

/-- A QUEUED or READY commission is withdrawn. -/
def State.withdrawComm (s : State) (m : Commission) : State := s.finish m .withdrawn 0

/-- A launch by LAUNCH that has not been admitted is withdrawn; one not yet in the table enters it and is withdrawn there. -/
def State.withdrawLaunch (s : State) (crew tag : Nat) : State :=
  let mine : Taken → Bool := fun t => t.fromLaunch = some (crew, tag)
  match s.host.taken.find? mine with
  | some t =>
    let s1 := { s with host := { s.host with taken := s.host.taken.filter fun u => !mine u } }
    let uid := s1.nextReady
    let s2 := s1.enterTable t
    (match s2.lastComm uid with
      | some m => if isFinal m.state then s2 else s2.withdrawComm m
      | none => s2)
  | none =>
    match s.comms.find? fun m => decide (m.fut = some (crew, tag)) && (m.state = .queued || m.state = .ready) with
    | some m => s.withdrawComm m
    | none => s

end Sys2Proof.Machine
end

