-- ==== Sys2Proof/Machine/Inflate.lean ====
section
/-! DEFINITION. The decompression methods of a copy (10 R282): STORED, ZRL, DEFLATE as RFC 1951 gives it, LZ4 as the LZ4
block format gives it (log 14). Each decoder gives what the payload holds, or none where it cannot be decoded. -/

namespace Sys2Proof.Machine

/-! ## ZRL -/

/-- Control bytes below 128 bring literals, others zeros; fuel bounds the control bytes. -/
def zrl : Nat → List Byte → Option (List Byte)
  | _, [] => some []
  | 0, _ => none
  | fuel + 1, c :: rest =>
    if c.toNat < 128 then
      (if rest.length < c.toNat + 1 then none
       else (zrl fuel (rest.drop (c.toNat + 1))).map fun o => rest.take (c.toNat + 1) ++ o)
    else (zrl fuel rest).map fun o => List.replicate (c.toNat - 127) 0 ++ o

/-! ## LZ4 blocks -/

/-- A length of 15 goes on in bytes of 255. -/
def lz4Len : Nat → List Byte → Option (Nat × List Byte)
  | _, [] => none
  | n, b :: rest => if b.toNat = 255 then lz4Len (n + 255) rest else some (n + b.toNat, rest)

/-- n bytes copied from a distance back in an output held last byte first. -/
def backCopy (dist : Nat) : Nat → List Byte → List Byte
  | 0, out => out
  | n + 1, out => backCopy dist n (out.getD (dist - 1) 0 :: out)

/-- Sequences of literals and matches; the last has literals only. The output is held last byte first. -/
def lz4 : Nat → List Byte → List Byte → Option (List Byte)
  | 0, _, _ => none
  | _, [], _ => none
  | fuel + 1, t :: rest, out =>
    let lit0 := t.toNat / 16
    match (if lit0 = 15 then lz4Len 15 rest else some (lit0, rest)) with
    | none => none
    | some (lit, r1) =>
      if r1.length < lit then none
      else
        let out1 := (r1.take lit).reverse ++ out
        match r1.drop lit with
        | [] => some out1
        | [_] => none
        | d0 :: d1 :: r2 =>
          let dist := d0.toNat + 256 * d1.toNat
          let m0 := t.toNat % 16
          match (if m0 = 15 then lz4Len 15 r2 else some (m0, r2)) with
          | none => none
          | some (m, r3) =>
            if dist = 0 || decide (out1.length < dist) then none else lz4 fuel r3 (backCopy dist (m + 4) out1)

/-! ## DEFLATE -/

/-- The bits of bytes, each byte's least significant bit first. -/
def bitList (bs : List Byte) : List Bool := bs.flatMap fun b => (List.range 8).map fun i => b.getLsbD i

/-- n bits as a number, least significant first. -/
def takeBits : Nat → List Bool → Option (Nat × List Bool)
  | 0, l => some (0, l)
  | _ + 1, [] => none
  | n + 1, b :: l => (takeBits n l).map fun p => ((if b then 1 else 0) + 2 * p.1, p.2)

/-- The number of codes of a length. -/
def lenCount (lens : List Nat) (n : Nat) : Nat := (lens.filter (· = n)).length

/-- The first code of a length. -/
def firstCode (lens : List Nat) : Nat → Nat
  | 0 => 0
  | n + 1 => (firstCode lens n + (if n = 0 then 0 else lenCount lens n)) * 2

/-- The symbols of a length, in order. -/
def symsOf (lens : List Nat) (n : Nat) : List Nat := (List.range lens.length).filter fun i => lens.getD i 0 = n

/-- No length has more codes than it has room for. -/
def lensOk (lens : List Nat) : Bool := (List.range 16).all fun n => n = 0 || decide (firstCode lens n + lenCount lens n ≤ 2 ^ n)

/-- One symbol of a canonical code: n is the length so far, fuel the lengths left. -/
def huffSym (lens : List Nat) : Nat → Nat → Nat → List Bool → Option (Nat × List Bool)
  | 0, _, _, _ => none
  | _, _, _, [] => none
  | fuel + 1, n, code, b :: l =>
    let c := 2 * code + (if b then 1 else 0)
    let i := c - firstCode lens (n + 1)
    if firstCode lens (n + 1) ≤ c && decide (i < lenCount lens (n + 1)) then ((symsOf lens (n + 1))[i]?).map fun s => (s, l)
    else huffSym lens fuel (n + 1) c l

def nextSym (lens : List Nat) (l : List Bool) : Option (Nat × List Bool) := huffSym lens 15 0 0 l

/-- Base and extra bits of the length symbols 257 to 285. -/
def lenBase : List Nat :=
  [3, 4, 5, 6, 7, 8, 9, 10, 11, 13, 15, 17, 19, 23, 27, 31, 35, 43, 51, 59, 67, 83, 99, 115, 131, 163, 195, 227, 258]
def lenExtra : List Nat := [0, 0, 0, 0, 0, 0, 0, 0, 1, 1, 1, 1, 2, 2, 2, 2, 3, 3, 3, 3, 4, 4, 4, 4, 5, 5, 5, 5, 0]
/-- Base of distance symbol 0 to 29, and its extra bits. -/
def distExtra (s : Nat) : Nat := s / 2 - 1
def distBase (s : Nat) : Nat := if s < 4 then s + 1 else (2 + s % 2) * 2 ^ distExtra s + 1

/-- The symbols of one compressed block; the output is held last byte first. -/
def inflateBlock (lit dist : List Nat) : Nat → List Bool → List Byte → Option (List Bool × List Byte)
  | 0, _, _ => none
  | fuel + 1, l, out =>
    match nextSym lit l with
    | none => none
    | some (s, l1) =>
      if s < 256 then inflateBlock lit dist fuel l1 (BitVec.ofNat 8 s :: out)
      else if s = 256 then some (l1, out)
      else if 285 < s then none
      else match takeBits (lenExtra.getD (s - 257) 0) l1 with
        | none => none
        | some (e, l2) => match nextSym dist l2 with
          | none => none
          | some (d, l3) =>
            if 29 < d then none
            else match takeBits (distExtra d) l3 with
              | none => none
              | some (f, l4) =>
                let back := distBase d + f
                if out.length < back then none
                else inflateBlock lit dist fuel l4 (backCopy back (lenBase.getD (s - 257) 0 + e) out)

/-- The fixed codes. -/
def fixedLit : List Nat := List.replicate 144 8 ++ List.replicate 112 9 ++ List.replicate 24 7 ++ List.replicate 8 8
def fixedDist : List Nat := List.replicate 30 5

/-- The order of the code-length lengths. -/
def clOrder : List Nat := [16, 17, 18, 0, 8, 7, 9, 6, 10, 5, 11, 4, 12, 3, 13, 2, 14, 1, 15]

/-- n three-bit lengths. -/
def clLens : Nat → List Bool → Option (List Nat × List Bool)
  | 0, l => some ([], l)
  | n + 1, l => match takeBits 3 l with
    | none => none
    | some (v, l1) => (clLens n l1).map fun p => (v :: p.1, p.2)

/-- Code lengths run-coded; held last first, until n have come. -/
def runLens (cl : List Nat) (n : Nat) : Nat → List Bool → List Nat → Option (List Nat × List Bool)
  | 0, _, _ => none
  | fuel + 1, l, acc =>
    if acc.length = n then some (acc.reverse, l)
    else if n < acc.length then none
    else match nextSym cl l with
      | none => none
      | some (s, l1) =>
        if s < 16 then runLens cl n fuel l1 (s :: acc)
        else
          let base := if s = 16 then 3 else if s = 17 then 3 else 11
          let bits := if s = 16 then 2 else if s = 17 then 3 else 7
          match takeBits bits l1 with
          | none => none
          | some (e, l2) =>
            if s = 16 && acc.isEmpty then none
            else runLens cl n fuel l2 (List.replicate (base + e) (if s = 16 then acc.headD 0 else 0) ++ acc)

/-- The codes of a block with codes of its own. -/
def dynCodes (l : List Bool) : Option (List Nat × List Nat × List Bool) :=
  match takeBits 5 l with
  | none => none
  | some (hlit, l1) => match takeBits 5 l1 with
    | none => none
    | some (hdist, l2) => match takeBits 4 l2 with
      | none => none
      | some (hclen, l3) => match clLens (hclen + 4) l3 with
        | none => none
        | some (v, l4) =>
          let cl := (List.range 19).map fun s => match (clOrder.zip v).find? fun p => p.1 = s with
            | some p => p.2
            | none => 0
          if !lensOk cl then none
          else match runLens cl (hlit + 257 + hdist + 1) (l4.length + 1) l4 [] with
            | none => none
            | some (lens, l5) =>
              let lit := lens.take (hlit + 257); let dist := lens.drop (hlit + 257)
              if lensOk lit && lensOk dist then some (lit, dist, l5) else none

/-- Bytes of a bit list that stands on a byte boundary. -/
def bytesOf : Nat → List Bool → Option (List Byte × List Bool)
  | 0, l => some ([], l)
  | n + 1, l => match takeBits 8 l with
    | none => none
    | some (v, l1) => (bytesOf n l1).map fun p => (BitVec.ofNat 8 v :: p.1, p.2)

/-- The blocks of a stream; fuel bounds their number. -/
def inflate : Nat → List Bool → List Byte → Option (List Byte)
  | 0, _, _ => none
  | fuel + 1, l, out =>
    match takeBits 3 l with
    | none => none
    | some (h, l1) =>
      let r := match h / 2 with
        | 0 =>
          (match takeBits 32 (l1.drop (l1.length % 8)) with
            | none => none
            | some (v, l2) =>
              if v % 2 ^ 16 + v / 2 ^ 16 ≠ 2 ^ 16 - 1 then none
              else (bytesOf (v % 2 ^ 16) l2).map fun p => (p.2, p.1.reverse ++ out))
        | 1 => inflateBlock fixedLit fixedDist (l1.length + 1) l1 out
        | 2 =>
          (match dynCodes l1 with
            | none => none
            | some (lit, dist, l2) => inflateBlock lit dist (l2.length + 1) l2 out)
        | _ => none
      match r with
      | none => none
      | some (l2, out2) => if h % 2 = 1 then some out2 else inflate fuel l2 out2

/-- What a block's payload holds under its METHOD; none where it cannot be decoded, or the METHOD is undefined. -/
def expandBlock (method : Nat) (bs : List Byte) : Option (List Byte) :=
  match method with
  | 0 => some bs
  | 1 => zrl bs.length bs
  | 2 => (inflate (8 * bs.length + 1) (bitList bs) []).map List.reverse
  | 3 => (lz4 (bs.length + 1) bs []).map List.reverse
  | _ => none

end Sys2Proof.Machine
end

