-- ==== Sys2Proof/Machine/Names.lean ====
section
/-! DEFINITION. The registers that a word reads and writes, and register words with an uncorrectable error (17 R449; log 15). -/

namespace Sys2Proof.Machine

/-! ## What a word names -/

/-- v-registers from a field on, as a lane word uses it. -/
def useRegs (u : Use) (field : Nat) (sq : Bool) : List Nat :=
  match u with
  | .v n => (List.range n).map (field + ·)
  | .vq => if sq then [] else [field]
  | .none | .m | .mq | .q => []

/-- The v-registers that each lane of a lane word reads, and those that it writes. -/
def laneReads (i : Instr) : List Nat :=
  match laneParts i, i with
  | some (c, o), _ =>
    let h := laneShape c o
    useRegs h.s1 o.s1.toNat (o.sq.getLsbD 2) ++ useRegs h.s2 o.s2.toNat (o.sq.getLsbD 1) ++ useRegs h.s3 o.s3.toNat (o.sq.getLsbD 0)
  | none, .pairedLaneWord h0 h1 => sourceSet h0 h1
  | none, _ => []
def laneWrites (i : Instr) : List Nat :=
  match laneParts i, i with
  | some (c, o), _ => useRegs (laneShape c o).dst o.dst.toNat false
  | none, .pairedLaneWord h0 h1 => [h0.dst.toNat, h1.dst.toNat]
  | none, _ => []

/-- n k-registers from one on. -/
def kRun (a : KReg) (n : Nat) : List Nat := (List.range n).map (a.toNat + ·)

/-- The k-registers that a scalar word reads. -/
def scalarReads (i : Instr) : List Nat :=
  match i with
  | .add _ a b | .sub _ a b | .mul _ a b | .mulh _ a b | .mulhn _ a b | .div _ a b | .divn _ a b | .rem _ a b | .remn _ a b
  | .and _ a b | .or _ a b | .xor _ a b | .andn _ a b | .shl _ a b | .shr _ a b | .sra _ a b | .min _ a b | .max _ a b
  | .minn _ a b | .maxn _ a b | .lea _ a b _ | .sel _ _ a b | .cmp _ _ a b => [a.toNat, b.toNat]
  | .clz _ a | .popc _ a | .mov _ a | .cset _ a | .addi _ a _ | .andi _ a _ | .ori _ a _ | .xori _ a _ | .shli _ a _ | .shri _ a _
  | .srai _ a _ | .cmpi _ _ a _ | .ext _ a _ _ _ | .ld8 _ a _ _ | .ld16 _ a _ _ | .ld32 _ a _ _ | .ld64 _ a _ _ | .jr a | .fuse a
  | .talloc _ a _ | .ttake _ a | .mperm _ a | .mcode _ a | .fldf _ a | .barn _ a | .barnArrive _ a | .launch _ a | .pwrq _ a | .bcn _ a =>
    [a.toNat]
  | .st8 d a _ _ | .st16 d a _ _ | .st32 d a _ _ | .st64 d a _ _ => [d.toNat, a.toNat]
  | .atm d a b op _ _ => [a.toNat, b.toNat] ++ if op = .cas then [d.toNat] else []
  | .loop d _ | .swr d _ | .lset d _ _ => [d.toNat]
  | .ret => [63]
  | .lrun e => kRun e.qk e.qn.toNat
  | .lloopN e tk | .lloopAny e tk _ => tk.toNat :: kRun e.qk e.qn.toNat
  | .thand _ _ b | .mbeamTile _ _ b _ | .mcvt _ _ b => [b.toNat]
  | .mbeamMem _ a b _ => [a.toNat, b.toNat]
  | .mloopMem _ a _ _ _ _ => kRun a 3
  | .mloopTile _ a _ _ _ _ | .mstep a _ _ _ _ => [a.toNat]
  | .cpy _ a b | .cpyz _ a b | .mupd _ a b => b.toNat :: kRun a 5
  | .cpyg _ a b => b.toNat :: kRun a 6
  | .coll _ a _ _ => kRun a 2
  | _ => []

/-- The k-register that a scalar word writes. -/
def scalarWrites (i : Instr) : List Nat :=
  match i with
  | .add d _ _ | .sub d _ _ | .mul d _ _ | .mulh d _ _ | .mulhn d _ _ | .div d _ _ | .divn d _ _ | .rem d _ _ | .remn d _ _
  | .and d _ _ | .or d _ _ | .xor d _ _ | .andn d _ _ | .shl d _ _ | .shr d _ _ | .sra d _ _ | .min d _ _ | .max d _ _
  | .minn d _ _ | .maxn d _ _ | .lea d _ _ _ | .sel d _ _ _ | .clz d _ | .popc d _ | .mov d _ | .cget d _ | .addi d _ _ | .andi d _ _
  | .ori d _ _ | .xori d _ _ | .shli d _ _ | .shri d _ _ | .srai d _ _ | .movi d _ | .movh d _ | .ext d _ _ _ _ | .ldk d _
  | .ld8 d _ _ _ | .ld16 d _ _ _ | .ld32 d _ _ _ | .ld64 d _ _ _ | .atm d _ _ _ _ _ | .loop d _ | .vget d _ | .votew d _ | .split d _ _
  | .width d | .thand d _ _ | .fwait d _ | .fsto d _ | .pwrq d _ | .srd d _ | .lget d _ _ => [d.toNat]
  | .call _ => [63]
  | .eret | .eretSkip => List.range 64
  | _ => []

/-! ## Register words in error (R449) -/

/-- The number, among the register words, of a k-register of a context, and of a v-register by its place in a bench's lanes. -/
def kWord (c r : Nat) : Nat := 64 * c + r
def vWord (place : Nat) : Nat := 2 ^ 40 + place

/-- The v-register words of a context's lanes. -/
def vWords (x : Skein) (c : Nat) (lanes regs : List Nat) : List Nat :=
  lanes.flatMap fun l => regs.map fun r => vWord (256 * physLane x c l + r)

/-- A scalar word reads a register word in error. -/
def State.scalarBad (s : State) (c : Nat) (i : Instr) : Bool :=
  !s.ms.badRegs.isEmpty
    && ((scalarReads i).any (fun r => decide (r ≠ 0) && s.ms.badRegs.contains (kWord c r))
      || match i with
        | .coll _ _ b _ => (vWords (s.ctx c) c (List.range (lanesOf (s.ctx c).width)) ((List.range 3).map (b.toNat + ·))).any s.ms.badRegs.contains
        | _ => false)

/-- The lanes of a mask whose registers, of those that a lane word reads, hold an error. -/
def State.lanesBad (s : State) (c : Nat) (i : Instr) (act : W64) : List Nat :=
  if s.ms.badRegs.isEmpty then []
  else (List.range 64).filter fun l => act.getLsbD l && (vWords (s.ctx c) c [l] (laneReads i)).any s.ms.badRegs.contains

/-- Register words that have been written anew. -/
def State.cleanWords (s : State) (ws : List Nat) : State :=
  { s with ms := { s.ms with badRegs := s.ms.badRegs.filter fun r => !ws.contains r } }

end Sys2Proof.Machine
end

