-- ==== Sys2Proof/Machine/Fetch.lean ====
section
/-! DEFINITION. Fetching and decoding the word that is to issue (04 R94, R106 to R109; 14 R387, R388). -/

namespace Sys2Proof.Machine

/-! ## Sections of an image (R94, R352, R382) -/

/-- A section of a commission's image: ctrl 0, lane 1, REGN 2. -/
def secOf (m : Commission) (i : Nat) : Nat × Nat := m.secs.getD i (0, 0)

/-- n bytes at an address lie in a section. -/
def inSec (sec : Nat × Nat) (va n : Nat) : Bool := decide (sec.1 ≤ va) && decide (va + n ≤ sec.1 + sec.2)

/-- Where a context's scalar words lie: the ctrl section, or the handler range in handler state. -/
def State.codeRange (s : State) (c : Nat) : Nat × Nat :=
  let m := s.commOf c
  let e := s.ctxEntry m.key.ctx
  if (s.ctx c).handler then (ctxTrapVec e, ctxTrapLen e) else secOf m 0

/-! ## Code bytes -/

/-- What a fetch gives. -/
inductive Fetched
  | ok (s : State) (w : Nat)
  | wait (s : State)
  | trap (s : State) (c : Cause) (d : Nat)
  deriving DecidableEq, Repr

/-- The instruction cache's copy of a line. -/
def State.codeFind (s : State) (core : Nat) (lane : Bool) (line : Nat) : Option CodeLine :=
  s.ms.ic.find? fun e => decide (e.core = core) && (e.lane == lane) && decide (e.line = line)

/-- A line enters an instruction cache; a full one gives one up (R301, log 8). A line with an uncorrectable word is not kept (R108). -/
def State.codeKeep (s : State) (core : Nat) (lane : Bool) (line : Nat) (data : List Byte) : State :=
  if s.poisoned (Config.lineBytes * line) Config.lineBytes then s
  else
    let mine := s.ms.ic.filter fun e => decide (e.core = core) && (e.lane == lane)
    let gone := if Config.icLines lane ≤ mine.length then s.victimOf mine else none
    let s1 := if gone.isSome then s.draw.2 else s
    let keep := match gone with
      | some v => s1.ms.ic.erase v
      | none => s1.ms.ic
    { s1 with ms := { s1.ms with ic := { core, lane, line, data } :: keep } }

/-- A line of code as a fetch finds it: the instruction cache's copy, or the bytes of its home slice, which the cache then keeps. -/
def State.codeLine (s : State) (core : Nat) (lane : Bool) (line : Nat) : State × List Byte :=
  match s.codeFind core lane line with
  | some e => (s, e.data)
  | none =>
    let data := memRead s.mem (Config.lineBytes * line) Config.lineBytes
    ((s.sliceRead core (Config.lineBytes * line)).codeKeep core lane line data, data)

/-- A DENY verdict for the page of an address that a stream of a context has still to meet (R387). -/
def State.deniedFetch (s : State) (c : Nat) (lane : Bool) (va : Nat) : Option FetchWait :=
  let x := s.ctx c
  (s.crew x.crew).fetches.find? fun h => h.denied && decide (h.who = 2 * x.index + bnum lane) && decide (h.page = va / 4096)

/-- A verdict has been met. -/
def State.meetVerdict (s : State) (n : Nat) (h : FetchWait) : State :=
  s.setCrew n { s.crew n with fetches := (s.crew n).fetches.erase h }

/-- Four bytes of code at a virtual address (R387, R388); a line that no instruction cache of the core holds is waited for while a copy owns
it (R310, R342). A page without X, a DENY verdict, a malformed entry, and the window, where
no page can be mapped, trap FETCH 3; a page of another tenant and an unmapped address trap ACCESS (R304, R324; log 76). -/
def State.fetch4 (s : State) (c : Nat) (lane : Bool) (va : Nat) : Fetched :=
  match s.deniedFetch c lane va with
  | some h => .trap (s.meetVerdict (s.ctx c).crew h) .fetch 3
  | none =>
    if Config.windowBase ≤ va then .trap s .fetch 3
    else
      match s.translate c va 3 with
      | (s1, .wait) => .wait s1
      | (s1, .denied) => .trap s1 .fetch 3
      | (s1, .error) => .trap s1 .eccUncorr 0
      | (s1, .ok l) =>
        let a := l.phys va
        if !l.x then .trap s1 .fetch 3
        else if !pageOk l .fetch (s1.commOf c).tenant va then .trap s1 .access 0
        else if (s1.codeFind (coreOf c) lane (lineOf a)).isNone && s1.lineBusy (lineOf a) then .wait s1
        else if (s1.codeFind (coreOf c) lane (lineOf a)).isNone && s1.poisoned a 4 then .trap s1 .eccUncorr 0
        else
          let r := s1.codeLine (coreOf c) lane (lineOf a)
          .ok r.1 (leNat ((r.2.drop (a % Config.lineBytes)).take 4))

/-! ## Scalar words -/

/-- A word that is to issue, or why it does not. -/
inductive Word
  | instr (s : State) (i : Instr)
  | wait (s : State)
  | trap (s : State) (t : Trap)
  deriving DecidableEq, Repr

/-- A decoded scalar word of a context, or its decode trap (R106); one that reads a register word in error traps (R449). -/
def scalarWord (s : State) (c : Nat) : Decoded → Word
  | .instr i => if s.scalarBad c i then .trap s (scalarTrap .eccUncorr 0) else .instr s i
  | .illegal d => .trap s (scalarTrap .illegal d)
  | .illegalPair d => .trap s (scalarTrap .illegalPair d)

/-- The scalar word of a context that is to issue: fetch, breakpoint, literal, decode (R94, R97, R106, R429). That a literal word which
cannot be fetched traps FETCH before any decode check of its word is the model's choice: R94 and R106 give no order (log 76). -/
def State.nextScalar (s : State) (c : Nat) : Word :=
  let pc := (s.ctx c).pc
  let sec := s.codeRange c
  if !inSec sec pc.toNat 4 then .trap s (scalarTrap .fetch 1)
  else
    match s.fetch4 c false pc.toNat with
    | .wait s1 => .wait s1
    | .trap s1 k d => .trap s1 (scalarTrap k d)
    | .ok s1 w =>
      match s1.breakHit c false pc with
      | some (_, true) => .wait (s1.stopAt (benchOf c) 2 c false)
      | some (n, false) => .trap s1 (scalarTrap .watch (0x100 + n))
      | none =>
        if hasLiteral w then
          if !inSec sec (pc.toNat + 4) 4 then .trap s1 (scalarTrap .fetch 1)
          else
            match s1.fetch4 c false (pc.toNat + 4) with
            | .wait s2 => .wait s2
            | .trap s2 k d => .trap s2 (scalarTrap k d)
            | .ok s2 l => scalarWord s2 c (decodeScalar w l)
        else scalarWord s1 c (decodeScalar w 0)

/-! ## Lane words -/

/-- The address of the lane word at which a context's lanes stand (R151, R152). -/
def laneAddr (x : Skein) : W64 :=
  match x.queue with
  | e :: _ => e.block + BitVec.ofNat 64 (12 * e.word)
  | [] => 0

/-- The entry mask selector of the head entry (R148). -/
def entrySel (x : Skein) : Nat :=
  match x.queue with
  | e :: _ => e.msel.toNat
  | [] => 0

/-- A trap that concerns a whole lane word (R380): decode and fetch traps do not read the word's own selector. -/
def wholeTrap (x : Skein) (cause : Cause) (detail : Nat) (mask : W64) : Trap :=
  { cause, detail, lane := true, lw := laneAddr x, mask, replay := false, done := false, pushLoop := false }
def fetchTrap (x : Skein) (cause : Cause) (detail : Nat) : Trap := wholeTrap x cause detail (heldLanes x (entrySel x))

/-- The mask selector of a decoded lane word (R101, R103). -/
def wordSel (i : Instr) : Nat :=
  match laneParts i with
  | some (_, o) => o.msel.toNat
  | none => 0

/-- The lanes that a word would have active, for a code breakpoint (R380, R429). -/
def selLanes (x : Skein) (nv w : Nat) : W64 :=
  match decodeLane nv w with
  | .instr i => heldLanes x (entrySel x) &&& mGet x (wordSel i)
  | _ => heldLanes x (entrySel x)

/-- A decoded lane word, or its decode trap (R106, R107). Where lanes read a register word in error those lanes fail, and none is performed
(R449). -/
def laneWord (s : State) (c : Nat) : Decoded → Word
  | .instr i =>
    let x := s.ctx c
    (match s.lanesBad c i (heldLanes x (entrySel x) &&& mGet x (wordSel i) &&& x.replay.getD (BitVec.allOnes 64)) with
      | [] => .instr s i
      | l :: ls => .trap s (wholeTrap x .eccUncorr l ((l :: ls).foldl (fun m b => m ||| (1 : W64) <<< b) 0)))
  | .illegal d => .trap s (fetchTrap (s.ctx c) .illegal d)
  | .illegalPair d => .trap s (fetchTrap (s.ctx c) .illegalPair d)

/-- The lane word of a context that is to issue: fetch, breakpoint, decode (R106, R107, R387, R429). -/
def State.nextLane (s : State) (c : Nat) : Word :=
  let a := laneAddr (s.ctx c)
  match s.fetch4 c true a.toNat with
  | .wait s1 => .wait s1
  | .trap s1 k d => .trap s1 (fetchTrap (s1.ctx c) k d)
  | .ok s1 w0 =>
    match s1.fetch4 c true (a.toNat + 4) with
    | .wait s2 => .wait s2
    | .trap s2 k d => .trap s2 (fetchTrap (s2.ctx c) k d)
    | .ok s2 w1 =>
      match s2.fetch4 c true (a.toNat + 8) with
      | .wait s3 => .wait s3
      | .trap s3 k d => .trap s3 (fetchTrap (s3.ctx c) k d)
      | .ok s3 w2 =>
        let w := w0 + w1 * 2 ^ 32 + w2 * 2 ^ 64
        let nv := (s3.commOf c).vregs
        match s3.breakHit c true a with
        | some (_, true) => .wait (s3.stopAt (benchOf c) 2 c true)
        | some (n, false) => .trap s3 (wholeTrap (s3.ctx c) .watch (0x100 + n) (selLanes (s3.ctx c) nv w))
        | none => laneWord s3 c (decodeLane nv w)

end Sys2Proof.Machine
end

