-- ==== Sys2Proof/Machine/Operands.lean ====
section
/-! DEFINITION. Operand forms of lane words (04 R101 to R103; 06 R170; 07 R172, R173; 08 R204, R207), and how a lane word
ends: retirement, assay counting, traps (14 R379, R380; 16 R438). -/

namespace Sys2Proof.Machine

/-! ## Active lanes (R24) -/

/-- The lanes that a word with selector sel is active in: those of a pending replay only, if there is one (R385). -/
def State.act (s : State) (sel : MReg) : W64 :=
  let x := s.me
  heldLanes x (entrySel x) &&& mGet x sel.toNat &&& x.replay.getD (BitVec.allOnes 64)

/-- The width in lanes of the skein whose word executes. -/
def State.w (s : State) : Nat := lanesOf s.me.width

/-- The lanes below a width whose bits are set, in ascending order. -/
def lanesIn (w : Nat) (m : W64) : List Nat := (List.range w).filter fun l => m.getLsbD l

/-- The mask of a list of lanes. -/
def maskOf (ls : List Nat) : W64 := ls.foldl (fun m l => m ||| 1#64 <<< l) 0

/-! ## Sources (R26, R56, R102, R173) -/

/-- A q-slot of the entry that carries the word (R26). -/
def State.qv (s : State) (n : Nat) : W64 :=
  match s.me.queue with
  | e :: _ => e.q.getD n 0
  | [] => 0

/-- A v-register of a lane of the skein whose word executes. -/
def State.lv (s : State) (l n : Nat) : W32 := s.vGet s.cur l n

/-- A 32-bit source field: a v-register of the lane, or bits [31:0] of a q-slot (R173). -/
def State.field (s : State) (l : Nat) (f : BitVec 8) (sq : Bool) : W32 :=
  if sq then (s.qv f.toNat).setWidth 32 else s.lv l f.toNat

def State.src1 (s : State) (o : LaneOp) (l : Nat) : W32 := s.field l o.s1 (o.sq.getLsbD 2)
def State.src2 (s : State) (o : LaneOp) (l : Nat) : W32 := s.field l o.s2 (o.sq.getLsbD 1)
def State.src3 (s : State) (o : LaneOp) (l : Nat) : W32 := s.field l o.s3 (o.sq.getLsbD 0)

/-- ABS, then NEG, on a floating-point pattern (R102). -/
def absNeg (f : Fmt) (neg abs : Bool) (b : Nat) : Nat :=
  let h := 2 ^ (fmtBits f - 1)
  let m := if abs then b % h else b % (2 * h)
  if neg then (m + h) % (2 * h) else m

/-- Element i of n bits of a register (R56). -/
def elemOf (n i : Nat) (x : W32) : Nat := bitsOf x.toNat (n * i + n - 1) (n * i)
/-- A register from its elements of n bits, element 0 first. -/
def packElems (n : Nat) : List Nat → Nat
  | [] => 0
  | e :: es => e % 2 ^ n + 2 ^ n * packElems n es
/-- A register with element i of n bits replaced. -/
def putElem (n i v : Nat) (x : W32) : W32 :=
  BitVec.ofNat 32 (packElems n ((List.range (32 / n)).map fun j => if j = i then v else elemOf n j x))

/-- The elements of a register under a change of each. -/
def mapElems (n : Nat) (g : Nat → Nat) : W32 := BitVec.ofNat 32 (packElems n ((List.range (32 / n)).map g))

/-- ABS and NEG on every packed element of a register, or on the one pattern of an unpacked format of 32 bits. -/
def absNegAll (f : Fmt) (neg abs : Bool) (x : W32) : W32 :=
  mapElems (fmtBits f) fun i => absNeg f neg abs (elemOf (fmtBits f) i x)

/-- A single narrow result as a register: sign copies for s8 and s4, zeros otherwise (R56). -/
def widen (f : Fmt) (b : Nat) : W32 :=
  if f = .s8 || f = .s4 then BitVec.ofInt 32 (signedOf (fmtBits f) (b % 2 ^ fmtBits f)) else BitVec.ofNat 32 (b % 2 ^ fmtBits f)

/-! ## Reach (R102, R170) -/

/-- The reach in lanes of a skein of w lanes. -/
def reachLanes (w : Nat) (r : BitVec 3) : Nat := if r = 0 then w else min w (4 * 2 ^ (r.toNat - 1))
/-- The first lane of a lane's reach segment. -/
def segOf (r l : Nat) : Nat := l / r * r

/-- xl_read (R170). -/
def State.xlRead (s : State) (r : Nat) (fill : Bool) (l : Nat) (src : Int) (n : Nat) : W32 :=
  let seg := segOf r l
  if src < seg || (seg + r : Int) ≤ src || (s.w : Int) ≤ src then (if fill then s.lv l n else 0) else s.lv src.toNat n

/-! ## Destinations -/

/-- Active lanes receive a register's new values; the values come from the state before (R172). -/
def putLanes (s : State) (c dst : Nat) : List (Nat × W32) → State
  | [] => s
  | (l, v) :: rest => putLanes (s.vSet c l dst v) c dst rest

/-- Bits of an m-register in the lanes of a mask (R172, R195). -/
def putMask (x : Skein) (dst : Nat) (act bits : W64) : Skein := mSet x dst ((mGet x dst &&& ~~~act) ||| (bits &&& act))

/-! ## The generator (R223, R224) -/

/-- The step of a 64-bit generator: its new state. -/
def rngStep (x : W64) : W64 :=
  let x1 := x ^^^ (x <<< 13)
  let x2 := x1 ^^^ (x1 >>> 7)
  x2 ^^^ (x2 <<< 17)
/-- The output of a state just stepped to. -/
def rngOut (x : W64) : W32 := (x >>> 32).setWidth 32 ^^^ x.setWidth 32
/-- A state is never 0. -/
def rngSeed (x : W64) : W64 := if x = 0 then 0x8000000000000000 else x

/-! ## Assay counting (R438, R439) -/

/-- LOG of ASCTL (R439). -/
def assayLog (b : Bench) : Nat :=
  let lg := bitsOf b.asctl.toNat 8 4
  if 10 ≤ lg && lg ≤ 20 then lg else 10
/-- The next interval is drawn. -/
def drawInterval (b : Bench) : Bench :=
  let g := rngStep b.asgen
  { b with asgen := g, ascount := 0, asnext := 2 ^ (assayLog b - 1) + (rngOut g).toNat % 2 ^ assayLog b }

/-- A context's tenant takes part in the counting (R438). -/
def State.assayOpen (s : State) : Bool :=
  let ctl := (s.bench (benchOf s.cur)).asctl.toNat
  !s.me.replay.isSome && !(bitOf ctl 16 && decide (bitsOf ctl 31 24 ≠ s.myComm.tenant))

/-- A lane word that issues is counted, and while EN is 1 tagged if it brings the count to the interval. A replay is neither. -/
def State.assay (s : State) (act : W64) (passes level : Nat) (trapped : Bool) : State :=
  let b := s.bench (benchOf s.cur)
  if !s.assayOpen then s
  else if !bitOf b.asctl.toNat 0 || decide (b.ascount + 1 < b.asnext) then s.setBench (benchOf s.cur) { b with ascount := b.ascount + 1 }
  else
    let r : Assay := { lw := laneAddr s.me, tissue := BitVec.ofNat 64 s.time, comm := s.myComm.key.id, tenant := s.myComm.tenant,
                       ctx := s.cur % 32, active := (lanesIn s.w act).length, passes, trapped, stopped := false, level,
                       left := if trapped then 0 else s.me.unret.length + 1 }
    s.setBench (benchOf s.cur) { drawInterval b with tagged := b.tagged ++ [r] }

/-- What a lane word that has issued and not completed adds to its record: the farthest memory reached, and a trap, which ends it. n is the
number of words of its context that have issued before it and not retired: a record of an earlier issue of the word counts no more. -/
def noteRecord (ctx n level : Nat) (trapped : Bool) (r : Assay) : Assay :=
  if r.ctx = ctx && decide (r.left = n + 1) then
    { r with level := max r.level level, trapped := trapped, left := if trapped then 0 else r.left }
  else r
def State.assayNote (s : State) (level : Nat) (trapped : Bool) : State :=
  let b := s.bench (benchOf s.cur)
  s.setBench (benchOf s.cur) { b with tagged := b.tagged.map (noteRecord (s.cur % 32) s.me.unret.length level trapped) }

/-- The lane word of a context that has issued and not completed is dropped or leaves with its crew: its record is to be written as it
stands (log 62). -/
def State.assaySettle (s : State) (c : Nat) : State :=
  let b := s.bench (benchOf c)
  s.setBench (benchOf c) { b with tagged := b.tagged.map fun r => if r.ctx = c % 32 then { r with left := 0 } else r }

/-- A lane word of a context retires: the records of its context come nearer to their writing (R439). -/
def State.assayRetire (s : State) (c : Nat) : State :=
  let b := s.bench (benchOf c)
  s.setBench (benchOf c) { b with tagged := b.tagged.map fun r => if r.ctx = c % 32 then { r with left := r.left - 1 } else r }

/-! ## The end of a lane word (R147, R379, R380) -/

/-- The word has issued and will retire: the lanes stand at the next word. -/
def laneStep (range : Bool) (awaits : Option Path) (x : Skein) : Skein :=
  let y := laneNext { x with replay := none, decodeAt := none, untestedLane := false }
  { y with unret := y.unret ++ [{ range, depth := depthOf y, awaits }] }

/-- A lane word that completes, and was counted when it issued; awaits that it retires when data has returned. -/
def State.laneEnd (s : State) (range : Bool) (awaits : Option Path) : State := s.setMe (laneStep range awaits s.me)

/-- A lane word that issues and completes in one turn; range says that it sets SKST.RANGE. -/
def State.laneDone (s : State) (act : W64) (range : Bool) (passes : Nat := 0) (level : Nat := 0)
    (awaits : Option Path := none) : State :=
  (s.assay act passes level false).laneEnd range awaits

/-- A trap that concerns a whole lane word, which has been counted (R380). -/
def State.trapWord (s : State) (cause : Cause) (detail : Nat) (mask : W64) : Out :=
  .next (s.takeTrap s.cur (wholeTrap s.me cause detail mask))

/-- A trap that concerns a whole lane word and is found as it issues (R380); act is its active lanes. -/
def State.trapWhole (s : State) (cause : Cause) (detail : Nat) (act mask : W64) : Out :=
  (s.assay act 0 0 true).trapWord cause detail mask

/-- A trap that concerns particular lanes: the others have been performed (R208, R380). -/
def State.trapLanes (s : State) (cause : Cause) (detail : Nat) (mask : W64) : State :=
  s.takeTrap s.cur { wholeTrap s.me cause detail mask with replay := true }

/-! ## The running contract (R30, R82, R87, R88) -/

def State.contract (s : State) : Nat := s.myComm.contract
/-- The vector subnormal mode is FLUSH (R60). -/
def State.flush (s : State) : Bool := flushOf s.contract
/-- The CAPC code of a class under the running contract (R31). -/
def State.capCode (s : State) (k : Nat) : Nat := capcCode (capcOf s.part.torhw (s.contract - 1)) k

/-- A floating-point lane word under an emulated vector unit traps, whatever its lanes (R88). -/
def State.cvecGate (s : State) (fp : Bool) (act : W64) (k : Out) : Out :=
  if fp && s.capCode 3 = 1 then s.trapWhole .illegal 0x103 act act else k

/-! ## Words that compute a value per lane -/

/-- A word whose active lanes each compute a value, and whether RANGE is set, from the state before (R172). -/
def State.valueWord (s : State) (o : LaneOp) (fp : Bool) (f : Nat → W32 × Bool) : Out :=
  let act := s.act o.msel
  s.cvecGate fp act <|
    let vs := (lanesIn s.w act).map fun l => (l, f l)
    .next ((putLanes s s.cur o.dst.toNat (vs.map fun p => (p.1, p.2.1))).laneDone act (vs.any fun p => p.2.2))

/-- A word whose active lanes each compute a bit of a mask (R181, R186, R195). -/
def State.maskWord (s : State) (o : LaneOp) (fp : Bool) (f : Nat → Bool) : Out :=
  let act := s.act o.msel
  s.cvecGate fp act <|
    let bits := maskOf ((lanesIn s.w act).filter f)
    .next ((s.setMe (putMask s.me o.dst.toNat act bits)).laneDone act false)

end Sys2Proof.Machine
end

