-- ==== Sys2Proof/Machine/LaneArith.lean ====
section
/-! DEFINITION. Lane arithmetic and mask logic (07 R172 to R195, R201). -/

namespace Sys2Proof.Machine

/-! ## Values of the pairable words (R178, R184, R185, R189) -/

/-- An integer result of n bits: the exact value modulo 2^n, or clamped to the range of the type (R178). -/
def intResult (f : Fmt) (sat : Bool) (x : Int) : Nat :=
  patOf (fmtBits f) (if sat then clampInt (imin f) (imax f) x else x)

/-- An operation on each element of an integer type, packed for s8 and n8 (R177). -/
def intOp (f : Fmt) (sat : Bool) (g : Int → Int → Int → Int) (a b c : W32) : W32 :=
  let n := fmtBits f
  mapElems n fun i =>
    intResult f sat (g (decodeInteger f (elemOf n i a)) (decodeInteger f (elemOf n i b)) (decodeInteger f (elemOf n i c)))

/-- Bits [63:32] of a product (R178). -/
def mulHigh (f : Fmt) (a b : W32) : W32 :=
  BitVec.ofInt 32 (decodeInteger f a.toNat * decodeInteger f b.toNat / 2 ^ 32)

/-- Bit i of the result is bit 31 - i of the source (R178). -/
def reverse32 (a : W32) : W32 := (List.range 32).foldl (fun x i => if a.getLsbD (31 - i) then x ||| 1#32 <<< i else x) 0

/-- The value of a pairable word from its sources after ABS and NEG. lw is the word's address and l the lane. -/
def pairValue (p : PairCode) (f : Fmt) (sat : Bool) (rm : Rnd) (flush : Bool) (lw l : Nat) (a b c : W32) : W32 :=
  let fl (op : VfOp) : W32 :=
    let n := fmtBits f
    BitVec.ofNat 32 (vfOp op f (elemOf n 0 a) (elemOf n 0 b) (elemOf n 0 c) rm sat flush lw l)
  let half (op : VfOp) : W32 :=
    mapElems 16 fun i => vfOp op f (elemOf 16 i a) (elemOf 16 i b) (elemOf 16 i c) rm sat flush lw l
  match p with
  | .vadd => intOp f sat (fun x y _ => x + y) a b c
  | .vsub => intOp f sat (fun x y _ => x - y) a b c
  | .vmul => intOp f sat (fun x y _ => x * y) a b c
  | .vmulh => mulHigh f a b
  | .vmad => intOp f sat (fun x y z => x * y + z) a b c
  | .vand => a &&& b
  | .vor => a ||| b
  | .vxor => a ^^^ b
  | .vandn => a &&& ~~~b
  | .vshl => a <<< (b.toNat % 32)
  | .vshr => a >>> (b.toNat % 32)
  | .vsra => a.sshiftRight (b.toNat % 32)
  | .vmin => intOp f false (fun x y _ => min x y) a b c
  | .vmax => intOp f false (fun x y _ => max x y) a b c
  | .vclz => BitVec.ofNat 32 (leadZeros 32 a.toNat)
  | .vpopc => BitVec.ofNat 32 (oneCount 32 a.toNat)
  | .vbrev => reverse32 a
  | .vmov => a
  | .vfadd => fl .add
  | .vfsub => fl .sub
  | .vfmul => fl .mul
  | .vfma => fl .fma
  | .vfmin => BitVec.ofNat 32 (vfMinMax false f (elemOf (fmtBits f) 0 a) (elemOf (fmtBits f) 0 b) flush)
  | .vfmax => BitVec.ofNat 32 (vfMinMax true f (elemOf (fmtBits f) 0 a) (elemOf (fmtBits f) 0 b) flush)
  | .vhadd => half .add
  | .vhmul => half .mul
  | .vhfma => half .fma

/-- A source after ABS and NEG where the word is floating point, as it stands otherwise (R102). -/
def signed (fp : Bool) (f : Fmt) (neg abs : Bool) (x : W32) : W32 := if fp then absNegAll f neg abs x else x

/-- The address of the word, as the NaN payload rules read it (R61). -/
def State.lw (s : State) : Nat := (laneAddr s.me).toNat

/-- A pairable word in its single-op form. -/
def State.pairable (s : State) (p : PairCode) (o : LaneOp) : Out :=
  let fp := pairFloat p
  s.valueWord o fp fun l =>
    (pairValue p o.ty o.sat o.rnd s.flush s.lw l
      (signed fp o.ty (o.neg.getLsbD 2) (o.abs.getLsbD 2) (s.src1 o l))
      (signed fp o.ty (o.neg.getLsbD 1) (o.abs.getLsbD 1) (s.src2 o l))
      (signed fp o.ty (o.neg.getLsbD 0) (o.abs.getLsbD 0) (s.src3 o l)), false)

def execVadd (o : LaneOp) (s : State) : Out := s.pairable .vadd o
def execVsub (o : LaneOp) (s : State) : Out := s.pairable .vsub o
def execVmul (o : LaneOp) (s : State) : Out := s.pairable .vmul o
def execVmulh (o : LaneOp) (s : State) : Out := s.pairable .vmulh o
def execVmad (o : LaneOp) (s : State) : Out := s.pairable .vmad o
def execVand (o : LaneOp) (s : State) : Out := s.pairable .vand o
def execVor (o : LaneOp) (s : State) : Out := s.pairable .vor o
def execVxor (o : LaneOp) (s : State) : Out := s.pairable .vxor o
def execVandn (o : LaneOp) (s : State) : Out := s.pairable .vandn o
def execVshl (o : LaneOp) (s : State) : Out := s.pairable .vshl o
def execVshr (o : LaneOp) (s : State) : Out := s.pairable .vshr o
def execVsra (o : LaneOp) (s : State) : Out := s.pairable .vsra o
def execVmin (o : LaneOp) (s : State) : Out := s.pairable .vmin o
def execVmax (o : LaneOp) (s : State) : Out := s.pairable .vmax o
def execVclz (o : LaneOp) (s : State) : Out := s.pairable .vclz o
def execVpopc (o : LaneOp) (s : State) : Out := s.pairable .vpopc o
def execVbrev (o : LaneOp) (s : State) : Out := s.pairable .vbrev o
def execVmov (o : LaneOp) (s : State) : Out := s.pairable .vmov o
def execVfadd (o : LaneOp) (s : State) : Out := s.pairable .vfadd o
def execVfsub (o : LaneOp) (s : State) : Out := s.pairable .vfsub o
def execVfmul (o : LaneOp) (s : State) : Out := s.pairable .vfmul o
def execVfma (o : LaneOp) (s : State) : Out := s.pairable .vfma o
def execVfmin (o : LaneOp) (s : State) : Out := s.pairable .vfmin o
def execVfmax (o : LaneOp) (s : State) : Out := s.pairable .vfmax o
def execVhadd (o : LaneOp) (s : State) : Out := s.pairable .vhadd o
def execVhmul (o : LaneOp) (s : State) : Out := s.pairable .vhmul o
def execVhfma (o : LaneOp) (s : State) : Out := s.pairable .vhfma o

/-! ## The paired word (R103, R104, R201) -/

/-- The value of a half-op in a lane. -/
def State.halfValue (s : State) (h : HalfOp) (l : Nat) : W32 :=
  let fp := pairFloat h.op
  pairValue h.op h.ty h.sat .rne s.flush s.lw l
    (signed fp h.ty (h.neg.getLsbD 1) false (s.lv l h.s1.toNat))
    (signed fp h.ty (h.neg.getLsbD 0) false (s.lv l h.s2.toNat)) (s.lv l h.s3.toNat)

def execPairedLaneWord (h0 h1 : HalfOp) (s : State) : Out :=
  let act := s.act 0
  s.cvecGate (pairFloat h0.op || pairFloat h1.op) act <|
    let ls := lanesIn s.w act
    let s1 := putLanes s s.cur h0.dst.toNat (ls.map fun l => (l, s.halfValue h0 l))
    .next ((putLanes s1 s.cur h1.dst.toNat (ls.map fun l => (l, s.halfValue h1 l))).laneDone act false)

/-! ## Bit fields, selection, comparison, lane numbers (R179 to R182) -/

/-- VBFX: the field of len bits at pos. -/
def execVbfx (o : LaneOp) (s : State) : Out :=
  s.valueWord o false fun l =>
    let pos := immBits o 4 0; let len := immBits o 10 5
    let f := bitsOf (s.src1 o l).toNat (pos + len - 1) pos
    (if o.ty = .s32 then BitVec.ofInt 32 (signedOf len f) else BitVec.ofNat 32 f, false)

/-- b with len bits at pos replaced by the low bits of a (R179). -/
def insertField (pos len a b : Nat) : Nat :=
  b - bitsOf b (pos + len - 1) pos * 2 ^ pos + a % 2 ^ len * 2 ^ pos

def execVbfi (o : LaneOp) (s : State) : Out :=
  s.valueWord o false fun l =>
    (BitVec.ofNat 32 (insertField (immBits o 4 0) (immBits o 10 5) (s.src1 o l).toNat (s.src2 o l).toNat), false)

def execVsel (o : LaneOp) (s : State) : Out :=
  s.valueWord o false fun l => (if (mGet s.me o.s3.toNat).getLsbD l then s.src1 o l else s.src2 o l, false)

def execVcmp (o : LaneOp) (s : State) : Out :=
  s.maskWord o false fun l =>
    condHolds 32 ((condOf (immBits o 3 0)).getD .eq) (s.src1 o l).toNat (s.src2 o l).toNat

/-- VLANE: the lane's number, its place in its segment, or its rank among the active lanes there (R182). -/
def execVlane (o : LaneOp) (s : State) : Out :=
  let act := s.act o.msel
  let r := reachLanes s.w o.reach
  s.valueWord o false fun l =>
    (BitVec.ofNat 32 (match immBits o 1 0 with
      | 0 => l
      | 1 => l - segOf r l
      | _ => ((lanesIn l act).filter fun t => segOf r l ≤ t).length), false)

/-! ## Floating point (R186 to R191) -/

/-- Source 1 or 2 of a floating-point word, as a pattern of its format after ABS and NEG. -/
def State.f1 (s : State) (o : LaneOp) (l : Nat) : Nat :=
  absNeg o.ty (o.neg.getLsbD 2) (o.abs.getLsbD 2) (elemOf (fmtBits o.ty) 0 (s.src1 o l))
def State.f2 (s : State) (o : LaneOp) (l : Nat) : Nat :=
  absNeg o.ty (o.neg.getLsbD 1) (o.abs.getLsbD 1) (elemOf (fmtBits o.ty) 0 (s.src2 o l))

def execVfcmp (o : LaneOp) (s : State) : Out :=
  s.maskWord o true fun l => vfCompare (immBits o 3 0) o.ty (s.f1 o l) (s.f2 o l) s.flush
def execVfrnd (o : LaneOp) (s : State) : Out :=
  s.valueWord o true fun l => (BitVec.ofNat 32 (vfRound o.ty (s.f1 o l) o.rnd s.flush), false)

/-- The function words (R188). -/
def State.funcWord (s : State) (f : Func) (o : LaneOp) : Out :=
  s.valueWord o true fun l =>
    (BitVec.ofNat 32 (fnEval (ftrevOf s.contract) f o.ty (s.f1 o l) o.rnd s.flush s.lw l), false)

def execVfrcp (o : LaneOp) (s : State) : Out := s.funcWord .rcp o
def execVfrsq (o : LaneOp) (s : State) : Out := s.funcWord .rsq o
def execVfsqrt (o : LaneOp) (s : State) : Out := s.funcWord .sqrt o
def execVfex2 (o : LaneOp) (s : State) : Out := s.funcWord .ex2 o
def execVflg2 (o : LaneOp) (s : State) : Out := s.funcWord .lg2 o
def execVfsin (o : LaneOp) (s : State) : Out := s.funcWord .sin o
def execVfcos (o : LaneOp) (s : State) : Out := s.funcWord .cos o
def execVftnh (o : LaneOp) (s : State) : Out := s.funcWord .tnh o

/-- A dot product of n packed elements with an FP32 accumulator, under a Loom class (R81, R190, R191). -/
def State.dotWord (s : State) (cls : OpClass) (n : Nat) (bf : Fmt) (o : LaneOp) : Out :=
  s.valueWord o true fun l =>
    let af := o.ty; let bits := fmtBits af
    let a := absNegAll af (o.neg.getLsbD 2) (o.abs.getLsbD 2) (s.src1 o l)
    let b := absNegAll bf (o.neg.getLsbD 1) (o.abs.getLsbD 1) (s.src2 o l)
    let c := absNeg .f32 (o.neg.getLsbD 0) (o.abs.getLsbD 0) (s.src3 o l).toNat
    let k := classOf s.contract cls
    let t := (List.range n).map fun i =>
      loomTerm k af (vflush s.flush af (elemOf bits i a)) bf (vflush s.flush bf (elemOf bits i b))
    (BitVec.ofNat 32 (vflush s.flush .f32 (loomGroup k n (vflush s.flush .f32 c) t s.lw l)), false)

def execVhdot (o : LaneOp) (s : State) : Out := s.dotWord .c16 2 o.ty o
/-- VQDOT; .mix takes source 2 in the other 8-bit format (R191). -/
def execVqdot (o : LaneOp) (s : State) : Out :=
  s.dotWord .c8 4 (if immBits o 0 0 = 1 then (if o.ty = .e4m3 then .e5m2 else .e4m3) else o.ty) o

/-! ## Conversions and codebooks (R192 to R194) -/

/-- Both formats of a VCVT are integers (R202). -/
def cvtFp (d sf : Fmt) : Bool := isFloat d || isFloat sf

def execVcvt (o : LaneOp) (s : State) : Out :=
  let sf := (fmtOf (immBits o 3 0)).getD .f32
  let merge := immBits o 10 10 = 1; let di := immBits o 9 7
  s.valueWord o (cvtFp o.ty sf) fun l =>
    let x := elemOf (fmtBits sf) (immBits o 6 4) (s.src1 o l)
    let x := if isFloat sf then absNeg sf (o.neg.getLsbD 2) (o.abs.getLsbD 2) x else x
    let r := cvt o.ty sf x o.rnd s.flush
    (if !merge && di = 0 then widen o.ty r.1
     else putElem (fmtBits o.ty) di r.1 (if merge then s.src2 o l else 0), r.2)

/-- A codebook slot of the crew whose word executes (R54): its newest content in the order of turns. Without a BAR, BARN or FUSE between them
R71 lets a rewrite by another skein be seen or not; this is the model's choice (log 80). -/
def State.codebook (s : State) (n : Nat) : List W16 := s.myCrew.cbs.getD n (List.replicate 16 0)
/-- A permutation table of the crew (R70): its newest content in the order of turns, likewise (R71; log 80). -/
def State.permTable (s : State) (n : Nat) : PermTable := s.myCrew.perms.getD n PermTable.identity

def execVcbx (o : LaneOp) (s : State) : Out :=
  let half := immBits o 6 6; let merge := immBits o 7 7 = 1
  s.valueWord o true fun l =>
    let v := cbValue (s.codebook (immBits o 2 0)) (elemOf 4 (immBits o 5 3) (s.src1 o l))
    if o.ty = .f32 then (BitVec.ofNat 32 (vflush s.flush .f32 (cvt .f32 .bf16 v .rne false).1), false)
    else
      let v := vflush s.flush .bf16 (if isNan .bf16 v then quietNan .bf16 v else v)
      (putElem 16 half v (if merge then s.src2 o l else 0), false)

/-- The codebook slot that a channel reads under a permutation table (R194). -/
def slotOfChannel (t : PermTable) (base blk ch : Nat) : Nat := (base + permInv t.len t.p ch / 2 ^ blk) % 8

/-- A codebook slot as a lane word reads it: under FLUSH a subnormal entry is a zero of its sign (R60). -/
def State.laneCodebook (s : State) (i : Nat) : List W16 := (s.codebook i).map fun w => BitVec.ofNat 16 (vflush s.flush .bf16 w.toNat)

def execVcbq (o : LaneOp) (s : State) : Out :=
  let perm := immBits o 7 7 = 1; let merge := immBits o 6 6 = 1
  s.valueWord o true fun l =>
    let x := absNeg .f32 (o.neg.getLsbD 2) (o.abs.getLsbD 2) (s.src1 o l).toNat
    let slot := if perm then
        slotOfChannel (s.permTable (immBits o 9 8)) (immBits o 2 0) (immBits o 13 10) (s.src3 o l).toNat
      else immBits o 2 0
    let r := cbNear (s.laneCodebook slot) x o.rnd s.flush
    (putElem 4 (immBits o 5 3) r.1 (if merge then s.src2 o l else 0), r.2)

/-! ## Mask logic (R195) -/

def execMand (o : LaneOp) (s : State) : Out :=
  s.maskWord o false fun l => (mGet s.me o.s1.toNat).getLsbD l && (mGet s.me o.s2.toNat).getLsbD l
def execMor (o : LaneOp) (s : State) : Out :=
  s.maskWord o false fun l => (mGet s.me o.s1.toNat).getLsbD l || (mGet s.me o.s2.toNat).getLsbD l
def execMxor (o : LaneOp) (s : State) : Out :=
  s.maskWord o false fun l => (mGet s.me o.s1.toNat).getLsbD l != (mGet s.me o.s2.toNat).getLsbD l
def execMnot (o : LaneOp) (s : State) : Out := s.maskWord o false fun l => !(mGet s.me o.s1.toNat).getLsbD l
def execMmov (o : LaneOp) (s : State) : Out :=
  s.maskWord o false fun l =>
    (if o.sq.getLsbD 2 then s.qv o.s1.toNat else mGet s.me o.s1.toNat).getLsbD l

end Sys2Proof.Machine
end

