-- ==== Sys2Proof/Machine/ScalarMem.lean ====
section
/-! DEFINITION. Scalar loads, stores and atomics (05 R130 to R137; 11, 12). -/

namespace Sys2Proof.Machine

/-- The watchpoint test of a scalar access, between checks 4 and 5 of R131 (R429): a trap, a stop of the bench with the
word not issued, or the access goes on. -/
def State.watchScalar (s : State) (va n : Nat) (rd wr : Bool) (k : Out) : Out :=
  match s.watchHit s.cur va n false rd wr with
  | some (i, false) => s.trapS .watch (0x200 + i)
  | some (_, true) => .next (s.stopAt (benchOf s.cur) 3 s.cur false)
  | none => k

/-- An access of n bytes at its address: the checks of R131 and R429, the wait for an owned or empty line (R209, R132), then
the rest at its storage address. A plain load that its L1 holds does not reach the line. -/
def State.access (s : State) (va n kind : Nat) (u : PageUse) (atomic rd wr plain : Bool) (k : State → Nat → Out) : Out :=
  match s.reach4 s.cur va n n kind with
  | .wait s1 => .next s1
  | .trap s1 c => s1.trapS c 0
  | .ok s1 a l =>
    s1.watchScalar va n rd wr <|
      match pageGate s1.myComm.tenant va u atomic (.ok s1 a l) with
      | .ok s2 _ _ =>
        if s2.lineBusy (lineOf a) && !(plain && (s2.l1Find (coreOf s2.cur) (lineOf a)).isSome) then .next s2 else k s2 a
      | .trap s2 c => s2.trapS c 0
      | .wait s2 => .next s2

/-- A word waits while a path counter stands at 63 (R21). -/
def State.counted (s : State) (p : Path) (k : Out) : Out := if pathFull s.me p then .next s else k

/-- Effective address (R131). -/
def State.effAddr (s : State) (a : KReg) (off : Lit 9) : Nat := (s.kv a + litVal off).toNat

/-- A load waits as LSYNC does before an acquire (R133). -/
def isAcq : LdOrder → Bool
  | .acq _ => true
  | _ => false
def isPlain : LdOrder → Bool
  | .plain => true
  | _ => false

/-- The acquire part of an acquire load: at scope dev or sys the core drops the ranges posted to it (R343). -/
def State.acquireAt (s : State) : LdOrder → State
  | .acq sc => if scopeWide sc then s.acquireRanges (coreOf s.cur) else s
  | _ => s

/-- A load is counted until it returns (R21); the stream stands at an acquire load until then (R133). -/
def State.countLoad (s : State) (ord : LdOrder) (p : Path) : State := s.setMe (pushOut p [] s.me (isAcq ord))

/-- LD8 to LD64: n bytes, zero-extended (R132, R133). -/
def State.loadWord (s : State) (d a : KReg) (ord : LdOrder) (off : Lit 9) (n : Nat) : Out :=
  if isAcq ord && !laneIdle s.me then s.stall
  else
    s.access (s.effAddr a off) n 0 .read false true false (isPlain ord) fun s1 pa =>
      s1.counted (pathOf pa) <|
        if s1.loadBad (coreOf s1.cur) pa n (isPlain ord) then s1.trapS .eccUncorr 0
        else
          let r := (s1.acquireAt ord).loadBytes (coreOf s1.cur) pa n (isPlain ord)
          .next ((r.1.countLoad ord (pathOf pa)).result d (BitVec.ofNat 64 (leNat r.2)) (litSize off))

def execLd8 (d a : KReg) (ord : LdOrder) (off : Lit 9) (s : State) : Out := s.loadWord d a ord off 1
def execLd16 (d a : KReg) (ord : LdOrder) (off : Lit 9) (s : State) : Out := s.loadWord d a ord off 2
def execLd32 (d a : KReg) (ord : LdOrder) (off : Lit 9) (s : State) : Out := s.loadWord d a ord off 4
def execLd64 (d a : KReg) (ord : LdOrder) (off : Lit 9) (s : State) : Out := s.loadWord d a ord off 8

/-- A release at a scope: die or wider drains every entry of the core's buffer (R312, R339). -/
def State.releaseAt (s : State) (sc : Scope) : State := if scopeDie sc then s.sgbDrainCore (coreOf s.cur) else s

def isRel : StOrder → Bool
  | .rel _ => true
  | _ => false

/-- The store of a release: what precedes it is performed before it, and at scope die or wider the store follows at once, so
that an acquire of its scope can observe it (R133, R339). -/
def State.storeOrd (s : State) (ord : StOrder) (a : Nat) (bs : List Byte) : State × List Nat :=
  match ord with
  | .plain => s.store s.cur a bs
  | .rel sc =>
    let r := (s.releaseAt sc).store s.cur a bs
    if scopeDie sc then (r.1.sgbDrainLines (coreOf s.cur) r.2, []) else r

/-- ST8 to ST64: the low n bytes of kD (R132, R133). -/
def State.storeWord (s : State) (d a : KReg) (ord : StOrder) (off : Lit 9) (n : Nat) : Out :=
  if isRel ord && (!laneIdle s.me || s.readsOut s.cur) then s.stall
  else
    s.access (s.effAddr a off) n 1 .write false false true false fun s1 pa =>
      s1.counted .w <|
        let r := s1.storeOrd ord pa (leBytes n (s1.kv d).toNat)
        .next ((r.1.setMe (pushOut .w r.2 r.1.me)).past (litSize off))

def execSt8 (d a : KReg) (ord : StOrder) (off : Lit 9) (s : State) : Out := s.storeWord d a ord off 1
def execSt16 (d a : KReg) (ord : StOrder) (off : Lit 9) (s : State) : Out := s.storeWord d a ord off 2
def execSt32 (d a : KReg) (ord : StOrder) (off : Lit 9) (s : State) : Out := s.storeWord d a ord off 4
def execSt64 (d a : KReg) (ord : StOrder) (off : Lit 9) (s : State) : Out := s.storeWord d a ord off 8

/-! ## Atomics (R135 to R137) -/

/-- The new value of an atomic of n bits: old, operand, comparand (R137). -/
def atmNew (op : AtmOp) (n old b cmp : Nat) : Nat :=
  match op with
  | .swap => b
  | .add => (old + b) % 2 ^ n
  | .and => Nat.land old b
  | .or => Nat.lor old b
  | .xor => Nat.xor old b
  | .min => if condHolds n .le old b then old else b
  | .max => if condHolds n .ge old b then old else b
  | .minn => if condHolds n .len old b then old else b
  | .maxn => if condHolds n .gen old b then old else b
  | .cas => if old = cmp then b else old

/-- The bytes at a storage address, read and written as one step of a context at the target (R137, R307, R312): its core's own buffer
entry of the line drains first. -/
def State.rmw (s : State) (c a n : Nat) (f : Nat → Nat) : State × Nat :=
  let s0 := s.keepMine c a n
  let s1 := if regionOf a = .hbm then s0.sgbDrain (coreOf c) (lineOf a) else s0
  let old := s1.readNat a n
  (s1.writeHome a (leBytes n (f old)), old)

/-- The bytes that an atomic would read hold an uncorrectable error once the core's own buffer entry has drained. -/
def State.rmwBad (s : State) (core a n : Nat) : Bool :=
  (if regionOf a = .hbm then s.sgbDrain core (lineOf a) else s).poisoned a n

def execAtm (d a b : KReg) (op : AtmOp) (wide : Bool) (_sc : Scope) (s : State) : Out :=
  let n := if wide then 8 else 4
  s.access (s.kv a).toNat n 2 .write true true true false fun s1 pa =>
    s1.counted (pathOf pa) <|
      if s1.rmwBad (coreOf s1.cur) pa n then s1.trapS .eccUncorr 0
      else
        let r := s1.rmw s1.cur pa n fun old =>
          atmNew op (8 * n) old ((s1.kv b).toNat % 2 ^ (8 * n)) ((s1.kv d).toNat % 2 ^ (8 * n))
        let s2 := r.1.setMe (commit (pushOut (pathOf pa) [] r.1.me))
        .next (s2.result d (BitVec.ofNat 64 r.2))

end Sys2Proof.Machine
end

