-- ==== Sys2Proof/Machine/LaneMem.lean ====
section
/-! DEFINITION. Lane memory words, prefetch, WAITC, VDEC and VRNG (08 R203 to R225). -/

namespace Sys2Proof.Machine

/-! ## The checks of one lane (R207, R208) -/

/-- addr_of (R207). -/
def State.addrOf (s : State) (o : LaneOp) (l : Nat) : Nat :=
  let off : W64 := (o.imm.setWidth 14).signExtend 64
  (match immBits o 23 22 with
    | 0 => s.qv o.s1.toNat + ((s.lv l o.s2.toNat).signExtend 64 <<< immBits o 21 20) + off
    | 1 => s.qv o.s1.toNat + off
    | _ => (s.lv l (o.s1.toNat + 1) ++ s.lv l o.s1.toNat) + off).toNat

/-- What a memory word asks of an address: bytes of a lane, KIND of R326, its path, whether R90 checks it, whether it may
read an L1 copy. -/
structure MemForm where
  n : Nat
  kind : Nat
  path : Path
  stamped : Bool
  plain : Bool
  deriving DecidableEq, Repr

/-- A lane's state in the checks: it waits for translation, it has failed a check of this rank, or it has passed. -/
inductive LaneChk
  | hold
  | fail (rank : Nat)
  | pass (a stamp : Nat)
  deriving DecidableEq, Repr

/-- The checks of R208 and R429 in their order, and their causes. -/
def rankCause (r : Nat) : Cause :=
  match r with
  | 1 => .align
  | 4 => .xlate
  | 6 => .watch
  | 7 => .eccUncorr
  | _ => .access

/-- Step 1: the rank of the check that fails, if one does. -/
def laneForm (w : Crew) (f : MemForm) (va : Nat) : Option Nat :=
  if f.path = .s then (if va % f.n ≠ 0 then some 1 else if spadIn w va f.n then none else some 2)
  else if 2 ^ 57 ≤ va then some 0
  else if va % f.n ≠ 0 then some 1
  else if Config.windowBase ≤ va then
    (if !spadIn w (va - Config.windowBase) f.n then some 2 else if f.kind = 2 && decide (f.path = .g) then some 3 else none)
  else none

/-- The page use of a KIND. -/
def useOf (kind : Nat) : PageUse := if kind = 0 then .read else .write

/-- Steps 2 and 3 at a page. Only a page in HBM or Mart carries its stamp to the check of R90: that a page of the host-link window is
no global page there is the model's choice, since R90 says "global or Mart pages" and no more (log 27). -/
def pageChk (f : MemForm) (tenant va : Nat) : Xlate → LaneChk
  | .wait => .hold
  | .denied => .fail 4
  | .error => .fail 7
  | .ok l =>
    let r := regionOf (l.phys va)
    if !pageOk l (useOf f.kind) tenant va || (decide (f.path = .m) && !l.mart) || (f.kind = 2 && decide (r = .host)) then
      .fail 5
    else .pass (l.phys va) (if r = .hbm || r = .mart then l.stamp else 0)

/-- Steps 1 to 3 of one lane; xs gives the translations of the pages. -/
def laneChk (w : Crew) (tenant : Nat) (f : MemForm) (xs : List (Nat × Xlate)) (va : Nat) : LaneChk :=
  match laneForm w f va with
  | some r => .fail r
  | none =>
    if f.path = .s then .pass (spadAddr w va) 0
    else if Config.windowBase ≤ va then
      (if f.path = .m then .fail 5 else .pass (spadAddr w (va - Config.windowBase)) 0)
    else match xs.find? fun p => p.1 = va / 4096 with
      | some (_, x) => pageChk f tenant va x
      | none => .hold

/-- A page translated for the lanes of a word; a verdict that denies stays until the word ends. -/
def State.xlatePage (s : State) (c kind page : Nat) : State × Xlate :=
  let m := s.commOf c
  match s.tlbLook c m.key.ctx (4096 * page) with
  | some (s1, l) => (s1, .ok l)
  | none =>
    match s.ms.walks.find? fun r => walkIs (dieOf c) m.key.ctx page r && walkOver r && r.waiters.contains c with
    | some r => (s, if r.status = .error then .error else .denied)
    | none => (s.joinWalk c m.key.ctx (4096 * page) kind m.tenant, .wait)

def State.xlatePages (s : State) (c kind : Nat) : List Nat → State × List (Nat × Xlate)
  | [] => (s, [])
  | p :: rest =>
    let r := s.xlatePage c kind p
    let q := r.1.xlatePages c kind rest
    (q.1, (p, r.2) :: q.2)

/-- The pages that the lanes' addresses reach. -/
def lanePages (w : Crew) (f : MemForm) (vas : List Nat) : List Nat :=
  distinct ((vas.filter fun va =>
    decide (f.path ≠ .s) && decide (va < Config.windowBase) && (laneForm w f va).isNone).map (· / 4096))

/-! ## Counting (R203, R219) -/

/-- A memory word issues: it is counted once, whatever its addresses reach, and is open until its last lane (R203). -/
def openWord (p : Path) (x : Skein) : Skein := if wordOpen x then x else { x with out := x.out ++ [{ path := p, lines := [openMark], data := false, holds := false }] }

/-- Lanes of an open word have been performed: the global lines that they wait for are added; after the last lane the word is open no
more, and data says that a lane word waits for what returns. -/
def closeWord (lines : List Nat) (last data : Bool) (x : Skein) : Skein :=
  let more := lines ++ (if last then [] else [openMark])
  { x with out := x.out.map fun o =>
      if o.lines.contains openMark then { o with lines := o.lines.filter (· ≠ openMark) ++ more, data := last && data } else o }

/-- A memory word issues for the first time: it is counted for the path and for assay sampling (R203, R438). -/
def State.issueWord (s : State) (p : Path) (act : W64) (passes : Nat) : State :=
  if wordOpen s.me then s else let s1 := s.assay act passes 0 false; s1.setMe { openWord p s1.me with openedAt := s.dev.cycle }

/-- The counter of a memory word: W for every store (R203). -/
def MemForm.counter (f : MemForm) : Path := if f.kind = 1 then .w else f.path

/-! ## Assay measures (R213, R440) -/

/-- The 4-byte words that n bytes at an offset touch. -/
def wordsOf (a n : Nat) : List Nat := if n = 0 then [] else (List.range ((a + n - 1) / 4 + 1 - a / 4)).map (a / 4 + ·)
/-- The passes of one lane port whose lanes address these words: the most distinct words in one bank, at least 1 where a lane is active (R213). -/
def portPasses (lanes : List (List Nat)) : Nat :=
  let ws := distinct lanes.flatten
  if lanes.isEmpty then 0 else (List.range 32).foldl (fun k b => max k (ws.filter fun v => v % 32 = b).length) 1
/-- PASSES: the larger of the two ports. Each lane stands with the words that it addresses. -/
def passesOf (l : List (Nat × List Nat)) : Nat :=
  max (portPasses ((l.filter fun p => p.1 < 32).map (·.2))) (portPasses ((l.filter fun p => 32 ≤ p.1).map (·.2)))

/-- The scratchpad words that a memory word's lanes address: every lane that addresses the scratchpad or its window is listed, one whose
form fails with no word. -/
def spadWords (w : Crew) (f : MemForm) (vas : List (Nat × Nat)) : List (Nat × List Nat) :=
  (vas.filter fun p => decide (f.path = .s) || (decide (Config.windowBase ≤ p.2) && decide (p.2 < 2 ^ 57))).map fun p =>
    (p.1, if (laneForm w f p.2).isSome then [] else wordsOf (if f.path = .s then p.2 else p.2 - Config.windowBase) f.n)

/-- Every byte of an access stands in the core's store-gather buffer. -/
def State.inBuffer (s : State) (core a n : Nat) : Bool :=
  match s.sgbFind core (lineOf a) with
  | some e => (List.range n).all fun i => (smFind e.bytes (a % Config.lineBytes + i)).isSome
  | none => false

/-- LEVEL of a global line that is served at its home (R440). -/
def State.homeLevel (s : State) (c a : Nat) : Nat :=
  (if s.ms.l2.contains (lineOf a) then 4 else 6) + (if homeDie a = dieOf c then 0 else 1)

/-- LEVEL of one access of n bytes. A load goes no farther than the buffer only where the buffer holds all of it. -/
def State.levelOf (s : State) (c a n kind : Nat) (plain : Bool) : Nat :=
  match regionOf a with
  | .spad => 1
  | .mart => 8
  | .host => 9
  | .hole => 0
  | .hbm =>
    if plain && (s.l1Find (coreOf c) (lineOf a)).isSome then 2
    else if kind = 1 || (kind = 0 && s.inBuffer (coreOf c) a n) then 3
    else s.homeLevel c a

/-! ## The word as a whole (R208, R209) -/

/-- The lanes of a pass by what becomes of them. -/
structure LanePass where
  ready : List (Nat × Nat)
  waits : List Nat
  fails : List (Nat × Nat)
  stops : List Nat
  deriving DecidableEq, Repr

/-- The least number of a list of pairs' second parts. -/
def leastRank : List (Nat × Nat) → Nat
  | [] => 99
  | (_, r) :: rest => min r (leastRank rest)

/-- The lane waits for a line that is owned or empty; a plain load that its L1 holds does not reach the line. -/
def State.lineWait (s : State) (c a : Nat) (plain : Bool) : Bool :=
  s.lineBusy (lineOf a) && !(plain && (s.l1Find (coreOf c) (lineOf a)).isSome)

/-- The lanes sorted: a watchpoint that matched takes part as a check after step 4. -/
def State.sortLanes (s : State) (f : MemForm) (watched : List Nat) (stop : Bool) :
    List (Nat × LaneChk) → LanePass
  | [] => { ready := [], waits := [], fails := [], stops := [] }
  | (l, k) :: rest =>
    let p := s.sortLanes f watched stop rest
    match k with
    | .hold => { p with waits := l :: p.waits }
    | .fail r => { p with fails := (l, r) :: p.fails }
    | .pass a _ =>
      if watched.contains l then (if stop then { p with stops := l :: p.stops } else { p with fails := (l, 6) :: p.fails })
      else if s.lineWait s.cur a f.plain then { p with waits := l :: p.waits }
      else if (f.kind = 0 && s.loadBad (coreOf s.cur) a f.n f.plain) || (f.kind = 2 && s.rmwBad (coreOf s.cur) a f.n) then { p with fails := (l, 7) :: p.fails }
      else { p with ready := (l, a) :: p.ready }

/-- The watchpoint that a word's lanes match: its number, whether it stops the bench, and the lanes (R429). -/
def State.laneWatch (s : State) (f : MemForm) (vas : List (Nat × Nat)) : Option (Nat × Bool × List Nat) :=
  let hit (va : Nat) : Option (Nat × Bool) :=
    s.watchHit s.cur (if f.path = .s then Config.windowBase + va else va) f.n true (f.kind ≠ 1) (f.kind ≠ 0)
  let hits := vas.filterMap fun p => (hit p.2).map fun h => (p.1, h)
  match hits with
  | [] => none
  | (_, h) :: _ =>
    let n := hits.foldl (fun n p => min n p.2.1) h.1
    let stop := hits.any fun p => p.2.1 = n && p.2.2
    some (n, stop, hits.map (·.1))

/-- Lanes whose page's stamp differs from the running contract, with the stamp (R90, R91). -/
def mixedLanes (contract : Nat) (ks : List (Nat × LaneChk)) : List (Nat × Nat) :=
  ks.filterMap fun p => match p.2 with
    | .pass _ st => if st ≠ 0 && st ≠ contract then some (p.1, st) else none
    | _ => none

/-- CONTROL of the entry that carries the word (R36). -/
def entryControl (x : Skein) : W64 :=
  match x.queue with
  | e :: _ => e.control
  | [] => 0

/-- The word's lanes that have not been performed are pending replay (R385, R395). -/
def keepLanes (ls : List Nat) (x : Skein) : Skein := { x with replay := some (maskOf ls) }

/-- A pass ends: lanes are left, lanes have failed, or the word completes. -/
def State.endPass (s : State) (p : LanePass) (watch level : Nat) (awaits : Option Path) : Out :=
  let left := p.waits ++ p.stops ++ p.fails.map (·.1)
  if p.stops ≠ [] then
    let s1 := (s.assayNote level false).stopBench (benchOf s.cur) 3
    .next (s1.setMe { keepLanes left s1.me with untestedLane := true })
  else if p.waits ≠ [] then let s1 := s.assayNote level false; .next (s1.setMe (keepLanes left s1.me))
  else if p.fails ≠ [] then
    let r := leastRank p.fails
    let low := ((p.fails.filter fun q => q.2 = r).map (·.1)).foldl min 64
    let s1 := (s.forgetVerdicts s.cur).assayNote level true
    .next (s1.trapLanes (rankCause r) (if r = 6 then 0x200 + watch else low) (maskOf left))
  else .next ((s.assayNote level false).laneEnd false awaits)

/-- What performing lanes gives: the state, the global lines of their stores, and the lanes that are not performed whole. -/
structure Performed where
  s : State
  lines : List Nat
  rest : List Nat
  deriving DecidableEq, Repr

/-- A memory word: it is counted as it issues, and an atomic commits the region then (R391); then addresses, checks, stamps, and its ready lanes performed. Where one lane fails a
check of steps 1 to 3 and another meets a mismatched stamp, the word traps STAMP_MIX; a word that is checked for stamps performs no lane
while one of its lanes waits for translation (log 27). -/
def State.laneWord (s : State) (o : LaneOp) (f : MemForm) (perform : State → List (Nat × Nat) → Performed) : Out :=
  let act := s.act o.msel
  if act = 0 then .next (s.laneDone act false)
  else if pathFull s.me f.counter && !wordOpen s.me then s.stall
  else
    let vas := (lanesIn s.w act).map fun l => (l, s.addrOf o l)
    let w := s.myCrew
    let s0 := (if f.kind = 2 && !wordOpen s.me then s.commitMe else s).issueWord f.counter act (passesOf (spadWords w f vas))
    let (s1, xs) := s0.xlatePages s.cur f.kind (lanePages w f (vas.map (·.2)))
    let ks := vas.map fun p => (p.1, laneChk w s1.myComm.tenant f xs p.2)
    let checked := f.stamped && bitOf (entryControl s1.me).toNat 0
    let mixed := if checked then mixedLanes s1.contract ks else []
    if mixed ≠ [] then
      let s2 := (s1.setMe (closeWord [] true false s1.me)).assayNote 0 true
      s2.trapWord .stampMix (mixed.headD (0, 0)).2 (maskOf (mixed.map (·.1)))
    else if checked && ks.any fun p => p.2 = .hold then .next (s1.setMe (keepLanes (lanesIn s.w act) s1.me))
    else
      let passed := vas.filter fun p => ks.any fun q => q.1 = p.1 && (match q.2 with
        | .pass _ _ => true
        | _ => false)
      let hit := s1.laneWatch f passed
      let p := s1.sortLanes f (match hit with
        | some (_, _, ls) => ls
        | none => []) (match hit with
        | some (_, st, _) => st
        | none => false) ks
      let level := p.ready.foldl (fun m q => max m (s1.levelOf s1.cur q.2 f.n f.kind f.plain)) 0
      let r := perform s1 p.ready
      let q := { p with waits := p.waits ++ r.rest }
      let done := q.waits.isEmpty && q.stops.isEmpty
      let s2 := r.s.setMe (closeWord r.lines done (q.fails.isEmpty && decide (f.kind ≠ 1)) r.s.me)
      s2.endPass q (match hit with
        | some (n, _, _) => n
        | none => 0) level (if f.kind ≠ 1 then some f.path else none)

/-! ## Loads (R210, R211) -/

/-- The bytes a load returns, from the state before the word. -/
def State.peek (s : State) (core a n : Nat) (plain : Bool) : List Byte :=
  if plain && decide (regionOf a = .hbm) then
    (match s.l1Find core (lineOf a) with
      | some e => (e.data.drop (a % Config.lineBytes)).take n
      | none => s.readFresh core a n)
  else s.readFresh core a n

/-- The global lines that loads reach are read, and enter the L1 where they may. -/
def State.touchLines (s : State) (core : Nat) (plain : Bool) (lines : List Nat) : State :=
  lines.foldl (fun s line =>
    if plain then
      (if (s.l1Find core line).isSome then s else (s.sliceRead core (Config.lineBytes * line)).l1Fill core line)
    else s.sliceRead core (Config.lineBytes * line)) s

/-- The registers that the bytes of one lane fill: n of four bytes, or one of a narrow element (R205). -/
def loadRegs (t : Fmt) (n : Nat) (bs : List Byte) : List W32 :=
  if n = 1 then [widen t (leNat bs)]
  else (List.range n).map fun i => BitVec.ofNat 32 (leNat ((bs.drop (4 * i)).take 4))

/-- A lane's register as it stands once the writes are applied that a stopped bench holds back (R427). -/
def State.laneReg (s : State) (c l r : Nat) : W32 :=
  match (s.bench (benchOf c)).held.reverse.find? fun h => (h.ctx = c % 32) && (h.kind = 5) && (h.reg = r) && h.lanes.getLsbD l with
  | some h => h.value.setWidth 32
  | none => s.vGet c l r

/-- A lane's register is written, by a word that has issued; a stopped bench holds the write back (R427). -/
def State.putReg (s : State) (c : Nat) (word : Issued) (l r : Nat) (v : W32) : State :=
  if (s.bench (benchOf c)).stopped then s.holdLane c r (v.setWidth 64) word (maskOf [l]) else s.vSet c l r v

/-- A lane's registers from one upward receive values. -/
def setRegs (s : State) (c l : Nat) : Nat → List W32 → State
  | _, [] => s
  | r, v :: vs => setRegs (s.vSet c l r v) c l (r + 1) vs

/-- So they do where a stopped bench may hold the writes back. -/
def putRegs (s : State) (c : Nat) (word : Issued) (l : Nat) : Nat → List W32 → State
  | _, [] => s
  | r, v :: vs => putRegs (s.putReg c word l r v) c word l (r + 1) vs

/-- Every lane's registers receive values. -/
def putAll (s : State) (c : Nat) (word : Issued) (dst : Nat) : List (Nat × List W32) → State
  | [] => s
  | (l, vs) :: rest => putAll (putRegs s c word l dst vs) c word dst rest

/-- The lane word at which the running context's lanes stand, as it issued. -/
def State.laneIssued (s : State) : Issued := ⟨laneAddr s.me, s.me.openedAt⟩

/-- The bytes one lane moves. -/
def moveBytes (o : LaneOp) : Nat := let n := cntOf (immBits o 15 14); if n = 1 then elemBytes o.ty else 4 * n

def State.loadLanes (o : LaneOp) (plain : Bool) (s : State) (ready : List (Nat × Nat)) : Performed :=
  let core := coreOf s.cur
  let n := moveBytes o
  let vals := ready.map fun p => (p.1, loadRegs o.ty (cntOf (immBits o 15 14)) (s.peek core p.2 n plain))
  let lines := distinct ((ready.filter fun p => regionOf p.2 = .hbm).map fun p => lineOf p.2)
  { s := putAll (s.touchLines core plain lines) s.cur s.laneIssued o.dst.toNat vals, lines := [], rest := [] }

/-- What a load word on a path asks of its addresses. -/
def loadForm (o : LaneOp) (path : Path) (plain : Bool) : MemForm :=
  { n := moveBytes o, kind := 0, path, stamped := isFloat o.ty && decide (path ≠ .s), plain }

/-- A load word on a path. -/
def State.loadWordOf (s : State) (o : LaneOp) (path : Path) (plain : Bool) : Out :=
  s.laneWord o (loadForm o path plain) (State.loadLanes o plain)

/-- A global load that may read an L1 copy (R211). -/
def vldPlain (o : LaneOp) : Bool := immBits o 19 19 = 0

def execVld (o : LaneOp) (s : State) : Out := s.loadWordOf o .g (vldPlain o)
def execVlds (o : LaneOp) (s : State) : Out := s.loadWordOf o .s false
def execVldm (o : LaneOp) (s : State) : Out := s.loadWordOf o .m false

/-! ## Stores (R210, R212) -/

/-- The bytes a lane stores. -/
def State.storeData (s : State) (o : LaneOp) (l : Nat) : List Byte :=
  if o.sq.getLsbD 0 then leBytes (moveBytes o) (s.qv o.s3.toNat).toNat
  else ((List.range (cntOf (immBits o 15 14))).flatMap fun i => leBytes 4 (s.lv l (o.s3.toNat + i)).toNat).take (moveBytes o)

/-- Lanes store in ascending order, so that the highest of those that write one byte gives its value. -/
def storeEach (c : Nat) (s : State) (lines : List Nat) : List (Nat × List Byte) → State × List Nat
  | [] => (s, lines)
  | (a, bs) :: rest => let r := s.store c a bs; storeEach c r.1 (distinct (lines ++ r.2)) rest

/-- The lanes of a store word. An entry that a later lane of the word drains is waited for no more (R219). -/
def State.storeLanes (o : LaneOp) (s : State) (ready : List (Nat × Nat)) : Performed :=
  let r := storeEach s.cur s [] (ready.map fun p => (p.2, s.storeData o p.1))
  { s := r.1, lines := r.2.filter fun line => (r.1.sgbFind (coreOf s.cur) line).isSome, rest := [] }

/-- What a store word asks of its addresses. -/
def storeForm (o : LaneOp) (form : Path) : MemForm :=
  { n := moveBytes o, kind := 1, path := form, stamped := isFloat o.ty && decide (form ≠ .s), plain := false }

/-- A store word; form is the path that its addresses are formed for. Stores count on W. -/
def State.storeWordOf (s : State) (o : LaneOp) (form : Path) : Out := s.laneWord o (storeForm o form) (State.storeLanes o)

def execVst (o : LaneOp) (s : State) : Out := s.storeWordOf o .g
def execVsts (o : LaneOp) (s : State) : Out := s.storeWordOf o .s
def execVstm (o : LaneOp) (s : State) : Out := s.storeWordOf o .m

/-! ## Atomics (R215 to R217) -/

/-- The new value of a lane atomic: old, operand, second operand of .cas. -/
def vatmNew (aop : Nat) (t : Fmt) (rm : Rnd) (sat flush : Bool) (lw lane old b c : Nat) : Nat :=
  let f (q : Fmt) (x y : Nat) : Nat :=
    vflush flush q (vfOp .add q (vflush flush q x) (vflush flush q y) 0 rm sat flush lw lane)
  let halves (q : Fmt) : Nat := f q (old % 2 ^ 16) (b % 2 ^ 16) + 2 ^ 16 * f q (old / 2 ^ 16) (b / 2 ^ 16)
  match aop with
  | 0 => b
  | 1 => (old + b) % 2 ^ 32
  | 2 => Nat.land old b
  | 3 => Nat.lor old b
  | 4 => Nat.xor old b
  | 5 => if condHolds 32 (if isSigned t then .le else .len) old b then old else b
  | 6 => if condHolds 32 (if isSigned t then .ge else .gen) old b then old else b
  | 7 => if old = b then c else old
  | 8 => f .f32 old b
  | 9 => halves .bf16
  | 10 => halves .f16
  | 11 => vfMinMax false .f32 old b flush
  | 12 => vfMinMax true .f32 old b flush
  | _ => if b ≤ old then 0 else old + 1

/-- A half of a 32-bit value, true for the high one, and the value with it replaced. -/
def halfOf (high : Bool) (v : Nat) : Nat := if high then v / 2 ^ 16 % 2 ^ 16 else v % 2 ^ 16
def putHalf (high : Bool) (v h : Nat) : Nat := if high then h * 2 ^ 16 + v % 2 ^ 16 else v / 2 ^ 16 % 2 ^ 16 * 2 ^ 16 + h % 2 ^ 16

/-- The bytes of an update, and its new value for a lane: old, operand, second operand. -/
def LaneUpdate.size (u : LaneUpdate) : Nat := if u.half.isSome then 2 else 4
def LaneUpdate.value (u : LaneUpdate) (lane old b c : Nat) : Nat :=
  match u.half with
  | none => vatmNew u.aop u.ty u.rnd u.sat u.flush u.lw lane old b c
  | some high => vatmNew u.aop u.ty u.rnd u.sat u.flush u.lw lane old (halfOf high b) 0 % 2 ^ 16

/-- One lane's update at its element; the old value, or its half of it, goes to the register of a word that returns it. -/
def State.updateLane (c : Nat) (word : Issued) (a : Nat) (u : LaneUpdate) (s : State) (p : Nat × Nat × Nat) : State :=
  let r := s.rmw c a u.size fun old => u.value p.1 old p.2.1 p.2.2
  match u.dst with
  | none => r.1
  | some d =>
    r.1.putReg c word p.1 d (BitVec.ofNat 32 (match u.half with
      | none => r.2
      | some high => putHalf high (r.1.laneReg c p.1 d).toNat r.2))

/-- The update that an atomic word makes, and a lane's operands of it. -/
def State.updateOf (s : State) (o : LaneOp) (half : Option Bool) : LaneUpdate :=
  { aop := immBits o 18 15, ty := o.ty, rnd := o.rnd, sat := o.sat, flush := s.flush, lw := s.lw, half,
    dst := if immBits o 19 19 = 1 then some o.dst.toNat else none }
def State.operandsOf (s : State) (o : LaneOp) (l : Nat) : Nat × Nat × Nat :=
  (l, (s.lv l o.s3.toNat).toNat, (s.lv l (o.s3.toNat + 1)).toNat)

/-- The lanes' updates of one word, or of one half of its elements, as accesses that wait: at each element those of its lanes in ascending
order (R216, R330). -/
def State.updates (s : State) (o : LaneOp) (half : Option Bool) (ready : List (Nat × Nat)) : List LateOp :=
  let u := s.updateOf o half
  (distinct (ready.map (·.2))).map fun a =>
    { ctx := s.cur, word := s.laneIssued, addr := a + if half = some true then 2 else 0, size := u.size, scope := none,
      act := .update u ((ready.filter fun q => q.2 = a).map fun q => s.operandsOf o q.1) false }

/-- The updates of an access that waits are performed. -/
def State.applyUpdates (s : State) (o : LateOp) : State :=
  match o.act with
  | .update u lanes _ => lanes.foldl (State.updateLane o.ctx o.word o.addr u) s
  | .load _ _ | .store _ _ | .atomic _ _ _ _ | .fill _ _ _ _ _ => s

/-- A lane's element of a packed atomic at an L2 slice: each half is an atomic of its own there (R217, R333, R344). -/
def splitPair (o : LaneOp) (a : Nat) : Bool := (immBits o 18 15 = 9 || immBits o 18 15 = 10) && regionOf a = .hbm

/-- The halves of such elements, as accesses that wait: neither comes before the other (R344). -/
def State.halves (s : State) (o : LaneOp) (ready : List (Nat × Nat)) : List LateOp :=
  let pairs := ready.filter fun q => splitPair o q.2
  s.updates o (some false) pairs ++ s.updates o (some true) pairs

/-- The lanes of an atomic: the halves of packed pairs at an L2 slice wait, to be performed each by itself, and every other element is updated
whole at once. -/
def State.atomicPerform (o : LaneOp) (s : State) (ready : List (Nat × Nat)) : Performed :=
  let s1 := (s.updates o none (ready.filter fun q => !splitPair o q.2)).foldl State.applyUpdates s
  { s := { s1 with late := s1.late ++ s.halves o ready }, lines := [], rest := [] }

/-- What an atomic word asks of its addresses. -/
def floatAtomic (o : LaneOp) : Bool := 8 ≤ immBits o 18 15 && immBits o 18 15 ≤ 12
def atomicForm (o : LaneOp) (path : Path) : MemForm :=
  { n := 4, kind := 2, path, stamped := floatAtomic o && decide (path ≠ .s), plain := false }

/-- An atomic word; one with an active lane commits the region as it issues (R391). -/
def State.atomicWord (s : State) (o : LaneOp) (path : Path) : Out :=
  s.cvecGate (floatAtomic o) (s.act o.msel) <| s.laneWord o (atomicForm o path) (State.atomicPerform o)

def execVatm (o : LaneOp) (s : State) : Out := s.atomicWord o .g
def execVatms (o : LaneOp) (s : State) : Out := s.atomicWord o .s
def execVatmm (o : LaneOp) (s : State) : Out := s.atomicWord o .m

/-! ## Prefetch (R218) -/

/-- The translation of a page without any request: a page that no translation cache holds is walked for, and none is asked for. -/
def State.quietLeaf (s : State) (c va : Nat) : State × WalkEnd :=
  let tctx := (s.commOf c).key.ctx
  match s.tlbLook c tctx va with
  | some r => (r.1, .leaf r.2)
  | none =>
    match s.dieLeaf (dieOf c) tctx va with
    | (s1, .leaf l) => (s1.tlbFill c tctx va l, .leaf l)
    | r => r

/-- An address that a prefetch translates. -/
def prefetchable (va : Nat) : Bool := decide (va % 4 = 0) && decide (va < Config.windowBase)

/-- One lane's prefetch, and the farthest memory that it reached (R440). -/
def State.prefetch (s : State) (l2only : Bool) (va : Nat) : State × Nat :=
  if !prefetchable va then (s, 0)
  else match s.quietLeaf s.cur va with
    | (s1, .leaf l) =>
      let a := l.phys va
      if !pageOk l .read s1.myComm.tenant va || decide (regionOf a ≠ .hbm) || s1.lineBusy (lineOf a)
          || s1.poisoned a 4 then (s1, 0)
      else
        let s2 := s1.sliceRead (coreOf s1.cur) a
        (if l2only || (s2.l1Find (coreOf s2.cur) (lineOf a)).isSome then s2 else s2.l1Fill (coreOf s2.cur) (lineOf a), s1.homeLevel s1.cur a)
    | (s1, _) => (s1, 0)

/-- VPRE. The word waits while the translation unit cannot take a lane's walk (R325, R342). -/
def execVpre (o : LaneOp) (s : State) : Out :=
  let act := s.act o.msel
  let vas := (lanesIn s.w act).map fun l => s.addrOf o l
  let r := vas.foldl (fun (r : State × Nat) va =>
    let q := r.1.prefetch (immBits o 19 19 = 1) va
    (q.1, max r.2 q.2)) (s, 0)
  if vas.any fun va => prefetchable va && decide ((s.quietLeaf s.cur va).2 = .busy) then s.stall
  else .next (r.1.laneDone act false 0 r.2)

/-! ## WAITC (R220) -/

/-- WAITC waits until every counter is at or below its threshold; one that waits for W to fall drains the skein's global
stores (R312). -/
def execWaitc (o : LaneOp) (s : State) : Out :=
  let ok (p : Path) (hi : Nat) : Bool := decide (pathCount s.me p ≤ immBits o hi (hi - 5))
  if ok .g 23 && ok .s 17 && ok .m 11 && ok .w 5 then .next (s.laneDone (s.act o.msel) false)
  else if ok .w 5 then s.stall
  else .next (s.sgbDrainCtx s.cur)

/-! ## VDEC (R221, R222) -/

/-- What one element's decode gives: a value and the next position, or a stop code; and the first bit not examined. -/
structure DecodeStep where
  value : Nat
  next : Nat
  stop : Nat
  seen : Nat
  deriving DecidableEq, Repr

/-- Zero bits from p before the first 1 bit, counted up to a limit. -/
def zerosFrom (bit : Nat → Bool) (p : Nat) : Nat → Nat
  | 0 => 0
  | n + 1 => if bit p then 0 else 1 + zerosFrom bit (p + 1) n

/-- n bits from p, least significant first. -/
def bitsFrom (bit : Nat → Bool) (p : Nat) : Nat → Nat
  | 0 => 0
  | n + 1 => bnum (bit p) + 2 * bitsFrom bit (p + 1) n

/-- A fixed-width element of need bits. -/
def decodeFix (bit : Nat → Bool) (lim p need : Nat) (signed : Bool) : DecodeStep :=
  if lim < p + need then { value := 0, next := p, stop := 1, seen := p }
  else
    let x := bitsFrom bit p need
    { value := if signed then patOf 32 (signedOf need x) else x, next := p + need, stop := 0, seen := p + need }

/-- An exponential-Golomb element of order k (R221). -/
def decodeEg (bit : Nat → Bool) (lim p k : Nat) (zig : Bool) : DecodeStep :=
  let most := min (lim - p) (32 - k)
  let z := zerosFrom bit p most
  if 31 < z + k then { value := 0, next := p, stop := 2, seen := p + z }
  else
    let need := 2 * z + k + 1
    if lim < p + need then { value := 0, next := p, stop := 1, seen := min lim (p + z + 1) }
    else
      let x := (2 ^ k * (2 ^ z - 1) + bitsFrom bit (p + z + 1) (z + k)) % 2 ^ 32
      { value := if zig then Nat.xor (x / 2) (x % 2 * (2 ^ 32 - 1)) else x, next := p + need, stop := 0, seen := p + need }

/-- The element that a VDEC word's fields describe. -/
def decodeElem (o : LaneOp) (bit : Nat → Bool) (lim p : Nat) : DecodeStep :=
  let par := immBits o 17 13
  if immBits o 19 18 = 0 then decodeFix bit lim p (par + 1) (immBits o 12 12 = 1)
  else decodeEg bit lim p par (immBits o 19 18 = 2)

/-- One lane of a VDEC: its element, the bits [first, seen) that its decode examined, and whether it got an element. -/
structure DecodedLane where
  lane : Nat
  value : Nat
  first : Nat
  seen : Nat
  got : Bool
  deriving DecidableEq, Repr

/-- The lanes' elements in order, with the stop code and the end position. -/
def decodeLanes (o : LaneOp) (bit : Nat → Bool) (lim : Nat) : List Nat → Nat → Nat → List DecodedLane × Nat × Nat
  | [], stop, p => ([], stop, p)
  | l :: rest, stop, p =>
    if stop ≠ 0 then
      let r := decodeLanes o bit lim rest stop p
      ({ lane := l, value := 0, first := p, seen := p, got := false } :: r.1, r.2)
    else
      let d := decodeElem o bit lim p
      let r := decodeLanes o bit lim rest d.stop d.next
      ({ lane := l, value := d.value, first := p, seen := max p d.seen, got := decide (d.stop = 0) } :: r.1, r.2)

/-- The first byte that a lane's decode examined, and how many. -/
def DecodedLane.bytes (d : DecodedLane) : Nat × Nat := (d.first / 8, if d.seen ≤ d.first then 0 else (d.seen - 1) / 8 + 1 - d.first / 8)

/-- The lanes that the mask stack and the selectors make active, a pending replay aside (R24). -/
def State.actAll (s : State) (sel : MReg) : W64 := heldLanes s.me (entrySel s.me) &&& mGet s.me sel.toNat

/-- The watchpoint that lanes of a VDEC match by the bytes of their own elements: its number, whether it stops the bench, and the lanes
(R429). -/
def State.decodeWatch (s : State) (base : Nat) (ds : List DecodedLane) : Option (Nat × Bool × List Nat) :=
  let hits := ds.filterMap fun d =>
    if d.bytes.2 = 0 then none
    else (s.watchHit s.cur (Config.windowBase + base + d.bytes.1) d.bytes.2 true true false).map fun h => (d.lane, h)
  match hits with
  | [] => none
  | (_, h) :: _ =>
    let n := hits.foldl (fun n p => min n p.2.1) h.1
    some (n, hits.any fun p => p.2.1 = n && p.2.2, hits.map (·.1))

/-- VDEC. The start position is that of its lowest active lane, also where only some lanes issue again. A lane that a watchpoint matches
is not performed; an uncorrectable error in a byte that the decode examined concerns every lane, since the end position of each rests
on it (log 28). -/
def execVdec (o : LaneOp) (s : State) : Out :=
  let act := s.act o.msel
  match lanesIn s.w (s.actAll o.msel), lanesIn s.w act with
  | [], _ => .next (s.laneDone act false)
  | _, [] => .next (s.laneDone act false)
  | l0 :: ls, low :: _ =>
    let base := (s.qv o.s1.toNat).toNat
    let len := (s.qv o.s3.toNat).toNat
    let start := s.me.decodeAt.getD (s.lv l0 o.s2.toNat)
    let p0 := start.toNat % 2 ^ 31
    let a := spadAddr s.myCrew base
    let bit (p : Nat) : Bool := (memByte s.mem (a + p / 8)).getLsbD (p % 8)
    let fits := spadIn s.myCrew base len
    let r := if fits then decodeLanes o bit (8 * len) (l0 :: ls) 0 p0 else ([], 0, p0)
    let mine := r.1.filter fun d => act.getLsbD d.lane
    if pathFull s.me .s && !wordOpen s.me then s.stall
    else
      let s0 := s.issueWord .s act (passesOf (if fits then mine.map fun d => (d.lane, wordsOf (base + d.bytes.1) d.bytes.2) else (lanesIn s.w act).map fun l => (l, [])))
      let trapAll (c : Cause) (d : Nat) : Out :=
        let s1 := (s0.setMe (closeWord [] true false s0.me)).assayNote 1 true
        .next (s1.trapLanes c d act)
      let reads := (r.1.flatMap fun d => (wordsOf (a + d.bytes.1) d.bytes.2)).map (4 * ·)
      if !fits then trapAll .access low
      else if reads.any fun q => s.lineBusy (lineOf q) then .next s0
      else
        let hit := s0.decodeWatch base mine
        let held := match hit with
          | some (_, _, l) => l
          | none => []
        if held.isEmpty && reads.any (fun q => s.poisoned q 4) then trapAll .eccUncorr low
        else
          let last := BitVec.ofNat 32 (bnum (r.2.1 ≠ 0) * 2 ^ 31 + r.2.2 % 2 ^ 31)
          let good := if reads.any (fun q => s.poisoned q 4) then [] else mine.filter fun d => !held.contains d.lane
          let s1 := putAll s0 s.cur s0.laneIssued o.dst.toNat (good.map fun d => (d.lane, [BitVec.ofNat 32 d.value, last]))
          let left := (mine.filter fun d => !(good.contains d)).map (·.lane)
          match hit with
          | some (_, true, _) =>
            let s2 := (s1.assayNote 1 false).stopBench (benchOf s.cur) 3
            .next (s2.setMe { keepLanes left s2.me with untestedLane := true, decodeAt := some start })
          | some (n, false, _) =>
            let s2 := (s1.setMe { closeWord [] true false s1.me with decodeAt := some start }).assayNote 1 true
            .next (s2.trapLanes .watch (0x200 + n) (maskOf left))
          | none =>
            let traps := decide (r.2.1 ≠ 0) && bitOf (entryControl s1.me).toNat 2
            let s2 := (s1.setMe (closeWord [] true (!traps) s1.me)).assayNote 1 traps
            if traps then
              let t := wholeTrap s2.me .decodeLength r.2.1 (maskOf ((r.1.filter fun d => !d.got).map (·.lane)))
              .next (s2.takeTrap s2.cur { t with done := true })
            else .next (s2.laneEnd false (some .s))

/-! ## VRNG (R223, R224) -/

/-- A lane's generator state, and the state with it written. -/
def State.genOf (s : State) (l : Nat) : W64 := smGet 0 s.gens (physLane s.me s.cur l)
def State.setGen (s : State) (l : Nat) (v : W64) : State := { s with gens := smSet 0 s.gens (physLane s.me s.cur l) v }

/-- One lane's step of VRNG. -/
def State.rngLane (o : LaneOp) (s0 s : State) (l : Nat) : State :=
  match immBits o 1 0 with
  | 0 =>
    let g := rngStep (s0.genOf l)
    let out := rngOut g
    let v := if o.ty = .f32 then
        BitVec.ofNat 32 (roundTo (floatOf .f32) false (out.toNat / 2 ^ 8) (2 ^ 24) .rne false).1
      else out
    (s.setGen l g).vSet s.cur l o.dst.toNat v
  | 1 => s.setGen l (rngSeed (s0.src2 o l ++ s0.src1 o l))
  | _ =>
    let g := s0.genOf l
    setRegs s s.cur l o.dst.toNat [g.setWidth 32, (g >>> 32).setWidth 32]

def execVrng (o : LaneOp) (s : State) : Out :=
  let act := s.act o.msel
  s.cvecGate (immBits o 1 0 = 0 && decide (o.ty = .f32)) act <|
    .next (((lanesIn s.w act).foldl (State.rngLane o s) s).laneDone act false)

/-! ## What waits (R334) -/

/-- The lane memory word that an instruction is, and what it asks of its addresses. -/
def laneMem (i : Instr) : Option (LaneOp × MemForm) :=
  match i with
  | .vld o => some (o, loadForm o .g (vldPlain o))
  | .vlds o => some (o, loadForm o .s false)
  | .vldm o => some (o, loadForm o .m false)
  | .vst o => some (o, storeForm o .g)
  | .vsts o => some (o, storeForm o .s)
  | .vstm o => some (o, storeForm o .m)
  | .vatm o => some (o, atomicForm o .g)
  | .vatms o => some (o, atomicForm o .s)
  | .vatmm o => some (o, atomicForm o .m)
  | _ => none

/-- The k-register and the v-registers that an access which waits will write. -/
def LateOp.kDst (o : LateOp) : List KReg :=
  match o.act with
  | .load d _ | .atomic d _ _ _ => [d]
  | .store _ _ | .fill _ _ _ _ _ | .update _ _ _ => []
def LateOp.vDst (o : LateOp) : List Nat :=
  match o.act with
  | .fill _ dst _ n _ => (List.range n).map (dst + ·)
  | .update u _ _ => u.dst.toList
  | .load _ _ | .store _ _ | .atomic _ _ _ _ => []

/-- The lanes of which an access that waits will write registers. -/
def LateOp.lanes (o : LateOp) : List Nat :=
  match o.act with
  | .fill lane _ _ _ _ => [lane]
  | .update _ ls _ => ls.map (·.1)
  | .load _ _ | .store _ _ | .atomic _ _ _ _ => []

end Sys2Proof.Machine
end

