-- ==== Sys2Proof/Machine/Tiles.lean ====
section
/-! DEFINITION. Tiles: descriptors, handles, the tile-store order, tile instructions, MCVT, MPERM, MCODE and lane access to
tiles (09 R226 to R243, R264, R265). -/

namespace Sys2Proof.Machine

/-! ## Descriptors (R227) -/

def descFmt (d : W64) : Fmt := (fmtOf (bitsOf d.toNat 31 28)).getD .f32
def descRows (d : W64) : Nat := bitsOf d.toNat 27 14
def descCols (d : W64) : Nat := bitsOf d.toNat 13 0
/-- Bits of a tile's elements. -/
def descBits (d : W64) : Nat := descRows d * descCols d * fmtBits (descFmt d)
def descOk (d : W64) : Bool :=
  bitsOf d.toNat 63 32 = 0 && (fmtOf (bitsOf d.toNat 31 28)).isSome && descRows d ≠ 0 && descCols d ≠ 0
    && descCols d * fmtBits (descFmt d) % 32 = 0 && decide (descBits d ≤ 2 ^ 23)
/-- Slots that a tile occupies. -/
def descSlots (d : W64) : Nat := (descBits d + 32767) / 32768

/-! ## Slots and handles (R19, R226, R229) -/

def slotOf (w : Crew) (i : Nat) : Slot := w.slots.getD i Slot.fresh
/-- Each of n slots from i changed. -/
def mapSlots (w : Crew) (i n : Nat) (f : Nat → Slot → Slot) : Crew :=
  { w with slots := (List.range w.slots.length).map fun j =>
      if i ≤ j && decide (j < i + n) then f (j - i) (slotOf w j) else slotOf w j }
def setSlot (w : Crew) (i : Nat) (t : Slot) : Crew := { w with slots := listSet w.slots i t }
/-- Every slot of the tile at a first slot changed (R228). -/
def mapTile (w : Crew) (i : Nat) (f : Slot → Slot) : Crew := mapSlots w i (descSlots (slotOf w i).desc) fun _ t => f t
/-- The stamp of a tile (R228, R232). -/
def stampTile (w : Crew) (i stamp : Nat) : Crew := mapTile w i fun t => { t with stamp }

/-- Why a use of a handle value by a crew index traps, if it does. -/
def handleTrap (w : Crew) (index : Nat) (v : W16) : Option Cause :=
  match w.slots[v.toNat % 256]? with
  | some t =>
    if t.alloc && t.first && !t.freeing && v.toNat / 256 ≠ 0 && decide (t.gen = v.toNat / 256) then
      (if t.owner = some index && !t.orphan then none else some .handleForeign)
    else some .handleStale
  | none => some .handleStale

/-- A scalar word's use of a handle value: a trap, or the tile's first slot. -/
def State.withHandle (s : State) (v : W16) (k : Nat → Out) : Out :=
  match handleTrap s.myCrew s.me.index v with
  | some c => s.trapS c v.toNat
  | none => k (v.toNat % 256)

/-! ## Content (R227, R231) -/

/-- The storage address of a byte of a tile, through the rename table. -/
def tileAddr (w : Crew) (slot b : Nat) : Nat := tileBase w.core + 4096 * w.rename.getD (slot + b / 4096) 0 + b % 4096

def State.tileBytes (s : State) (w : Crew) (slot b n : Nat) : List Byte :=
  (List.range n).map fun i => memByte s.mem (tileAddr w slot (b + i))
/-- Bytes of a tile with their storage addresses. -/
def tileCells (w : Crew) (slot b : Nat) (bs : List Byte) : List (Nat × Byte) := bs.zipIdx.map fun p => (tileAddr w slot (b + p.2), p.1)
/-- Bytes of a tile written. -/
def State.tilePut (s : State) (w : Crew) (slot b : Nat) (bs : List Byte) : State := s.writeBytes (tileCells w slot b bs)

/-- Element (r, c) of a tile. -/
def State.tileElem (s : State) (w : Crew) (slot : Nat) (d : W64) (r c : Nat) : Nat :=
  let n := fmtBits (descFmt d)
  let o := (r * descCols d + c) * n
  leNat (s.tileBytes w slot (o / 8) ((n + 7) / 8)) / 2 ^ (o % 8) % 2 ^ n

/-- Element (r, c) of a tile written. -/
def State.tileSet (s : State) (w : Crew) (slot : Nat) (d : W64) (r c v : Nat) : State :=
  let n := fmtBits (descFmt d)
  let o := (r * descCols d + c) * n
  if n = 4 then
    let old := (s.tileBytes w slot (o / 8) 1).headD 0
    let b := if o % 8 = 0 then old.toNat / 16 * 16 + v % 16 else old.toNat % 16 + v % 16 * 16
    s.tilePut w slot (o / 8) [BitVec.ofNat 8 b]
  else s.tilePut w slot (o / 8) (leBytes (n / 8) v)

/-- A byte of a tile stands in a word with an uncorrectable error. -/
def State.tileBad (s : State) (w : Crew) (slot b n : Nat) : Bool :=
  (List.range n).any fun i => s.poisoned (tileAddr w slot (b + i)) 1

/-- A tile becomes poisoned (R233): the tracking of its rewritten bytes starts afresh. -/
def poisonTile (w : Crew) (slot : Nat) : Crew :=
  if (slotOf w slot).poisoned then w else mapTile w slot fun t => { t with poisoned := true, rewritten := [] }
/-- A tile is no longer poisoned, and its words hold data. -/
def State.cleanTile (s : State) (n slot : Nat) : State :=
  let w := s.crew n
  let bytes := (List.range (descSlots (slotOf w slot).desc)).map fun i => tileAddr w slot (4096 * i)
  let s1 := { s with ms := { s.ms with poison := bytes.foldl (fun p a => unpoison p a 4096) s.ms.poison } }
  s1.setCrew n (mapTile w slot fun t => { t with poisoned := false, rewritten := [] })

/-- The slots of a tile, from its first, that n bytes at an offset touch. -/
def tileParts (b n : Nat) : List Nat := if n = 0 then [] else (List.range ((b + n - 1) / 4096 + 1 - b / 4096)).map (b / 4096 + ·)
/-- All of them. -/
def tileWhole (d : W64) : List Nat := List.range (descSlots d)

/-- Some of these slots of a tile holds an uncorrectable error. -/
def State.tileErr (s : State) (n slot : Nat) (parts : List Nat) : Bool :=
  parts.any fun k => s.poisoned (tileAddr (s.crew n) slot (4096 * k)) 4096

/-- An operation that reads slots of a tile meets their uncorrectable errors (R233). -/
def State.readTile (s : State) (n slot : Nat) (parts : List Nat) : State :=
  if s.tileErr n slot parts then s.setCrew n (poisonTile (s.crew n) slot) else s

/-- The code with which a Loom operation that reads slots of a tile fails: 3 on a poisoned tile, 1 where it meets the error first (R263). -/
def State.tileCode (s : State) (n slot : Nat) (parts : List Nat) : Nat :=
  if (slotOf (s.crew n) slot).poisoned then 3 else if s.tileErr n slot parts then 1 else 0

/-! ## The order of the tile store (R231) -/

/-- A Loom operation writes, or reads, the tile of a slot. -/
def loomWrites (o : LoomOp) (slot : Nat) : Bool := decide (o.kind ≠ .mbeam) && decide (o.accSlot = slot)
def loomReads (o : LoomOp) (slot : Nat) : Bool := !o.mem && decide (o.tileSlot = slot)

/-- Some operation before a place in a crew's order is pending on a tile; for a reader, only writers count. -/
def State.tileWaits (s : State) (n slot : Nat) (writer : Bool) (before : Nat) : Bool :=
  let w := s.crew n
  (w.tileOps.any fun t => decide (t.seq < before) && (decide (t.dst = slot) || (writer && decide (t.src = slot))))
    || (s.loom w.core).ops.any fun p => decide (p.2.crew = n) && decide (p.2.seq < before)
        && (loomWrites p.2 slot || (writer && loomReads p.2 slot))

/-- The next place in a crew's order. -/
def State.nextTileSeq (s : State) (n : Nat) : Nat × State :=
  let w := s.crew n
  (w.tileSeq, s.setCrew n { w with tileSeq := w.tileSeq + 1 })

/-- An operation enters a crew's tile-store queue. -/
def State.queueTile (s : State) (act : TileAct) (dst src : Nat) : State :=
  let n := s.me.crew
  let (q, s1) := s.nextTileSeq n
  let w := s1.crew n
  s1.setCrew n { w with tileOps := w.tileOps ++
    [{ seq := q, act, dst, dstDesc := (slotOf w dst).desc, src, srcDesc := (slotOf w src).desc }] }

/-- A freed tile's slots return to the pool once nothing is pending on it (R236). -/
def State.sweepTile (s : State) (n slot : Nat) : State :=
  let w := s.crew n
  let t := slotOf w slot
  if t.first && t.freeing && !s.tileWaits n slot true w.tileSeq then
    s.setCrew n (mapSlots w slot (descSlots t.desc) fun _ u => { u with alloc := false, first := false, freeing := false })
  else s
def State.sweepTiles (s : State) (n : Nat) : State :=
  (List.range (s.crew n).slots.length).foldl (fun s i => s.sweepTile n i) s

/-! ## Tile instructions (R234 to R239) -/

/-- n slots from i are reserved, unallocated and not withdrawn. -/
def runFree (w : Crew) (n i : Nat) : Bool :=
  decide (i + n ≤ w.slots.length) && (List.range n).all fun j => !(slotOf w (i + j)).alloc && !(slotOf w (i + j)).withdrawn

/-- The slots of a new tile (R235). -/
def allocSlots (w : Crew) (i : Nat) (d : W64) (owner : Nat) : Crew :=
  mapSlots w i (descSlots d) fun j t =>
    { t with alloc := true, first := decide (j = 0), desc := if j = 0 then d else 0,
             owner := some owner, orphan := false, stamp := 0, poisoned := false, rewritten := [], freeing := false }

def execTalloc (d : HReg) (a : KReg) (b : CBit) (s : State) : Out :=
  s.outside fun s =>
    let desc := s.kv a
    if !descOk desc then s.trapS .layoutMismatch 7
    else
      let w := s.myCrew
      match (List.range w.slots.length).find? (runFree w (descSlots desc)) with
      | none => .next (((s.setMe (hSet (cSet s.me b false) d 0)).commitMe).past 4)
      | some i =>
        let s1 := s.setMyCrew (allocSlots w i desc s.me.index)
        let v := BitVec.ofNat 16 ((slotOf w i).gen * 256 + i)
        .next (((s1.setMe (hSet (cSet s1.me b true) d v)).commitMe).past 4)

/-- A slot released: its generation advances, or it is withdrawn (R19). -/
def releaseSlot (t : Slot) : Slot :=
  { t with gen := if t.gen = 255 then 255 else t.gen + 1, withdrawn := decide (t.gen = 255), owner := none, orphan := false, freeing := true }

def execTfree (a : HReg) (s : State) : Out :=
  s.outside fun s =>
    s.withHandle (hGet s.me a) fun i =>
      let w := s.myCrew
      let s1 := s.setMyCrew (mapSlots w i (descSlots (slotOf w i).desc) fun _ t => releaseSlot t)
      .next ((((s1.setMe (hSet s1.me a 0)).sweepTiles s.me.crew).commitMe).past 4)

/-- A live skein of the crew holds an index. -/
def State.indexLive (s : State) (n i : Nat) : Bool := (s.crewCtxs n).any fun c => decide ((s.ctx c).index = i)

def execThand (d : KReg) (a : HReg) (b : KReg) (s : State) : Out :=
  s.outside fun s =>
    if !laneIdle s.me then s.stall
    else
      let v := hGet s.me a
      s.withHandle v fun i =>
        let x := (s.kv b).toNat % 128
        let s1 := (s.setK d (v.setWidth 64)).commitMe
        if x = s.me.index then .next (s1.past 4)
        else
          let w := s1.myCrew
          let owner := if s.indexLive s.me.crew x then some x else none
          let s2 := s1.setMyCrew (mapTile w i fun t => { t with owner })
          .next ((s2.setMe (hSet s2.me a 0)).past 4)

def execTtake (d : HReg) (a : KReg) (s : State) : Out :=
  s.outside fun s =>
    let v : W16 := (s.kv a).setWidth 16
    s.withHandle v fun _ => .next (((s.setMe (hSet s.me d v)).commitMe).past 4)

def execTzero (a : HReg) (s : State) : Out :=
  s.outside fun s => s.withHandle (hGet s.me a) fun i => .next ((s.queueTile .zero i i).past 4)

def execTcopy (d a : HReg) (s : State) : Out :=
  s.outside fun s =>
    s.withHandle (hGet s.me d) fun i =>
      s.withHandle (hGet s.me a) fun j =>
        let x := (slotOf s.myCrew i).desc; let y := (slotOf s.myCrew j).desc
        if i = j then .next (s.past 4)
        else if descFmt x ≠ descFmt y then s.trapS .layoutMismatch 1
        else if descRows x ≠ descRows y || descCols x ≠ descCols y then s.trapS .layoutMismatch 3
        else .next ((s.queueTile .copy i j).past 4)

/-! ## MCVT (R264) -/

/-- A word that a skein narrower than 32 lanes may not issue (R260). -/
def State.wideOnly (s : State) (k : State → Out) : Out :=
  if s.me.width.toNat < 3 then s.trapS .matrixWidth s.me.width.toNat else k s

/-- The codebook slot of element (r, c) under an MCVT control word. -/
def cvtSlot (ctl : W64) (t : PermTable) (r c : Nat) : Nat :=
  let ch := if bitOf ctl.toNat 15 then r else c
  let j := if bitsOf ctl.toNat 10 8 = 0 then ch else permInv t.len t.p ch
  (bitsOf ctl.toNat 7 5 + j / 2 ^ bitsOf ctl.toNat 14 11) % 8

/-- The conversion of one element: its pattern and the RANGE flag. A tile that is converted onto itself in its own format gets vflush and
nothing else. -/
def cvtElem (ctl : W64) (t : PermTable) (cbs : List (List W16)) (flush itself : Bool) (df sf : Fmt) (r c x : Nat) : Nat × Bool :=
  let rm : Rnd := rndOf (bitsOf ctl.toNat 1 0)
  let cb := cbs.getD (cvtSlot ctl t r c) []
  if itself then (vflush flush df x, false)
  else if df = .cb4 then cbNear cb (cvt .f32 sf x .rne flush).1 rm flush
  else if sf = .cb4 then cvt df .bf16 (cbValue cb x) rm flush
  else cvt df sf x rm flush

/-- An MCVT control word is malformed. -/
def cvtBad (ctl : Nat) : Bool :=
  bitsOf ctl 63 16 ≠ 0 || bitsOf ctl 4 2 ≠ 0 || decide (12 < bitsOf ctl 14 11) || decide (4 < bitsOf ctl 10 8)

/-- CB4 pairs with a floating-point format of 16 or 32 bits only. -/
def cvtPairBad (df sf : Fmt) : Bool :=
  let ok (f : Fmt) : Bool := f = .f32 || f = .bf16 || f = .f16
  (df = .cb4 && !ok sf) || (sf = .cb4 && !ok df)

def execMcvt (d a : HReg) (b : KReg) (s : State) : Out :=
  s.outside fun s => s.wideOnly fun s =>
    s.withHandle (hGet s.me d) fun i =>
      s.withHandle (hGet s.me a) fun j =>
        let w := s.myCrew
        let x := (slotOf w i).desc; let y := (slotOf w j).desc
        let ctl := s.kv b
        if cvtBad ctl.toNat then s.trapS .layoutMismatch 7
        else if cvtPairBad (descFmt x) (descFmt y) then s.trapS .layoutMismatch 2
        else if descRows x ≠ descRows y || descCols x ≠ descCols y then s.trapS .layoutMismatch 3
        else
          let t := s.permTable (bitsOf ctl.toNat 10 8 - 1)
          .next ((s.queueTile (.cvt ctl t w.cbs s.cur) i j).past 4)

/-! ## TILE_OP_PERFORM (R231, R239, R264) -/

/-- Elements converted in order until a source byte cannot be read: the state, RANGE, and whether all were converted. -/
def cvtRun (n : Nat) (o : TileOp) (ctl : W64) (t : PermTable) (cbs : List (List W16)) (flush : Bool) :
    List Nat → State → Bool → State × Bool × Bool
  | [], s, rg => (s, rg, true)
  | e :: rest, s, rg =>
    let w := s.crew n
    let r := e / descCols o.srcDesc; let c := e % descCols o.srcDesc
    let bits := fmtBits (descFmt o.srcDesc)
    if s.tileBad w o.src (e * bits / 8) ((bits + 7) / 8) then (s, rg, false)
    else
      let v := cvtElem ctl t cbs flush (o.dst = o.src) (descFmt o.dstDesc) (descFmt o.srcDesc) r c (s.tileElem w o.src o.srcDesc r c)
      cvtRun n o ctl t cbs flush rest (s.tileSet w o.dst o.dstDesc r c v.1) (rg || v.2)

/-- The issuing skein's RANGE is set. -/
def State.rangeAt (s : State) (c n : Nat) : State :=
  if !((s.ctx c).live && decide ((s.ctx c).crew = n)) then s
  else if (s.bench (benchOf c)).stopped then s.holdWrite c 16 0 1 ⟨(s.ctx c).pc, s.dev.cycle⟩
  else s.setCtx c { s.ctx c with range := true }

/-- A tile operation's effect. -/
def State.tileEffect (s : State) (n : Nat) (o : TileOp) : State :=
  let bytes := 4096 * descSlots o.dstDesc
  match o.act with
  | .zero =>
    let s1 := (s.tilePut (s.crew n) o.dst 0 (List.replicate bytes 0)).cleanTile n o.dst
    s1.setCrew n (stampTile (s1.crew n) o.dst 0)
  | .copy =>
    let s1 := s.readTile n o.src (tileWhole o.srcDesc)
    let w := s1.crew n
    let s2 := (s1.tilePut w o.dst 0 (s1.tileBytes w o.src 0 bytes)).cleanTile n o.dst
    let src := slotOf w o.src
    let w1 := stampTile (s2.crew n) o.dst src.stamp
    s2.setCrew n (if src.poisoned then poisonTile w1 o.dst else w1)
  | .cvt ctl t cbs c =>
    let m := s.commission (s.crew n).comm
    if (slotOf (s.crew n) o.src).poisoned then s.setCrew n (poisonTile (s.crew n) o.dst)
    else
      let r := cvtRun n o ctl t cbs (flushOf m.contract) (List.range (descRows o.srcDesc * descCols o.srcDesc)) s false
      let s1 := if r.2.1 then r.1.rangeAt c n else r.1
      let w := s1.crew n
      let w1 := stampTile w o.dst m.contract
      s1.setCrew n (if r.2.2 then w1 else poisonTile (poisonTile w1 o.dst) o.src)

/-- TILE_OP_PERFORM: the operation at a place of a crew's queue is performed (R231). -/
def execTileOpPerform (crew pos : Nat) (s : State) : Out :=
  let w := s.crew crew
  match w.tileOps[pos]? with
  | none => .refused (.notEnabled "TILE_OP_PERFORM")
  | some o =>
    if s.tileWaits crew o.dst true o.seq || s.tileWaits crew o.src false o.seq then .refused (.notEnabled "TILE_OP_PERFORM")
    else
      let s1 := s.tileEffect crew o
      let w1 := s1.crew crew
      .next ((s1.setCrew crew { w1 with tileOps := w1.tileOps.filter (·.seq ≠ o.seq) }).sweepTiles crew)

/-! ## MPERM and MCODE (R116, R265) -/

/-- Numbers from 0 below the length, each once. -/
def isPermutation (p : List Nat) : Bool := (List.range p.length).all fun i => p.contains i

/-- An image of n bytes is read as .fresh scalar loads; a Mart page is denied (R265, R266). -/
def State.readImage (s : State) (va n align : Nat) (k : State → List Byte → Out) : Out :=
  if 2 ^ 57 ≤ va then s.trapS .access 0
  else if va % align ≠ 0 then s.trapS .align 0
  else match s.reachRange s.cur va n 0 .read false [] with
    | .inr (.trap s1 c) => s1.trapS c 0
    | .inr (.wait s1) => .next s1
    | .inr (.ok s1 _ _) => .next s1
    | .inl (s1, ps) =>
      let w := s1.myCrew
      let at_ (i : Nat) : Nat := leafAddr w ps (va + i)
      if ps.any fun p => regionOf (p.2.phys (4096 * p.1)) = .mart then s1.trapS .access 0
      else if (List.range n).any fun i => s1.lineBusy (lineOf (at_ i)) then .next s1
      else if (List.range n).any fun i => s1.freshBad (coreOf s1.cur) (at_ i) 1 then s1.trapS .eccUncorr 0
      else k (s1.sliceReads (coreOf s1.cur) ((List.range n).map at_)) ((List.range n).map fun i => (s1.readFresh (coreOf s1.cur) (at_ i) 1).headD 0)

def execMperm (n : BitVec 2) (a : KReg) (s : State) : Out :=
  s.outside fun s =>
    let va := (s.kv a).toNat
    s.readImage va 8 8 fun s1 hd =>
      let len := leNat (hd.take 2)
      if len = 0 || decide (4096 < len) || leNat (hd.drop 2) ≠ 0 then s1.trapS .layoutMismatch 0x20
      else
        s1.readImage va (8 + 2 * len) 8 fun s2 bs =>
          let p := (List.range len).map fun i => leNat ((bs.drop (8 + 2 * i)).take 2)
          if !isPermutation p then s2.trapS .layoutMismatch 0x21
          else
            let w := s2.myCrew
            let old := w.perms.getD n.toNat PermTable.identity
            .next (((s2.setMyCrew { w with perms := listSet w.perms n.toNat { len, p, loads := old.loads + 1 } }).commitMe).past 4)

def execMcode (n : BitVec 3) (a : KReg) (s : State) : Out :=
  s.outside fun s =>
    s.readImage (s.kv a).toNat 32 32 fun s1 bs =>
      let cb := (List.range 16).map fun i => BitVec.ofNat 16 (leNat ((bs.drop (2 * i)).take 2))
      let w := s1.myCrew
      .next (((s1.setMyCrew { w with cbs := listSet w.cbs n.toNat cb }).commitMe).past 4)

/-! ## Lane access to tiles (R241 to R243) -/

/-- CNT of a tile word, and its element size. -/
def tileCnt (o : LaneOp) : Nat := cntOf (immBits o 17 16)
/-- The element index of a lane. -/
def State.tileIndex (s : State) (o : LaneOp) (l : Nat) : Nat := (s.lv l o.s2.toNat).toNat + immBits o 15 0

/-- The rank of the check that a lane fails (R208, R242). -/
def State.tileLane (s : State) (o : LaneOp) (d : W64) (bad : Bool) (l : Nat) : Option Nat :=
  let x := s.tileIndex o l; let n := tileCnt o
  if x % n ≠ 0 then some 1
  else if descBits d / 8 < (x + n) * elemBytes o.ty then some 2
  else if bad then some 7 else none

/-- The slots that lanes' elements lie in. -/
def State.lanesParts (s : State) (o : LaneOp) (ls : List Nat) : List Nat :=
  distinct (ls.flatMap fun l => tileParts (s.tileIndex o l * elemBytes o.ty) (elemBytes o.ty * tileCnt o))

/-- The common form of VTLD and VTST: handle, format, wait, lanes; perform acts on the good lanes. -/
def State.tileWord (s : State) (o : LaneOp) (load : Bool) (perform : State → Nat → W64 → List Nat → State) : Out :=
  let act := s.act o.msel
  if act = 0 then .next (s.laneDone act false)
  else
    let h : W16 := (s.qv o.s1.toNat).setWidth 16
    match handleTrap s.myCrew s.me.index h with
    | some c => s.trapWhole c h.toNat act act
    | none =>
      let i := h.toNat % 256
      let d := (slotOf s.myCrew i).desc
      if o.ty ≠ descFmt d && o.ty ≠ .n32 then s.trapWhole .layoutMismatch 1 act act
      else if s.tileWaits s.me.crew i (!load) s.myCrew.tileSeq then s.stall
      else
        let ls := lanesIn s.w act
        let s1 := if load then s.readTile s.me.crew i (s.lanesParts o (ls.filter fun l => (s.tileLane o d false l).isNone)) else s
        let bad := load && (slotOf s1.myCrew i).poisoned
        let fails := ls.filterMap fun l => (s1.tileLane o d bad l).map fun r => (l, r)
        let good := ls.filter fun l => (s1.tileLane o d bad l).isNone
        let s2 := perform s1 i d good
        if fails = [] then .next (s2.laneDone act false 0 10)
        else
          let r := leastRank fails
          let low := ((fails.filter fun q => q.2 = r).map (·.1)).foldl min 64
          .next ((s2.assay act 0 10 true).trapLanes (rankCause r) low (maskOf (fails.map (·.1))))

def execVtld (o : LaneOp) (s : State) : Out :=
  s.tileWord o true fun s i _ good =>
    let n := tileCnt o; let e := elemBytes o.ty
    good.foldl (fun u l => setRegs u s.cur l o.dst.toNat (loadRegs o.ty n (s.tileBytes s.myCrew i (s.tileIndex o l * e) (e * n)))) s

/-- The bytes a VTST lane stores. -/
def State.tileData (s : State) (o : LaneOp) (l : Nat) : List Byte :=
  ((List.range (tileCnt o)).flatMap fun i => leBytes 4 (s.lv l (o.s3.toNat + i)).toNat).take (elemBytes o.ty * tileCnt o)

/-- Bytes of a poisoned tile that VTST has written (R233). -/
def noteRewritten (t : Slot) (bytes : List Nat) : Slot :=
  if !t.poisoned then t
  else
    let r := t.rewritten ++ bytes.filter fun b => !t.rewritten.contains b
    { t with rewritten := r }

/-- Every element byte of a poisoned tile has been written since it became poisoned (R233). -/
def allRewritten (t : Slot) : Bool := t.poisoned && decide (descBits t.desc / 8 ≤ (t.rewritten.filter fun b => b < descBits t.desc / 8).length)

def execVtst (o : LaneOp) (s : State) : Out :=
  s.tileWord o false fun s i _ good =>
    let e := elemBytes o.ty
    let s1 := s.writeBytes (good.flatMap fun l => tileCells s.myCrew i (s.tileIndex o l * e) (s.tileData o l))
    let w := s1.myCrew
    let t := slotOf w i
    let w1 := if isFloat o.ty && t.stamp = 0 && good ≠ [] then stampTile w i s.contract else w
    let t1 := noteRewritten (slotOf w1 i) (distinct (good.flatMap fun l =>
      (List.range (e * tileCnt o)).map fun j => s.tileIndex o l * e + j))
    let s2 := s1.setMyCrew (setSlot w1 i t1)
    if allRewritten t1 then s2.cleanTile s.me.crew i else s2

end Sys2Proof.Machine
end

