-- ==== Sys2Proof/Machine/Loom.lean ====
section
/-! DEFINITION. The Loom: layout words, MBEAM, MLOOP, MSTEP, their issue checks, and the steps of the operations in its
queues (09 R244 to R268). -/

namespace Sys2Proof.Machine

/-! ## Layout words (R250, R251) -/

def layNm1 (l : Nat) : Nat := bitsOf l 63 55
def layKm1 (l : Nat) : Nat := bitsOf l 54 46
def laySpan (l : Nat) : Nat := bitsOf l 44 42
def layCb (l : Nat) : Nat := bitsOf l 41 39
def layPerm (l : Nat) : Nat := bitsOf l 38 36
def layTrans (l : Nat) : Bool := bitOf l 35
def layFmt (l : Nat) : Fmt := (fmtOf (bitsOf l 34 31)).getD .f32
def layPitch (l : Nat) : Nat := bitsOf l 23 0

/-- A malformed layout word. -/
def layBad (l : Nat) (mloop : Bool) : Bool :=
  bitOf l 45 || bitsOf l 30 24 ≠ 0 || decide (4 < layPerm l) || (fmtOf (bitsOf l 34 31)).isNone || layPitch l % 16 ≠ 0
    || layPitch l % (16 * 2 ^ laySpan l) ≠ 0 || (mloop && layTrans l)

/-- elem_addr (R251); the bit offset of a row may be negative. -/
def elemAddr (base spanCode pitch r : Nat) (ob : Int) : Nat :=
  let span : Int := 16 * 2 ^ spanCode
  let o := ob / 8
  let chunk := Nat.xor ((o % span) / 16).toNat (r % (2 ^ spanCode))
  let p := o / span * span + chunk * 16 + o % 16
  (((base : Int) + r * pitch + p) % 2 ^ 64).toNat

/-- The byte of an element and, for four bits, its nibble (R251). -/
structure ElemAt where
  va : Nat
  bytes : Nat
  shift : Nat
  bits : Nat
  deriving DecidableEq, Repr

def elemAt (base l r : Nat) (ob : Int) (bits : Nat) : ElemAt :=
  { va := elemAddr base (laySpan l) (layPitch l) r ob, bytes := (bits + 7) / 8,
    shift := if bits = 4 then 4 * (ob / 4 % 2).toNat else 0, bits }

/-! ## Formats (R244, R245) -/

/-- Formats that are no Loom operand. -/
def notLoom (f : Fmt) : Bool := f = .f32 || f = .s32 || f = .n32
/-- B elements of more than four magnitude bits take both planes. -/
def wideFmt (f : Fmt) : Bool := f = .bf16 || f = .f16 || f = .s8 || f = .n8
def isFp8 (f : Fmt) : Bool := f = .e4m3 || f = .e5m2
def isInt8 (f : Fmt) : Bool := f = .s8 || f = .n8 || f = .s4 || f = .n4

/-- The accumulator format of an accepted pair. -/
def pairAcc (b a : Fmt) : Option Fmt :=
  if isInt8 b && isInt8 a then some .s32
  else if (isFp8 b || b = .cb4 || b = .bf16) && (isFp8 a || a = .bf16) then some .f32
  else if b = .f16 && a = .f16 then some .f32 else none

/-- Check 5 of R266: a class that is emulated or absent (R88, R89). -/
def State.classGate (s : State) (cls : Nat) (k : Out) : Out :=
  if s.capCode cls = 0 then s.trapS .illegal (0x200 + cls)
  else if s.capCode cls = 1 then s.trapS .illegal (0x100 + cls) else k

/-! ## Sets and queues (R247, R248) -/

def loomQueue (lm : Loom) (set : Nat) : List Nat := if set = 0 then lm.q0 else lm.q1
def putQueue (lm : Loom) (set : Nat) (q : List Nat) : Loom := if set = 0 then { lm with q0 := q } else { lm with q1 := q }
def loomSet (lm : Loom) (set : Nat) : SetState := if set = 0 then lm.set0 else lm.set1
def putSet (lm : Loom) (set : Nat) (v : SetState) : Loom := if set = 0 then { lm with set0 := v } else { lm with set1 := v }
def loomOp (lm : Loom) (i : Nat) : Option LoomOp := smFind lm.ops i
/-- The operations in a set's queue, in order. -/
def queueOps (lm : Loom) (set : Nat) : List (Nat × LoomOp) :=
  (loomQueue lm set).filterMap fun i => (loomOp lm i).map fun o => (i, o)
/-- The sets of an operation. -/
def opSets (o : LoomOp) : List Nat := if o.wide then [0, 1] else [o.set]

/-- The beam that an MBEAM makes, without its elements. -/
def beamOf (o : LoomOp) : Beam :=
  { fmt := o.fmt, kb := o.kb, nb := o.nb, perm := o.perm, table := o.table, elems := [], cb := o.cb, bad := false }

/-- The latest MBEAM or .drop of a list of operations, latest first: some none after a .drop, or after an MBEAM that has been
cancelled and leaves the set unheld (R275). -/
def claimIn : List LoomOp → Option (Option Beam)
  | [] => none
  | o :: rest =>
    if o.kind = .mbeam then some (if o.cancelled then none else some (beamOf o))
    else if o.drop then some none else claimIn rest

/-- The beam that an operation of a crew issued now into a set would use: that of the latest MBEAM ahead of it (R248), or
the one that its crew holds; none if the crew does not hold the set, or a .drop has released it (R259). A wide beam stays usable through
set 0 after a single MBEAM into set 1 has overwritten one of its planes: the spec says nothing of it, and this is the model's choice
(log 78). -/
def claimOf (lm : Loom) (set crew : Nat) : Option Beam :=
  match claimIn (((queueOps lm set).map (·.2)).filter (fun o => decide (o.crew = crew))).reverse with
  | some r => r
  | none => if (loomSet lm set).holder = some crew then (loomSet lm set).beam else none

/-! ## Memory operands (R261, R266) -/

/-- Checks 6 to 8 of R266 on elements in memory: the issue translations go on. Where bytes fail check 6 differently, the model's order
decides (log 78): every byte's range and window, then the pages one by one, then the Mart pages. -/
def State.operandCheck (s : State) (es : List ElemAt) (span : Nat) (k : State → List (Nat × Leaf) → Out) : Out :=
  let w := s.myCrew
  let bs := es.flatMap fun e => [e.va, e.va + e.bytes - 1]
  let win := bs.filter fun a => decide (Config.windowBase ≤ a)
  if bs.any fun a => decide (2 ^ 57 ≤ a) then s.trapS .access 0
  else if win.any fun a => !spadIn w (a - Config.windowBase) 1 then s.trapS .access 0
  else
    let pages := distinct ((bs.filter fun a => decide (a < Config.windowBase)).map (· / 4096))
    match reachPages s.cur 4 s.myComm.tenant .read true pages s [] with
    | .inr (.trap s1 c) => s1.trapS c 0
    | .inr (.wait s1) => .next s1
    | .inr (.ok s1 _ _) => .next s1
    | .inl (s1, ps) =>
      let mixed := (ps.filter fun p => p.2.stamp ≠ 0 && p.2.stamp ≠ s1.contract).map fun p => (p.2.stamp, p.1)
      if ps.any fun p => regionOf (p.2.phys (4096 * p.1)) = .mart then s1.trapS .access 0
      else if bitOf s1.me.control.toNat 0 && mixed ≠ [] then
        s1.trapS .stampMix (mixed.foldl (fun q p => if p.2 < q.2 then p else q) (mixed.headD (0, 0))).1
      else
        let lines := distinct (win.map fun a => lineOf (spadAddr w (a - Config.windowBase)))
        if lines.any fun l => !(s1.lineState l).empty && (s1.lineState l).tag.toNat ≠ span then s1.trapS .layoutMismatch 6
        else k s1 ps

/-- The virtual lines of elements. -/
def elemLines (es : List ElemAt) : List Nat := distinct (es.flatMap fun e => [e.va / 128, (e.va + e.bytes - 1) / 128])

/-- A line that no engine operation before the reader's place has to write is read; this core's buffer entry drains first
(R261, R280, R312). A byte that its skein has written since the word is read as it stood (R342). -/
def State.takeLine (s : State) (w : Crew) (place span : Nat) (ps : List (Nat × Leaf)) (vline : Nat) : State × Option LoomLine :=
  let a := leafAddr w ps (128 * vline)
  if s.lineBefore (lineOf a) place then (s, none)
  else
    let s1 := if regionOf a = .hbm then (s.sgbDrain w.core (lineOf a)).sliceRead w.core a else s
    let byte (i : Nat) : Byte := (smFind s1.ms.kept (keptKey place (a + i))).getD (memByte s1.mem (a + i))
    (s1, some { line := vline, bytes := (List.range 128).map byte, bad := (List.range 128).filter fun i => s1.poisoned (a + i) 1,
                tag := decide (Config.windowBase ≤ 128 * vline) && decide ((s1.lineState (lineOf a)).tag.toNat ≠ span) })

/-- Lines are read where they may be: the state, what has been read, and the lines that are left. -/
def State.takeLines (s : State) (w : Crew) (place span : Nat) (ps : List (Nat × Leaf)) (data : List LoomLine) :
    List Nat → State × List LoomLine × List Nat
  | [] => (s, data, [])
  | v :: rest =>
    match s.takeLine w place span ps v with
    | (s1, some d) => s1.takeLines w place span ps (data ++ [d]) rest
    | (s1, none) => let r := s1.takeLines w place span ps data rest; (r.1, r.2.1, v :: r.2.2)

/-- An element from lines that have been read. -/
def elemVal (data : List LoomLine) (e : ElemAt) : Nat :=
  let byte (a : Nat) : Byte := match data.find? fun p => p.line = a / 128 with
    | some p => p.bytes.getD (a % 128) 0
    | none => 0
  leNat ((List.range e.bytes).map fun i => byte (e.va + i)) / 2 ^ e.shift % 2 ^ e.bits

/-- Elements of which a byte was read from a word with an uncorrectable error. -/
def elemsBad (data : List LoomLine) (es : List ElemAt) : Bool :=
  es.any fun e => (List.range e.bytes).any fun i => data.any fun p => decide (p.line = (e.va + i) / 128) && p.bad.contains ((e.va + i) % 128)

/-- A scratchpad line that filled after issue carries another span tag (R263 code 2). -/
def tagsBad (data : List LoomLine) (lines : List Nat) : Bool := data.any fun p => p.tag && lines.contains p.line

/-- What the lines of elements give: nothing while one is to be read, or the code with which the operation fails, or none (R263). Where
lines fail differently, a wrong span tag decides: the spec gives no order (log 78). -/
def linesCode (o : LoomOp) (es : List ElemAt) : Option Nat :=
  let lines := elemLines es
  if lines.any o.left.contains then none
  else if tagsBad o.data lines then some 2
  else if elemsBad o.data es then some 1 else some 0

/-! ## Issue (R252 to R260) -/

/-- Room in the queues of the sets. -/
def State.loomRoom (s : State) (sets : List Nat) : Bool :=
  sets.all fun t => decide ((loomQueue (s.loom (coreOf s.cur)) t).length < Config.loomQueueLen)

/-- An operation enters its queues. -/
def State.queueLoom (s : State) (o : LoomOp) : State :=
  let k := coreOf s.cur
  let lm := s.loom k
  let lm1 := { lm with ops := lm.ops ++ [(lm.nextOp, o)], nextOp := lm.nextOp + 1 }
  { s.setLoom k ((opSets o).foldl (fun m t => putQueue m t (loomQueue m t ++ [lm.nextOp])) lm1) with nextPlace := s.nextPlace + 1 }

/-- An operation that nothing has been said about. -/
def LoomOp.blank (s : State) (kind : LoomKind) : LoomOp :=
  { kind, ctx := s.cur, index := s.me.index, crew := s.me.crew, fut := none, seq := 0, lw := s.me.pc, mem := false, wide := false, set := 0,
    tileSlot := 0, tileDesc := 0, accSlot := 0, accDesc := 0, base := 0, lay := 0, loopw := 0, fmt := .f32, kb := 0, nb := 0,
    perm := 0, table := PermTable.identity, cb := [], pages := [], data := [], left := [], drop := false,
    region := s.me.region.serial, started := false, leave := 0, standing := false, row := 0, failed := 0, poisons := false,
    cancelled := false, place := s.nextPlace }

/-- The word takes its future if it returns one, its place in the tile order, and enters the queues; a full queue or a full
future table is waited for (R248, R269). -/
def State.issueLoom (s : State) (fut : Option (FReg × Nat)) (o : LoomOp) : Out :=
  if !s.loomRoom (opSets o) then s.stall
  else match fut with
    | none =>
      let (q, s1) := s.nextTileSeq s.me.crew
      .next ((s1.queueLoom { o with seq := q }).past 4)
    | some (f, kind) => match freeIndex s.myCrew with
      | none => s.stall
      | some i =>
        let (q, s1) := s.nextTileSeq s.me.crew
        let (s2, tag) := s1.newFuture i f kind
        .next ((s2.queueLoom { o with seq := q, fut := some tag }).past 4)

/-- The class that B alone decides at MBEAM (R266). -/
def beamGate (s : State) (f : Fmt) (k : Out) : Out :=
  if f = .cb4 then s.classGate 2 k
  else if f = .bf16 || f = .f16 then s.classGate 0 k
  else if isInt8 f then s.classGate 1 k else k

/-- The elements of a beam in memory, by rows (R253). -/
def beamElems (base l kb nb : Nat) (t : PermTable) : List (List ElemAt) :=
  let bits := fmtBits (layFmt l)
  (List.range kb).map fun k => (List.range nb).map fun n =>
    let p := permPos t.len t.p k
    let (sr, sc) := if layTrans l then (n, p) else (p, n)
    elemAt base l sr (sc * bits : Nat) bits

/-- A shape or a permutation that no beam takes (R266). -/
def beamShape (f : Fmt) (l kb nb : Nat) (t : PermTable) : Bool :=
  decide (kb < 1) || decide (512 < kb) || decide (nb < 1) || decide ((if f = .f16 then 256 else 512) < nb) || (layPerm l ≠ 0 && kb % t.len ≠ 0)

/-- Orders 4 and 5 of R266 for an MBEAM of shape kb by nb. ILLEGAL 0x18 of handler state follows the class, which is check 7 of R106 (R384;
log 78). -/
def State.mbeamWord (s : State) (d : FReg) (set : BeamSet) (l kb nb : Nat) (o : LoomOp) (k : State → LoomOp → Out) : Out :=
  let f := layFmt l
  let t := if layPerm l = 0 then PermTable.identity else s.permTable (layPerm l - 1)
  if notLoom f then s.trapS .layoutMismatch 2
  else if beamShape f l kb nb t then s.trapS .layoutMismatch 3
  else if wideFmt f ≠ (set = .s01) then s.trapS .layoutMismatch 5
  else beamGate s f <| s.outside fun s => k s { o with
    wide := wideFmt f, set := (if set = .s1 then 1 else 0), lay := BitVec.ofNat 64 l, fmt := f, kb, nb, perm := layPerm l,
    table := t, cb := if f = .cb4 then s.codebook (layCb l) else [], fut := some d.toNat }

def execMbeamTile (d : FReg) (a : HReg) (b : KReg) (set : BeamSet) (s : State) : Out :=
  s.wideOnly fun s =>
    s.withHandle (hGet s.me a) fun i =>
      let l := (s.kv b).toNat
      let desc := (slotOf s.myCrew i).desc
      let (kb, nb) := if layTrans l then (descCols desc, descRows desc) else (descRows desc, descCols desc)
      if layBad l false || layPitch l ≠ 0 || laySpan l ≠ 0 then s.trapS .layoutMismatch 7
      else if layFmt l ≠ descFmt desc then s.trapS .layoutMismatch 1
      else
        s.mbeamWord d set l kb nb { LoomOp.blank s .mbeam with base := (hGet s.me a).setWidth 64, tileSlot := i, tileDesc := desc } fun s o =>
          s.issueLoom (some (d, 1)) o

/-- MBEAM from memory. Check 6 takes the base's own range, then ALIGN, and then the operand's other bytes: the spec gives no order among
them (log 78). -/
def execMbeamMem (d : FReg) (a b : KReg) (set : BeamSet) (s : State) : Out :=
  s.wideOnly fun s =>
    let l := (s.kv b).toNat
    let base := s.kv a
    if layBad l false then s.trapS .layoutMismatch 7
    else
      s.mbeamWord d set l (layKm1 l + 1) (layNm1 l + 1) { LoomOp.blank s .mbeam with mem := true, base } fun s o =>
        if 2 ^ 57 ≤ base.toNat then s.trapS .access 0
        else if base.toNat % 16 ≠ 0 then s.trapS .align 0
        else
          let es := (beamElems base.toNat l o.kb o.nb o.table).flatten
          s.operandCheck es (laySpan l) fun s ps =>
            if !s.loomRoom (opSets o) || (freeIndex s.myCrew).isNone then s.stall
            else
              let r := s.takeLines s.myCrew s.nextPlace (laySpan l) ps [] (elemLines es)
              r.1.issueLoom (some (d, 1)) { o with pages := ps, data := r.2.1, left := r.2.2 }

/-! Loop words (R256). -/

def loopKinc (l : Nat) : Int := signedOf 24 (bitsOf l 63 40)
def loopRinc (l : Nat) : Nat := bitsOf l 39 32
def loopArow0 (l : Nat) : Nat := bitsOf l 31 22
def loopSteps (l : Nat) : Nat := bitsOf l 18 10 + 1
def loopRows (l : Nat) : Nat := bitsOf l 9 0 + 1

/-- The elements of stored A row i in memory, in logical K order (R257). -/
def rowElems (o : LoomOp) (i : Nat) : List ElemAt :=
  let l := o.lay.toNat; let lw := o.loopw.toNat
  let kt := o.kb / loopSteps lw
  let bits := fmtBits o.fmt
  (List.range o.kb).map fun k =>
    let p := permPos o.table.len o.table.p k
    elemAt o.base.toNat l (i * loopRinc lw) (8 * ((p / kt : Nat) : Int) * loopKinc lw + ((p % kt * bits : Nat) : Int)) bits

/-- The slots of an operation's A tile that its next row reads. -/
def rowParts (o : LoomOp) : List Nat :=
  let lw := o.loopw.toNat
  let kt := o.kb / loopSteps lw
  let bits := fmtBits (descFmt o.tileDesc)
  distinct ((List.range o.kb).flatMap fun k =>
    let p := permPos o.table.len o.table.p k
    tileParts ((o.row * loopRinc lw * descCols o.tileDesc + p / kt * (loopKinc lw).toNat + p % kt) * bits / 8) ((bits + 7) / 8))

/-- The slots of its accumulator that hold a row. -/
def accParts (o : LoomOp) (r : Nat) : List Nat :=
  let bytes := descCols o.accDesc * fmtBits (descFmt o.accDesc) / 8
  tileParts (r * bytes) bytes

/-- The order-4 and order-5 checks of MLOOP and MSTEP once their handles have passed (R257, R266); A has format af. -/
def State.mloopChecks (s : State) (named : Nat) (o : LoomOp) (af : Fmt) (k : State → LoomOp → Out) : Out :=
  let lw := o.loopw.toNat; let l := o.lay.toNat
  let same := !o.mem && decide (o.tileSlot = o.accSlot)
  if bitsOf lw 21 19 ≠ 0 || (!o.mem && decide (loopKinc lw < 0)) || (o.mem && loopKinc lw % 16 ≠ 0) || (o.mem && layBad l true) then
    s.trapS .layoutMismatch 7
  else match claimOf (s.loom (coreOf s.cur)) named s.me.crew with
    | none => s.trapS .layoutMismatch (if same then 3 else 5)
    | some b =>
      let nks := loopSteps lw; let nrows := loopRows lw
      let kt := b.kb / nks
      if pairAcc b.fmt af ≠ some (descFmt o.accDesc) then s.trapS .layoutMismatch 2
      else if b.kb % nks ≠ 0 || descCols o.accDesc ≠ b.nb || decide (descRows o.accDesc < loopArow0 lw + nrows) || same
          || (!o.mem && (decide (descRows o.tileDesc ≤ (nrows - 1) * loopRinc lw)
            || decide (((descCols o.tileDesc : Nat) : Int) < (nks - 1 : Nat) * loopKinc lw + kt))) then
        s.trapS .layoutMismatch 3
      else if wideFmt b.fmt && named ≠ 0 then s.trapS .layoutMismatch 5
      else if (o.mem && layPerm l ≠ b.perm)
          || (b.perm ≠ 0 && (s.permTable (b.perm - 1)).loads ≠ b.table.loads) then s.trapS .layoutMismatch 4
      else s.classGate (classNum (classFor b.fmt af)) <| s.outside fun s =>
        k s { o with wide := wideFmt b.fmt, set := named, fmt := af, kb := b.kb, nb := b.nb, perm := b.perm, table := b.table }

/-- An MLOOP or MSTEP with its A operand in a tile; nothing in memory is checked. -/
def State.mloopTile (s : State) (kind : LoomKind) (fut : Option (FReg × Nat)) (a : KReg) (b : HReg) (set drop : Bool) : Out :=
  s.wideOnly fun s =>
    s.withHandle (hGet s.me b) fun i =>
      s.withHandle (hGet s.me (b + 1)) fun j =>
        let w := s.myCrew
        let o := { LoomOp.blank s kind with
          accSlot := i, accDesc := (slotOf w i).desc, tileSlot := j, tileDesc := (slotOf w j).desc, loopw := s.kv a, drop }
        s.mloopChecks (bnum set) o (descFmt o.tileDesc) fun s o => s.issueLoom fut o

def execMloopTile (d : FReg) (a : KReg) (b : HReg) (set _keep drop : Bool) (s : State) : Out :=
  s.mloopTile .mloop (some (d, 2)) a b set drop
def execMstep (a : KReg) (b : HReg) (set _keep drop : Bool) (s : State) : Out := s.mloopTile .mstep none a b set drop

def execMloopMem (d : FReg) (a : KReg) (b : HReg) (set _keep drop : Bool) (s : State) : Out :=
  s.wideOnly fun s =>
    s.withHandle (hGet s.me b) fun i =>
      let l := s.kv (a + 2)
      let o := { LoomOp.blank s .mloop with
        mem := true, accSlot := i, accDesc := (slotOf s.myCrew i).desc, loopw := s.kv a, base := s.kv (a + 1), lay := l, drop }
      s.mloopChecks (bnum set) o (layFmt l.toNat) fun s o =>
        let es := (List.range (loopRows o.loopw.toNat)).flatMap (rowElems o)
        s.operandCheck es (laySpan l.toNat) fun s ps =>
          if !s.loomRoom (opSets o) || (freeIndex s.myCrew).isNone then s.stall
          else
            let r := s.takeLines s.myCrew s.nextPlace (laySpan l.toNat) ps [] (elemLines es)
            r.1.issueLoom (some (d, 2)) { o with pages := ps, data := r.2.1, left := r.2.2 }

/-! ## The operations in the queues -/

/-- The operation whose turn it is at a set: the holder's first, while a crew holds the set; an MBEAM of another crew waits
for the release (R247, R248). -/
def loomTurn (lm : Loom) (set : Nat) : Option (Nat × LoomOp) :=
  (queueOps lm set).find? fun p => match (loomSet lm set).holder with
    | some w => decide (p.2.crew = w)
    | none => true

/-- It is the operation's turn at every set that it names. -/
def turnAll (lm : Loom) (i : Nat) (o : LoomOp) : Bool :=
  (opSets o).all fun t => match loomTurn lm t with
    | some p => decide (p.1 = i)
    | none => false

/-- The operation of a set's turn, if every set that it names has it so. -/
def State.loomAt (s : State) (core set : Nat) : Option (Nat × LoomOp) :=
  match loomTurn (s.loom core) set with
  | some p => if turnAll (s.loom core) p.1 p.2 then some p else none
  | none => none

/-- The lines that operations of the Looms have still to read are read where an engine has finished them (R261). -/
def State.readLeft (s : State) (core i : Nat) (o : LoomOp) : State :=
  if o.left.isEmpty then s
  else
    let r := s.takeLines (s.crew o.crew) o.place (laySpan o.lay.toNat) o.pages o.data o.left
    let lm := r.1.loom core
    r.1.setLoom core { lm with ops := alMod lm.ops i fun _ => { o with data := r.2.1, left := r.2.2 } }
def State.settleReads (s : State) : State :=
  (s.looms.flatMap fun p => p.2.ops.map fun q => (p.1, q)).foldl (fun s q => s.readLeft q.1 q.2.1 q.2.2) s

def State.putLoomOp (s : State) (core i : Nat) (o : LoomOp) : State :=
  let lm := s.loom core
  s.setLoom core { lm with ops := alMod lm.ops i fun _ => o }

/-- The leave of an operation (R375). -/
def State.loomCost (s : State) (o : LoomOp) (b : Beam) : Nat :=
  let sets := (opSets o).length
  if o.kind = .mbeam then 2 * sets
  else
    let m := s.commission (s.crew o.crew).comm
    (if capcCode (capcOf s.part.torhw (m.contract - 1)) (classNum (classFor b.fmt o.fmt)) = 3 then 4 else 2) * sets

/-- The tiles of an operation are free of earlier operations (R231). -/
def State.loomTilesFree (s : State) (o : LoomOp) : Bool :=
  (o.kind = .mbeam || !s.tileWaits o.crew o.accSlot true o.seq) && (o.mem || !s.tileWaits o.crew o.tileSlot false o.seq)

/-- LOOM_OP_START: the operation of a set's turn asks for leave, or starts with it (R248, R254, R376). -/
def execLoomOpStart (core set : Nat) (s : State) : Out :=
  match s.loomAt core set with
  | none => .refused (.notEnabled "LOOM_OP_START")
  | some (i, o) =>
    let b := ((loomSet (s.loom core) o.set).beam).getD (beamOf o)
    let w := s.crew o.crew
    let cost := s.loomCost o b
    if o.started || o.cancelled || o.failed ≠ 0 || !s.loomTilesFree o
        || (o.kind ≠ .mbeam && (loomSet (s.loom core) o.set).holder ≠ some o.crew) then
      .refused (.notEnabled "LOOM_OP_START")
    else if o.leave ≠ 0 then .next (s.putLoomOp core i { o with started := true })
    else if s.leaveQueued (crewDie w) (.loom core i) then .refused (.notEnabled "LOOM_OP_START")
    else if standingCovers w cost then
      .next ((s.setStanding o.crew w.standing (w.standHeld + cost)).putLoomOp core i
        { o with started := true, leave := cost, standing := true })
    else .next (s.askLeave (crewDie w) (.loom core i) cost)

/-! ## The end of an operation (R247, R263, R275) -/

/-- The operations of a crew that an MBEAM's failure leaves without a beam: those behind it up to the crew's next MBEAM. -/
def behind (lm : Loom) (crew i : Nat) (set : Nat) : List Nat :=
  (((queueOps lm set).dropWhile fun p => p.1 ≠ i).drop 1).filter (fun p => decide (p.2.crew = crew))
    |>.takeWhile (fun p => p.2.kind ≠ .mbeam) |>.map (·.1)

/-- A set is released. -/
def freeSet (lm : Loom) (set : Nat) : Loom := putSet lm set SetState.empty

/-- The sets after an operation has ended. An MBEAM that fails or is cancelled leaves its sets unheld (R263, R275); a .drop releases
them however its operation ends: the spec says that it does where the operation completes, and the rest is the model's choice (R247, log
78). -/
def endSets (lm : Loom) (o : LoomOp) (i : Nat) (beam : Option Beam) : Loom :=
  (opSets o).foldl (fun m t =>
    if o.kind = .mbeam then
      (match beam with
        | some b => putSet m t { holder := some o.crew, beam := some b, last := some { o with started := false, leave := 0, fut := none } }
        | none =>
          let m1 := if (loomSet m t).holder = some o.crew || (loomSet m t).holder = none then freeSet m t else m
          { m1 with ops := m1.ops.map fun p =>
              if (behind lm o.crew i t).contains p.1 then (p.1, { p.2 with failed := 4 }) else p })
    else if o.drop && (loomSet m t).holder = some o.crew then freeSet m t else m) lm

/-- The sets that an ended or saved crew holds are released once no operation of it is left in the Loom (R144, R247). -/
def freeSetsOf (lm : Loom) (crew : Nat) : Loom :=
  if lm.ops.any fun p => p.2.crew = crew then lm
  else [0, 1].foldl (fun m t => if (loomSet m t).holder = some crew then freeSet m t else m) lm

/-- An operation leaves the Loom: its queues, sets, leave, tiles and future are settled. -/
def State.endLoom (s : State) (core i : Nat) (o : LoomOp) (state status : Nat) (beam : Option Beam) : State :=
  let lm := endSets (s.loom core) o i beam
  let lm1 := (opSets o).foldl (fun m t => putQueue m t ((loomQueue m t).filter (· ≠ i))) { lm with ops := lm.ops.filter (·.1 ≠ i) }
  let s0 : State := { s.setLoom core lm1 with ms := { s.ms with kept := s.ms.kept.filter fun p => p.1 / 2 ^ 48 ≠ o.place } }
  let s1 := s0.dropLeave (dieOfCore core) (.loom core i)
  let s2 := if o.leave = 0 then s1 else s1.returnLeave o.crew o.leave o.standing
  let w := s2.crew o.crew
  let bad := state = 3 && o.kind ≠ .mbeam && (o.poisons || o.kind = .mstep)
  let s3 := if bad then s2.setCrew o.crew (poisonTile w o.accSlot) else s2
  let s4 := if w.status = .ended then s3.setLoom core (freeSetsOf (s3.loom core) o.crew) else s3
  (match o.fut with
    | some tag => s4.endFuture o.crew tag state status
    | none => s4).sweepTiles o.crew

/-- Rows committed in [31:16], and a code (R263, R275). -/
def loomStatus (o : LoomOp) (code : Nat) : Nat := if o.kind = .mbeam then code else o.row % 2 ^ 16 * 2 ^ 16 + code

/-- The elements of a beam, once every one can be read (R253); or the code with which it fails, or none while it waits. -/
def State.fillBeam (s : State) (o : LoomOp) : State × Option (Sum Nat (List (List Nat))) :=
  if o.mem then
    let es := beamElems o.base.toNat o.lay.toNat o.kb o.nb o.table
    (s, (linesCode o es.flatten).map fun code => if code ≠ 0 then .inl code else .inr (es.map fun row => row.map (elemVal o.data)))
  else
    let code := s.tileCode o.crew o.tileSlot (tileWhole o.tileDesc)
    let s1 := s.readTile o.crew o.tileSlot (tileWhole o.tileDesc)
    let w1 := s1.crew o.crew
    (s1, some (if code ≠ 0 then .inl code else .inr ((List.range o.kb).map fun k => (List.range o.nb).map fun n =>
      let p := permPos o.table.len o.table.p k
      if layTrans o.lay.toNat then s1.tileElem w1 o.tileSlot o.tileDesc n p else s1.tileElem w1 o.tileSlot o.tileDesc p n)))

/-- LOOM_OP_COMPLETE: the operation of a set's turn ends DONE, FAILED or CANCELLED (R254, R263). -/
def execLoomOpComplete (core set : Nat) (s : State) : Out :=
  match s.loomAt core set with
  | none => .refused (.notEnabled "LOOM_OP_COMPLETE")
  | some (i, o) =>
    if o.cancelled then .next (s.endLoom core i o 4 (loomStatus o 0) none)
    else if o.failed ≠ 0 then .next (s.endLoom core i o 3 (loomStatus o o.failed) none)
    else if !o.started then .refused (.notEnabled "LOOM_OP_COMPLETE")
    else if o.kind = .mbeam then
      (match s.fillBeam o with
        | (_, none) => .refused (.notEnabled "LOOM_OP_COMPLETE")
        | (s1, some (.inl code)) => .next (s1.endLoom core i { o with failed := code } 3 code none)
        | (s1, some (.inr es)) => .next (s1.endLoom core i o 2 0 (some { beamOf o with elems := es })))
    else if o.row < loopRows o.loopw.toNat then .refused (.notEnabled "LOOM_OP_COMPLETE")
    else .next (s.endLoom core i o 2 0 none)

/-! ## LOOM_ROW_COMMIT (R257) -/

/-- The A elements of a row, once every one can be read; or the code with which the operation fails and whether it poisons the tile that
it writes (R233), or none while the row waits. -/
def State.fillRow (s : State) (o : LoomOp) : State × Option (Sum (Nat × Bool) (List Nat)) :=
  if o.mem then
    let es := rowElems o o.row
    (s, (linesCode o es).map fun code => if code ≠ 0 then .inl (code, false) else .inr (es.map (elemVal o.data)))
  else
    let code := s.tileCode o.crew o.tileSlot (rowParts o)
    let s1 := s.readTile o.crew o.tileSlot (rowParts o)
    let w1 := s1.crew o.crew
    let lw := o.loopw.toNat
    let kt := o.kb / loopSteps lw
    (s1, some (if code ≠ 0 then .inl (code, true) else .inr ((List.range o.kb).map fun k =>
      let p := permPos o.table.len o.table.p k
      s1.tileElem w1 o.tileSlot o.tileDesc (o.row * loopRinc lw) (p / kt * (loopKinc lw).toNat + p % kt))))

/-- A B element as the terms take it: a codebook entry for CB4 (R68, R257). -/
def beamVal (b : Beam) (k n : Nat) : Nat :=
  let v := (b.elems.getD k []).getD n 0
  if b.fmt = .cb4 then cbValue b.cb v else v

/-- One accumulator element through every step of its row, and whether a clamp acted. -/
def rowElem (contract : Nat) (o : LoomOp) (b : Beam) (av : List Nat) (n acc : Nat) : Nat × Bool :=
  let kt := b.kb / loopSteps o.loopw.toNat
  let bf := if b.fmt = .cb4 then Fmt.bf16 else b.fmt
  let cls := classOf contract (classFor b.fmt o.fmt)
  let ab := (List.range b.kb).map fun k => (av.getD k 0, beamVal b k n)
  (chunks kt (loopSteps o.loopw.toNat) ab).foldl (fun (x : Nat × Bool) t =>
    if isInt8 b.fmt then
      let r := intStep cls.g (signedOf 32 x.1) o.fmt bf t
      (patOf 32 r.1, x.2 || r.2)
    else (loomStep cls x.1 o.fmt bf t o.lw.toNat n, x.2)) (acc, false)

/-- A row's results go into the accumulator in one commit. -/
def State.putRow (s : State) (o : LoomOp) (r : Nat) : List (Nat × Nat) → State
  | [] => s
  | (n, v) :: rest => (s.tileSet (s.crew o.crew) o.accSlot o.accDesc r n v).putRow o r rest

/-- An operation fails with a code at its next row. -/
def State.failLoom (s : State) (core i : Nat) (o : LoomOp) (code : Nat) (poisons : Bool) : State :=
  s.putLoomOp core i { o with failed := code, poisons }

/-- LOOM_ROW_COMMIT: the next row of a set's operation; ecc says that a beam cell or a tile gives an uncorrectable error, which is
counted (R450). -/
def execLoomRowCommit (core set : Nat) (ecc : Bool) (s : State) : Out :=
  match s.loomAt core set with
  | none => .refused (.notEnabled "LOOM_ROW_COMMIT")
  | some (i, o) =>
    match (loomSet (s.loom core) o.set).beam with
    | none => .refused (.notEnabled "LOOM_ROW_COMMIT")
    | some b =>
      if o.kind = .mbeam || !o.started || o.cancelled || o.failed ≠ 0 || decide (loopRows o.loopw.toNat ≤ o.row) then
        .refused (.notEnabled "LOOM_ROW_COMMIT")
      else if ecc then .next ((s.countError (dieOfCore core) 2 true).failLoom core i o 1 true)
      else if b.bad then .next (s.failLoom core i o 1 true)
      else
        let r := loopArow0 o.loopw.toNat + o.row
        let acc := s.tileCode o.crew o.accSlot (accParts o r)
        let s0 := s.readTile o.crew o.accSlot (accParts o r)
        if acc ≠ 0 then .next (s0.failLoom core i o acc true)
        else match s0.fillRow o with
          | (_, none) => .refused (.notEnabled "LOOM_ROW_COMMIT")
          | (s1, some (.inl (code, poisons))) => .next (s1.failLoom core i o code poisons)
          | (s1, some (.inr av)) =>
            let w := s1.crew o.crew
            let m := s1.commission w.comm
            let vals := (List.range b.nb).map fun n => (n, rowElem m.contract o b av n (s1.tileElem w o.accSlot o.accDesc r n))
            let s2 := s1.putRow o r (vals.map fun p => (p.1, p.2.1))
            let s3 := s2.setCrew o.crew (stampTile (s2.crew o.crew) o.accSlot m.contract)
            let s4 := if vals.any fun p => p.2.2 then s3.rangeAt o.ctx o.crew else s3
            .next (s4.putLoomOp core i { o with row := o.row + 1 })

/-- Operations of its crew stand before an operation in one of its sets' queues. -/
def opBefore (lm : Loom) (i : Nat) (o : LoomOp) : Bool :=
  (opSets o).any fun t => ((queueOps lm t).takeWhile fun p => p.1 ≠ i).any fun p => decide (p.2.crew = o.crew)

/-- A cancelled operation that keeps its place in the queues until its turn, when its sets are settled; its future has ended, and it asks
for no leave. -/
def State.markCancelled (s : State) (core i : Nat) (o : LoomOp) : State :=
  let s1 := (s.putLoomOp core i { o with cancelled := true, fut := none }).dropLeave (dieOfCore core) (.loom core i)
  match o.fut with
  | some tag => s1.endFuture o.crew tag 4 (loomStatus o 0)
  | none => s1

/-- FCAN, or a region discard, cancels an operation: at once if it has not started, else at its next row boundary (R263,
R275). One that changes its sets, an MBEAM or a .drop, does so in queue order: earlier operations use the beam that stands (R248). -/
def State.cancelLoom (s : State) (core i : Nat) : State :=
  match loomOp (s.loom core) i with
  | none => s
  | some o =>
    if o.started then s.putLoomOp core i { o with cancelled := true }
    else if o.cancelled then s
    else if (o.kind = .mbeam || o.drop) && opBefore (s.loom core) i o then s.markCancelled core i o
    else s.endLoom core i { o with cancelled := true } 4 (loomStatus o 0) none

end Sys2Proof.Machine
end

