-- ==== Sys2Proof/Machine/Copies.lean ====
section
/-! DEFINITION. Copies: descriptors, the checks at issue, slices, and the Carter's steps (10 R276 to R285). -/

namespace Sys2Proof.Machine

/-! ## Descriptors (R277) -/

def copyReg (y : Copy) (i : Nat) : Nat := (y.desc.getD i 0).toNat
def copyDst (y : Copy) : Nat := copyReg y 0
def copySrc (y : Copy) : Nat := copyReg y 1
def copyCtl (y : Copy) : Nat := copyReg y 2
def copyDpitch (y : Copy) : Nat := bitsOf (copyReg y 3) 63 32
def copySpitch (y : Copy) : Nat := bitsOf (copyReg y 3) 31 0
def copyRec (y : Copy) : Nat := copyReg y 4
def copyIdx (y : Copy) : Nat := copyReg y 5

def ctlChan (c : Nat) : Nat := bitsOf c 63 61
def ctlFprint (c : Nat) : Bool := bitOf c 55
def ctlDecomp (c : Nat) : Bool := bitOf c 54
def ctlSpan (c : Nat) : Nat := bitsOf c 53 51
def ctlFmt (c : Nat) : Option Fmt := fmtOf (bitsOf c 50 47)
def ctlAop (c : Nat) : Nat := bitsOf c 46 43
def ctlRows (c : Nat) : Nat := bitsOf c 39 24 + 1
def ctlRowBytes (c : Nat) : Nat := bitsOf c 23 0
/-- Bytes of the whole copy. -/
def copyTotal (y : Copy) : Nat := ctlRows (copyCtl y) * ctlRowBytes (copyCtl y)

def sliceRow0 (w : Nat) : Nat := bitsOf w 47 32
def sliceRows (w : Nat) : Nat := bitsOf w 31 16 + 1

/-- FMT codes that R215 gives an AOP. -/
def aopFmtOk (aop : Nat) (f : Fmt) : Bool :=
  if aop ≤ 7 then f = .s32 || f = .n32
  else if aop = 9 then f = .bf16
  else if aop = 10 then f = .f16
  else if aop = 13 then f = .n32
  else (aop = 8 || aop = 11 || aop = 12) && f = .f32

/-- A malformed control or slice word (R279). -/
def copyBad (kind : CopyKind) (dst ctl dpitch sl : Nat) : Bool :=
  let f := ctlFmt ctl; let rb := ctlRowBytes ctl; let span := ctlSpan ctl
  bitsOf ctl 60 56 ≠ 0 || bitsOf ctl 42 40 ≠ 0 || bitsOf sl 63 48 ≠ 0 || bitsOf sl 15 0 ≠ 0 || rb = 0 || f.isNone
    || (ctlFprint ctl && (kind = .cpyz || kind = .mupd || f = some .cb4 || rb % max 1 (elemBytes (f.getD .f32)) ≠ 0))
    || (ctlDecomp ctl && kind ≠ .cpy)
    || (kind ≠ .mupd && ctlAop ctl ≠ 0)
    || (kind = .mupd && !aopFmtOk (ctlAop ctl) (f.getD .f32))
    || ((kind = .cpyz || kind = .mupd) && rb % 4 ≠ 0)
    || (span ≠ 0 && (dst % (16 * 2 ^ span) ≠ 0 || dpitch % (16 * 2 ^ span) ≠ 0))

/-! ## Rows and places (R251, R281) -/

/-- Up to sixteen destination bytes that adjoin: their address, number, row and offset in the row. -/
structure Chunk where
  va : Nat
  len : Nat
  r : Nat
  o : Nat
  deriving DecidableEq, Repr

def rowChunks (y : Copy) (r : Nat) : List Chunk :=
  let c := copyCtl y
  (List.range ((ctlRowBytes c + 15) / 16)).map fun q =>
    { va := elemAddr (copyDst y) (ctlSpan c) (copyDpitch y) r (128 * q : Nat), len := min 16 (ctlRowBytes c - 16 * q),
      r, o := 16 * q }
def sliceChunks (y : Copy) (row0 rows : Nat) : List Chunk := (List.range rows).flatMap fun i => rowChunks y (row0 + i)

/-- The storage address of a virtual address of a copy. -/
def copyAddr (w : Crew) (ps : List (Nat × Leaf)) (va : Nat) : Option Nat :=
  if Config.windowBase ≤ va then
    (if spadIn w (va - Config.windowBase) 1 then some (spadAddr w (va - Config.windowBase)) else none)
  else (ps.find? fun q => q.1 = va / 4096).map fun q => q.2.phys va

/-- The storage lines of chunks. -/
def chunkLines (w : Crew) (ps : List (Nat × Leaf)) (cs : List Chunk) : List Nat :=
  distinct (cs.flatMap fun c => ([c.va, c.va + c.len - 1].filterMap (copyAddr w ps)).map lineOf)

/-- The destination bytes of chunks in one storage line: address, row, offset. -/
def lineBytesOf (w : Crew) (ps : List (Nat × Leaf)) (cs : List Chunk) (line : Nat) : List (Nat × Nat × Nat) :=
  cs.flatMap fun c => (List.range c.len).filterMap fun i =>
    match copyAddr w ps (c.va + i) with
    | some a => if lineOf a = line then some (a, c.r, c.o + i) else none
    | none => none

/-! ## Issue (R278 to R280) -/

/-- R131 checks 1 to 5 on ranges of bytes; a page already translated is checked with its translation. -/
def State.rangesCheck (s : State) (rs : List (Nat × Nat)) (kind : Nat) (u : PageUse) (ps : List (Nat × Leaf))
    (k : State → List (Nat × Leaf) → Out) : Out :=
  let bs := rs.flatMap fun r => [r.1, r.1 + r.2 - 1]
  if bs.any fun a => decide (2 ^ 57 ≤ a) then s.trapS .access 0
  else if bs.any fun a => Config.windowBase ≤ a && !spadIn s.myCrew (a - Config.windowBase) 1 then s.trapS .access 0
  else
    let pages := distinct ((rs.filter fun r => decide (r.1 < Config.windowBase)).flatMap fun r => pagesOf r.1 r.2)
    match reachPages s.cur kind s.myComm.tenant u false pages s ps with
    | .inl (s1, qs) => k s1 qs
    | .inr (.trap s1 c) => s1.trapS c 0
    | .inr (.wait s1) => .next s1
    | .inr (.ok s1 _ _) => .next s1

/-- The open copy of a crew's channel (R278). -/
def State.openCopy (s : State) (crew chan : Nat) : Option Copy :=
  s.copies.find? fun y => decide (y.crew = crew) && !y.started && !y.cancelled && decide (ctlChan (copyCtl y) = chan)

def overlaps (a0 an b0 bn : Nat) : Bool := decide (a0 < b0 + bn) && decide (b0 < a0 + an)

def putCopy (s : State) (y : Copy) : State := { s with copies := s.copies.map fun z => if z.id = y.id then y else z }

/-- A line comes into the ownership of a copy: buffers drain to it, or the scratchpad line is marked empty with the span tag
of the slice that issued last (R280, R310, R317). -/
def State.ownLine (s : State) (span line : Nat) : State :=
  match regionOf (128 * line) with
  | .hbm => s.sgbDrainAll line
  | .spad => s.setLine line { empty := true, tag := BitVec.ofNat 3 span }
  | _ => s

/-- The waiter's number of a copy in a walk request: above every context. -/
def copyWaiter (id : Nat) : Nat := Config.contexts + id

/-- A page of a copy that no translation of its own covers: from the die's TLB, or by a walk that it waits for
(R326). asked says that the walk is new. -/
def State.engineXlate (s : State) (y : Copy) (kind page : Nat) : State × Xlate × Bool :=
  let die := dieOfCore y.core
  match s.tlbAt (.die die) y.tctx (4096 * page) with
  | some l => (s, .ok l, false)
  | none =>
    let mine (r : WalkReq) : Bool := walkIs die y.tctx page r
    let me := copyWaiter y.id
    let done (r : WalkReq) : Bool := mine r && walkOver r
    let runs (r : WalkReq) : Bool := mine r && !walkOver r
    if s.ms.walks.any fun r => done r && r.waiters.contains me then
      let ws := (s.ms.walks.map fun r => if done r then leaveWalk me r else r).filter walkAlive
      let hurt := s.ms.walks.any fun r => done r && r.waiters.contains me && decide (r.status = .error)
      ({ s with ms := { s.ms with walks := ws } }, if hurt then .error else .denied, false)
    else if s.ms.walks.any fun r => runs r && r.waiters.contains me then (s, .wait, false)
    else if s.ms.walks.any runs then
      let ws := s.ms.walks.map fun r => if runs r then { r with waiters := r.waiters ++ [me] } else r
      ({ s with ms := { s.ms with walks := ws } }, .wait, true)
    else
      ({ s with ms := { s.ms with walks := s.ms.walks ++
        [{ die, tctx := y.tctx, page, kind, tenant := y.tenant, status := .due, waiters := [me] }] } }, .wait, true)

/-- The ranges of a slice's source bytes that are checked at issue (R279). -/
def sourceRanges (y : Copy) (row0 rows : Nat) : List (Nat × Nat) :=
  let rs := (List.range rows).map (row0 + ·)
  match y.kind with
  | .cpyz => []
  | .cpyg => rs.map fun r => (copyIdx y + 4 * r, 4)
  | _ => if ctlDecomp (copyCtl y) then [] else rs.map fun r => (copySrc y + r * copySpitch y, ctlRowBytes (copyCtl y))

/-- The bytes of a range lie in a page. -/
def inPage (p va len : Nat) : Bool := decide (va / 4096 ≤ p) && decide (p ≤ (va + len - 1) / 4096)

/-- Whether a copy's rows use a page, to write it or to read it. -/
def rowUse (y : Copy) (p : Nat) : Option PageUse :=
  if y.slices.any fun z => (sliceChunks y z.row0 z.rows).any fun c => inPage p c.va c.len then some .write
  else if y.slices.any fun z => (sourceRanges y z.row0 z.rows).any fun r => inPage p r.1 r.2 then some .read
  else none

/-- The pages of a copy as they are translated again: those that stand, those that failed with their codes, the code of the first
failure, whether one waits, and whether a walk has been asked for. -/
structure Again where
  s : State
  pages : List (Nat × Leaf)
  bad : List (Nat × Nat)
  code : Nat
  waits : Bool
  asked : Bool
  deriving DecidableEq, Repr

/-- A page that fails with a code; one that may not be written may still be read. -/
def Again.fail (r : Again) (p code : Nat) (u : PageUse) : Again :=
  { r with code := if r.code = 0 then code else r.code, bad := if code ≠ 3 || u = .read then r.bad ++ [(p, code)] else r.bad }

/-- A page with its new translation. -/
def againLeaf (y : Copy) (p : Nat) (u : PageUse) (l : Leaf) (r : Again) : Again :=
  if pageOk l u y.tenant (4096 * p) && !(y.kind = .mupd && u = .write && !l.mart) then { r with pages := r.pages ++ [(p, l)] }
  else r.fail p 3 u

/-- The pages of a copy's rows are translated again (R327); another page, the record's, keeps its translation (R284). -/
def againPages (y : Copy) : List (Nat × Leaf) → Again → Again
  | [], r => r
  | (p, l0) :: rest, r =>
    match rowUse y p with
    | none => againPages y rest { r with pages := r.pages ++ [(p, l0)] }
    | some u =>
      if y.badPages.any fun q => q.1 = p then againPages y rest r
      else match r.s.engineXlate y (if u = .write then 5 else 4) p with
        | (s1, .ok l, _) => againPages y rest (againLeaf y p u l { r with s := s1 })
        | (s1, .denied, _) => againPages y rest (({ r with s := s1 } : Again).fail p 2 u)
        | (s1, .error, _) => againPages y rest (({ r with s := s1 } : Again).fail p 1 u)
        | (s1, .wait, a) => againPages y rest { r with s := s1, waits := true, asked := r.asked || a }

/-- The lines of a slice that are still to be written, under new translations; w0 is the crew where the old lines stand. -/
def sliceBack (w0 w1 : Crew) (y : Copy) (ps : List (Nat × Leaf)) (z : Slice) : List Nat :=
  let vas := (sliceChunks y z.row0 z.rows).flatMap fun c => [c.va, c.va + c.len - 1]
  let left := vas.filter fun a => match copyAddr w0 y.pages a with
    | some p => z.lines.contains (lineOf p)
    | none => false
  distinct ((left.filterMap (copyAddr w1 ps)).map lineOf)

/-- A started copy asks for leave if it is heavy (R375, R376). -/
def State.copyLeave (s : State) (y : Copy) : State :=
  let w := s.crew y.crew
  if !y.started || y.cancelled || decide (copyTotal y < 262144) then putCopy s y
  else if standingCovers w 20 then
    putCopy (s.setStanding y.crew w.standing (w.standHeld + 20)) { y with leave := 20, standing := true }
  else (putCopy s { y with waiting := true }).askLeave (crewDie w) (.copy y.id) 20

/-- A copy's rows are translated again: it waits for the walks that this needs, and then goes on (R327, R389). The second part says
that something was done. -/
def State.retranslate (s : State) (y : Copy) : State × Bool :=
  let w := s.crew y.crew
  let r := againPages y y.pages { s, pages := [], bad := [], code := 0, waits := false, asked := false }
  let y1 := { y with badPages := y.badPages ++ r.bad, code := if y.code = 0 then r.code else y.code }
  if r.waits then (putCopy r.s { y1 with again := true }, r.asked || r.bad ≠ [])
  else
    let zs : List Slice := if r.pages = y.pages then y.slices
      else y.slices.map fun z => { z with lines := sliceBack w w y r.pages z }
    let own (s : State) (l : Nat) : State := if regionOf (128 * l) = .hbm then s.sgbDrainAll l else s
    (((zs.flatMap (·.lines)).foldl own r.s).copyLeave { y1 with again := false, pages := r.pages, slices := zs }, true)

/-- A copy starts: its rows are translated again (R278, R327). -/
def State.startCopy (s : State) (y : Copy) : State := (s.retranslate { y with started := true }).1

/-- The pages of a copy as a slice finds them, before those of its earlier slices that the slice does not reach. -/
def mergePages (new old : List (Nat × Leaf)) : List (Nat × Leaf) := new ++ old.filter fun p => !(new.any fun q => q.1 = p.1)

/-- A slice that has passed its checks joins its copy. Where a page that an earlier slice reaches has been mapped anew, the lines which that
slice owns follow it. -/
def State.addSlice (s : State) (y : Copy) (fresh : Bool) (i : Nat) (d : FReg) (kind : Nat) (sl : Nat) (ps : List (Nat × Leaf)) :
    State :=
  let (s1, tag) := s.newFuture i d kind
  let all := mergePages ps y.pages
  let moved := y.pages.any fun p => !all.contains p
  let old (z : Slice) : Slice := if moved then { z with lines := sliceBack (s1.crew y.crew) (s1.crew y.crew) y all z } else z
  let lines := chunkLines (s1.crew y.crew) ps (sliceChunks y (sliceRow0 sl) (sliceRows sl))
  let z : Slice := { ctx := s.cur, fut := tag, row0 := sliceRow0 sl, rows := sliceRows sl, lines, seq := s1.nextPlace }
  let y1 := { y with slices := y.slices.map old ++ [z], pages := all,
                     recLeaf := if y.recLeaf.isSome then y.recLeaf else (ps.find? fun q => q.1 = copyRec y / 4096).map (·.2) }
  let s2 := lines.foldl (fun s l => s.ownLine (ctlSpan (copyCtl y)) l) { s1 with nextPlace := s1.nextPlace + 1 }
  let s3 := if fresh then { s2 with copies := s2.copies ++ [y1], nextCopy := y.id + 1 } else putCopy s2 y1
  if (y1.slices.map (·.rows)).sum = ctlRows (copyCtl y) then s3.startCopy y1 else s3

def kindNum : CopyKind → Nat
  | .cpy => 3
  | .cpyg => 4
  | .cpyz => 5
  | .mupd => 6

/-- A copy of which no slice has come. -/
def State.freshCopy (s : State) (crew core id : Nat) (kind : CopyKind) (desc : List W64) : Copy :=
  let m := s.commission (s.crew crew).comm
  { id, crew, core, tctx := m.key.ctx, tenant := m.tenant, contract := m.contract, kind, desc, slices := [], pages := [], started := false,
    again := false, recLeaf := none, cancelled := false, leave := 0, standing := false, waiting := false, expanded := [], pos := 0,
    ended := false, produced := 0, flags := 0, code := 0, badPages := [], written := [], lastTime := 0 }

/-- A copy-family word (R276 to R280). Each slice is translated for itself: an open copy holds no translation (R327). -/
def State.copyWord (s : State) (kind : CopyKind) (d : FReg) (a b : KReg) : Out :=
  s.outside fun s =>
    let reg (i : Nat) : W64 := kGet s.me (a.toNat + i)
    let ctl := (reg 2).toNat
    let sl := (s.kv b).toNat
    let desc := [reg 0, reg 1, reg 2, reg 3, reg 4, if kind = .cpyg then reg 5 else 0]
    let old := s.openCopy s.me.crew (ctlChan ctl)
    let y := old.getD (s.freshCopy s.me.crew (coreOf s.cur) s.nextCopy kind desc)
    let rows := sliceRows sl
    if kind = .cpy && ctlDecomp ctl && !s.part.decomp then s.trapS .illegal 0x10
    else if copyBad kind (reg 0).toNat ctl (bitsOf (reg 3).toNat 63 32) sl then s.trapS .illegal 0x17
    else if y.kind ≠ kind || y.desc ≠ desc then s.trapS .illegal 0x11
    else if decide (ctlRows ctl < sliceRow0 sl + rows)
        || y.slices.any (fun z => overlaps (sliceRow0 sl) rows z.row0 z.rows) then s.trapS .illegal 0x12
    else
      let cs := sliceChunks y (sliceRow0 sl) rows
      s.rangesCheck (cs.map fun c => (c.va, c.len)) 5 .write [] fun s ps =>
        if kind = .mupd && cs.any (fun c => [c.va, c.va + c.len - 1].any fun v =>
            ((copyAddr s.myCrew ps v).map regionOf) ≠ some .mart) then s.trapS .access 0
        else if (ctlDecomp ctl || kind = .cpyg) && decide (2 ^ 57 ≤ copySrc y) then s.trapS .access 0
        else
          s.rangesCheck (sourceRanges y (sliceRow0 sl) rows) 4 .read ps fun s ps =>
            if 2 ^ 57 ≤ copyRec y then s.trapS .access 0
            else if copyRec y ≠ 0 && copyRec y % 64 ≠ 0 then s.trapS .align 0
            else
              s.rangesCheck (if copyRec y = 0 then [] else [(copyRec y, 64)]) 5 .write ps fun s ps =>
                match freeIndex s.myCrew with
                | none => s.stall
                | some i => .next (((s.addSlice y old.isNone i d (kindNum kind) sl ps).commitMe).past 4)

def execCpy (d : FReg) (a b : KReg) (s : State) : Out := s.copyWord .cpy d a b
def execCpyg (d : FReg) (a b : KReg) (s : State) : Out := s.copyWord .cpyg d a b
def execCpyz (d : FReg) (a b : KReg) (s : State) : Out := s.copyWord .cpyz d a b
def execMupd (d : FReg) (a b : KReg) (s : State) : Out := s.copyWord .mupd d a b

/-! ## Source reads (R281, R283) -/

/-- What a copy's read gives: it waits (asked: a walk has been asked for), or the bytes, zero where they could not be read, and
which of them were read. -/
inductive SrcRead
  | wait (s : State) (asked : Bool)
  | got (s : State) (y : Copy) (bs : List Byte) (good : List Bool)
  deriving DecidableEq, Repr

/-- The pages that a read needs: their leaves, the pages that failed with their codes, whether one waits, one was asked. -/
def State.srcPages (s : State) (y : Copy) : List Nat → List (Nat × Leaf) → List (Nat × Nat) → Bool → Bool →
    State × List (Nat × Leaf) × List (Nat × Nat) × Bool × Bool
  | [], ls, bad, w, asked => (s, ls, bad, w, asked)
  | p :: rest, ls, bad, w, asked =>
    match s.engineXlate y 4 p with
    | (s1, .ok l, _) =>
      if pageOk l .read y.tenant (4096 * p) then s1.srcPages y rest (ls ++ [(p, l)]) bad w asked
      else s1.srcPages y rest ls (bad ++ [(p, 3)]) w asked
    | (s1, .denied, _) => s1.srcPages y rest ls (bad ++ [(p, 2)]) w asked
    | (s1, .error, _) => s1.srcPages y rest ls (bad ++ [(p, 1)]) w asked
    | (s1, .wait, a) => s1.srcPages y rest ls bad true (asked || a)

/-- The code of a byte that cannot be read, or its storage address. -/
def srcPlace (w : Crew) (ls : List (Nat × Leaf)) (bad : List (Nat × Nat)) (va : Nat) : Sum Nat Nat :=
  if 2 ^ 57 ≤ va then .inl 3
  else match copyAddr w ls va with
    | some a => .inr a
    | none => match bad.find? fun p => p.1 = va / 4096 with
      | some p => .inl p.2
      | none => .inl 3

/-- Another copy's slice before a place has bytes to write in a line (R281). -/
def State.otherBefore (s : State) (id line place : Nat) : Bool :=
  s.copies.any fun y => decide (y.id ≠ id) && y.slices.any fun z => decide (z.seq < place) && z.lines.contains line

/-- A copy reads source bytes, as .fresh loads placed at a slice (R281): what its skein has stored to them since was kept aside.
Where bytes fail differently, the code is that of the first one met: the spec gives no order (log 33). -/
def State.readSrc (s : State) (y : Copy) (place : Nat) (vas : List Nat) : SrcRead :=
  let w := s.crew y.crew
  let pages := distinct ((vas.filter fun v => decide (v < Config.windowBase)).map (· / 4096))
  let need := pages.filter fun p => !(y.pages.any fun q => q.1 = p) && !(y.badPages.any fun q => q.1 = p)
  match s.srcPages y need y.pages y.badPages false false with
  | (s1, _, _, true, asked) => .wait s1 asked
  | (s1, ls, bad, false, _) =>
    let places := vas.map (srcPlace w ls bad)
    let addrs := places.filterMap fun p => match p with
      | .inr a => some a
      | .inl _ => none
    let lines := distinct (addrs.map lineOf)
    if lines.any fun l => s1.otherBefore y.id l place then .wait s1 false
    else
      let s2 := (lines.filter fun l => regionOf (128 * l) = .hbm).foldl
        (fun s l => (s.sgbDrain y.core l).sliceRead y.core (128 * l)) s1
      let read (p : Sum Nat Nat) : Byte × Nat := match p with
        | .inl c => (0, c)
        | .inr a => match smFind s2.ms.kept (keptKey place a) with
          | some b => (b, 0)
          | none => if s2.poisoned a 1 then (0, 1) else (memByte s2.mem a, 0)
      let rs := places.map read
      let code := match (rs.filter fun r => r.2 ≠ 0).head? with
        | some r => r.2
        | none => 0
      .got s2 { y with code := if y.code = 0 then code else y.code, badPages := bad } (rs.map (·.1)) (rs.map fun r => r.2 = 0)

/-- The bytes at an address that lie in the copy's own destination: no defined mix (R281). -/
def ownDest (y : Copy) (va : Nat) : Bool :=
  let span := 16 * 2 ^ ctlSpan (copyCtl y)
  (List.range (ctlRows (copyCtl y))).any fun r =>
    let base := copyDst y + r * copyDpitch y
    decide (base ≤ va) &&
      (let p := va - base
       let o := p / span * span + Nat.xor (p % span / 16) (r % (2 ^ ctlSpan (copyCtl y))) * 16 + p % 16
       decide (o < ctlRowBytes (copyCtl y)))

/-- Source bytes with those of the copy's own destination left open. -/
def mixBytes (y : Copy) (draw : Nat) (vas : List Nat) (bs : List Byte) : List Byte :=
  (vas.zip bs).zipIdx.map fun p => if ownDest y p.1.1 then Config.overlapByte draw p.2 else p.1.2

/-! ## Compressed streams (R282) -/

/-- Flags of STATUS: SHORT 1, LONG 2, MALFORMED 4 (R283). -/
def orFlag (y : Copy) (f : Nat) : Copy := { y with flags := Nat.lor y.flags f }

/-- The stream has ended: a total below the copy's size is short, and one above it is cut. -/
def endStream (y : Copy) : Copy :=
  let n := y.expanded.length; let total := copyTotal y
  let y1 := if n < total then orFlag y 1 else if total < n then orFlag y 2 else y
  { y1 with ended := true, expanded := y.expanded.take total }

/-- A block taken in: its header, and its payload. -/
def takeBlock (y : Copy) (hd : Nat) (payload : List Byte) : Copy :=
  let elen := bitsOf hd 55 32; let clen := bitsOf hd 31 8
  let bad := bitsOf hd 63 56 ≠ 0 || bitsOf hd 7 4 ≠ 0
  let y1 := match (if bad then none else expandBlock (bitsOf hd 3 0) payload) with
    | none => { orFlag y 4 with expanded := y.expanded ++ List.replicate elen 0 }
    | some out =>
      let y2 := if out.length < elen then orFlag y 1 else if elen < out.length then orFlag y 2 else y
      { y2 with expanded := y.expanded ++ padTo elen out, produced := y.produced + out.length }
  let at_ := copySrc y + y.pos + 8 + clen
  let y3 := { y1 with pos := (at_ + 7) / 8 * 8 - copySrc y }
  if copyTotal y ≤ y3.expanded.length then endStream y3 else y3

/-- One block of a stream is read. A header that cannot be read ends the stream. The first header stands at SRC, whatever its alignment, and
an END header ends the stream whatever its reserved fields hold: the spec says nothing of either (log 68). -/
def State.nextBlock (s : State) (y : Copy) (place : Nat) : SrcRead :=
  let va := copySrc y + y.pos
  match s.readSrc { y with code := 0 } place ((List.range 8).map (va + ·)) with
  | .wait s1 a => .wait s1 a
  | .got s1 y1 bs _ =>
    let keep (z : Copy) : Copy := if y.code = 0 then z else { z with code := y.code }
    if y1.code ≠ 0 then .got s1 (endStream (keep y1)) [] []
    else
      let hd := leNat bs
      if bitsOf hd 3 0 = 15 then .got s1 (endStream (keep y1)) [] []
      else match s1.readSrc y1 place ((List.range (bitsOf hd 31 8)).map (va + 8 + ·)) with
        | .wait s2 a => .wait s2 a
        | .got s2 y2 payload _ => .got s2 (takeBlock (keep y2) hd payload) [] []

/-! ## COPY_LINE_WRITE (R280, R281) -/

/-- The source lines that a slice has still to read, where they are known: rows of CPY and MUPD without DECOMP, index entries
of CPYG. -/
def sliceSources (w : Crew) (y : Copy) (z : Slice) : List Nat :=
  if z.lines = [] then []
  else distinct ((sourceRanges y z.row0 z.rows).flatMap fun r =>
    (List.range (r.2 / 16 + 2)).filterMap fun i => (copyAddr w y.pages (min (r.1 + 16 * i) (r.1 + r.2 - 1))).map lineOf)

/-- Some operation before a place has still to read a line (R280): a copy, of the source lines that are known when its slice issues, or a
Loom operation. -/
def State.readersBefore (s : State) (id line place : Nat) : Bool :=
  (s.copies.any fun y => decide (y.id ≠ id) && !y.cancelled && y.slices.any fun z =>
    decide (z.seq < place) && (sliceSources (s.crew y.crew) y z).contains line)
  || s.looms.any fun p => p.2.ops.any fun q =>
    decide (q.2.place < place) && q.2.left.any fun v => lineOf (leafAddr (s.crew q.2.crew) q.2.pages (128 * v)) = line

/-- The places of slices before a place whose sources are not known as they issue, gathered rows and compressed streams: what a later
slice overwrites is kept for them (R280, R281; log 16). -/
def State.blindPlaces (s : State) (id place : Nat) : List Nat :=
  (s.copies.filter fun y => decide (y.id ≠ id) && !y.cancelled && (decide (y.kind = .cpyg) || ctlDecomp (copyCtl y))).flatMap
    fun y => (y.slices.filter fun z => decide (z.seq < place) && !z.lines.isEmpty).map (·.seq)

/-- Bytes at the places that are marked, zero at the others. -/
def spread : List Bool → List Byte → List Byte
  | [], _ => []
  | true :: ks, b :: bs => b :: spread ks bs
  | _ :: ks, bs => 0 :: spread ks bs

/-- The new bytes of a line of a slice, in the order of its byte list. -/
def State.lineData (s : State) (y : Copy) (z : Slice) (bytes : List (Nat × Nat × Nat)) : SrcRead :=
  let rb := ctlRowBytes (copyCtl y)
  if y.cancelled then .got s y (bytes.map fun _ => 0) []
  else match y.kind with
    | .cpyz => .got s y (bytes.map fun b => (y.desc.getD 1 0).toNat / 2 ^ (8 * (b.2.2 % 4)) |> BitVec.ofNat 8) []
    | .cpyg =>
      let rows := distinct (bytes.map fun b => b.2.1)
      (match s.readSrc y z.seq (rows.flatMap fun r => (List.range 4).map fun i => copyIdx y + 4 * r + i) with
        | .wait s1 a => .wait s1 a
        | .got s1 y1 ib good =>
          let idx (r : Nat) : Nat := leNat ((ib.drop (4 * rows.findIdx (· = r))).take 4)
          let vas := bytes.map fun b => (copySrc y + idx b.2.1 * copySpitch y + b.2.2) % 2 ^ 64
          -- a row whose index could not be read has no source bytes
          let known (r : Nat) : Bool := ((good.drop (4 * rows.findIdx (· = r))).take 4).all id
          let ks := bytes.map fun b => known b.2.1
          let from_ := ((vas.zip ks).filter (·.2)).map (·.1)
          match s1.readSrc y1 z.seq from_ with
          | .wait s2 a => .wait s2 a
          | .got s2 y2 bs _ => let r := s2.draw; .got r.2 y2 (spread ks (mixBytes y r.1 from_ bs)) ks)
    | _ =>
      if ctlDecomp (copyCtl y) then .got s y (bytes.map fun b => y.expanded.getD (b.2.1 * rb + b.2.2) 0) []
      else
        let vas := bytes.map fun b => (copySrc y + b.2.1 * copySpitch y + b.2.2) % 2 ^ 64
        match s.readSrc y z.seq vas with
        | .wait s1 a => .wait s1 a
        | .got s1 y1 bs good => let r := s1.draw; .got r.2 y1 (mixBytes y r.1 vas bs) good

/-- MUPD's elements in ascending order: each is read, changed and written as one step (R281). -/
def State.updateBytes (y : Copy) (draw : Nat) (s : State) : List ((Nat × Nat × Nat) × Byte) → State
  | [] => s
  | (b0, x0) :: (b1, x1) :: (b2, x2) :: (b3, x3) :: rest =>
    let as := [b0.1, b1.1, b2.1, b3.1]
    let old := leNat (as.map (memByte s.mem))
    let f := (ctlFmt (copyCtl y)).getD .n32
    let v := vatmNew (ctlAop (copyCtl y)) f .rne false (flushOf y.contract) (Config.mupdPlace (2 * draw))
      (Config.mupdPlace (2 * draw + 1)) old (leNat [x0, x1, x2, x3]) (Config.mupdOther draw % 2 ^ 32)
    let s1 := s.writeBytes (as.zip (leBytes 4 v))
    State.updateBytes y draw s1 rest
  | _ => s

/-- A line of a slice written: the bytes, the line's ownership, and what the record will need. -/
def State.putLine (s : State) (y : Copy) (z : Slice) (line : Nat) (data : List ((Nat × Nat × Nat) × Byte)) : State :=
  let rb := ctlRowBytes (copyCtl y)
  let blind := s.blindPlaces y.id z.seq
  let s0 := data.foldl (fun s p => s.keepFor blind y.core p.1.1 1) s
  let s1 := if y.kind = .mupd && !y.cancelled then let r := s0.draw; State.updateBytes y r.1 r.2 data
    else s0.writeBytes (data.map fun p => (p.1.1, p.2))
  let y1 := { y with
    slices := y.slices.map fun v => if v.seq = z.seq then { v with lines := v.lines.filter (· ≠ line) } else v,
    lastTime := BitVec.ofNat 64 s.time,
    written := if ctlFprint (copyCtl y) then data.foldl (fun m p => smPut m (p.1.2.1 * rb + p.1.2.2) p.2) y.written else y.written }
  let s2 := putCopy s1 y1
  State.settleReads <|
    if regionOf (128 * line) = .spad && !(s2.copies.any fun v => v.slices.any fun u => u.lines.contains line) then
      s2.setLine line { s2.lineState line with empty := false }
    else s2

/-- What an attempt at one line of a copy gives. -/
inductive LineTry
  | done (s : State)
  | asked (s : State)
  | blocked
  deriving DecidableEq, Repr

/-- The bytes of a line that a compressed stream has not brought yet. -/
def streamShort (y : Copy) (bytes : List (Nat × Nat × Nat)) : Bool :=
  y.kind = .cpy && ctlDecomp (copyCtl y) && !y.cancelled && !y.ended
    && bytes.any fun b => decide (y.expanded.length ≤ b.2.1 * ctlRowBytes (copyCtl y) + b.2.2)

/-- A line is written, or a block of its stream taken in, if what stands before it allows. -/
def State.tryLine (s : State) (y : Copy) (z : Slice) (line : Nat) : LineTry :=
  let w := s.crew y.crew
  if s.lineBefore line z.seq || s.readersBefore y.id line z.seq then .blocked
  else
    let all := lineBytesOf w y.pages (sliceChunks y z.row0 z.rows) line
    -- MUPD takes whole elements where they begin
    let bytes := if y.kind = .mupd && !y.cancelled then
        (all.filter fun b => b.2.2 % 4 = 0).flatMap fun b => (List.range 4).filterMap fun i =>
          (copyAddr w y.pages (elemAddr (copyDst y) (ctlSpan (copyCtl y)) (copyDpitch y) b.2.1 (8 * (b.2.2 + i) : Nat))).map
            fun a => (a, b.2.1, b.2.2 + i)
      else all
    if streamShort y bytes then
      (match s.nextBlock y z.seq with
        | .wait s1 true => .asked s1
        | .wait _ false => .blocked
        | .got s1 y1 _ _ => .done (putCopy s1 y1))
    else match s.lineData y z bytes with
      | .wait s1 true => .asked s1
      | .wait _ false => .blocked
      | .got s1 y1 bs _ => .done (s1.putLine y1 z line (bytes.zip bs))

/-- The first line of a copy that can be written; else the first for which a walk has been asked. -/
def State.tryLines (s : State) (y : Copy) : List (Slice × Nat) → Option State → Option State
  | [], asked => asked
  | (z, l) :: rest, asked =>
    match s.tryLine y z l with
    | .done s1 => some s1
    | .asked s1 => s.tryLines y rest (if asked.isSome then asked else some s1)
    | .blocked => s.tryLines y rest asked

/-- COPY_LINE_WRITE: the Carter writes a line of a started copy, takes in a block of its stream, or translates its rows again. -/
def execCopyLineWrite (id : Nat) (s : State) : Out :=
  match s.copies.find? fun y => y.id = id with
  | none => .refused (.notEnabled "COPY_LINE_WRITE")
  | some y =>
    if y.again then
      let r := s.retranslate y
      if r.2 then .next r.1 else .refused (.notEnabled "COPY_LINE_WRITE")
    else if !(y.started || y.cancelled) || y.waiting then .refused (.notEnabled "COPY_LINE_WRITE")
    else match s.tryLines y (y.slices.flatMap fun z => z.lines.map fun l => (z, l)) none with
      | some s1 => .next s1
      | none => .refused (.notEnabled "COPY_LINE_WRITE")

/-! ## Completion (R283 to R285) -/

/-- STATUS of a copy. -/
def copyStatus (y : Copy) : Nat := y.code * 2 ^ 24 + y.flags * 2 ^ 8

/-- The elements that a fingerprint covers, in row order, through vflush. -/
def printElems (y : Copy) : List Val :=
  let f := (ctlFmt (copyCtl y)).getD .f32
  let n := fmtBits f
  let byte (i : Nat) : Byte := smGet 0 y.written i
  (List.range (copyTotal y * 8 / n)).map fun e =>
    let v := leNat ((List.range ((n + 7) / 8)).map fun i => byte (e * n / 8 + i)) / 2 ^ (e * n % 8) % 2 ^ n
    if isFloat f then decodeFloat (floatOf f) (vflush (flushOf y.contract) f v) else decodeVal f v

/-- A sum of values converted to FP32 (R285). -/
def printSum (vs : List Val) : Nat :=
  let inf (neg : Bool) : Bool := vs.any fun v => v = .inf neg
  if inf true && inf false then 0x7FC00000
  else if inf false then 0x7F800000
  else if inf true then 0xFF800000
  else (roundFrac (floatOf .f32) (vs.foldl (fun t v => t.add v.frac) ⟨0, 1⟩) .rne false).1

/-- MAXMAG (R285). -/
def printMax (vs : List Val) : Nat :=
  if vs.any Val.isInf then 0x7F800000
  else (roundFrac (floatOf .f32)
    (vs.foldl (fun m v => if m.lt v.frac.abs then v.frac.abs else m) ⟨0, 1⟩) .rne false).1

/-- The completion record's 64 bytes (R284). -/
def copyRecord (y : Copy) : List Byte :=
  let es := if ctlFprint (copyCtl y) then printElems y else []
  let vs := es.filter fun v => v ≠ .nan
  let sq := if vs.any Val.isInf then 0x7F800000
    else (roundFrac (floatOf .f32) (vs.foldl (fun t v => t.add (v.frac.mul v.frac)) ⟨0, 1⟩) .rne false).1
  let fp := ctlFprint (copyCtl y)
  padTo 64 (leBytes 8 (copyStatus y) ++ le8 y.lastTime ++ leBytes 4 (es.length - vs.length)
    ++ leBytes 4 (if fp then printMax vs else 0) ++ leBytes 4 (if fp then printSum vs else 0) ++ leBytes 4 (if fp then sq else 0)
    ++ leBytes 8 (if ctlDecomp (copyCtl y) then y.produced else 0))

/-- Every future of a copy ends together. -/
def endSlices (n state status : Nat) (s : State) : List Slice → State
  | [] => s
  | z :: rest => endSlices n state status (s.endFuture n z.fut state status) rest

/-- COPY_END: every destination byte is written; the record, the L1, the leave and the futures are settled (R274, R283). -/
def execCopyEnd (id : Nat) (s : State) : Out :=
  match s.copies.find? fun y => y.id = id with
  | none => .refused (.notEnabled "COPY_END")
  | some y =>
    let w := s.crew y.crew
    let recAt := copyAddr w (y.recLeaf.toList.map fun l => (copyRec y / 4096, l)) (copyRec y)
    let record := copyRec y ≠ 0 && !y.cancelled
    if !(y.started || y.cancelled) || y.again || y.waiting || y.slices.any (fun z => z.lines ≠ [])
        || (record && (match recAt with
          | some a => s.lineBusy (lineOf a)
          | none => false)) then .refused (.notEnabled "COPY_END")
    else
      let s1 := match recAt with
        | some a => if record then s.writeHome a (copyRecord y) else s
        | none => s
      let lines := distinct (y.slices.flatMap fun z => chunkLines w y.pages (sliceChunks y z.row0 z.rows))
      let s2 := lines.foldl (fun s l => s.l1Drop y.core l (l + 1)) s1
      let s3 := if y.leave = 0 then s2 else s2.returnLeave y.crew y.leave y.standing
      let mine (p : Nat × Byte) : Bool := y.slices.any fun z => z.seq = p.1 / 2 ^ 48
      let s4 := { s3 with copies := s3.copies.filter fun v => v.id ≠ id, ms := { s3.ms with kept := s3.ms.kept.filter fun p => !mine p } }
      .next (endSlices y.crew (if y.cancelled then 4 else if y.code = 0 then 2 else 3) (copyStatus y) s4 y.slices)

/-- FCAN of a copy: the whole copy stops; only scratchpad lines are still filled, with zeros (R275). -/
def State.cancelCopy (s : State) (y : Copy) : State :=
  let keep (l : Nat) : Bool := regionOf (128 * l) = .spad
  let y1 := { y with cancelled := true, again := false, waiting := false,
                     slices := y.slices.map fun z => { z with lines := z.lines.filter keep } }
  ((putCopy s y1).dropLeave (crewDie (s.crew y.crew)) (.copy y.id)).settleReads

end Sys2Proof.Machine
end

