-- ==== Sys2Proof/Machine/Skeins.lean ====
section
/-! DEFINITION. Skeins of one crew: barrier phases, crew indices, splitting and fusing (06 R162 to R169; 10 R290). -/

namespace Sys2Proof.Machine

/-! ## Barriers (R289, R290) -/

def barrierOf (w : Crew) (n : Nat) : Barrier := w.bars.getD n Barrier.fresh
def setBarrier (w : Crew) (n : Nat) (b : Barrier) : Crew := { w with bars := listSet w.bars n b }

/-- Skeins that wait at a barrier of their crew are released. -/
def wakeFrom (crew n : Nat) (x : Skein) : Skein :=
  if x.live && decide (x.crew = crew) && decide (x.wait = .barrier n) then { x with wait := .released n } else x

/-- The phase of barrier n completes if its arrivals reach its count: the live skeins for barrier 0 (R290). -/
def State.checkBarrier (s : State) (crew n : Nat) : State :=
  let w := s.crew crew
  let b := barrierOf w n
  let need := if n = 0 then (s.crewCtxs crew).length else b.count
  if b.arrived.isEmpty || decide (b.arrived.length < need) then s
  else
    let s1 := s.setCrew crew (setBarrier w n Barrier.fresh)
    { s1 with ctxs := s1.ctxs.map fun p => (p.1, wakeFrom crew n p.2) }

/-! ## Crew indices and contexts (R13, R163) -/

/-- The indices that a crew's live skeins hold, and those reserved for ended child 0s. -/
def State.indices (s : State) (crew : Nat) : List Nat :=
  ((s.crewCtxs crew).map fun c => (s.ctx c).index) ++ (s.crew crew).reserved
/-- The lowest free indices of a crew. -/
def State.freeIndices (s : State) (crew : Nat) : List Nat := (List.range 128).filter fun i => !(s.indices crew).contains i
/-- The free contexts of a bench. -/
def State.freeCtxs (s : State) (b : Nat) : List Nat :=
  ((List.range Config.ctxPerBench).map (Config.ctxPerBench * b + ·)).filter fun c => !(s.ctx c).live

/-! ## SPLIT (R163, R164) -/

/-- slice(x, j) for children of w lanes (R164). -/
def sliceOf (w j : Nat) (v : W64) : W64 := (v >>> (j * w)) &&& BitVec.ofNat 64 (2 ^ w - 1)
def sliceEntry (w j : Nat) (e : MaskEntry) : MaskEntry := { e with value := sliceOf w j e.value, rest := sliceOf w j e.rest }

/-- Child j of a skein that splits into children of width code wc, as one of family fam with crew index i. R164 has no row for L-PC: every
child takes its parent's, and a fused skein its survivor's (log 23). -/
def childOf (x : Skein) (wc : BitVec 3) (fam j i : Nat) : Skein :=
  let w := lanesOf wc
  { x with
    index := i, width := wc, strand := x.strand + BitVec.ofNat 6 (j * (w / 4)), child := BitVec.ofNat 4 j, fusecode := 0,
    f := if j = 0 then x.f else [], h := if j = 0 then x.h else [], back := if j = 0 then x.back else [],
    m := (List.range 16).foldl (fun m n => smSet 0 m n (sliceOf w j (smGet 0 x.m n))) [],
    base := sliceOf w j x.base, stack := x.stack.map (sliceEntry w j),
    splits := { family := fam, child := j, width := x.width, strand := x.strand, pChild := x.child } :: x.splits,
    region := { x.region with committed := true, shadow := none, futures := if j = 0 then x.region.futures else [] },
    branches := if j = 0 then x.branches else [] }

/-- A child starts at the word after the SPLIT with its number and the success bit. -/
def startChild (d : KReg) (n : CBit) (j : Nat) (x : Skein) : Skein :=
  moveTo (x.pc + 4) (cSet (kSet x d.toNat (BitVec.ofNat 64 j)) n true)

/-- Children placed in their contexts. -/
def placeChildren (s : State) (x : Skein) (wc : BitVec 3) (fam : Nat) (d : KReg) (n : CBit) :
    Nat → List (Nat × Nat) → State
  | _, [] => s
  | j, (c, i) :: rest =>
    placeChildren (s.setCtx c (startChild d n j (childOf x wc fam j i))) x wc fam d n (j + 1) rest

/-- The skein of context c splits into k children; free contexts and indices are given. -/
def State.splitSkein (s : State) (c : Nat) (d : KReg) (n : CBit) (wc : BitVec 3) (k : Nat) (cs is : List Nat) : State :=
  let x := s.ctx c
  let fam := s.nextFamily
  let f : Family := { crew := x.crew, core := coreOf c, bench := benchOf c, n := k, wcode := wc, pWidth := x.width,
                      pStrand := x.strand, pChild := x.child, index := x.index, up := x.splits, ended := [] }
  placeChildren { s with families := smPut s.families fam f, nextFamily := fam + 1 } x wc fam d n 0
    ((c :: cs).zip (x.index :: is))

/-! ## What a skein leaves behind (R144, R164, R230) -/

/-- Tiles owned by a crew index become owned by another; or by none: the Owner field keeps the index, but neither its skein, which has ended,
nor a later one that takes the index owns the tile (R230, R456; log 83). -/
def reown (old : Nat) (new : Option Nat) (t : Slot) : Slot :=
  if t.orphan || decide (t.owner ≠ some old) then t
  else match new with
    | some i => { t with owner := some i }
    | none => { t with orphan := true }

/-- The futures that a context holds are discarded (R144). -/
def dropFutures (c : Nat) (e : FutEntry) : FutEntry := if e.busy && !e.detached && decide (e.ctx = c) then freeEntry e else e

/-- A context waits for no walk any more. -/
def State.leaveWalks (s : State) (c : Nat) : State :=
  { s with ms := { s.ms with walks := (s.ms.walks.map (leaveWalk c)).filter walkAlive } }

/-- A queued tile operation of a context whose skein is gone sets no skein's RANGE (R264). -/
def forgetTile (c : Nat) (o : TileOp) : TileOp :=
  match o.act with
  | .cvt ctl t cbs c0 => if c0 = c then { o with act := .cvt ctl t cbs Config.contexts } else o
  | .zero | .copy => o

/-- A queued Loom operation of a context whose skein is gone sets no skein's RANGE (R257), and no discard of that context reaches it. -/
def forgetLoom (c : Nat) (p : Nat × LoomOp) : Nat × LoomOp := if p.2.ctx = c then (p.1, { p.2 with ctx := Config.contexts }) else p

/-- The record of a set's MBEAM names no skein that is gone (R268). -/
def forgetSet (c : Nat) (t : SetState) : SetState :=
  { t with last := t.last.map fun o => if o.ctx = c then { o with ctx := Config.contexts } else o }

/-- A context returns to its bench: its futures are discarded, its tiles are owned by none (R144, R230). -/
def State.freeCtx (s : State) (c : Nat) : State :=
  let x := s.ctx c
  let w := s.crew x.crew
  let lm := s.loom (coreOf c)
  let w1 := { w with futs := w.futs.map (dropFutures c), slots := w.slots.map (reown x.index none), tileOps := w.tileOps.map (forgetTile c) }
  (((s.leaveWalks c).setCrew x.crew w1).setLoom (coreOf c) { lm with ops := lm.ops.map (forgetLoom c), set0 := forgetSet c lm.set0, set1 := forgetSet c lm.set1 }).setCtx c Skein.empty

/-! ## FUSE (R164, R166, R167) -/

/-- A context has arrived at the FUSE of a family. -/
def atFuse (fam : Nat) (x : Skein) : Bool :=
  x.live && (match x.wait with
    | .fuse _ => true
    | _ => false) && (match x.splits with
    | l :: _ => decide (l.family = fam)
    | [] => false)

/-- The contexts arrived at a family's FUSE, by child number. -/
def State.arrived (s : State) (fam : Nat) : List Nat :=
  let cs := (s.ctxs.filter fun p => atFuse fam p.2).map (·.1)
  (List.range 16).flatMap fun j => cs.filter fun c => (s.ctx c).child.toNat = j

/-- Values of children put together in child order. -/
def joinMasks (w : Nat) (vs : List (Nat × W64)) : W64 := vs.foldl (fun (m : W64) (p : Nat × W64) => m ||| (p.2 <<< (p.1 * w))) (0 : W64)

/-- The mask stack of a fused skein: the siblings' entries put together one by one (R164). -/
def joinStacks (w : Nat) (xs : List Skein) : Nat → List MaskEntry → List MaskEntry
  | _, [] => []
  | i, e :: rest =>
    let get (g : MaskEntry → W64) : W64 := joinMasks w (xs.map fun x => (x.child.toNat, match x.stack[i]? with
      | some q => g q
      | none => 0))
    { e with value := get (·.value), rest := get (·.rest) } :: joinStacks w xs (i + 1) rest

/-- The skein that the siblings xs of a family fuse to; x is the survivor's (R164). -/
def fusedOf (f : Family) (x : Skein) (xs : List Skein) : Skein :=
  let w := lanesOf f.wcode
  let ids := xs.map fun y => y.child.toNat
  { moveTo (x.pc + 4) x with
    index := f.index, width := f.pWidth, strand := f.pStrand, child := f.pChild, splits := f.up, wait := .none,
    fusecode := if ids.length < f.n then 2 else 1, range := xs.any (·.range),
    m := (List.range 16).foldl (fun m n => smSet 0 m n (joinMasks w (xs.map fun y => (y.child.toNat, smGet 0 y.m n)))) [],
    base := joinMasks w (xs.map fun y => (y.child.toNat, y.base)), stack := joinStacks w xs 0 x.stack }

/-- The siblings of a family fuse; the survivor c is the first of those arrived. -/
def State.fuse (s : State) (fam c : Nat) (others : List Nat) : State :=
  let f := smGet Family.empty s.families fam
  let x := s.ctx c
  let y := fusedOf f x ((c :: others).map s.ctx)
  let s1 := others.foldl State.freeCtx s
  let w := s1.crew f.crew
  let s2 := s1.setCrew f.crew { w with slots := w.slots.map (reown x.index (some f.index)),
                                       reserved := w.reserved.filter (· ≠ f.index) }
  ({ s2 with families := smDel s2.families fam }.setCtx c y).checkBarrier f.crew 0

/-- Every arrived sibling traps FUSE_MISMATCH (R167). -/
def State.fuseTrap (s : State) (code : Nat) (cs : List Nat) : State :=
  cs.foldl (fun s c =>
    (s.setCtx c { s.ctx c with fusecode := BitVec.ofNat 3 code, wait := .none }).takeTrap c
      (scalarTrap .fuseMismatch code)) s

/-- When every sibling has arrived or ended, the FUSE completes or traps (R166, R167). It does not complete while a stop or a trap stands at
one that has arrived (R169). -/
def State.checkFuse (s : State) (fam : Nat) : State :=
  let f := smGet Family.empty s.families fam
  match s.arrived fam with
  | [] => s
  | c :: rest =>
    if (c :: rest).any fun d => (s.ctx d).stopped || (s.ctx d).handler || (s.ctx d).pend.isSome then s
    else if rest.length + 1 + f.ended.length < f.n then s
    else if rest.any fun d => depthOf (s.ctx d) ≠ depthOf (s.ctx c) then s.fuseTrap 3 (c :: rest)
    else if rest.any fun d => waitTag (s.ctx d).wait ≠ waitTag (s.ctx c).wait then s.fuseTrap 4 (c :: rest)
    else s.fuse fam c rest

/-- A skein that waits at FUSE goes on from a trap or a stop: its FUSE may complete (R166, R169). -/
def State.waitsAgain (s : State) (c : Nat) : State :=
  match (s.ctx c).wait, (s.ctx c).splits with
  | .fuse _, l :: _ => s.checkFuse l.family
  | _, _ => s

end Sys2Proof.Machine
end

