-- ==== Sys2Proof/Machine/LaneQueue.lean ====
section
/-! DEFINITION. The control queue and the back-queue on the scalar side, skein width, and the lanes' own steps between words
(06 R146 to R156, R161 to R167). -/

namespace Sys2Proof.Machine

/-! ## LRUN and LLOOP (R150, R151, R156) -/

/-- The lanes wait at a VOTE or VSEND for a back-queue slot (R156). -/
def State.backStuck (s : State) (c : Nat) : Bool :=
  let x := s.ctx c
  match x.queue with
  | e :: _ =>
    let op := s.codeWord c ((laneAddr x).toNat + 8)
    e.started && decide (e.word < e.len) && decide (Config.backLen ≤ x.back.length) && !bitOf op 31
      && (decide (bitsOf op 30 24 = 0x49) || decide (bitsOf op 30 24 = 0x4A))
  | [] => false

/-- The entry that an enqueue word makes (R151). -/
def entryOf (s : State) (e : Enqueue) (kind : EntryKind) (count : W64) (tm : MReg) : QEntry :=
  { kind, block := BitVec.ofNat 64 ((secOf s.myComm 1).1 + 4 * e.blk.toNat),
    len := if e.len = 0 then 64 else e.len.toNat, msel := e.msel,
    q := (List.range 8).map fun i => if i < e.qn.toNat then kGet s.me (e.qk.toNat + i) else 0,
    control := s.me.control, count, tm, region := s.me.region.serial, started := false, word := 0, trip := 0, depth0 := 0 }

/-- LRUN, LLOOP.n and LLOOP.any: a block outside the lane section traps; a full queue is waited for, unless the lanes
wait for the scalar side in turn (R94, R151, R156). -/
def State.enqueue (s : State) (e : QEntry) : Out :=
  s.outside fun s =>
    if !inSec (secOf s.myComm 1) e.block.toNat (12 * e.len) then s.trapS .fetch 2
    else if Config.queueLen ≤ s.me.queue.length then (if s.backStuck s.cur then s.trapS .illegal 0xC else s.stall)
    else .next ((s.setMe { s.me with queue := s.me.queue ++ [e], lpc := e.block }).past 8)

def execLrun (e : Enqueue) (s : State) : Out := s.enqueue (entryOf s e .run 0 0)
def execLloopN (e : Enqueue) (tk : KReg) (s : State) : Out := s.enqueue (entryOf s e .loopN (s.kv tk) 0)
def execLloopAny (e : Enqueue) (tk : KReg) (tm : MReg) (s : State) : Out := s.enqueue (entryOf s e .loopAny (s.kv tk) tm)

def execLsync (s : State) : Out := s.outside fun s => if laneIdle s.me then .next (s.past 4) else s.stall

/-! ## VOTEW and VGET (R155) -/

/-- The oldest back-queue entry of the kind asked for is taken. -/
def State.takeBack (s : State) (vote : Bool) (k : State → BackEntry → Out) : Out :=
  s.outside fun s =>
    match s.me.back with
    | e :: rest => if e.vote == vote then k (s.setMe { s.me with back := rest }) e else s.trapS .illegal 0xA
    | [] => if s.me.queue.isEmpty && s.me.unret.isEmpty then s.trapS .illegal 0xB else s.stall

def execVget (d : KReg) (n : CBit) (s : State) : Out :=
  s.takeBack false fun s e => .next ((s.setC n e.valid).result d e.value)
def execVotew (d : KReg) (n : CBit) (s : State) : Out :=
  s.takeBack true fun s e => .next ((s.setC n (e.value != 0)).result d e.value)

/-! ## Width, SPLIT, FUSE (R161 to R167) -/

def execWidth (d : KReg) (s : State) : Out :=
  s.outside fun s =>
    let free := (s.freeCtxs (benchOf s.cur)).length
    .next (s.result d (BitVec.ofNat 64 (free * 2 ^ 16 + oneCount 64 s.me.base.toNat * 2 ^ 8 + lanesOf s.me.width)))

/-- The word waits for lane work and counters; global stores of the skein drain for it (R163, R312). -/
def State.waitQuiet (s : State) : Out :=
  if s.me.queue.isEmpty && s.me.unret.isEmpty then .next (s.sgbDrainCtx s.cur) else s.stall

/-- SPLIT (R163). One that fails writes CN and KD and commits its region as every SPLIT does (R391): a choice between R163's "changes nothing
else" and R391 (log 23). -/
def execSplit (d : KReg) (n : CBit) (w : BitVec 2) (s : State) : Out :=
  s.outside fun s =>
    let wc : BitVec 3 := w.setWidth 3
    if s.me.width.toNat ≤ w.toNat then s.trapS .illegal 0xD
    else if !quiet s.me then s.waitQuiet
    else
      let k := 2 ^ (s.me.width.toNat - w.toNat)
      let cs := (s.freeCtxs (benchOf s.cur)).take (k - 1)
      let is := (s.freeIndices s.me.crew).take (k - 1)
      if cs.length < k - 1 || is.length < k - 1 then .next ((s.commitMe.setC n false).result d 0)
      else .next (s.splitSkein s.cur d n wc k cs is)

def execFuse (a : KReg) (s : State) : Out :=
  s.outside fun s =>
    match s.me.splits with
    | [] => s.trapS .illegal 0xE
    | l :: _ =>
      match s.me.wait with
      | .fuse _ => s.stall
      | _ =>
        if !quiet s.me then s.waitQuiet
        else if s.readsOut s.cur then s.stall
        else .next ((s.setMe (commit { s.me with wait := .fuse (s.kv a) })).checkFuse l.family)

/-! ## The lanes' own steps (R152, R157, R393) -/

/-- The lanes of a context may move on: they are not stopped, trapped or debugged (R378, R380, R392, R427). -/
def State.lanesGo (s : State) (c : Nat) : Bool :=
  let x := s.ctx c
  x.live && !x.stopped && !x.handler && x.pend.isNone && !(s.bench (benchOf c)).stopped

/-- The lane shadow, copied as the first entry of a region starts (R393). -/
def State.shadowOf (s : State) (c : Nat) : LaneShadow :=
  let x := s.ctx c
  { stack := x.stack, base := x.base, m := x.m,
    gens := (List.range (lanesOf x.width)).map fun l => smGet 0 s.gens (physLane x c l) }

/-- An entry's LRUN packet (R435): kind, MSEL, LEN, BLK, and trips or bound. -/
def State.traceEntry (s : State) (c : Nat) (e : QEntry) : State :=
  let kind := match e.kind with
    | .run => 0
    | .loopN => 1
    | .loopAny => 2
  let blk := (e.block.toNat - (secOf (s.commOf c) 1).1) / 4
  s.trace c 3 4 (e.msel.toNat * 2 ^ 40 + kind * 2 ^ 38 + e.len % 64 * 2 ^ 32 + blk % 2 ^ 26) [e.count]

/-- The trap of push_loop (R157). -/
def pushTrap (x : Skein) : Trap := { wholeTrap x .illegal 8 0 with pushLoop := true }

/-- LANE_ENTRY_START: the lanes take the head entry (R152). One that runs no trip leaves the queue. -/
def execLaneEntryStart (c : Nat) (s : State) : Out :=
  let x := s.ctx c
  match x.queue with
  | [] => .refused (.notEnabled "LANE_ENTRY_START")
  | e :: rest =>
    if !s.lanesGo c || e.started then .refused (.notEnabled "LANE_ENTRY_START")
    else if e.kind ≠ .run && e.count = 0 then .next (s.setCtx c { x with queue := rest })
    else if e.kind ≠ .run && decide (depthOf x = 32) then .next (s.takeTrap c (pushTrap x))
    else
      let r := if x.region.shadow.isNone && decide (e.region = x.region.serial) then
          { x.region with shadow := some (s.shadowOf c) }
        else x.region
      let stack := if e.kind = .run then x.stack else { value := topMask x, rest := 0, loop := true } :: x.stack
      let e' := { e with started := true, depth0 := depthOf x, word := if e.kind = .loopAny then e.len else 0 }
      let s1 := s.setCtx c { x with queue := e' :: rest, stack, region := r }
      .next (if e.kind = .loopAny then s1 else s1.traceEntry c e)

/-- The value of the loop entry of the head entry: the first one pushed above its starting depth (R152). -/
def loopValue (x : Skein) (d0 : Nat) : W64 :=
  match (x.stack.drop (x.stack.length - (d0 + 1))) with
  | e :: _ => e.value
  | [] => 0

/-- LOOP_TRIP_TEST: a repeating entry starts its next trip, or leaves the queue (R152). Its test waits for the lane words
before it (R149). -/
def execLoopTripTest (c : Nat) (s : State) : Out :=
  let x := s.ctx c
  match x.queue with
  | [] => .refused (.notEnabled "LOOP_TRIP_TEST")
  | e :: rest =>
    if !s.lanesGo c || !e.started || decide (e.word < e.len) || !x.unret.isEmpty then
      .refused (.notEnabled "LOOP_TRIP_TEST")
    else
      let tested := mGet x e.tm.toNat &&& loopValue x e.depth0 &&& onesW x.width
      let go := e.kind = .loopN || (decide (e.trip < e.count.toNat) && tested != 0)
      let s0 := if go && e.kind = .loopAny && decide (e.trip = 0) then s.traceEntry c e else s
      let s1 := if e.kind = .loopAny && decide (e.trip < e.count.toNat) then s0.traceMask c 3 tested else s0
      let y := s1.ctx c
      if go then
        .next (s1.setCtx c (cutTo (e.depth0 + 1) { y with queue := { e with word := 0 } :: rest }))
      else .next (s1.setCtx c (showDepth (cutTo e.depth0 { y with queue := rest })))

/-- What a retiring word would write into SKST is held. -/
def State.holdSkst (s : State) (c : Nat) (u : Unretired) : State :=
  let word : Issued := ⟨laneAddr (s.ctx c), s.dev.cycle⟩
  let s1 := if u.range then s.holdWrite c 16 0 1 word else s
  s1.holdWrite c 17 0 (BitVec.ofNat 64 u.depth) word

/-- LANE_RETIRE: the oldest lane word issued retires, and its effects on SKST show (R34, R379). A stopped bench holds what it would write
there (R427). -/
def execLaneRetire (c : Nat) (s : State) : Out :=
  let x := s.ctx c
  match x.unret with
  | [] => .refused (.notEnabled "LANE_RETIRE")
  | u :: rest =>
    if u.awaits.isSome then .refused (.notEnabled "LANE_RETIRE")
    else if (s.bench (benchOf c)).stopped then .next (((s.assayRetire c).setCtx c { x with unret := rest }).holdSkst c u)
    else .next ((s.assayRetire c).setCtx c { x with unret := rest, range := x.range || u.range, mdepth := u.depth })

/-- LOAD_RETURN: the oldest outstanding operation of a path returns, and its counter falls (R21, R219). -/
def execLoadReturn (c : Nat) (p : Path) (s : State) : Out :=
  let x := s.ctx c
  match popPath p x.out with
  | none => .refused (.notEnabled "LOAD_RETURN")
  | some (o, rest) =>
    if returned o then .next (s.setCtx c { x with out := rest, unret := if o.data then dataBack p x.unret else x.unret })
    else .refused (.notEnabled "LOAD_RETURN")

/-- TAKE_TRAP: a trap that waited is taken (R378, R382). -/
def execTakeTrap (c : Nat) (s : State) : Out :=
  match (s.ctx c).pend with
  | none => .refused (.notEnabled "TAKE_TRAP")
  | some t =>
    if trapHeld t (s.ctx c) || (s.bench (benchOf c)).stopped then .refused (.notEnabled "TAKE_TRAP")
    else .next (s.takeTrap c t)

/-- TRACE_BRANCH_FLUSH: 2047 cycles after the first outcome collected (R436). -/
def execTraceBranchFlush (c : Nat) (s : State) : Out :=
  let x := s.ctx c
  if x.branches = [] || decide (s.dev.cycle < x.branchAt + 2047) then .refused (.notEnabled "TRACE_BRANCH_FLUSH")
  else .next (s.traceFlush c)

end Sys2Proof.Machine
end

