-- ==== Sys2Proof/Machine/Rings.lean ====
section
/-! DEFINITION. What the device sends to system software: MSI-X messages, records in the rings (15 R406, R413, R474; 11 R326;
14 R386). -/

namespace Sys2Proof.Machine

/-! ## Device writes (R425) -/

/-- Bytes that the device writes at physical addresses: performed at their targets; an unmapped address takes nothing. -/
def State.devWrite (s : State) (a : Nat) (bs : List Byte) : State :=
  s.writeBytes ((bs.zipIdx.map fun p => ((a + p.2) % Config.physEnd, p.1)).filter fun p => regionOf p.1 ≠ .hole)

/-- A copy has still to write in some line of n bytes at a physical address: an access of the device to them waits for it (R342). -/
def State.rangeBusy (s : State) (at_ n : Nat) : Bool :=
  let a := at_ % Config.physEnd
  let meets (line : Nat) : Bool := decide (128 * line < Config.physEnd) && !hostLine line
    && ((decide (128 * line < a + n) && decide (a < 128 * line + 128)) || decide (128 * line + Config.physEnd < a + n))
  n ≠ 0 && s.copies.any fun y => y.slices.any fun z => z.lines.any meets

/-- Bytes that the device reads at physical addresses, as .fresh loads of no core; an unmapped address reads as ones
(R407). -/
def State.devRead (s : State) (a n : Nat) : List Byte :=
  (List.range n).map fun i =>
    let p := (a + i) % Config.physEnd
    if regionOf p = .hole then 0xFF else memByte s.mem p

/-! ## MSI-X (R401, R406, R474) -/

/-- The vectors of a function: 2048 on the PF, 32 on a VF. -/
def vectorsOf (fn : Nat) : Nat := if fn = 0 then 2048 else 32
def State.vector (s : State) (fn v : Nat) : MsixVec := alGet MsixVec.reset s.host.msix (2048 * fn + v)
def State.setVector (s : State) (fn v : Nat) (x : MsixVec) : State :=
  { s with host := { s.host with msix := smPut s.host.msix (2048 * fn + v) x } }

/-- A function's messages may be sent: MSI-X enabled and the function not masked. -/
def State.msixOpen (s : State) (fn : Nat) : Bool := s.host.msixOn.contains fn && !s.host.msixMask.contains fn

/-- A message on a vector is sent, or its pending bit is set; a vector beyond the table sends none. -/
def State.sendMsix (s : State) (fn v : Nat) : State :=
  if vectorsOf fn ≤ v then s
  else
    let x := s.vector fn v
    if s.msixOpen fn && !x.masked then { s with host := { s.host with msgs := s.host.msgs ++ [(x.addr, x.data)] } }
    else s.setVector fn v { x with pending := true }

/-- A vector whose pending bit is set sends one message once nothing masks it. -/
def State.flushVector (s : State) (fn v : Nat) : State :=
  let x := s.vector fn v
  if x.pending && s.msixOpen fn && !x.masked then (s.setVector fn v { x with pending := false }).sendMsix fn v else s

/-- Every vector of a function that has a pending bit. -/
def State.flushFunction (s : State) (fn : Nat) : State :=
  (s.host.msix.filter fun p => p.2.pending && decide (p.1 / 2048 = fn)).foldl (fun s p => s.flushVector fn (p.1 % 2048)) s

/-- MSIX_UNMASK: a vector's mask bit is cleared by a write of BAR0, which is ignored until bring-up is complete (R451). -/
def execMsixUnmask (fn vec : Nat) (s : State) : Out :=
  if vectorsOf fn ≤ vec || decide (64 < fn) then .refused (.notEnabled "MSIX_UNMASK")
  else if !s.dev.ready then .next s
  else .next ((s.setVector fn vec { s.vector fn vec with masked := false }).flushVector fn vec)

/-! ## Page-request and crew-fault rings (R413) -/

/-- A die's page-request ring, and its crew-fault ring. -/
def pageRing (die : Nat) : Nat := 2 * die
def faultRing (die : Nat) : Nat := 2 * die + 1

def State.ring (s : State) (k : Nat) : RecRing := alGet RecRing.reset s.host.rings k
def State.setRing (s : State) (k : Nat) (r : RecRing) : State := { s with host := { s.host with rings := smPut s.host.rings k r } }

/-- log2 of the count, where it enables the ring. -/
def ringLog (size : W64) : Option Nat :=
  let n := bitsOf size.toNat 4 0
  if 4 ≤ n && n ≤ 16 then some n else none

/-- The ring can take a record. -/
def ringOpen (r : RecRing) : Bool :=
  match ringLog r.size with
  | some n => decide ((r.tail.toNat + 1) % 2 ^ n ≠ r.head.toNat % 2 ^ n)
  | none => false

/-- A record written at TAIL, which then advances; the ring's vector follows. -/
def State.putRecord (s : State) (k : Nat) (v : BitVec 256) : State :=
  let r := s.ring k
  let n := (ringLog r.size).getD 4
  let s1 := s.devWrite (r.base.toNat + 32 * (r.tail.toNat % 2 ^ n)) (leBytes 32 v.toNat)
  let s2 := s1.setRing k { s1.ring k with tail := BitVec.ofNat 64 ((r.tail.toNat + 1) % 2 ^ n) }
  if bitOf r.vec.toNat 15 then s2.sendMsix 0 (bitsOf r.vec.toNat 10 0) else s2

/-- A ring can take a record now: it has room, and no copy still writes where the record goes. -/
def State.ringTakes (s : State) (k : Nat) : Bool :=
  let r := s.ring k
  ringOpen r && !s.rangeBusy (r.base.toNat + 32 * (r.tail.toNat % 2 ^ (ringLog r.size).getD 4)) 32

/-- Records held are written, oldest first, while there is room. -/
def drainRing (k : Nat) : Nat → State → State
  | 0, s => s
  | fuel + 1, s =>
    match (s.ring k).held with
    | v :: rest =>
      if s.ringTakes k then drainRing k fuel ((s.setRing k { s.ring k with held := rest }).putRecord k v) else s
    | [] => s

/-- Every record held that there is room for. -/
def State.flushRing (s : State) (k : Nat) : State := drainRing k (s.ring k).held.length s

/-- Every ring's. -/
def State.flushRings (s : State) : State := s.host.rings.foldl (fun s p => s.flushRing p.1) s

/-- A record goes to a ring; it is held while the ring is full or disabled. -/
def State.postRecord (s : State) (k : Nat) (v : BitVec 256) : State :=
  (s.setRing k { s.ring k with held := (s.ring k).held ++ [v] }).flushRing k

/-- RING_HEAD_WRITE: software has read records (R413); ignored until bring-up is complete (R451). -/
def execRingHeadWrite (die : Nat) (faultRing_ : Bool) (v : W64) (s : State) : Out :=
  if Config.dies ≤ die then .refused (.notEnabled "RING_HEAD_WRITE")
  else if !s.dev.ready then .next s
  else
    let k := if faultRing_ then faultRing die else pageRing die
    let r := s.ring k
    let h := match ringLog r.size with
      | some n => BitVec.ofNat 64 (v.toNat % 2 ^ n)
      | none => v
    .next ((s.setRing k { r with head := h }).flushRing k)

/-! ## Page requests (R326) -/

/-- A page-request record. -/
def pageRecord (time tctx page kind tenant : Nat) : BitVec 256 :=
  BitVec.ofNat 256 (time % 2 ^ 64 * 2 ^ 192 + page / 2 ^ 40 % 32 * 2 ^ 64 + kind * 2 ^ 60 + tenant * 2 ^ 52 + tctx * 2 ^ 40
    + page % 2 ^ 40)

/-- The request of a walk is posted. -/
def State.postPage (s : State) (r : WalkReq) : State :=
  s.postRecord (pageRing r.die) (pageRecord s.time r.tctx r.page r.kind r.tenant)

/-- A waiter that is no context joins the posted request of a page, or posts one (R326, R353). -/
def State.waitPage (s : State) (die tctx va kind tenant waiter : Nat) : State :=
  let page := va / 4096
  let mine (r : WalkReq) : Bool := walkIs die tctx page r && (r.status = .posted)
  let join (r : WalkReq) : WalkReq :=
    if mine r && !r.waiters.contains waiter then { r with waiters := r.waiters ++ [waiter] } else r
  if s.ms.walks.any mine then { s with ms := { s.ms with walks := s.ms.walks.map join } }
  else
    let r : WalkReq := { die, tctx, page, kind, tenant, status := .posted, waiters := [waiter] }
    ({ s with ms := { s.ms with walks := s.ms.walks ++ [r] } }).postPage r

/-- The waiters' numbers of a swapped-out crew, of a commission's admission and of its record. -/
def crewWaiter (n : Nat) : Nat := 2 ^ 40 + n
def admitWaiter (uid : Nat) : Nat := 2 ^ 41 + uid
def recordWaiter (uid : Nat) : Nat := 2 ^ 42 + uid

end Sys2Proof.Machine
end

