-- ==== Sys2Proof/Machine/Sync.lean ====
section
/-! DEFINITION. Futures, barriers, fences, launches and beacons on the scalar side (10 R269 to R275, R289 to R297). -/

namespace Sys2Proof.Machine

/-! ## FWAIT and FTEST (R272 to R274) -/

/-- The trap that an FWAIT of an outcome takes; control is the CONTROL value in the future's entry (R273). -/
def waitTrap (v control : W64) : Option (Cause × Nat) :=
  let st := futState v; let kind := futKind v; let status := futStatus v
  let code := status % 2 ^ 16; let cc := bitsOf status 31 24
  if kind = 1 || kind = 2 then
    if st ≠ 3 then none
    else if code = 2 then some (.layoutMismatch, 6)
    else if code = 1 || code = 3 then some (.eccUncorr, code)
    else if kind = 2 && code = 4 then some (.layoutMismatch, 5)
    else none
  else if 3 ≤ kind && kind ≤ 6 then
    if st = 3 && cc = 1 then some (.eccUncorr, bitsOf status 31 16)
    else if st = 3 && cc = 2 then some (.xlate, bitsOf status 31 16)
    else if st = 3 && cc = 3 then some (.access, bitsOf status 31 16)
    else if st = 2 && kind ≤ 4 && bitsOf status 10 8 ≠ 0 && bitOf control.toNat 2 then some (.decodeLength, bitsOf status 10 8)
    else none
  else if kind = 7 && st = 2 && status % 256 = 1 && bitOf control.toNat 3 then some (.collLate, 0)
  else none

/-- The acquire that an FWAIT makes, by KIND (R274): a collective's and a launch's are of scope dev, at which the core drops
the ranges posted to it (R343). -/
def State.waitAcquire (s : State) (kind : Nat) : State := if 7 ≤ kind then s.acquireRanges (coreOf s.cur) else s

def execFwait (d : KReg) (a : FReg) (s : State) : Out :=
  s.outside fun s =>
    let v := fGet s.me a.toNat
    if isPending v then s.stall
    else
      match waitTrap v (s.futControl s.me.crew (futTag v)) with
      | some (c, n) => s.trapS c n
      | none => .next ((s.waitAcquire (futKind v)).result d (if futState v = 0 then 0 else BitVec.ofNat 64 (futStatus v)))

def execFtest (n : CBit) (a : FReg) (s : State) : Out :=
  s.outside fun s => .next ((s.setC n (!isPending (fGet s.me a.toNat))).past 4)

/-! ## FCAN (R275) -/

/-- The Loom operation that a future stands for. -/
def State.loomOf (s : State) (core crew tag : Nat) : Option Nat :=
  ((s.loom core).ops.find? fun p => decide (p.2.crew = crew) && decide (p.2.fut = some tag)).map (·.1)

/-- Cancellation of a crew's pending operation, by KIND. -/
def State.cancel (s : State) (crew kind tag : Nat) : State :=
  if kind = 1 || kind = 2 then
    (match s.loomOf (s.crew crew).core crew tag with
      | some i => s.cancelLoom (s.crew crew).core i
      | none => s)
  else if 3 ≤ kind && kind ≤ 6 then
    (match s.copies.find? fun y => decide (y.crew = crew) && y.slices.any fun z => z.fut = tag with
      | some y => if y.cancelled then s else s.cancelCopy y
      | none => s)
  else if kind = 8 then s.withdrawLaunch crew tag
  else s

def execFcan (a : FReg) (s : State) : Out :=
  s.outside fun s =>
    let v := fGet s.me a.toNat
    let s1 := if isPending v then s.cancel s.me.crew (futKind v) (futTag v) else s
    .next (s1.commitMe.past 4)

/-! ## FSTO and FLDF (R272) -/

/-- A pending future's entry becomes detached. -/
def State.detach (s : State) (n : Nat) (v : W64) : State :=
  match futEntry (s.crew n) (futTag v) with
  | some e => s.setCrew n (setFutEntry (s.crew n) (futTag v % 64) { e with detached := true, value := v })
  | none => s

def execFsto (d : KReg) (a : FReg) (s : State) : Out :=
  s.outside fun s =>
    let v := fGet s.me a.toNat
    let s1 := if isPending v then s.detach s.me.crew v else s
    .next ((s1.setMe (fSet s1.me a.toNat 0)).commitMe.result d v)

/-- What FLDF loads from a value, with the entry that it attaches to or frees. -/
def loadFuture (w : Crew) (c : Nat) (d : FReg) (v : W64) : W64 × Option FutEntry :=
  let st := futState v
  if 8 < futKind v then (0, none)
  else if st = 2 || st = 3 || st = 4 then (v, none)
  else if st = 1 then
    match futEntry w (futTag v) with
    | some e =>
      if !e.detached then (0, none)
      else if isPending e.value then (e.value, some { e with detached := false, ctx := c, reg := d })
      else (e.value, some (freeEntry e))
    | none => (0, none)
  else (0, none)

def execFldf (d : FReg) (a : KReg) (s : State) : Out :=
  s.outside fun s =>
    let v := s.kv a
    let n := s.me.crew
    let r := loadFuture s.myCrew s.cur d v
    let s1 := s.writeF s.cur d r.1
    let s2 := match r.2 with
      | some e => s1.setCrew n (setFutEntry (s1.crew n) (futTag v % 64) e)
      | none => s1
    .next (s2.commitMe.past 4)

/-! ## Barriers (R289 to R291) -/

/-- A skein arrives at a barrier; count is the phase's (0 for the crew barrier). A word that waits is passed once its phase
completes. -/
def State.arrive (s : State) (n count : Nat) (waits : Bool) : State :=
  let w := s.myCrew
  let b := barrierOf w n
  let s1 := s.setMyCrew (setBarrier w n { arrived := b.arrived ++ [s.me.index], count })
  let s2 := s1.setMe (commit { s1.me with wait := if waits then .barrier n else s1.me.wait })
  let s3 := s2.checkBarrier s.me.crew n
  if !waits then s3.past 4
  else if s3.me.wait = .released n then (s3.setMe { s3.me with wait := .none }).past 4
  else s3

/-- RANGE at a barrier word (R290). -/
def rangeStops (x : Skein) : Bool := bitOf x.control.toNat 1 && x.range

/-- A barrier word: the lanes' work, the RANGE test, the count, the arrival. -/
def State.barrierWord (s : State) (n : Nat) (count : Nat) (waits : Bool) : Out :=
  s.outside fun s =>
    if waits && decide (s.me.wait = .released n) then .next ((s.setMe { s.me with wait := .none }).past 4)
    else if waits && decide (s.me.wait = .barrier n) then s.stall
    else if !laneIdle s.me || s.readsOut s.cur then s.stall
    else if rangeStops s.me then s.trapS .range n
    else if n ≠ 0 && (count = 0 || decide (128 < count)) then s.trapS .illegal 0x15
    else if n ≠ 0 && (barrierOf s.myCrew n).arrived ≠ [] && (barrierOf s.myCrew n).count ≠ count then s.trapS .illegal 0x16
    else .next (s.arrive n count waits)

def execBar (s : State) : Out := s.barrierWord 0 0 true

/-- BARN with barrier 0 traps before it waits (R289). -/
def State.namedBarrier (s : State) (n : BitVec 4) (a : KReg) (waits : Bool) : Out :=
  if n = 0 then s.outside fun s => s.trapS .illegal 0x15 else s.barrierWord n.toNat (s.kv a).toNat waits

def execBarn (n : BitVec 4) (a : KReg) (s : State) : Out := s.namedBarrier n a true
def execBarnArrive (n : BitVec 4) (a : KReg) (s : State) : Out := s.namedBarrier n a false

/-! ## FENCE (R292, R312, R343) -/

def fenceRel : FenceKind → Bool
  | .acq => false
  | _ => true
def fenceAcq : FenceKind → Bool
  | .rel => false
  | _ => true

def execFence (kind : FenceKind) (sc : Scope) (s : State) : Out :=
  if !laneIdle s.me || (fenceRel kind && s.readsOut s.cur) then s.stall
  else
    let s1 := if fenceRel kind then s.releaseAt sc else s
    let s2 := if fenceAcq kind && scopeWide sc then s1.acquireRanges (coreOf s.cur) else s1
    .next (s2.past 4)

/-! ## LAUNCH and LJOIN (R293 to R295, R348) -/

/-- The packet's checks and reading (R294): 128 bytes as .fresh loads. -/
def State.readPacket (s : State) (va : Nat) (k : State → Nat → Out) : Out :=
  s.access va 128 0 .read false true false false fun s1 pa =>
    if s1.freshBad (coreOf s1.cur) pa 128 then s1.trapS .eccUncorr 0 else k s1 pa

/-- A launch is taken (R294, R348): a release of scope dev; the future is pending, and the crew's children grow by one. -/
def State.takeLaunch (s : State) (d : FReg) (i : Nat) (bytes : List Byte) : State :=
  let s1 := s.sgbDrainCore (coreOf s.cur)
  let (s2, tag) := s1.newFuture i d 8
  let t : Taken := { window := s.myComm.key.ctx, fromLaunch := some (s.me.crew, tag), parent := some s.me.crew, bytes, group := none, valid := true,
                     time := s.time }
  { s2 with host := { s2.host with taken := s2.host.taken ++ [t] } }

def execLaunch (d : FReg) (a : KReg) (s : State) : Out :=
  s.outside fun s =>
    if s.me.index ≠ 0 then s.trapS .illegal 0x13
    else if !laneIdle s.me || s.readsOut s.cur then s.stall
    else
      s.readPacket (s.kv a).toNat fun s pa =>
        let bytes := s.readFresh (coreOf s.cur) pa 128
        if bitOf (leNat bytes) 303 then s.trapS .access 0
        else if Config.maxDepth ≤ s.myComm.depth then s.trapS .depth 0
        else if s.tableFull || decide (Config.heldLaunches ≤ s.host.taken.length) then s.stall
        else
          match freeIndex s.myCrew with
          | none => s.stall
          | some i => .next (((s.sliceRead (coreOf s.cur) pa).takeLaunch d i bytes).commitMe.past 4)

/-- A crew has a launch that is not in a final state (R295). -/
def State.childrenLeft (s : State) (crew : Nat) : Bool :=
  (s.host.taken.any fun t => t.parent = some crew) || s.comms.any fun m => decide (m.parent = some crew) && !isFinal m.state

def execLjoin (s : State) : Out :=
  s.outside fun s =>
    if s.me.index ≠ 0 then s.trapS .illegal 0x13
    else if s.childrenLeft s.me.crew then s.stall
    else .next ((s.acquireRanges (coreOf s.cur)).past 4)

/-! ## BCN (R297, R432) -/

/-- COMMID (R35). -/
def commidOf (m : Commission) : W64 := BitVec.ofNat 64 (m.prio * 2 ^ 40 + m.tenant * 2 ^ 32 + m.key.id.toNat)

/-- A message outside every step, to a member of a communicator. -/
def plainMsg (kind : TxKind) (comm peer : Nat) (bytes : List Byte) : TxMsg :=
  { kind, comm, peer, step := 0, owner := 0, offset := 0, bytes, packets := [], late := [], fcode := 0, op := none, entry := none }

/-- The other members of a communicator. -/
def State.otherRanks (s : State) (group : Nat) : List Nat :=
  match s.fab.comms.find? fun m => decide (m.handle = group) && m.ready with
  | some m => (List.range m.nranks).filter (· ≠ m.rank)
  | none => []

/-- BCN: the beacon joins its die's queue; one of scope .sys also goes to every other device of the launch (R297, R432). -/
def execBcn (sys : Bool) (a : KReg) (s : State) : Out :=
  s.outside fun s =>
    let k := dieOf s.cur
    let d := s.die k
    if Config.beaconQueue ≤ d.beacons.length then s.stall
    else
      let b : Beacon := { payload := (s.kv a).setWidth 32, time := BitVec.ofNat 64 s.time, commid := commidOf s.myComm,
                          skid := BitVec.ofNat 64 (skidOf s.me s.cur), sys := sys && s.myComm.multi, reached := [] }
      let bytes := leBytes 4 b.payload.toNat ++ le8 b.time ++ le8 b.commid ++ le8 b.skid
      let msgs := (s.otherRanks s.myComm.group).map fun r => plainMsg .beacon s.myComm.group r bytes
      let s1 := if b.sys then { s with fab := { s.fab with sent := s.fab.sent ++ msgs } } else s
      .next ((s1.setDie k { d with beacons := d.beacons ++ [b] }).commitMe.past 4)

end Sys2Proof.Machine
end

