-- ==== Sys2Proof/Machine/Fabric.lean ====
section
/-! DEFINITION. Communicators and collectives: COLL and the Drover's steps (10 R286 to R288; 15 R415 to R423; 12 R343). -/

namespace Sys2Proof.Machine

/-! ## Communicators (R416, R417) -/

/-- A communicator that is set up, by its handle. -/
def State.commByHandle (s : State) (h : Nat) : Option Communicator :=
  s.fab.comms.find? fun m => decide (m.handle = h) && m.ready
/-- A communicator that is set up, by its KEY. -/
def State.commByKey (s : State) (key : W64) (group : Bool) : Option Communicator :=
  s.fab.comms.find? fun m => decide (m.key = key) && m.ready && (!group || m.group)

def State.setFab (s : State) (f : Fabric) : State := { s with fab := f }
def State.putCommunicator (s : State) (m : Communicator) : State :=
  s.setFab { s.fab with comms := s.fab.comms.map fun o => if o.handle = m.handle then m else o }

/-- The leaves of the pages that n bytes touch in a communicator's context, as a die translates them; none if one is missing, denies the
use, or has to be waited for. -/
def State.commLeaves (s : State) (die tctx tenant : Nat) (u : PageUse) (va n : Nat) : Option (List (Nat × Leaf)) :=
  if Config.windowBase < va + n then none
  else (pagesOf va n).foldl (fun (r : Option (List (Nat × Leaf))) p =>
    match r, s.dieView die tctx (4096 * p) with
    | some ls, .leaf l => if pageOk l u tenant (4096 * p) then some (ls ++ [(p, l)]) else none
    | _, _ => none) (some [])

/-- The storage address that leaves give. -/
def pageAddr (ls : List (Nat × Leaf)) (va : Nat) : Nat :=
  match ls.find? fun q => q.1 = va / 4096 with
  | some q => q.2.phys va
  | none => 0

/-- The lines of n bytes. -/
def pageLines (ls : List (Nat × Leaf)) (va n : Nat) : List Nat :=
  distinct ((List.range n).map fun i => lineOf (pageAddr ls (va + i)))

/-- What translating the pages of n bytes leaves behind (R307, R325). -/
def State.commTouch (s : State) (die tctx va n : Nat) : State := s.dieTouch die tctx ((pagesOf va n).map (4096 * ·))

/-- Bytes that the Drover of a die writes at a virtual address: the state and the lines, if the pages admit it and no copy owns a
line (R310). -/
def State.commWrite (s : State) (die tctx tenant va : Nat) (bs : List Byte) : Option (State × List Nat) :=
  match s.commLeaves die tctx tenant .write va bs.length with
  | none => none
  | some ls =>
    let lines := pageLines ls va bs.length
    if lines.any s.lineBusy then none
    else some ((s.commTouch die tctx va bs.length).writeBytes (bs.zipIdx.map fun p => (pageAddr ls (va + p.2), p.1)), lines)

/-- Bytes that the Drover of a die reads as .fresh loads; some byte may hold an uncorrectable error. -/
def State.commRead (s : State) (die tctx tenant va n : Nat) : Option (List Byte × Bool) :=
  (s.commLeaves die tctx tenant .read va n).map fun ls =>
    ((List.range n).map fun i => memByte s.mem (pageAddr ls (va + i)),
     (List.range n).any fun i => s.poisoned (pageAddr ls (va + i)) 1)

/-- The reader's number of a die's engines at a slice. -/
def dieReader (die : Nat) : Nat := Config.cores + die

/-- What such a read leaves in the memory system (R307, R309). -/
def State.commReads (s : State) (die tctx tenant va n : Nat) : State :=
  let s1 := s.commTouch die tctx va n
  match s.commLeaves die tctx tenant .read va n with
  | some ls => s1.sliceReads (dieReader die) ((List.range n).map fun i => pageAddr ls (va + i))
  | none => s1

/-- Such a read has to wait: for a walk, or for a line that a copy owns (R342). -/
def State.commBusy (s : State) (die tctx tenant va n : Nat) : Bool :=
  ((pagesOf va n).any fun p => decide (s.dieView die tctx (4096 * p) = .busy))
    || (match s.commLeaves die tctx tenant .read va n with
      | some ls => (pageLines ls va n).any s.lineBusy
      | none => false)

/-! ## Completed ranges (R343) -/

/-- A range joins a core's list; a full list first drops its oldest. -/
def State.postCore (lines : List Nat) (s : State) (core : Nat) : State :=
  let mine := s.ms.ranges.filter fun r => r.core = core
  let s1 := if mine.length < Config.rangeList then s
    else match mine with
      | r :: _ =>
        let s2 := r.lines.foldl (fun s l => s.l1Drop core l (l + 1)) s
        { s2 with ms := { s2.ms with ranges := s2.ms.ranges.erase r } }
      | [] => s
  { s1 with ms := { s1.ms with ranges := s1.ms.ranges ++ [{ core, lines }] } }

/-- A completed range is made visible: posted to every core in native mode, dropped from every L1 in compatibility mode. -/
def State.postRange (s : State) (mode : Nat) (lines : List Nat) : State :=
  if mode = 1 then { s with ms := { s.ms with l1 := s.ms.l1.filter fun e => !lines.contains e.line } }
  else (List.range Config.cores).foldl (State.postCore lines) s

/-! ## Messages (R418, R419, R421) -/

/-- The hop number of a rank for an owner's chunk. -/
def hopOf (m : Communicator) (owner : Nat) : Nat := (m.rank + m.nranks - owner) % m.nranks

/-- The entropy-table entry of a hop, and its virtual address (R421). -/
def entropyEntry (hop step : Nat) : Nat := (hop + step) % 16
def entropyAt (m : Communicator) (hop step : Nat) : Nat := m.enttab.toNat + 2 * entropyEntry hop step

/-- E of a chunk's first packet (R421); an entry that cannot be read, or that holds an uncorrectable error, leaves it open (log 72). -/
def State.entropyOf (s : State) (die : Nat) (m : Communicator) (hop step : Nat) : Nat :=
  match s.commRead die m.tctx m.tenant (entropyAt m hop step) 2 with
  | some (bs, false) => leNat bs
  | _ => Config.network s.freeCtr 17 % 65536

/-- The table entry of a chunk's packets cannot be read yet. -/
def State.entropyBusy (s : State) (die : Nat) (m : Communicator) (hop step : Nat) : Bool :=
  s.commBusy die m.tctx m.tenant (entropyAt m hop step) 2

/-- What the reading of a table entry leaves: the slice has been read, an uncorrectable error is counted (R450), and the value that an
entry leaves open has been drawn. -/
def State.readEntropy (s : State) (die : Nat) (m : Communicator) (hop step : Nat) : State :=
  let s1 := s.commReads die m.tctx m.tenant (entropyAt m hop step) 2
  match s.commRead die m.tctx m.tenant (entropyAt m hop step) 2 with
  | some (_, false) => s1
  | some (_, true) => (s1.countError die 0 true).draw.2
  | none => s1.draw.2

/-- The egress port that a die takes for an entropy-table entry (R421). -/
def egressPort (die e : Nat) : Nat := 2 * die + e % 2

/-- Entropy values and egress ports of the packets of n bytes that a die sends at a hop, each packet with at most 4,096 bytes (R415,
R421). -/
def State.pathsOf (s : State) (m : Communicator) (die hop step n : Nat) : List (Nat × Nat) :=
  let e := s.entropyOf die m hop step
  (List.range (max 1 ((n + 4095) / 4096))).map fun i => ((e + i * m.stride) % 65536, egressPort die e)

/-- The bytes of a message belong to a step. -/
def inStep (t : TxMsg) : Bool := t.kind = .send || t.kind = .partialSum || t.kind = .result || t.kind = .marker

/-- What is sent in a step whose COLL has not started here is kept for it: its bytes, and the table entries of its packets (R423). -/
def addEarly (comm step n : Nat) (entry : Option Nat) (l : List EarlySent) : List EarlySent :=
  let mine (p : EarlySent) : Bool := p.comm = comm && p.step = step
  let old := (l.find? mine).getD { comm, step, bytes := 0, entries := [] }
  l.filter (fun p => !mine p) ++ [{ old with bytes := old.bytes + n, entries := distinct (old.entries ++ entry.toList) }]

/-- A message is sent, and counted in its step (R423). -/
def State.sendMsg (s : State) (t : TxMsg) : State :=
  let here (o : CollOp) : Bool := inStep t && decide (o.comm = t.comm) && decide (o.step = t.step)
  let early := if !inStep t || s.fab.ops.any here then s.fab.early else addEarly t.comm t.step t.bytes.length t.entry s.fab.early
  s.setFab { s.fab with sent := s.fab.sent ++ [t], early,
                        ops := s.fab.ops.map fun o => if here o then
                          { o with bytes := o.bytes + t.bytes.length, used := distinct (o.used ++ t.entry.toList) } else o }

/-- The die whose Drover serves an offset (R418). -/
def chunkDie (offset : Nat) : Nat := offset / 2 ^ 21 % 4

/-- The sum, or a marker with a cause in its place, goes on: to the next rank, or from the last to the owner (R419, R422). -/
def State.sendOn (s : State) (m : Communicator) (k : Counter) (failed : Bool) (bytes : List Byte) (late : List Nat) (fcode : Nat := 0) :
    State :=
  let hop := hopOf m k.owner
  let last := decide (hop + 1 = m.nranks)
  let die := chunkDie k.offset
  (s.readEntropy die m hop k.step).sendMsg
    { kind := if failed then .marker else if last then .result else .partialSum, comm := m.handle,
      peer := if last then k.owner else (m.rank + 1) % m.nranks, step := k.step, owner := k.owner, offset := k.offset,
      bytes := if failed then [] else bytes, late, fcode, op := none, entry := some (entropyEntry hop k.step),
      packets := s.pathsOf m die hop k.step (if failed then 0 else bytes.length) }

/-- The table entry with which a counter's message would go is not to be read yet (R342). -/
def State.sendBusy (s : State) (m : Communicator) (owner offset step : Nat) : Bool :=
  s.entropyBusy (chunkDie offset) m (hopOf m owner) step

/-! ## Counters (R419, R422) -/

def State.putCounter (s : State) (k : Counter) : State :=
  s.setFab { s.fab with counters := s.fab.counters.map fun o => if o.id = k.id then k else o }
def State.dropCounter (s : State) (id : Nat) : State :=
  s.setFab { s.fab with counters := s.fab.counters.filter fun o => o.id ≠ id }
def State.putColl (s : State) (o : CollOp) : State :=
  s.setFab { s.fab with ops := s.fab.ops.map fun p => if p.id = o.id then o else p }

/-- The counter of a key. -/
def State.counterOf (s : State) (comm step owner offset chunk : Nat) : Option Counter :=
  s.fab.counters.find? fun k => decide (k.comm = comm) && decide (k.step = step) && decide (k.owner = owner)
    && decide (k.offset = offset) && decide (k.chunk = chunk)

/-- A die's Drover has free counters (R419); one that has failed holds none. -/
def State.countersFree (s : State) (die n : Nat) : Bool :=
  decide ((s.fab.counters.filter fun k => chunkDie k.offset = die && !k.failed).length + n ≤ Config.dieCounters)

/-- A counter before anything has reached it. -/
def newCounter (id comm step owner offset chunk : Nat) (fmt : Fmt) : Counter :=
  { id, comm, step, owner, offset, chunk, fmt, part := false, own := none, op := none, src := 0, late := [],
    flushed := false, failed := false, fcode := 0, partTime := 0, ownTime := 0, sent := false }

/-- A contribution of an operation has been folded, or dropped with an outcome (R288, R422). -/
def State.foldDone (s : State) (op : Nat) (outcome fcode : Nat) : State :=
  let f (o : CollOp) : CollOp :=
    if o.id = op then { o with toFold := o.toFold - 1, outcome := max o.outcome outcome,
                               fcode := if o.fcode = 0 then fcode else o.fcode }
    else o
  s.setFab { s.fab with ops := s.fab.ops.map f }

/-- An owned chunk has ended (R419, R422). -/
def State.chunkDone (s : State) (comm step offset outcome fcode : Nat) (late : List Nat) : State :=
  let f (o : CollOp) : CollOp :=
    if decide (o.comm = comm) && decide (o.step = step) && o.owned.contains offset then
      { o with owned := o.owned.erase offset, outcome := max o.outcome outcome, fcode := if o.fcode = 0 then fcode else o.fcode,
               late := distinct (o.late ++ late) }
    else o
  s.setFab { s.fab with ops := s.fab.ops.map f }

/-- The partial goes on unchanged with this rank in its late record, and the key is flushed (R422). -/
def State.flushCounter (s : State) (m : Communicator) (k : Counter) : State :=
  let die := chunkDie k.offset
  let at_ := m.stage.toNat + k.offset
  let s0 := s.commReads die m.tctx m.tenant at_ k.chunk
  let s1 := match s.commRead die m.tctx m.tenant at_ k.chunk with
    | some (bs, false) => s0.sendOn m k false bs (k.late ++ [m.rank])
    | _ => s0.sendOn m k true [] (k.late ++ [m.rank]) 3
  s1.putCounter { k with flushed := true }

/-- A counter's partial, or the table entry of its message, is not to be read yet (R342). -/
def State.flushBusy (s : State) (m : Communicator) (k : Counter) : Bool :=
  s.sendBusy m k.owner k.offset k.step || s.commBusy (chunkDie k.offset) m.tctx m.tenant (m.stage.toNat + k.offset) k.chunk

/-- TLATE has passed since a counter's partial. -/
def State.lateDue (s : State) (m : Communicator) (k : Counter) : Bool :=
  k.part && k.own.isNone && !k.flushed && decide (k.partTime + 1000 * m.tlate ≤ s.time)

/-- TFAIL has passed since a counter's contribution without a partial (R422). -/
def State.failDue (s : State) (m : Communicator) (k : Counter) : Bool :=
  k.own.isSome && !k.part && !k.failed && decide (k.ownTime + 1000 * m.tfail ≤ s.time)

/-- A chunk fails at this rank for want of its partial: a marker goes on, and the contribution has been dropped (R422). -/
def State.failChunk (s : State) (m : Communicator) (k : Counter) : State :=
  match k.op with
  | some o => (s.sendOn m k true [] [] 1).foldDone o 2 1
  | none => s.sendOn m k true [] [] 1

/-- A counter of a chunk that failed here for want of its partial stays until the partial has come, and drops it (R422). -/
def lostCounter (k : Counter) : Counter := { k with failed := true, sent := true, flushed := true, own := none, op := none, fcode := 1 }

/-- One contribution of a REDUCE to a chunk of another rank reaches its counter (R419, R422). -/
def State.contribute (m : Communicator) (o : CollOp) (s : State) (x : Contrib) : State :=
  let fresh := { newCounter s.fab.nextId o.comm o.step x.peer x.offset o.chunk o.fmt with
                 own := some x.bytes, op := some o.id, src := x.src, ownTime := s.time }
  let add (s : State) : State := s.setFab { s.fab with counters := s.fab.counters ++ [fresh], nextId := s.fab.nextId + 1 }
  match s.counterOf o.comm o.step x.peer x.offset o.chunk with
  | none => add s
  | some k =>
    if k.failed && k.sent then add (s.dropCounter k.id)
    else if k.failed then (s.dropCounter k.id).foldDone o.id 2 k.fcode
    else if k.flushed then (s.dropCounter k.id).foldDone o.id 1 0
    else if s.lateDue m k then ((s.flushCounter m k).dropCounter k.id).foldDone o.id 1 0
    else s.putCounter { k with own := some x.bytes, op := some o.id, src := x.src, ownTime := s.time, fmt := o.fmt }

/-- One contribution of a REDUCE (R419): the owner's starts its chunk round the ring. -/
def State.contributeAny (m : Communicator) (o : CollOp) (s : State) (x : Contrib) : State :=
  if x.peer = m.rank then s.sendOn m (newCounter 0 o.comm o.step m.rank x.offset o.chunk o.fmt) false x.bytes [] else s.contribute m o x

/-- The runs that contributions of a SEND coalesce into: peer, offset, bytes (R287). -/
def coalesce : List Contrib → List Contrib → List Contrib
  | done, [] => done
  | done, x :: rest =>
    match (done.zipIdx.reverse.find? fun y => y.1.peer = x.peer) with
    | some (y, i) =>
      if y.offset + y.bytes.length = x.offset then coalesce (listSet done i { y with bytes := y.bytes ++ x.bytes }) rest
      else coalesce (done ++ [x]) rest
    | none => coalesce (done ++ [x]) rest

/-- What was sent in a step before its COLL started here is its own (R423). -/
def State.takeEarly (s : State) (o : CollOp) : State :=
  let mine (p : EarlySent) : Bool := p.comm = o.comm && p.step = o.step
  let e := (s.fab.early.find? mine).getD { comm := o.comm, step := o.step, bytes := 0, entries := [] }
  s.setFab { s.fab with early := s.fab.early.filter fun p => !mine p,
                        ops := s.fab.ops.map fun p => if p.id = o.id then { p with bytes := p.bytes + e.bytes, used := distinct (p.used ++ e.entries) } else p }

/-- A collective starts to send (R288, R418, R419). What it sends to its own rank is written here, and so is the whole result of a ring
of one rank. -/
def State.startColl (s : State) (id : Nat) : State :=
  match s.fab.ops.find? fun o => o.id = id with
  | none => s
  | some o =>
    match s.commByHandle o.comm with
    | none => s
    | some m =>
      let mine := o.contribs.filter fun x => x.peer = m.rank
      if o.reduce then
        let ring := if m.nranks = 1 then [] else o.contribs
        let o1 := { o with contribs := [], locals := if m.nranks = 1 then mine else [], began := s.time,
                           toFold := o.contribs.length - mine.length, owned := mine.map (·.offset) }
        ring.foldl (State.contributeAny m o1) ((s.putColl o1).takeEarly o1)
      else
        let runs := coalesce [] (o.contribs.filter fun x => x.peer ≠ m.rank)
        let o1 := { o with contribs := [], locals := mine, began := s.time, toAck := runs.length }
        let die := crewDie (s.crew o.crew)
        let msg (s : State) (x : Contrib) : TxMsg :=
          { kind := .send, comm := m.handle, peer := x.peer, step := o.step, owner := x.peer, offset := x.offset, bytes := x.bytes,
            packets := s.pathsOf m die 0 o.step x.bytes.length, late := [], fcode := 0, op := some o.id, entry := some (entropyEntry 0 o.step) }
        runs.foldl (fun s x => (s.readEntropy die m 0 o.step).sendMsg (msg s x)) ((s.putColl o1).takeEarly o1)

/-- Contributions of a ring of several ranks that need a new counter, on a die: those to another rank whose key has none (R419). -/
def State.newCounters (s : State) (m : Communicator) (step chunk : Nat) (keys : List (Nat × Nat)) (die : Nat) : Nat :=
  (distinct ((keys.filter fun p => decide (p.1 ≠ m.rank) && decide (chunkDie p.2 = die) && (s.counterOf m.handle step p.1 p.2 chunk).isNone).map
    fun p => 2 ^ 64 * p.1 + p.2)).length

/-- A collective can start to send: its contributions find their counters (R419), and what it would read is not held by a copy (R342). -/
def State.collReady (s : State) (m : Communicator) (die step chunk : Nat) (reduce : Bool) (keys : List (Nat × Nat)) : Bool :=
  if reduce then
    m.nranks = 1 || ((List.range Config.dies).all fun k => s.countersFree k (s.newCounters m step chunk keys k))
      && keys.all fun p => !(match s.counterOf m.handle step p.1 p.2 chunk with
        | some k => s.flushBusy m k
        | none => s.sendBusy m p.1 p.2 step)
  else keys.all (fun p => p.1 = m.rank) || !s.entropyBusy die m 0 step

/-- The owner of a request is no collective, or one that can start to send. -/
def State.collCanStart (s : State) : LeaveOwner → Bool
  | .coll i => (match s.fab.ops.find? fun o => o.id = i with
    | some o => (match s.commByHandle o.comm with
      | some m => s.collReady m (crewDie (s.crew o.crew)) o.step o.chunk o.reduce (o.contribs.map fun x => (x.peer, x.offset))
      | none => true)
    | none => true)
  | _ => true

/-- LEAVE_GRANT: the first request of a die is granted whole if it fits and no clamp holds (R376, R444). A collective that
waited starts to send. -/
def execLeaveGrant (die : Nat) (s : State) : Out :=
  let d := s.die die
  match d.leaveQ with
  | [] => .refused (.notEnabled "LEAVE_GRANT")
  | r :: rest =>
    if s.dev.clamp || decide (poolFree d < r.tokens) || !s.collCanStart r.owner then .refused (.notEnabled "LEAVE_GRANT")
    else
      let s1 := (s.setDie die { d with leaveQ := rest, granted := d.granted + r.tokens }).giveLeave r.owner r.tokens
      .next (match r.owner with
        | .coll i => s1.startColl i
        | _ => s1)

/-! ## COLL (R286, R287) -/

/-- A malformed control word (R286). -/
def collBad (w : Nat) : Bool :=
  let chunk := bitsOf w 23 0
  decide (1 < bitsOf w 47 44) || bitsOf w 31 24 ≠ 0 || chunk = 0 || chunk % 16 ≠ 0
    || (bitsOf w 47 44 = 1 && ((fmtOf (bitsOf w 43 40)).map fun f => f = .f32 || f = .bf16 || f = .f16 || f = .s32 || f = .n32) ≠ some true)

/-- A lane's peer and address (R287). -/
def State.collLane (s : State) (b l : Nat) : Nat × Nat :=
  ((s.vGet s.cur l b).toNat, (s.vGet s.cur l (b + 1)).toNat + (s.vGet s.cur l (b + 2)).toNat * 2 ^ 32)

/-- A contributor fails: its rank is no member, or its bytes lie outside the local buffer. -/
def collFails (m : Communicator) (chunk : Nat) (p : Nat × Nat) : Bool :=
  decide (m.nranks ≤ p.1) || decide (p.2 < m.buf.toNat) || decide (m.buf.toNat + m.buflen.toNat < p.2 + chunk)

/-- Lanes as a mask. -/
def lanesMask (ls : List Nat) : W64 := ls.foldl (fun (m : W64) (l : Nat) => m ||| (1#64 <<< l)) (0 : W64)

/-- The source bytes of the contributors, lane by lane, as .fresh loads of the skein (R288): the pages translated, or the
wait or trap of the first that fails. -/
def State.collSources (s : State) (chunk : Nat) : List (Nat × Nat) → List (Nat × Leaf) → Sum (State × List (Nat × Leaf)) Out
  | [], ls => .inl (s, ls)
  | (l, va) :: rest, ls =>
    match s.reachRange s.cur va chunk 4 .read false ls with
    | .inl (s1, ls1) => s1.collSources chunk rest ls1
    | .inr (.wait s1) => .inr (.next s1)
    | .inr (.trap s1 .access) => .inr (s1.trapS .access l (1#64 <<< l))
    | .inr (.trap s1 k) => .inr (s1.trapS k 0)
    | .inr (.ok s1 _ _) => .inr (.next s1)

/-- A collective is issued: its future, its record of what to do, and its leave (R287, R375). -/
def State.issueColl (s : State) (d : FReg) (i : Nat) (m : Communicator) (w : Nat) (record : W64) (xs : List Contrib) : State :=
  let (s1, tag) := s.newFuture i d 7
  let id := s1.fab.nextId
  let heavy := decide (262144 ≤ (xs.map fun x => x.bytes.length).sum)
  let o : CollOp :=
    { id, crew := s.me.crew, fut := tag, comm := m.handle, step := bitsOf w 39 32, reduce := bitsOf w 47 44 = 1,
      fmt := (fmtOf (bitsOf w 43 40)).getD .f32, chunk := bitsOf w 23 0, record, tctx := s.myComm.key.ctx, tenant := s.myComm.tenant,
      contribs := xs, locals := [], began := s.time, bytes := 0, toAck := 0, toFold := 0, owned := [], outcome := 0, fcode := 0, late := [],
      leave := 0, standing := false, waiting := false, used := [] }
  let crew := s1.crew s.me.crew
  let add (s : State) (o : CollOp) : State := s.setFab { s.fab with ops := s.fab.ops ++ [o], nextId := id + 1 }
  if !heavy then (add s1 o).startColl id
  else if standingCovers crew 24 then
    ((add s1 { o with leave := 24, standing := true }).setStanding s.me.crew crew.standing (crew.standHeld + 24)).startColl id
  else (add s1 { o with waiting := true }).askLeave (crewDie crew) (.coll id) 24

/-- COLL. Its vector-register group is checked first, as part of decoding (R106, R276). Its record's address is checked as that of a store
(R39, R41, R42, R423); whether its page admits the write shows where it is written (log 73). -/
def execColl (d : FReg) (a : KReg) (b : BitVec 6) (m : MReg) (s : State) : Out :=
  if s.myComm.vregs ≤ b.toNat + 2 then s.trapS .illegal 3
  else s.outside fun s =>
    let w := (s.kv a).toNat
    let record := kGet s.me (a.toNat + 1)
    if s.part.is384P then s.trapS .illegal 0x10
    else
      match s.commByHandle (bitsOf w 63 48) with
      | none => s.trapS .illegal 0x17
      | some cm =>
        if collBad w || cm.tenant ≠ s.myComm.tenant || cm.freeing then s.trapS .illegal 0x17
        else if !laneIdle s.me then s.stall
        else if 2 ^ 57 ≤ record.toNat then s.trapS .access 0
        else if record.toNat % 128 ≠ 0 then s.trapS .align 0
        else if decide (Config.windowBase ≤ record.toNat) && !spadIn s.myCrew (record.toNat - Config.windowBase) 128 then s.trapS .access 0
        else
          let chunk := bitsOf w 23 0
          let act := heldLanes s.me m.toNat
          let lanes := (List.range (lanesOf s.me.width)).filter fun l => act.getLsbD l
          let bad := lanes.filter fun l => collFails cm chunk (s.collLane b.toNat l)
          match bad with
          | l :: _ => s.trapS .access l (lanesMask bad)
          | [] =>
            let src := lanes.map fun l => (l, (s.collLane b.toNat l).2)
            match s.collSources chunk src [] with
            | .inr r => r
            | .inl (s1, ls) =>
              let crew := s1.myCrew
              let addr (va i : Nat) : Nat := leafAddr crew ls (va + i)
              let places := src.flatMap fun p => (List.range chunk).map (addr p.2)
              let keys := lanes.map fun l => let p := s1.collLane b.toNat l; (p.1, p.2 - cm.buf.toNat)
              if (distinct (places.map lineOf)).any s1.lineBusy then .next s1
              else if places.any fun p => s1.freshBad (coreOf s1.cur) p 1 then s1.trapS .eccUncorr 0
              else if !s1.collReady cm (dieOf s1.cur) (bitsOf w 39 32) chunk (bitsOf w 47 44 = 1) keys then .next s1
              else
                match freeIndex crew with
                | none => .next s1
                | some i =>
                  let s2 := ((distinct ((places.filter fun p => regionOf p = .hbm).map lineOf)).foldl
                    (fun s n => s.sgbDrain (coreOf s.cur) n) s1).sliceReads (coreOf s1.cur) places
                  let xs := src.map fun p =>
                    { peer := (s2.collLane b.toNat p.1).1, offset := p.2 - cm.buf.toNat, src := BitVec.ofNat 64 p.2,
                      bytes := (List.range chunk).map fun i => memByte s2.mem (addr p.2 i) : Contrib }
                  .next ((s2.issueColl d i cm w record xs).commitMe.past 4)

/-! ## The Drover's steps (R415 to R423) -/

/-- The waiter's number of a communicator in a page request. -/
def droverWaiter (handle : Nat) : Nat := 2 ^ 43 + handle

/-- A page of a communicator is missing: the die that needs it posts a page request, and the message is sent again (R419). -/
def State.droverWait (s : State) (die : Nat) (m : Communicator) (va n kind : Nat) : State :=
  (pagesOf va n).foldl (fun s p => match s.dieView die m.tctx (4096 * p) with
    | .invalid => (s.dieTouch die m.tctx [4096 * p]).waitPage die m.tctx (4096 * p) kind m.tenant (droverWaiter m.handle)
    | _ => s) s

/-- Bytes are to be written at an address of a communicator, and no page of it denies the write: a page may be missing, or a copy may
own a line. -/
def State.commMayWrite (s : State) (die : Nat) (m : Communicator) (va n : Nat) : Bool :=
  decide (va + n ≤ Config.windowBase) && (pagesOf va n).all fun p => match s.dieView die m.tctx (4096 * p) with
    | .leaf l => pageOk l .write m.tenant (4096 * p)
    | .invalid | .busy => true
    | .malformed | .error => false

/-- COLL_SEND_ACK: a message of a SEND has been performed at its peer and acknowledged (R418). -/
def execCollSendAck (op : Nat) (s : State) : Out :=
  match s.fab.ops.find? fun o => o.id = op with
  | none => .refused (.notEnabled "COLL_SEND_ACK")
  | some o => if o.toAck = 0 then .refused (.notEnabled "COLL_SEND_ACK") else .next (s.putColl { o with toAck := o.toAck - 1 })

/-- A partial, or a failure marker, at a counter that still waits for one. -/
def State.takePartial (s : State) (m : Communicator) (p : PartialMsg) (k : Counter) : State :=
  if p.failed then
    let s2 := s.sendOn m k true [] p.late p.fcode
    match k.op with
    | some o => (s2.dropCounter k.id).foldDone o 2 p.fcode
    | none => s2.putCounter { k with failed := true, flushed := true, fcode := p.fcode }
  else
    match s.commWrite (chunkDie p.offset) m.tctx m.tenant (m.stage.toNat + p.offset) p.bytes with
    | none => s.droverWait (chunkDie p.offset) m (m.stage.toNat + p.offset) p.chunk 5
    | some (s2, _) => s2.putCounter { k with part := true, late := p.late, partTime := s.time }

/-- COLL_PARTIAL_ARRIVAL: a partial sum, or a failure marker, reaches this rank (R419, R422). One for a chunk that has failed here, or
whose TFAIL has passed, is dropped. -/
def execCollPartialArrival (p : PartialMsg) (s : State) : Out :=
  match (if s.part.is384P then none else s.commByKey p.key false) with
  | none => .refused (.notEnabled "COLL_PARTIAL_ARRIVAL")
  | some m =>
    if p.owner = m.rank || decide (m.nranks ≤ p.owner) || p.bytes.length ≠ (if p.failed then 0 else p.chunk)
        || decide (m.buflen.toNat < p.offset + p.chunk) then .refused (.notEnabled "COLL_PARTIAL_ARRIVAL")
    else
      match s.counterOf m.handle p.step p.owner p.offset p.chunk with
      | some k =>
        if k.failed && k.sent then .next (s.dropCounter k.id)
        else if k.part || k.flushed || k.failed then .refused (.notEnabled "COLL_PARTIAL_ARRIVAL")
        else if s.sendBusy m k.owner k.offset k.step then .refused (.notEnabled "COLL_PARTIAL_ARRIVAL")
        else if s.failDue m k then .next ((s.failChunk m k).dropCounter k.id)
        else .next (s.takePartial m p k)
      | none =>
        if !s.countersFree (chunkDie p.offset) 1 || s.sendBusy m p.owner p.offset p.step then .refused (.notEnabled "COLL_PARTIAL_ARRIVAL")
        else
          let k := newCounter s.fab.nextId m.handle p.step p.owner p.offset p.chunk .f32
          .next ((s.setFab { s.fab with counters := s.fab.counters ++ [k], nextId := s.fab.nextId + 1 }).takePartial m p k)

/-- COLL_LATE_TIMEOUT (R422). -/
def execCollLateTimeout (ctr : Nat) (s : State) : Out :=
  match s.fab.counters.find? fun k => k.id = ctr with
  | none => .refused (.notEnabled "COLL_LATE_TIMEOUT")
  | some k =>
    match s.commByHandle k.comm with
    | none => .refused (.notEnabled "COLL_LATE_TIMEOUT")
    | some m => if s.lateDue m k && !s.flushBusy m k then .next (s.flushCounter m k) else .refused (.notEnabled "COLL_LATE_TIMEOUT")

/-- COLL_FAIL_TIMEOUT: no partial has come TFAIL after the contribution, or a message cannot be delivered within TFAIL
(R422). -/
def execCollFailTimeout (ctr : Nat) (s : State) : Out :=
  match s.fab.counters.find? fun k => k.id = ctr with
  | some k =>
    (match s.commByHandle k.comm with
      | some m => if s.failDue m k && !s.sendBusy m k.owner k.offset k.step then .next ((s.failChunk m k).putCounter (lostCounter k)) else .refused (.notEnabled "COLL_FAIL_TIMEOUT")
      | none => .refused (.notEnabled "COLL_FAIL_TIMEOUT"))
  | none =>
    match s.fab.ops.find? fun o => o.id = ctr with
    | none => .refused (.notEnabled "COLL_FAIL_TIMEOUT")
    | some o =>
      match s.commByHandle o.comm with
      | none => .refused (.notEnabled "COLL_FAIL_TIMEOUT")
      | some m =>
        if o.waiting || (o.toAck = 0 && o.owned = []) || decide (s.time < o.began + 1000 * m.tfail) then
          .refused (.notEnabled "COLL_FAIL_TIMEOUT")
        else .next (s.putColl { o with toAck := 0, owned := [], outcome := 2, fcode := if o.fcode = 0 then 2 else o.fcode })

/-- Sets of ranks as the record's fields (R423). -/
def lateMask (late : List Nat) : Nat := (distinct (late.map (· % 256))).foldl (fun m r => m + 2 ^ r) 0

/-- The 128 bytes of a COLL record (R423). What the network did is open only where the step has sent packets: with the table entry of a
CONGEST field, or at all for RETRANS. -/
def collRecord (s : State) (o : CollOp) : List Byte :=
  let late := if o.reduce then o.late else []
  leBytes 8 (o.outcome + o.fcode * 256) ++ leBytes 8 s.time ++ List.replicate 24 0
    ++ leBytes 8 (if o.used = [] then 0 else Config.network s.freeCtr 16) ++ leBytes 4 late.length
    ++ leBytes 4 ((late.min?).getD 0xFFFFFFFF) ++ leBytes 8 o.bytes
    ++ (List.range 16).flatMap (fun i => leBytes 2 (if o.used.contains i then Config.network s.freeCtr i else 0))
    ++ leBytes 32 (lateMask late)

/-- Where the bytes of a COLL's record lie: in the scratchpad of its crew, or where its page admits the write; none if it is not
written. -/
def State.collRecordAt (s : State) (o : CollOp) : Option (Nat → Nat) :=
  let va := o.record.toNat
  if o.record = 0 then none
  else if Config.windowBase ≤ va then some fun i => spadAddr (s.crew o.crew) (va - Config.windowBase + i)
  else (s.commLeaves (crewDie (s.crew o.crew)) o.tctx o.tenant .write va 128).map fun ls i => pageAddr ls (va + i)

/-- What the walk for a COLL's record ends in, where the record has a page. -/
def State.collRecordWalk (s : State) (o : CollOp) : Option WalkEnd :=
  if o.record ≠ 0 && decide (o.record.toNat < Config.windowBase) then some (s.dieView (crewDie (s.crew o.crew)) o.tctx o.record.toNat) else none

/-- The page of a COLL's record is missing. -/
def State.collRecordWaits (s : State) (o : CollOp) : Bool := s.collRecordWalk o = some .invalid

/-- A contribution of a collective to its own rank is written at its place in the local buffer and made visible (R287, R418); one that the
pages deny ends FAILED, and one for which a page is missing waits. -/
def State.placeLocal (s : State) (o : CollOp) (m : Communicator) (x : Contrib) : Option State :=
  let va := m.buf.toNat + x.offset
  let done (s : State) (outcome fcode : Nat) : State :=
    let s1 := s.putColl { o with locals := o.locals.erase x, outcome := max o.outcome outcome, fcode := if o.fcode = 0 then fcode else o.fcode }
    if o.reduce then s1.chunkDone o.comm o.step x.offset outcome fcode [] else s1
  let die := chunkDie x.offset
  if !s.commMayWrite die m va x.bytes.length then some (done s 2 3)
  else match s.commWrite die m.tctx m.tenant va x.bytes with
    | some (s1, lines) => some (done (s1.postRange m.mode lines) 0 0)
    | none =>
      let s1 := s.droverWait die m va x.bytes.length 5
      if s1.ms.walks = s.ms.walks then none else some s1

/-- COLL_STEP_END: every contribution and every owned chunk has ended, those of its own rank written one after another; the record is
written, then the future ends (R288, R423). -/
def execCollStepEnd (op : Nat) (s : State) : Out :=
  match s.fab.ops.find? fun o => o.id = op with
  | none => .refused (.notEnabled "COLL_STEP_END")
  | some o =>
    match (if o.waiting then none else o.locals.head?), s.commByHandle o.comm with
    | some x, some m => (match s.placeLocal o m x with
        | some s1 => .next s1
        | none => .refused (.notEnabled "COLL_STEP_END"))
    | _, _ =>
      if o.waiting || o.toAck ≠ 0 || o.toFold ≠ 0 || o.owned ≠ [] then .refused (.notEnabled "COLL_STEP_END")
      else if s.collRecordWaits o then
        (if s.ms.walks.any fun r => decide (r.tctx = o.tctx) && decide (r.page = o.record.toNat / 4096) && r.waiters.contains (droverWaiter 0)
          then .refused (.notEnabled "COLL_STEP_END")
          else .next (s.waitPage (crewDie (s.crew o.crew)) o.tctx o.record.toNat 5 o.tenant (droverWaiter 0)))
      else
        let end_ (s1 : State) : Out :=
          let s2 := if o.leave = 0 then s1 else s1.returnLeave o.crew o.leave o.standing
          let s3 := s2.setFab { s2.fab with ops := s2.fab.ops.filter fun p => p.id ≠ op }
          .next (s3.endFuture o.crew o.fut 2 o.outcome)
        match s.collRecordAt o with
        | some at_ =>
          if s.lineBusy (lineOf (at_ 0)) then .refused (.notEnabled "COLL_STEP_END")
          else
            let s1 := if o.record.toNat < Config.windowBase then s.commTouch (crewDie (s.crew o.crew)) o.tctx o.record.toNat 128 else s
            end_ (s1.writeBytes ((collRecord s o).zipIdx.map fun (p : Byte × Nat) => (at_ p.2, p.1))).draw.2
        | none => if s.collRecordWalk o = some .busy then .refused (.notEnabled "COLL_STEP_END") else end_ s

/-! ## Packets (R415, R417, R418) -/

/-- Bytes of a message arrive, in any order; the message is complete when its count has: its lines, and where it begins in the
buffer (R415). -/
def takePacket (l : List Incoming) (key : W64) (rank msg total at_ len : Nat) (lines : List Nat) :
    List Incoming × Option (List Nat × Nat) :=
  let mine (i : Incoming) : Bool := decide (i.key = key) && decide (i.rank = rank) && decide (i.msg = msg)
  let old := (l.find? mine).getD { key, rank, msg, count := 0, first := at_, lines := [] }
  let new := { old with count := old.count + len, first := min old.first at_, lines := distinct (old.lines ++ lines) }
  let rest := l.filter fun i => !mine i
  if total ≤ new.count then (rest, some (new.lines, new.first)) else (rest ++ [new], none)

/-- The number of the next message under ROD from a sending endpoint to the endpoint of a die of this device: the pair orders its messages,
whatever communicators they belong to (R415). -/
def rodTurn (f : Fabric) (source : BitVec 128) (die : Nat) : Nat :=
  (f.rodNext.find? fun p => decide (p.1 = source) && decide (p.2.1 = die)).elim 0 (·.2.2)

/-- The ordering of a SEND message permits its packets an effect: under ROD every earlier message of its pair of endpoints has completed
(R415). -/
def rodPermits (f : Fabric) (m : Communicator) (p : FabricPacket) : Bool :=
  p.kind ≠ .send || m.delivery ≠ 1 || decide (p.msg = rodTurn f p.source (chunkDie p.offset))

/-- A message of a pair of endpoints has completed. -/
def rodStep (f : Fabric) (source : BitVec 128) (die : Nat) : Fabric :=
  { f with rodNext := (source, die, rodTurn f source die + 1) :: f.rodNext.filter fun p => !(decide (p.1 = source) && decide (p.2.1 = die)) }

/-- A packet of a SEND message, or of a chunk's final sum: placed in the local buffer, and once the message is complete, made
visible and acknowledged. -/
def State.placePacket (s : State) (m : Communicator) (p : FabricPacket) : Out :=
  match s.commWrite (chunkDie p.offset) m.tctx m.tenant (m.buf.toNat + p.offset) p.bytes with
  | none => .next (s.droverWait (chunkDie p.offset) m (m.buf.toNat + p.offset) p.bytes.length 5)
  | some (s1, lines) =>
    let r := takePacket s1.fab.receiving p.key p.rank p.msg p.total p.offset p.bytes.length lines
    let s2 := s1.setFab { s1.fab with receiving := r.1 }
    match r.2 with
    | none => .next s2
    | some (all, start) =>
      let s3 := s2.postRange m.mode all
      if p.kind = .result then
        .next (s3.chunkDone m.handle p.step start (if p.late = [] then 0 else 1) 0 p.late)
      else
        let s4 := if m.delivery = 1 then s3.setFab (rodStep s3.fab p.source (chunkDie p.offset)) else s3
        .next (s4.sendMsg { plainMsg .ack m.handle p.rank [] with step := p.step, owner := m.rank, offset := p.offset })

/-- A set-up answer is kept for its set-up (R417). -/
def State.setupAnswer (s : State) (m : Communicator) (p : FabricPacket) : State :=
  let bad := p.nranks ≠ m.nranks || p.clo ≠ m.clo || p.chi ≠ m.chi || p.mode ≠ m.mode || p.rank = m.rank
    || m.answers.any fun a => a.1 = p.rank
  s.putCommunicator { m with answers := m.answers ++ [(p.rank, p.caps)], mismatch := m.mismatch || bad }

/-- The generations that start barriers of a group await here: those of its multi-device commissions that are not final (R368). -/
def State.awaitedGens (s : State) (m : Communicator) : List Nat :=
  (s.comms.filter fun o => o.multi && decide (o.group = m.handle) && !isFinal o.state).map (·.gen.toNat)

/-- A report or a refusal of a generation is kept: a barrier awaits it, or the generation is one that a packet still to come may carry. Any
other is discarded (R368; log 82). -/
def State.awaits (s : State) (m : Communicator) (gen : Nat) : Bool :=
  if s.awaitedGens m = [] then decide (m.lastgen.toNat < gen) else (s.awaitedGens m).contains gen

/-- FABRIC_PACKET_RECEIVE. A set-up answer is kept for its set-up (R417), a beacon of another device joins those on their
way (R432), a member's report or refusal of a generation is kept for the start barrier (R367, R368), and a marker that reaches an owner
ends its chunk (R422). FZ6-384P has no ports, and receives none (R1). -/
def execFabricPacketReceive (p : FabricPacket) (s : State) : Out :=
  if s.part.is384P then .refused (.notEnabled "FABRIC_PACKET_RECEIVE")
  else match p.kind with
  | .setup =>
    match s.fab.comms.find? fun m => decide (m.key = p.key) && !m.ready with
    | none => .refused (.notEnabled "FABRIC_PACKET_RECEIVE")
    | some m => .next (s.setupAnswer m p)
  | .beacon =>
    let g (i : Nat) : W64 := p.caps.getD i 0
    let b : Beacon := { payload := (g 0).setWidth 32, time := g 1, commid := g 2, skid := g 3, sys := true, reached := [] }
    .next (s.setFab { s.fab with beacons := s.fab.beacons ++ [b] })
  | .placed | .refused =>
    match s.commByKey p.key true with
    | none => .refused (.notEnabled "FABRIC_PACKET_RECEIVE")
    | some m =>
      if p.rank = m.rank || decide (m.nranks ≤ p.rank) then .refused (.notEnabled "FABRIC_PACKET_RECEIVE")
      else if !s.awaits m p.gen.toNat then .next s
      else if p.kind = .placed then .next (s.putCommunicator { m with reports := m.reports ++ [(p.rank, p.gen.toNat)] })
      else .next (s.putCommunicator { m with refusals := m.refusals ++ [(p.rank, p.gen.toNat, p.reason)] })
  | .send | .result =>
    match s.commByKey p.key false with
    | none => .refused (.notEnabled "FABRIC_PACKET_RECEIVE")
    | some m =>
      if p.kind = .result && p.failed then .next (s.chunkDone m.handle p.step p.offset 2 p.fcode p.late)
      else if p.bytes = [] || decide (m.buflen.toNat < p.offset + p.bytes.length) || decide (4096 < p.bytes.length) || !rodPermits s.fab m p then
        .refused (.notEnabled "FABRIC_PACKET_RECEIVE")
      else s.placePacket m p

/-! ## Reduce crews (R362, R420) -/

/-- REDUCE_CREW_DISPATCH: a counter that has reached zero enters the scheduler as a commission of one crew of one 32-lane
skein, in the communicator's tenant and context, at priority 0. -/
def execReduceCrewDispatch (ctr : Nat) (s : State) : Out :=
  match s.fab.counters.find? fun k => k.id = ctr with
  | none => .refused (.notEnabled "REDUCE_CREW_DISPATCH")
  | some k =>
    match s.commByHandle k.comm with
    | none => .refused (.notEnabled "REDUCE_CREW_DISPATCH")
    | some m =>
      if !k.part || k.own.isNone || k.flushed || k.sent then .refused (.notEnabled "REDUCE_CREW_DISPATCH")
      else
        let c := { Commission.empty with
          uid := s.nextReady, key := ⟨m.tctx, 0⟩, tenant := m.tenant, contract := m.agreed, named := m.agreed,
          diemask := 2 ^ chunkDie k.offset, vregs := 16, state := .admitted, tadmit := BitVec.ofNat 64 s.time, drover := some ctr,
          lastCore := Config.cores - 1 }
        .next { (s.putCounter { k with sent := true }) with comms := s.comms ++ [c], nextReady := s.nextReady + 1 }

/-- The sum of a chunk, element by element (R93, R420). -/
def sumChunk (contract : Nat) (f : Fmt) (xs ys : List Byte) : List Byte :=
  let n := fmtBits f / 8
  (List.range (xs.length / max 1 n)).flatMap fun i =>
    leBytes n (collAdd contract f (leNat ((xs.drop (n * i)).take n)) (leNat ((ys.drop (n * i)).take n)))

/-- What the work of a reduce crew gives: a wait for a translation, or its end. -/
inductive Reduced
  | wait (s : State)
  | ended (s : State)
  deriving DecidableEq, Repr

/-- A page with a stamp that a reduce crew's accesses do not match: they are lane accesses of the collective's format, and compare with the
agreed contract (R90, R93). -/
def stampDenies (f : Fmt) (agreed : Nat) (ls : List (Nat × Leaf)) : Bool :=
  isFloat f && ls.any fun p => p.2.stamp ≠ 0 && p.2.stamp ≠ agreed

/-- A reduce crew's work in context c: the partial and the contribution read, the sums written, and the Drover's hand-on; an
address that cannot be reached or read ends the chunk FAILED (R420). -/
def State.reduceWork (s : State) (c : Nat) (k : Counter) (m : Communicator) : Reduced :=
  let stage := m.stage.toNat + k.offset
  let fail (s : State) : Reduced :=
    .ended (((s.sendOn m k true [] k.late 3).dropCounter k.id).foldDone (k.op.getD 0) 2 3)
  match s.reachRange c stage k.chunk 1 .write false [] with
  | .inr (.wait s1) => .wait s1
  | .inr (.trap s1 _) => fail s1
  | .inr (.ok s1 _ _) => fail s1
  | .inl (s1, ls) =>
    match s1.reachRange c k.src.toNat k.chunk 0 .read false ls with
    | .inr (.wait s2) => .wait s2
    | .inr (.trap s2 _) => fail s2
    | .inr (.ok s2 _ _) => fail s2
    | .inl (s2, qs) =>
      let at_ (va i : Nat) : Nat := pageAddr qs (va + i)
      let is := List.range k.chunk
      if stampDenies k.fmt m.agreed qs then fail s2
      else if s2.sendBusy m k.owner k.offset k.step
          || is.any (fun i => s2.lineBusy (lineOf (at_ stage i)) || s2.lineBusy (lineOf (at_ k.src.toNat i))) then .wait s2
      else if is.any fun i => s2.poisoned (at_ stage i) 1 || s2.poisoned (at_ k.src.toNat i) 1 then fail s2
      else
        let xs := is.map fun i => memByte s2.mem (at_ stage i)
        let sum := sumChunk m.agreed k.fmt xs (k.own.getD [])
        let s3 := (s2.sliceReads (coreOf c) (is.map (at_ stage))).writeBytes (sum.zipIdx.map fun p => (at_ stage p.2, p.1))
        .ended (((s3.sendOn m k false sum k.late).dropCounter k.id).foldDone (k.op.getD 0) 0 0)

end Sys2Proof.Machine
end

