-- ==== Sys2Proof/Machine/Crews.lean ====
section
/-! DEFINITION. The end of skeins and crews, and the memory system's own steps (05 R144; 06 R164 to R167; 11 R309, R312, R325,
R326; 14 R387). -/

namespace Sys2Proof.Machine

/-! ## Engine operations of a crew (R365) -/

/-- A Loom operation of a crew is queued or runs. -/
def State.loomBusy (s : State) (n : Nat) : Bool := (s.loom (s.crew n).core).ops.any fun p => p.2.crew = n
/-- Some engine operation of a crew has not ended. -/
def State.crewOps (s : State) (n : Nat) : Bool :=
  s.loomBusy n || (s.copies.any fun y => y.crew = n) || (s.fab.ops.any fun o => o.crew = n) || !(s.crew n).tileOps.isEmpty
    || s.host.saved.any fun v => v.crew = n && !v.copies.isEmpty

/-- A crew holds its core's lines and slots: it is resident, or operations of it still reach them (R144). -/
def State.holds (s : State) (n : Nat) (w : Crew) : Bool := w.status = .running || (w.status = .ended && s.crewOps n)

/-! ## The end of a crew (R144, R247, R296, R354) -/

def commTotal (m : Commission) : Nat := m.nx * m.ny * m.nz

/-- Every crew of a commission has been placed and has ended: it drains (R354). -/
def drains (m : Commission) : Commission :=
  if decide (m.state = .running) && decide (m.placed = commTotal m) && decide (m.ended = commTotal m) then { m with state := .draining } else m

/-- The commission of a crew, by its place in the table. -/
def State.crewComm (s : State) (n : Nat) : Commission := s.commission (s.crew n).comm

/-- A crew's last skein has ended: its open copies are cancelled, its beam sets and standing leave return. What its core still buffers of
it, a trap frame among it, is performed, so that it comes before the retirement (R336). -/
def State.endCrew (s : State) (n : Nat) : State :=
  let w := s.crew n
  let opened := s.copies.filter fun y => decide (y.crew = n) && !y.started && !y.cancelled
  let s1 := opened.foldl State.cancelCopy (s.sgbDrainCore w.core)
  let s2 := s1.setStanding n 0 (s1.crew n).standHeld
  let s3 := s2.setCrew n { s2.crew n with status := .ended, saveKind := 0 }
  let s4 := s3.setLoom w.core (freeSetsOf (s3.loom w.core) n)
  let m := s.crewComm n
  s4.setComm (drains { m with ended := m.ended + 1 })

/-- A crew without skeins ends. -/
def State.checkCrew (s : State) (n : Nat) : State :=
  if decide ((s.crew n).status = .running) && (s.crewCtxs n).isEmpty then s.endCrew n else s

/-! ## The end of a skein (R144, R164, R166) -/

/-- An index stays reserved for a child 0 that has ended, or is free again (R13). -/
def State.reserveIndex (s : State) (n i : Nat) (keep : Bool) : State :=
  let w := s.crew n
  let rest := w.reserved.filter (· ≠ i)
  s.setCrew n { w with reserved := if keep then rest ++ [i] else rest }

/-- A child of a family has ended: when all have, the parent skein ends in turn; otherwise the FUSE may complete (R167). -/
def endChild : Nat → State → Nat → Nat → State
  | 0, s, _, _ => s
  | fuel + 1, s, fam, child =>
    let f := smGet Family.empty s.families fam
    let f1 := { f with ended := f.ended ++ [child] }
    if f1.ended.length < f.n then
      let s1 := if child = 0 then s.reserveIndex f.crew f.index true else s
      State.checkFuse { s1 with families := smPut s1.families fam f1 } fam
    else
      let s1 := { s with families := smDel s.families fam }
      match f.up with
      | [] => s1.reserveIndex f.crew f.index false
      | l :: _ => endChild fuel (s1.reserveIndex f.crew f.index (l.child = 0)) l.family l.child

/-- A skein ends: its context returns, and its crew's barriers, families and end are settled. -/
def State.endSkein (s : State) (c : Nat) : State :=
  let x := s.ctx c
  let s1 := s.freeCtx c
  let s2 := match x.splits with
    | [] => s1
    | l :: _ => endChild 6 s1 l.family l.child
  (s2.checkBarrier x.crew 0).checkCrew x.crew

/-! ## Slots (R369, R370) -/

/-- The tenant that a valid tenant-map entry names (R369). -/
def tmapTenant (w : W16) : Option Nat := if bitOf w.toNat 15 then some (w.toNat % 256) else none

/-- The tenant that entry j of a tenant map stands for; a second entry for one tenant is unused (R369). -/
def mapTenant (k : CoreSt) (j : Nat) : Option Nat :=
  let t (i : Nat) : Option Nat := tmapTenant (k.tmap.getD i 0)
  if (t j).isSome && ((List.range j).any fun i => t i = t j) then none else t j

/-- Entries take a value; reserved bits stay zero. -/
def putEntry (k : CoreSt) (off : Nat) (v : W16) : CoreSt :=
  if off < 64 then
    { k with slottab := listSet (listSet k.slottab off (v.setWidth 8 &&& 0x8F)) (off + 1) ((v >>> 8).setWidth 8 &&& 0x8F) }
  else { k with tmap := listSet k.tmap ((off - 64) / 2) (v &&& 0xC0FF) }

/-- A core's tables as they rule this cycle: with the writes whose cycle has come (R369). -/
def State.tables (s : State) (core : Nat) : CoreSt :=
  let k := s.core core
  let k1 := (k.later.filter fun p => decide (p.1 ≤ s.dev.cycle)).foldl (fun k p => putEntry k p.2.1 p.2.2) k
  { k1 with later := k.later.filter fun p => !decide (p.1 ≤ s.dev.cycle) }

/-- The entry of the slot table for this cycle, and whether other tenants may take the cycle: its entry is invalid, names no tenant, or
names one that lets its cycles go (R370). -/
def State.slotNow (s : State) (core : Nat) : Nat := ((s.tables core).slottab.getD (s.dev.cycle % 64) 0).toNat
def State.slotFree (s : State) (core : Nat) : Bool :=
  let k := s.tables core; let e := s.slotNow core; let j := bitsOf e 3 0
  !bitOf e 7 || (mapTenant k j).isNone || bitOf (k.tmap.getD j 0).toNat 14
/-- The tenant whose slot this cycle is. -/
def State.slotOwner (s : State) (core : Nat) : Option Nat :=
  let e := s.slotNow core
  if bitOf e 7 then mapTenant (s.tables core) (bitsOf e 3 0) else none
/-- A tenant may have this cycle of a core: it is its own, or it is free and the tenant is listed. -/
def State.slotMay (s : State) (core tenant : Nat) : Bool :=
  decide (s.slotOwner core = some tenant)
    || (s.slotFree core && (List.range 16).any fun j => mapTenant (s.tables core) j = some tenant)

/-- SKEIN_END: after EXIT, once the lanes' work is done and the counters are 0. Until then the stores that the core's buffer
holds of the skein drain (R312). A reduce crew's skein does the crew's work here, in a cycle that its tenant may have (R420). -/
def execSkeinEnd (c : Nat) (s : State) : Out :=
  let x := s.ctx c
  if !x.live || !x.exited || x.handler || x.pend.isSome || x.stopped || (s.bench (benchOf c)).stopped
      || !x.queue.isEmpty || !x.unret.isEmpty then .refused (.notEnabled "SKEIN_END")
  else if x.out.any fun o => o.lines ≠ [] then .next (s.sgbDrainCtx c)
  else if x.out ≠ [] then .refused (.notEnabled "SKEIN_END")
  else
    match (s.commOf c).drover with
    | none => .next (s.endSkein c)
    | some ctr =>
      if !s.slotMay (coreOf c) (s.commOf c).tenant then .refused (.notEnabled "SKEIN_END")
      else
      let mine := (s.commOf c).uid
      let drop (s : State) : State := { s with comms := s.comms.filter fun o => o.uid ≠ mine }
      match s.fab.counters.find? fun k => k.id = ctr with
      | none => .next (drop (s.endSkein c))
      | some k =>
        match s.commByHandle k.comm with
        | none => .next (drop (s.endSkein c))
        | some m =>
          match s.reduceWork c k m with
          | .wait s1 => .next s1
          | .ended s1 => .next (drop (s1.endSkein c))

/-! ## Walks (R325, R326) -/

/-- A request of the memory system is replaced, or dropped. -/
def State.setWalk (s : State) (r : WalkReq) (new : Option WalkReq) : State :=
  { s with ms := { s.ms with walks := s.ms.walks.filterMap fun q => if q = r then new else some q } }

/-- The translation that a walk obtained fills the die's cache, and those of the contexts that waited for it. -/
def State.fillWalk (s : State) (r : WalkReq) (l : Leaf) : State :=
  let va := 4096 * r.page
  (r.waiters.filter (· < Config.contexts)).foldl (fun s c => if dieOf c = r.die then s.tlbFill c r.tctx va l else s)
    (s.tlbAdd (.die r.die) r.tctx va l)

/-- A walk ends: in a translation, in a page request, or without either (R315, R323, R326). Its reads have reached the memory system. -/
def State.endWalk (s : State) (r : WalkReq) : State :=
  let va := 4096 * r.page
  let (e, steps) := s.dieWalk r.die r.tctx va
  let s1 := s.walkReads r.die r.tctx va steps
  match e with
  | .busy => s
  | .leaf l => ((s1.setWalk r none).fillWalk r l).draw.2
  | .malformed => s1.setWalk r (some { r with status := .failed })
  | .error => s1.setWalk r (some { r with status := .error })
  | .invalid => (s1.setWalk r (some { r with status := .posted })).postPage r

/-- TRANSLATION_WALK: one of the walks that a die runs ends; one whose entry lies in a line that a copy owns goes on (R342). -/
def execTranslationWalk (die pos : Nat) (s : State) : Out :=
  let due := s.ms.walks.filter fun r => decide (r.die = die) && decide (r.status = .due)
  if Config.walksPerDie ≤ pos then .refused (.notEnabled "TRANSLATION_WALK")
  else
    match due[pos]? with
    | none => .refused (.notEnabled "TRANSLATION_WALK")
    | some r =>
      if (s.dieWalk r.die r.tctx (4096 * r.page)).1 = .busy then .refused (.notEnabled "TRANSLATION_WALK") else .next (s.endWalk r)

/-! ## Fetch swap-outs (R387) -/

/-- The posted request that a context's fetch waits for, and whether its lane stream waits. -/
def State.fetchWait (s : State) (c : Nat) : Option (WalkReq × Bool) :=
  let x := s.ctx c
  let tctx := (s.commOf c).key.ctx
  let waits (va : Nat) : Option WalkReq := s.ms.walks.find? fun r =>
    decide (r.tctx = tctx) && decide (r.page = va / 4096) && decide (r.status = .posted) && r.waiters.contains c
  let lane := match x.queue with
    | e :: _ => if e.started && decide (e.word < e.len) && !x.handler then
        ((waits (laneAddr x).toNat).orElse fun _ => waits ((laneAddr x).toNat + 11)) else none
    | [] => none
  match (if x.exited && !x.handler then none else (waits x.pc.toNat).orElse fun _ => waits (x.pc.toNat + 4)) with
  | some r => some (r, false)
  | none => lane.map fun r => (r, true)

/-- FETCH_SWAP_OUT: the crew of a context whose fetch faulted is to be saved with kind SWAP; the fetching skein stops before
the word, and no discard applies to it. -/
def execFetchSwapOut (c : Nat) (s : State) : Out :=
  let x := s.ctx c
  if !x.live || x.stopped then .refused (.notEnabled "FETCH_SWAP_OUT")
  else
    match s.fetchWait c with
    | none => .refused (.notEnabled "FETCH_SWAP_OUT")
    | some (r, lane) =>
      let w := s.crew x.crew
      let held : FetchWait := { who := 2 * x.index + bnum lane, page := r.page, denied := false }
      let s1 := s.setWalk r (some { r with waiters := distinct ((r.waiters.filter (· ≠ c)) ++ [crewWaiter x.crew]) })
      let s2 := s1.setCrew x.crew { w with saveKind := if w.saveKind = 0 then 2 else w.saveKind, fetches := w.fetches ++ [held] }
      let s3 := s2.setCtx c { s2.ctx c with stopped := true, preempt := none }
      .next (s3.requestStops ((s3.crewCtxs x.crew).filter (· ≠ c)))

/-! ## Buffers, slices (R309, R312) -/

/-- SGB_IDLE_DRAIN: an entry that has not been written for 128 cycles drains. -/
def execSgbIdleDrain (core line : Nat) (s : State) : Out :=
  match s.sgbFind core line with
  | none => .refused (.notEnabled "SGB_IDLE_DRAIN")
  | some e =>
    if s.dev.cycle < e.last + 128 then .refused (.notEnabled "SGB_IDLE_DRAIN") else .next (s.sgbDrain core line)

/-- MERGE_WINDOW_EXPIRY: 64 cycles after its miss a window closes. -/
def execMergeWindowExpiry (line : Nat) (s : State) : Out :=
  let due (w : MergeWindow) : Bool := decide (w.line = line) && !w.closed && decide (w.opened + 64 ≤ s.dev.cycle)
  if s.ms.windows.any due then
    .next { s with ms := { s.ms with windows := s.ms.windows.map fun w => if due w then { w with closed := true } else w } }
  else .refused (.notEnabled "MERGE_WINDOW_EXPIRY")

/-- HBM_READ_RETURN: the oldest HBM read of a line returns to its slice and to every core that joined it, once its window has closed or
has stood for 64 cycles. -/
def execHbmReadReturn (line : Nat) (s : State) : Out :=
  match s.ms.windows.find? fun w => w.line = line with
  | none => .refused (.notEnabled "HBM_READ_RETURN")
  | some w =>
    if !w.closed && decide (s.dev.cycle < w.opened + 64) then .refused (.notEnabled "HBM_READ_RETURN")
    else .next (State.l2Hold { s with ms := { s.ms with windows := s.ms.windows.erase w } } line)

end Sys2Proof.Machine
end

