-- ==== Sys2Proof/Machine/Place.lean ====
section
/-! DEFINITION. Crew placement: room on cores, the order of commissions, and what a placed crew starts with (13 R356, R360 to
R364; 01 R44 to R46). -/

namespace Sys2Proof.Machine

/-! ## Room on a core (R12, R360) -/

/-- What a core has free: its crews, the scratchpad runs and tile slots in use, and for each bench the strands in use and the
free contexts. -/
structure Room where
  core : Nat
  crews : Nat
  lines : List (Nat × Nat)
  slots : List Nat
  strands : List (List Nat)
  ctxs : List (List Nat)
  deriving DecidableEq, Repr

/-- The strands in use on a bench: those of its skeins, and those reserved for ended siblings (R144). -/
def State.strandsOf (s : State) (b : Nat) : List Nat :=
  ((s.ctxs.filter fun p => p.2.live && decide (benchOf p.1 = b)).flatMap fun p =>
      (List.range (lanesOf p.2.width / 4)).map (p.2.strand.toNat + ·))
    ++ (s.families.filter fun f => decide (f.2.bench = b) && decide ((s.crew f.2.crew).status = .running)).flatMap fun f =>
      let w := lanesOf f.2.wcode / 4
      f.2.ended.flatMap fun j => (List.range w).map (f.2.pStrand.toNat + j * w + ·)

def State.room (s : State) (core : Nat) : Room :=
  let here := (s.crews.filter fun p => decide (p.2.core = core) && s.holds p.1 p.2).map (·.2)
  { core, crews := here.length, lines := here.map fun w => (w.baseLine, w.nLines), slots := here.flatMap (·.rename),
    strands := (List.range 4).map fun b => s.strandsOf (4 * core + b), ctxs := (List.range 4).map fun b => s.freeCtxs (4 * core + b) }

/-- An empty core. -/
def Room.bare (core : Nat) : Room :=
  { core, crews := 0, lines := [], slots := [], strands := List.replicate 4 [],
    ctxs := (List.range 4).map fun b => (List.range 32).map (32 * (4 * core + b) + ·) }

/-- The lowest base line from which n lines are free. -/
def freeBase (used : List (Nat × Nat)) (n : Nat) : Option Nat :=
  if n = 0 then some 0
  else
    let ok (b : Nat) : Bool := decide (b + n ≤ Config.spadLines) && used.all fun u => decide (u.1 + u.2 ≤ b) || decide (b + n ≤ u.1)
    (0 :: used.map (fun u => u.1 + u.2)).foldl (fun (m : Option Nat) b =>
      if ok b then some (match m with
        | some a => min a b
        | none => b) else m) none

/-- The lowest aligned run of k free strands on a bench. -/
def freeRun (used : List Nat) (k : Nat) : Option Nat :=
  ((List.range (64 / max 1 k)).map (k * ·)).find? fun f => (List.range k).all fun i => !used.contains (f + i)

/-- A seat: core-relative bench, first strand, contexts. -/
structure Seat where
  bench : Nat
  strand : Nat
  ctxs : List Nat
  deriving DecidableEq, Repr

/-- The bench for k strands and n contexts: the most free strands, ties to the lowest (R361). -/
def pickBench (r : Room) (k n : Nat) : Option (Nat × Nat) :=
  (List.range 4).foldl (fun (best : Option (Nat × Nat)) b =>
    let used := r.strands.getD b []
    match freeRun used k with
    | some f =>
      if (r.ctxs.getD b []).length < n then best
      else match best with
        | some (b0, _) => if used.length < (r.strands.getD b0 []).length then some (b, f) else best
        | none => some (b, f)
    | none => best) none

/-- A seat taken. -/
def takeSeat (r : Room) (k n : Nat) : Option (Room × Seat) :=
  (pickBench r k n).map fun p =>
    let free := r.ctxs.getD p.1 []
    ({ r with strands := listSet r.strands p.1 ((List.range k).map (p.2 + ·) ++ r.strands.getD p.1 []),
              ctxs := listSet r.ctxs p.1 (free.drop n) },
     { bench := p.1, strand := p.2, ctxs := free.take n })

/-- Seats for units of strands and contexts, in order. -/
def takeSeats : Room → List (Nat × Nat) → Option (Room × List Seat)
  | r, [] => some (r, [])
  | r, (k, n) :: rest =>
    match takeSeat r k n with
    | none => none
    | some (r1, x) => (takeSeats r1 rest).map fun p => (p.1, x :: p.2)

/-- A place for a crew: core, base line, physical slots, seats. -/
structure Spot where
  core : Nat
  base : Nat
  slots : List Nat
  seats : List Seat
  deriving DecidableEq, Repr

/-- A crew fits on a core (R360). -/
def fitCrew (r : Room) (nLines nSlots : Nat) (units : List (Nat × Nat)) : Option (Room × Spot) :=
  let slots := ((List.range Config.tileSlots).filter fun i => !r.slots.contains i).take nSlots
  if Config.crewsPerCore ≤ r.crews || decide (slots.length < nSlots) then none
  else match freeBase r.lines nLines, takeSeats r units with
    | some base, some (r1, seats) =>
      some ({ r1 with crews := r.crews + 1, lines := (base, nLines) :: r.lines, slots := slots ++ r.slots },
            { core := r.core, base, slots, seats })
    | _, _ => none

/-! ## Cores (R361, R364, R370) -/

/-- A core's tenant map lists a tenant. -/
def State.lists (s : State) (core tenant : Nat) : Bool := (s.tables core).tmap.any fun w => tmapTenant w = some tenant

/-- Cores in the order of the scan: from the one after the last, wrapping. -/
def scanCores (last : Nat) : List Nat := (List.range Config.cores).map fun i => (last + 1 + i) % Config.cores

/-- The order of commissions (R356): priority, children of LAUNCH first, then the order of becoming READY; reduce crews ahead
of all (R362). -/
def commRank (m : Commission) : Nat :=
  if m.drover.isSome then 0 else 1 + m.prio * 2 ^ 65 + (if m.fromLaunch then 0 else 2 ^ 64) + m.readySeq

/-- A co-operative commission o waits ahead of m, so that the resources of its dies are held against m (R364). -/
def heldBy (o m : Commission) : Bool :=
  decide (o.state = .ready) && o.waiting && decide (o.uid ≠ m.uid)
    && (if m.waiting then decide (commRank o < commRank m) else decide (o.prio ≤ m.prio))

/-- Dies held against a commission (R364). -/
def State.heldDies (s : State) (m : Commission) : List Nat :=
  (s.comms.filter fun o => heldBy o m).flatMap fun o => (List.range 4).filter fun d => bitOf o.diemask d

/-- The cores of a commission's dies whose tenant map lists its tenant, in the order of the scan (R361). -/
def State.coresOf (s : State) (m : Commission) : List Nat :=
  (scanCores m.lastCore).filter fun k => bitOf m.diemask (dieOfCore k) && s.lists k m.tenant

/-- The cores that a commission's crews may take now, in order. -/
def State.coresFor (s : State) (m : Commission) : List Nat :=
  let held := if m.drover.isSome then [] else s.heldDies m
  (s.coresOf m).filter fun k => !held.contains (dieOfCore k)

/-- The lines, slots and units of a new crew. -/
def linesOf (m : Commission) : Nat := (m.scratch + 127) / 128
def unitsOf (m : Commission) : List (Nat × Nat) := List.replicate m.nskein (lanesOf m.width / 4, 1)

/-- The first core that fits. -/
def firstFit (room : Nat → Room) (cores : List Nat) (nLines nSlots : Nat) (units : List (Nat × Nat)) : Option (Room × Spot) :=
  cores.findSome? fun k => fitCrew (room k) nLines nSlots units

/-- The plan of n crews together, each core's room as the crews before leave it (R363). -/
def planCrews (m : Commission) (base : Nat → Room) (cores : Nat → List Nat) : Nat → Nat → List Room → Option (List Spot)
  | 0, _, _ => some []
  | n + 1, last, taken =>
    let room (k : Nat) : Room := (taken.find? fun r => r.core = k).getD (base k)
    match firstFit room (cores last) (linesOf m) m.slots (unitsOf m) with
    | none => none
    | some (r, x) => (planCrews m base cores n r.core (r :: taken.filter fun q => q.core ≠ r.core)).map (x :: ·)

/-- The crews of a co-operative commission all fit: now, or with every core empty. -/
def State.coopPlan (s : State) (m : Commission) (bare : Bool) : Option (List Spot) :=
  let cores (last : Nat) : List Nat := if bare then s.coresOf { m with lastCore := last } else s.coresFor { m with lastCore := last }
  planCrews m (if bare then Room.bare else s.room) cores (commTotal m) m.lastCore []

/-! ## A crew in place (R44 to R46, R223, R314, R318) -/

/-- The seed of a lane's generator (R223). -/
def seedOf (m : Commission) (x y z i l : Nat) : W64 :=
  let c := (x + m.nx * (y + m.ny * z)) % 2 ^ 19
  let v := (Nat.xor m.key.id.toNat 0x6A09E667) * 2 ^ 32 + c * 2 ^ 13 + i % 128 * 2 ^ 6 + l % 64
  if v = 0 then 0x8000000000000000 else BitVec.ofNat 64 v

/-- The next placement tag of a core, skipping those that its crews hold (R318). -/
def nextTag (held : List Nat) : Nat → Nat → Nat
  | 0, t => t
  | fuel + 1, t => if held.contains t then nextTag held fuel (t % 4095 + 1) else t
def State.takeTag (s : State) (core : Nat) : Nat × State :=
  let held := (s.crews.filter fun p => decide (p.2.core = core) && s.holds p.1 p.2).map (·.2.ptag)
  let t := nextTag held 4096 (s.core core).ptagCtr
  (t, s.setCore core { s.core core with ptagCtr := t % 4095 + 1 })

/-- Storage zeroed from an address upward. -/
def State.zeroRange (s : State) (a n : Nat) : State :=
  { s with mem := s.mem.filter fun c => decide (c.1 < a) || decide (a + n ≤ c.1),
           ms := { s.ms with poison := s.ms.poison.filter fun w => decide (4 * w + 4 ≤ a) || decide (a + n ≤ 4 * w) } }

/-- A crew's scratchpad lines zero and full with tag 0, its tile slots zero (R45, R228). -/
def State.clearStores (s : State) (core base n : Nat) (slots : List Nat) : State :=
  let s1 := s.zeroRange (spadBase core + 128 * base) (128 * n)
  let first := (spadBase core + 128 * base) / 128
  let s2 := { s1 with lineSt := s1.lineSt.filter fun p => decide (p.1 < first) || decide (first + n ≤ p.1) }
  slots.foldl (fun s i => s.zeroRange (tileBase core + 4096 * i) 4096) s2

/-- Every v-register of a bench's strands zero (R44), and their generators free for a seed. -/
def State.clearStrands (s : State) (b first n : Nat) : State :=
  let lo := 256 * b + 4 * first; let hi := lo + 4 * n
  { s with vregs := s.vregs.filter fun p => decide (p.1 < 256 * lo) || decide (256 * hi ≤ p.1),
           ms := { s.ms with badRegs := s.ms.badRegs.filter fun r => decide (r < vWord (256 * lo)) || decide (vWord (256 * hi) ≤ r) },
           gens := s.gens.filter fun p => decide (p.1 < lo) || decide (hi ≤ p.1) }

/-- A skein of a new crew starts (R44, R223). A reduce crew's skein runs the Drover's own kernel (R420). -/
def State.startSkein (s : State) (m : Commission) (n i x y z core : Nat) (seat : Seat) : State :=
  let b := 4 * core + seat.bench
  let c := seat.ctxs.headD 0
  let entry := BitVec.ofNat 64 (secOf m 0).1
  let k : Skein := { Skein.empty with
    live := true, crew := n, index := i, pc := entry, width := m.width, strand := BitVec.ofNat 6 seat.strand, base := onesW m.width,
    region := Region.entry entry, age := n, exited := m.drover.isSome, stopped := m.multi && !m.startOk }
  let s1 := ((s.clearStrands b seat.strand (lanesOf m.width / 4)).cleanWords ((List.range 64).map (kWord c))).setCtx c k
  (List.range (lanesOf m.width)).foldl (fun s l => { s with gens := smSet 0 s.gens (256 * b + 4 * seat.strand + l) (seedOf m x y z i l) }) s1

/-- The next crew of a commission starts at a spot. The first on a core drops its L1 (R314); the start is an acquire of scope
sys (R336). -/
def State.placeCrew (s : State) (m : Commission) (p : Spot) : State :=
  let n := s.nextCrew
  let lin := m.placed
  let x := lin % m.nx; let y := lin / m.nx % m.ny; let z := lin / (m.nx * m.ny)
  let (tag, s1) := s.takeTag p.core
  let w : Crew := { Crew.empty with
    comm := m.uid, x, y, z, lin, core := p.core, baseLine := p.base, nLines := linesOf m, ptag := tag, rename := p.slots,
    slots := List.replicate m.slots Slot.fresh }
  let m1 := { m with placed := m.placed + 1, lastCore := p.core, seen := if m.seen.contains p.core then m.seen else p.core :: m.seen,
                     started := m.started + (if m.multi && !m.startOk then 0 else 1),
                     state := if m.multi && !m.startOk then m.state else .running }
  let s2 := ({ s1 with nextCrew := n + 1, crews := smPut s1.crews n w }.setComm m1).clearStores p.core p.base (linesOf m) p.slots
  let s3 := if m.seen.contains p.core then s2 else s2.l1Drop p.core 0 (2 ^ 37)
  ((p.seats.zipIdx).foldl (fun s q => s.startSkein m n q.2 x y z p.core q.1) s3).acquireRanges p.core

/-- Crews placed one after another. -/
def State.placeAll (s : State) (uid : Nat) (ps : List Spot) : State := ps.foldl (fun s p => s.placeCrew (s.commission uid) p) s

/-! ## The order of commissions (R356) -/

/-- The first of a list in the order. -/
def firstComm (ms : List Commission) : Option Commission :=
  ms.foldl (fun (b : Option Commission) m => match b with
    | some a => if commRank m < commRank a then some m else b
    | none => some m) none

/-- Commissions in the order. -/
def orderComms (ms : List Commission) : List Commission := sortBy (fun a b => decide (commRank a ≤ commRank b)) ms

/-- A commission has a crew to place. -/
def wantsCrew (m : Commission) : Bool := (m.state = .admitted || m.state = .running) && decide (m.placed < commTotal m)

/-! ## Saved crews that wait to be placed again (R400) -/

/-- The run of strands that a skein's top skein had, by 64 bench + strand, and its lanes (R163). -/
def topRun (c : Nat) (x : Skein) : Nat × Nat :=
  match x.splits.getLast? with
  | some l => (64 * benchOf c + l.strand.toNat, lanesOf l.width)
  | none => (64 * benchOf c + x.strand.toNat, lanesOf x.width)

/-- The top skeins of a saved crew: their old runs, lanes, and the old contexts of what they have split into. -/
def savedRuns (ks : SMap Skein) : List (Nat × Nat × List Nat) :=
  let by_ := sortBy (fun a b => decide (a.2.index ≤ b.2.index)) ks
  (distinct (by_.map fun p => (topRun p.1 p.2).1)).map fun r =>
    let mine := by_.filter fun p => (topRun p.1 p.2).1 = r
    (r, ((mine.map fun p => (topRun p.1 p.2).2).headD 0), mine.map (·.1))

/-- A place for a saved crew, under R360 and R361. -/
def State.spotFor (s : State) (v : SavedCrew) : Option (Room × Spot) :=
  let w := s.crew v.crew
  firstFit s.room (s.coresFor (s.commission w.comm)) w.nLines w.slots.length
    ((savedRuns v.skeins).map fun u => (u.2.1 / 4, u.2.2.length))

/-- Saved crews that may be placed again. -/
def State.restorable (s : State) : List SavedCrew :=
  s.host.saved.filter fun v => !v.held && decide ((s.crew v.crew).status = .readyAgain)

/-- CREW_PLACE: the first next crew that fits, in the order of R356. A saved crew of its priority or above that fits comes
first. -/
def execCrewPlace (s : State) : Out :=
  let tries := orderComms (s.comms.filter wantsCrew)
  match tries.findSome? fun m => (firstFit s.room (s.coresFor m) (linesOf m) m.slots (unitsOf m)).map fun r => (m, r.2) with
  | none => .refused (.notEnabled "CREW_PLACE")
  | some (m, p) =>
    if m.drover.isNone && s.restorable.any fun v =>
        decide ((s.commission (s.crew v.crew).comm).prio ≤ m.prio) && (s.spotFor v).isSome then .refused (.notEnabled "CREW_PLACE")
    else .next (s.placeCrew m p)

/-! ## Co-operative reservations (R363, R364, R367) -/

/-- A message of the scheduler to every other member of a group (R366 to R368). -/
def State.tellGroup (s : State) (kind : TxKind) (cm : Communicator) (bytes : List Byte) : State :=
  ((List.range cm.nranks).filter (· ≠ cm.rank)).foldl (fun s r => s.sendMsg (plainMsg kind cm.handle r bytes)) s

/-- "placed, GEN" to every other member of the group (R367). -/
def State.reportPlaced (s : State) (m : Commission) : State :=
  match s.commByHandle m.group with
  | none => s
  | some cm => s.tellGroup .placed cm (leBytes 4 m.gen.toNat)

/-- A commission that its checks refuse; the members of a multi-device launch learn of it (R368). -/
def State.refuse (s : State) (m : Commission) (reason : Nat) : State :=
  let s1 := s.finish m .refused reason
  match (if m.multi then s1.commByHandle m.group else none) with
  | none => s1
  | some cm => if cm.group then s1.tellGroup .refused cm (leBytes 4 m.gen.toNat ++ [BitVec.ofNat 8 reason]) else s1

/-- A group takes the generation of a packet that it has admitted (R367). -/
def State.takeGen (s : State) (m : Commission) : State :=
  match s.commByHandle m.group with
  | some cm => s.putCommunicator { cm with lastgen := m.gen }
  | none => s

/-- A reservation of every crew succeeds: the crews start at once, or at the start barrier of a multi-device launch. -/
def State.reserve (s : State) (m : Commission) (ps : List Spot) : State :=
  let m1 := { m with state := .admitted, reserved := true, waiting := false, tadmit := BitVec.ofNat 64 s.time }
  let s1 := (s.setComm m1).placeAll m.uid ps
  if m.multi then (s1.takeGen m).reportPlaced m else s1

/-- A crew that goes ahead of a co-operative reservation has a place: a waiting reduce crew (R362), or a saved crew of the same priority or
a higher one (R400). -/
def State.aheadOfCoop (s : State) (m : Commission) : Bool :=
  ((s.comms.filter fun o => wantsCrew o && o.drover.isSome).any fun o =>
      (firstFit s.room (s.coresFor o) (linesOf o) o.slots (unitsOf o)).isSome)
    || s.restorable.any fun v => decide ((s.commission (s.crew v.crew).comm).prio ≤ m.prio) && (s.spotFor v).isSome

end Sys2Proof.Machine
end

