-- ==== Sys2Proof/Machine/Admit.lean ====
section
/-! DEFINITION. From intake to the final state: launch slots, admission, retirement, completion records, multi-device start
barriers, slot tables (13 R347 to R370). -/

namespace Sys2Proof.Machine

/-! ## Launch slots (R347, R348, R366, R405) -/

/-- A well-formed packet of a multi-device launch goes to every other member of its group, with the KEY of its communicator (R366). -/
def State.replicate (s : State) (window : Nat) (bytes : List Byte) : State :=
  let p := leNat bytes
  if !bitOf p 303 || packetBad p false then s
  else match s.commByHandle (bitsOf p 431 416) with
    | none => s
    | some cm => if !cm.group || cm.tctx ≠ window then s else s.tellGroup .replica cm (le8 cm.key ++ bytes)

/-- A launch is taken. -/
def State.holdLaunch (s : State) (t : Taken) : State := { s with host := { s.host with taken := s.host.taken ++ [t] } }

/-- LAUNCH_SLOT_WRITE: bytes written into a packet slot; a write that reaches the 8 bytes at 0x78 launches the slot (R347).
fn is the function whose BAR2 is written, 0 for the PF; it accepts the windows of its own contexts only (R405), and none until
bring-up is complete; every other write is discarded. While 1,024 launches are held no write of BAR2 is taken (R348). -/
def execLaunchSlotWrite (fn window slot off : Nat) (bytes : List Byte) (s : State) : Out :=
  let launches := decide (0x78 < off + bytes.length)
  if decide (64 < fn) || decide (4096 ≤ window) || decide (512 ≤ slot) || bytes = [] || decide (128 < off + bytes.length) then
    .refused (.notEnabled "LAUNCH_SLOT_WRITE")
  else if decide (Config.heldLaunches ≤ s.host.taken.length) then .refused (.notEnabled "LAUNCH_SLOT_WRITE")
  else if !s.dev.ready || ctxFunc (s.ctxEntry window) ≠ fn then .next s
  else
    let base := 65536 * window + 128 * slot
    let ws := (bytes.zipIdx).foldl (fun m p => smSet 0 m (base + off + p.2) p.1) s.host.windows
    let s1 := { s with host := { s.host with windows := ws } }
    if !launches then .next s1
    else
      let packet := (List.range 128).map fun i => smGet (0 : Byte) ws (base + i)
      let t : Taken := { window, fromLaunch := none, parent := none, bytes := packet, group := none,
                         valid := ctxValid (s.ctxEntry window), time := s.time }
      .next ((s1.holdLaunch t).replicate window packet)

/-- What a read of n bytes of BAR2 returns: a read of a window returns zero, and so does one of a window that a VF does not hold (R347,
R403, R451). -/
def State.bar2 (_ : State) (_fn _off n : Nat) : List Byte := List.replicate n 0

/-- MULTI_PACKET_REPLICA: a member's copy of a multi-device packet is taken in the context of its own communicator of that
KEY, whose handle stands for GROUP; a member without one refuses it with reason MULTI, and says so with the KEY, GEN and reason (R366 to
R368). FZ6-384P has no ports, and receives none (R1). -/
def execMultiPacketReplica (key : W64) (packet : List Byte) (s : State) : Out :=
  if packet.length ≠ 128 || !bitOf (leNat packet) 303 || s.part.is384P || decide (Config.heldLaunches ≤ s.host.taken.length) then
    .refused (.notEnabled "MULTI_PACKET_REPLICA")
  else match s.commByKey key true with
    | none => .next (s.sendMsg (plainMsg .refused 0 0 (le8 key ++ (packet.drop 48).take 4 ++ [11])))
    | some cm => .next (s.holdLaunch { window := cm.tctx, fromLaunch := none, parent := none, bytes := packet,
                                       group := some cm.handle, valid := ctxValid (s.ctxEntry cm.tctx), time := s.time })

/-! ## What the scheduler reads (R351 to R353) -/

/-- What a read of the scheduler in a commission's context gives: bytes, a denial, a page that is missing, or a line that a
copy still owns. -/
inductive SchedRead
  | ok (bs : List Byte)
  | fault
  | page (va : Nat)
  | busy
  deriving DecidableEq, Repr

/-- The leaves of pages for a read: or the first page that is missing, or none where one denies the read. -/
def State.schedPages (s : State) (tctx tenant : Nat) : List Nat → List (Nat × Leaf) → Sum (List (Nat × Leaf)) (Option Nat)
  | [], ls => .inl ls
  | p :: rest, ls =>
    match s.dieView 0 tctx (4096 * p) with
    | .leaf l => if pageOk l .read tenant (4096 * p) then s.schedPages tctx tenant rest (ls ++ [(p, l)]) else .inr none
    | .invalid => .inr (some (4096 * p))
    | .malformed | .error | .busy => .inr none

/-- A walk that the scheduler's pages need has to wait. -/
def State.schedWaits (s : State) (tctx va n : Nat) : Bool := (pagesOf va n).any fun p => decide (s.dieView 0 tctx (4096 * p) = .busy)

/-- What the scheduler's reads leave in the memory system: walks, and reads of the slices (R307, R325). The scheduler's reads go through
die 0 (log 38). -/
def State.schedTouch (s : State) (tctx tenant va n : Nat) : State :=
  if n = 0 || decide (Config.windowBase < va + n) then s
  else
    let s1 := s.dieTouch 0 tctx ((pagesOf va n).map (4096 * ·))
    match s.schedPages tctx tenant (pagesOf va n) [] with
    | .inl ls => s1.sliceReads (dieReader 0) ((List.range n).map fun i => pageAddr ls (va + i))
    | .inr _ => s1

/-- n bytes at a virtual address as .fresh loads of no core. -/
def State.schedRead (s : State) (tctx tenant va n : Nat) : SchedRead :=
  if n = 0 then .ok []
  else if Config.windowBase < va + n then .fault
  else if s.schedWaits tctx va n then .busy
  else match s.schedPages tctx tenant (pagesOf va n) [] with
    | .inr none => .fault
    | .inr (some p) => .page p
    | .inl ls =>
      let at_ (i : Nat) : Nat := pageAddr ls (va + i)
      if (pageLines ls va n).any s.lineBusy then .busy
      else if (List.range n).any fun i => s.poisoned (at_ i) 1 then .fault
      else .ok ((List.range n).map fun i => memByte s.mem (at_ i))

/-- OFFSET and LENGTH of a section in a header (R351). -/
def secWords (h i : Nat) : Nat × Nat := (bitsOf h (128 * i + 127) (128 * i + 64), bitsOf h (128 * i + 191) (128 * i + 128))

/-- A header is valid (R351, R115, R118). -/
def headerOk (h : Nat) : Bool :=
  let sec := secWords h
  let apart (i j : Nat) : Bool := (sec i).2 = 0 || (sec j).2 = 0 || !overlaps (sec i).1 (sec i).2 (sec j).1 (sec j).2
  bitsOf h 31 0 = 0x4E494D44 && bitsOf h 47 32 = 1 && bitsOf h 63 48 = 128 && bitsOf h 1023 832 = 0
    && (List.range 6).all (fun i => (sec i).1 ≠ 0 && (sec i).1 % 4096 = 0)
    && (List.range 6).all (fun i => (List.range i).all fun j => apart i j)
    && decide (4 ≤ (sec 0).2) && (sec 0).2 % 4 = 0 && (sec 1).2 % 4 = 0 && decide ((sec 1).2 ≤ 2 ^ 28) && (sec 4).2 = 16
    && (sec 5).2 % 16 = 0 && decide ((sec 5).2 ≤ 16 * 16384)

/-- DECL is valid (R352). -/
def declOk (d : Nat) : Bool :=
  bitsOf d 127 105 = 0 && bitsOf d 95 84 = 0 && bitsOf d 63 41 = 0 && bitsOf d 31 22 = 0 && bitsOf d 15 11 = 0 && bitsOf d 7 4 = 0
    && decide (bitsOf d 104 96 ≤ 256) && decide (bitsOf d 83 64 ≤ 524288) && bitsOf d 40 32 % 16 = 0
    && decide (16 ≤ bitsOf d 40 32) && decide (bitsOf d 40 32 ≤ 256) && decide (1 ≤ bitsOf d 21 16)
    && decide (bitsOf d 21 16 ≤ 32) && decide (bitsOf d 10 8 ≤ 4)

/-! ## Admission (R353, R356, R357, R363) -/

/-- The contract of R74 before its check; none where launch and image differ. -/
def contractOf (named declared inherited : Nat) : Option Nat :=
  if named ≠ 0 then (if declared ≠ 0 && declared ≠ named then none else some named)
  else if declared ≠ 0 then some declared else some inherited

/-- The reason with which check 7 fails (R366, R367). -/
def State.multiRefusal (s : State) (m : Commission) : Option Nat :=
  if !m.multi then none
  else match (if s.part.is384P then none else s.commByHandle m.group) with
    | none => some 11
    | some cm =>
      if !cm.group || cm.tctx ≠ m.key.ctx then some 11
      else if m.gen.toNat ≤ cm.lastgen.toNat then some 10 else none

/-- What the checks of a chosen commission end in. -/
inductive Admission
  | refuse (reason : Nat)
  | admitted (m : Commission)
  | reserve (m : Commission) (ps : List Spot)
  | wait (m : Commission)
  | page (va : Nat)
  | busy
  deriving DecidableEq, Repr

/-- Checks 7 and 8 on a commission with its declarations. -/
def State.checkMulti (s : State) (m : Commission) : Admission :=
  match s.multiRefusal m with
  | some r => .refuse r
  | none =>
    if !m.coop then .admitted m
    else if (s.coopPlan m true).isNone then .refuse 5
    else match s.coopPlan m false with
      | some ps => .reserve m ps
      | none => if m.nowait then .refuse 6 else .wait m

/-- The argument block's copies (R129). -/
def argvOf (arglen : Nat) (args : List Byte) : List W64 := (List.range arglen).map fun i => BitVec.ofNat 64 (leNat ((args.drop (8 * i)).take 8))

/-- Checks 5 and 6, with header h, DECL d and the argument block (R44, R74). -/
def State.checkShape (s : State) (m : Commission) (h d : Nat) (args : List Byte) : Admission :=
  let inherited := match m.parent with
    | some n => (s.commission (s.crew n).comm).contract
    | none => 5
  match contractOf m.named (bitsOf d 3 0) inherited with
  | none => .refuse 3
  | some c =>
    if capcOf s.part.torhw (c - 1) = 0 then .refuse 3
    else
      let nskein := if m.nskein = 0 then bitsOf d 21 16 else m.nskein
      let width : BitVec 3 := BitVec.ofNat 3 (if m.widthSel = 0 then bitsOf d 10 8 else m.widthSel - 1)
      if decide (1024 < nskein * lanesOf width) then .refuse 4
      else
        let sec (i : Nat) : Nat × Nat := (m.image.toNat + (secWords h i).1, (secWords h i).2)
        s.checkMulti { m with
          contract := c, nskein, width, vregs := bitsOf d 40 32, scratch := bitsOf d 83 64, slots := bitsOf d 104 96,
          secs := [sec 0, sec 1, sec 5],
          argv := argvOf m.arglen args }

/-- Check 4: the header, then DECL. -/
def State.checkImage (s : State) (m : Commission) (h : Nat) (args : List Byte) : Admission :=
  if !headerOk h then .refuse 2
  else match s.schedRead m.key.ctx m.tenant (m.image.toNat + (secWords h 4).1) 16 with
    | .fault => .refuse 9
    | .page va => .page va
    | .busy => .busy
    | .ok bs => if declOk (leNat bs) then s.checkShape m h (leNat bs) args else .refuse 2

/-- Check 3: the header and the argument block are readable. -/
def State.checkRead (s : State) (m : Commission) : Admission :=
  match s.schedRead m.key.ctx m.tenant m.image.toNat 128 with
  | .fault => .refuse 9
  | .page va => .page va
  | .busy => .busy
  | .ok hd =>
    match s.schedRead m.key.ctx m.tenant m.args.toNat (8 * m.arglen) with
    | .fault => .refuse 9
    | .page va => .page va
    | .busy => .busy
    | .ok args => s.checkImage m (leNat hd) args

/-- Check 1 (R357, R405). -/
def State.tenantOk (s : State) (m : Commission) : Bool :=
  let e := s.ctxEntry m.key.ctx
  (m.fromLaunch || (m.windowOk && ctxValid e && decide (ctxTenant e = m.tenant))) && !(s.coresOf m).isEmpty

/-- Every check of R357 in its order. -/
def State.checkAdmit (s : State) (m : Commission) : Admission :=
  if !s.tenantOk m then .refuse 8
  else if s.comms.any fun o => decide (o.uid ≠ m.uid) && decide (o.key = m.key) && !isFinal o.state && o.drover.isNone then .refuse 7
  else s.checkRead m

/-- The commission that the scheduler chooses: the first READY one in the order of R356 that waits for no verdict, unless one
of a higher priority waits for its reservation. -/
def State.chosen (s : State) : Option Commission :=
  let ready := s.comms.filter fun m => decide (m.state = .ready) && !m.paging
  match firstComm (ready.filter fun m => !m.waiting) with
  | none => none
  | some m => if ready.any fun o => o.waiting && decide (o.prio < m.prio) then none else some m

/-- A read of a commission's admission waits for a page (R353). -/
def State.admitWaits (s : State) (m : Commission) (va : Nat) : State :=
  (s.setComm { m with paging := true }).waitPage 0 m.key.ctx va 4 m.tenant (admitWaiter m.uid)

/-- What the reads of an admission leave in the memory system: the header, DECL and the arguments, as far as the checks come. -/
def State.admitTouch (s : State) (m : Commission) : State :=
  let touch (s : State) (va n : Nat) : State := s.schedTouch m.key.ctx m.tenant va n
  let s1 := touch s m.image.toNat 128
  if !s.tenantOk m then s
  else match s.schedRead m.key.ctx m.tenant m.image.toNat 128, s.schedRead m.key.ctx m.tenant m.args.toNat (8 * m.arglen) with
    | .ok hd, .ok _ =>
      let s2 := touch s1 m.args.toNat (8 * m.arglen)
      if headerOk (leNat hd) then touch s2 (m.image.toNat + (secWords (leNat hd) 4).1) 16 else s2
    | .ok _, _ => touch s1 m.args.toNat (8 * m.arglen)
    | _, _ => s1

/-- COMMISSION_ADMIT: the chosen commission is refused, admitted, reserved, or left waiting. A reservation comes after the crews that go
ahead of it. -/
def execCommissionAdmit (s : State) : Out :=
  match s.chosen with
  | none => .refused (.notEnabled "COMMISSION_ADMIT")
  | some m =>
    match s.checkAdmit m with
    | .busy => .refused (.notEnabled "COMMISSION_ADMIT")
    | .refuse r => .next ((s.admitTouch m).refuse m r)
    | .page va => .next ((s.admitTouch m).admitWaits m va)
    | .wait m1 => .next ((s.admitTouch m).setComm { m1 with waiting := true })
    | .reserve m1 ps => if s.aheadOfCoop m1 then .refused (.notEnabled "COMMISSION_ADMIT") else .next ((s.admitTouch m).reserve m1 ps)
    | .admitted m1 => .next ((s.admitTouch m).setComm { m1 with state := .admitted, tadmit := BitVec.ofNat 64 s.time })

/-- COOP_RESERVE: the first waiting co-operative commission whose crews all fit now. Its generation is tested again, since a later packet may
have been admitted meanwhile (R367), and its arguments are copied now that it is admitted (R129, R354). A page of them that is missing is waited
for as at any admission: the reservation is given up, and after RETRY the checks start again with the first (R353). -/
def execCoopReserve (s : State) : Out :=
  let tries := orderComms (s.comms.filter fun m => decide (m.state = .ready) && m.waiting && !m.paging)
  match tries.findSome? fun m => (s.coopPlan m false).map fun ps => (m, ps) with
  | none => .refused (.notEnabled "COOP_RESERVE")
  | some (m, ps) =>
    if s.aheadOfCoop m then .refused (.notEnabled "COOP_RESERVE")
    else match s.multiRefusal m with
      | some r => .next (s.refuse m r)
      | none =>
        let s1 := s.schedTouch m.key.ctx m.tenant m.args.toNat (8 * m.arglen)
        match s.schedRead m.key.ctx m.tenant m.args.toNat (8 * m.arglen) with
        | .fault => .next (s1.refuse m 9)
        | .page va => .next (s1.admitWaits { m with waiting := false } va)
        | .busy => .refused (.notEnabled "COOP_RESERVE")
        | .ok bs => .next (s1.reserve { m with argv := argvOf m.arglen bs } ps)

/-! ## Retirement (R365) -/

/-- A child of a commission has not reached a final state. -/
def State.childOpen (s : State) (m : Commission) : Bool :=
  let mine (p : Option Nat) : Bool := match p with
    | some n => decide ((s.crew n).comm = m.uid)
    | none => false
  (s.comms.any fun o => mine o.parent && !isFinal o.state) || s.host.taken.any fun t => mine t.parent

/-- Engine operations of a commission's crews have not ended. -/
def State.opsOpen (s : State) (m : Commission) : Bool := s.crews.any fun p => decide (p.2.comm = m.uid) && s.crewOps p.1

/-- COMMISSION_RETIRE. -/
def execCommissionRetire (k : CommKey) (s : State) : Out :=
  match s.findComm k with
  | none => .refused (.notEnabled "COMMISSION_RETIRE")
  | some m =>
    if m.state ≠ .draining || s.childOpen m || s.opsOpen m then .refused (.notEnabled "COMMISSION_RETIRE")
    else .next (s.finish m .retired 0)

/-! ## Completion records (R359, R406) -/

def stateCode : CState → Nat
  | .retired => 1
  | .refused => 2
  | .withdrawn => 3
  | .aborted => 4
  | _ => 0

/-- The record's 64 bytes. -/
def recordBytes (m : Commission) : List Byte :=
  leBytes 8 (m.reason % 256 * 2 ^ 40 + stateCode m.state * 2 ^ 32 + m.key.id.toNat) ++ le8 m.tadmit ++ le8 m.tfinal
    ++ leBytes 8 (m.started % 2 ^ 32 * 2 ^ 32) ++ List.replicate 32 0

/-- The MSI-X message of a commission, on the function that owns its context; the record has been dealt with. -/
def State.recordDone (s : State) (m : Commission) : State :=
  let s1 := s.setComm { m with recordDue := false, paging := false }
  let fn := ctxFunc (s.ctxEntry m.key.ctx)
  if m.irq && decide (fn ≤ 64) then s1.sendMsix fn m.vector else s1

/-- COMPLETION_RECORD_WRITE: bytes 8 to 63, then bytes 0 to 7, then the message. A missing page is asked for; a page that denies
the write leaves only the message. -/
def execCompletionRecordWrite (k : CommKey) (s : State) : Out :=
  match s.comms.find? fun m => decide (m.key = k) && m.recordDue with
  | none => .refused (.notEnabled "COMPLETION_RECORD_WRITE")
  | some m =>
    if m.paging then .refused (.notEnabled "COMPLETION_RECORD_WRITE")
    else if m.record = 0 || decide (Config.windowBase ≤ m.record.toNat) then .next (s.recordDone m)
    else match s.dieView 0 m.key.ctx m.record.toNat with
      | .busy => .refused (.notEnabled "COMPLETION_RECORD_WRITE")
      | .malformed | .error => .next ((s.dieTouch 0 m.key.ctx [m.record.toNat]).recordDone m)
      | .invalid => .next (((s.dieTouch 0 m.key.ctx [m.record.toNat]).setComm { m with paging := true }).waitPage 0 m.key.ctx m.record.toNat 5 m.tenant (recordWaiter m.uid))
      | .leaf l =>
        let a := l.phys m.record.toNat
        let s0 := s.dieTouch 0 m.key.ctx [m.record.toNat]
        if !pageOk l .write m.tenant m.record.toNat then .next (s0.recordDone m)
        else if s.lineBusy (lineOf a) then .refused (.notEnabled "COMPLETION_RECORD_WRITE")
        else
          let bs := recordBytes m
          let s1 := (s0.writeHome (a + 8) (bs.drop 8)).writeHome a (bs.take 8)
          .next (s1.recordDone m)

/-! ## Crews discarded without a save (R354, R368) -/

/-- A crew's Loom operations leave their queues, with their leave; its sets are free. -/
def State.dropLoom (s : State) (n : Nat) : State :=
  let core := (s.crew n).core
  let mine := (s.loom core).ops.filter fun p => p.2.crew = n
  let one (s : State) (p : Nat × LoomOp) : State :=
    let s1 := s.dropLeave (dieOfCore core) (.loom core p.1)
    if p.2.leave = 0 then s1 else s1.returnLeave n p.2.leave p.2.standing
  let s1 := mine.foldl one s
  let gone := mine.map (·.1)
  let lm := s1.loom core
  let lm1 := { lm with ops := lm.ops.filter (fun p => !gone.contains p.1), q0 := lm.q0.filter (fun i => !gone.contains i),
                       q1 := lm.q1.filter (fun i => !gone.contains i) }
  s1.setLoom core (freeSetsOf lm1 n)

/-- A crew's copies are dropped, with their leave and the lines that they own. -/
def State.dropCopies (s : State) (n : Nat) : State :=
  let mine := s.copies.filter fun y => y.crew = n
  let one (s : State) (y : Copy) : State :=
    let s1 := s.dropLeave (crewDie (s.crew n)) (.copy y.id)
    if y.leave = 0 then s1 else s1.returnLeave n y.leave y.standing
  let s1 := mine.foldl one s
  { s1 with copies := s1.copies.filter fun y => y.crew ≠ n }

/-- A crew's collectives are dropped, with their leave; what they have contributed stays with the Drover. -/
def State.dropColls (s : State) (n : Nat) : State :=
  let mine := s.fab.ops.filter fun o => o.crew = n
  let one (s : State) (o : CollOp) : State :=
    let s1 := s.dropLeave (crewDie (s.crew n)) (.coll o.id)
    if o.leave = 0 then s1 else s1.returnLeave n o.leave o.standing
  let s1 := mine.foldl one s
  s1.setFab { s1.fab with ops := s1.fab.ops.filter fun o => o.crew ≠ n }

/-- The contexts of a crew are free, and nothing of its families is left. -/
def State.clearCtxs (s : State) (n : Nat) : State :=
  let cs := s.crewCtxs n
  let s1 := cs.foldl (fun s c => (s.leaveWalks c).setCtx c Skein.empty) s
  { s1 with families := s1.families.filter fun f => f.2.crew ≠ n }

/-- A crew is discarded: every engine operation of it is dropped, and everything that it holds is free. -/
def State.discardCrew (s : State) (n : Nat) : State :=
  let s1 := ((s.dropLoom n).dropCopies n).dropColls n
  let s2 := (s1.setStanding n 0 0).clearCtxs n
  let w := s2.crew n
  let s3 := s2.setCrew n { w with status := .ended, saveKind := 0, tileOps := [], futs := w.futs.map freeEntry, fetches := [] }
  { s3 with host := { s3.host with saved := s3.host.saved.filter fun v => v.crew ≠ n },
            ms := { s3.ms with walks := (s3.ms.walks.map (leaveWalk (crewWaiter n))).filter walkAlive } }

/-- The crews of a commission that have not ended. -/
def State.openCrews (s : State) (uid : Nat) : List Nat :=
  (s.crews.filter fun p => decide (p.2.comm = uid) && decide (p.2.status ≠ .ended)).map (·.1)

/-! ## Start barriers (R368) -/

/-- A multi-device commission whose crews stand at their start barrier. -/
def atBarrier (group : Nat) (m : Commission) : Bool :=
  m.multi && decide (m.group = group) && decide (m.state = .admitted) && m.reserved && !m.startOk

/-- Every other member of a group has reported a generation as placed. -/
def allPlaced (cm : Communicator) (gen : Nat) : Bool :=
  ((List.range cm.nranks).filter (· ≠ cm.rank)).all fun r => cm.reports.contains (r, gen)

/-- Members of a group have refused a generation, for that reason or any. -/
def refusedFor (cm : Communicator) (gen : Nat) (reason : Option Nat) : Bool :=
  cm.refusals.any fun p => decide (p.2.1 = gen) && (reason.isNone || decide (reason = some p.2.2))

/-- The reports and refusals of a generation serve no barrier any more; those of another are discarded but where a barrier awaits them. -/
def State.dropReports (s : State) (group gen : Nat) : State :=
  match s.commByHandle group with
  | some cm =>
    let keep (g : Nat) : Bool := decide (g ≠ gen) && (s.awaitedGens cm).contains g
    s.putCommunicator { cm with reports := cm.reports.filter (fun p => keep p.2), refusals := cm.refusals.filter fun p => keep p.2.1 }
  | none => s

/-- START_BARRIER_COMPLETE: every member has reported the generation and none has refused it, less than 100 ms after the packet was taken; the
completion message reaches this member, and its crews start (R368; log 82). -/
def execStartBarrierComplete (group : Nat) (gen : W32) (s : State) : Out :=
  match (s.comms.find? fun m => atBarrier group m && decide (m.gen = gen)), s.commByHandle group with
  | some m, some cm =>
    if !allPlaced cm gen.toNat || refusedFor cm gen.toNat none || decide (m.taken + 100000000 ≤ s.time) then .refused (.notEnabled "START_BARRIER_COMPLETE")
    else
      let s1 := (s.setComm { m with startOk := true, state := .running, started := m.placed }).dropReports group gen.toNat
      let crews := s1.openCrews m.uid
      let cs := crews.flatMap s1.crewCtxs
      let s2 := cs.foldl (fun s c => s.setCtx c { s.ctx c with stopped := false }) s1
      .next (s2.requestStops (cs.filter fun c => (s2.crew (s2.ctx c).crew).saveKind ≠ 0))
  | _, _ => .refused (.notEnabled "START_BARRIER_COMPLETE")

/-- START_BARRIER_TIMEOUT: a member has refused, or 100 ms have passed since the packet was taken: the reservation is released, and the
commission ends WITHDRAWN with MULTI, or with GENERATION if a member refused for that reason. -/
def execStartBarrierTimeout (group : Nat) (refusedGen : Bool) (s : State) : Out :=
  match (s.comms.find? (atBarrier group)), s.commByHandle group with
  | some m, some cm =>
    if (!refusedFor cm m.gen.toNat none && decide (s.time < m.taken + 100000000)) || refusedGen ≠ refusedFor cm m.gen.toNat (some 10) then
      .refused (.notEnabled "START_BARRIER_TIMEOUT")
    else
      let s1 := (s.openCrews m.uid).foldl State.discardCrew (s.dropReports group m.gen.toNat)
      .next (s1.finish (s1.commission m.uid) .withdrawn (if refusedGen then 10 else 11))
  | _, _ => .refused (.notEnabled "START_BARRIER_TIMEOUT")

/-! ## Slot tables and tenant maps (R369) -/

/-- SLOT_TABLE_WRITE: 16 bits written at an even byte offset below 0x60 of a core's block; they wait for a cycle whose number
mod 64 is 0. -/
def execSlotTableWrite (core off : Nat) (v : W16) (s : State) : Out :=
  if decide (Config.cores ≤ core) || decide (0x60 ≤ off) || off % 2 ≠ 0 then .refused (.notEnabled "SLOT_TABLE_WRITE")
  else if !s.dev.ready then .next s
  else
    let k := s.core core
    .next (s.setCore core { k with later := k.later ++ [((s.dev.cycle / 64 + 1) * 64, off, v)] })

/-- SLOT_TABLE_TAKE_EFFECT: the writes whose cycle has come, which rule since that cycle, are put into the tables. -/
def execSlotTableTakeEffect (core : Nat) (s : State) : Out :=
  if ((s.core core).later.filter fun p => decide (p.1 ≤ s.dev.cycle)) = [] then .refused (.notEnabled "SLOT_TABLE_TAKE_EFFECT")
  else .next (s.setCore core (s.tables core))

end Sys2Proof.Machine
end

