-- ==== Sys2Proof/Machine/System.lean ====
section
/-! DEFINITION. System registers, TRAP, ERET, LGET, LSET, YIELD and BRK (10 R298, R299; 01 R29 to R38). -/

namespace Sys2Proof.Machine

/-! ## System registers (R29 to R38, R383, R442) -/

/-- UNITCAP (R442). -/
def unitcap (p : Part) : Nat := bnum p.torhw * 4 + bnum p.decomp * 2 + bnum (!p.is384P)

/-- CONTRACT (R30). -/
def contractWord (n : Nat) : Nat := ftrevOf n * 16 + n

/-- CREWID and GRID (R35). -/
def crewidOf (w : Crew) : Nat := w.z * 2 ^ 32 + w.y * 2 ^ 16 + w.x
def gridOf (m : Commission) : Nat := m.nskein * 2 ^ 48 + m.nz * 2 ^ 32 + m.ny * 2 ^ 16 + m.nx

/-- The value of a system register of a context; none if the number is unassigned (R29). -/
def State.sysReg (s : State) (c r : Nat) : Option Nat :=
  let x := s.ctx c; let m := s.commOf c
  match r with
  | 0x000 => some (contractWord m.contract)
  | 0x001 => some (skstOf x)
  | 0x002 => some (skidOf x c)
  | 0x003 => some (crewidOf (s.crew x.crew))
  | 0x004 => some (gridOf m)
  | 0x005 => some (commidOf m).toNat
  | 0x006 => some m.depth
  | 0x007 => some x.control.toNat
  | 0x008 => some x.trapcause.toNat
  | 0x009 => some x.trappc.toNat
  | 0x00A => some x.traplw.toNat
  | 0x00B => some x.trapmask.toNat
  | 0x00C => some s.time
  | 0x00D => some (s.trapFrame c)
  | 0x00E => some (unitcap s.part)
  | r => if 0x010 ≤ r && r ≤ 0x017 then some (capcOf s.part.torhw (r - 0x010)) else none

def execSrd (d : KReg) (r : BitVec 12) (s : State) : Out :=
  match s.sysReg s.cur r.toNat with
  | some v => .next (s.result d (BitVec.ofNat 64 v))
  | none => s.trapS .illegal 5

/-- SWR writes the RW fields of CONTROL and clears SKST.RANGE; no other register has a field that it writes (R6, R34, R36). -/
def sysWrite (x : Skein) (r : Nat) (v : W64) : Skein :=
  if r = 0x001 then (if bitOf v.toNat 4 then { x with range := false } else x)
  else if r = 0x007 then { x with control := v &&& 0xF }
  else x

def execSwr (d : KReg) (r : BitVec 12) (s : State) : Out :=
  match s.sysReg s.cur r.toNat with
  | some _ => .next ((s.setMe (commit (sysWrite s.me r.toNat (s.kv d)))).past 4)
  | none => s.trapS .illegal 5

/-! ## TRAP, BRK, YIELD (R299) -/

def execTrap (imm : BitVec 12) (s : State) : Out :=
  s.outside fun s => s.commitMe.trapS .syscall imm.toNat

/-- BRK stops the bench, before it issues, while STOPCTL.BRKSTOP is 1 (R426, R427); otherwise it traps WATCH. -/
def execBrk (imm : BitVec 12) (s : State) : Out :=
  s.outside fun s =>
    if bitOf (s.bench (benchOf s.cur)).stopctl.toNat 0 then .next (s.stopBench (benchOf s.cur) 1)
    else s.commitMe.trapS .watch (0x1000 + imm.toNat)

/-- YIELD: the context is not selected again until each other ready context of its tenant on its bench has been, or 16 cycles have passed
(R299, R371). -/
def execYield (s : State) : Out := .next ((s.setMe { s.me with yieldUntil := s.dev.cycle + 17, yieldSeen := [] }).past 4)

/-! ## ERET (R385) -/

/-- A skein that has left its handler at a FUSE waits there again (R169, R381). -/
def afterEret (c : Nat) : Out → Out
  | .next s => .next (s.waitsAgain c)
  | o => o

def execEret (s : State) : Out := if s.me.handler then afterEret s.cur (s.eret false) else s.trapS .illegal 0x14
def execEretSkip (s : State) : Out := if s.me.handler then afterEret s.cur (s.eret true) else s.trapS .illegal 0x14

/-! ## LGET and LSET (R299) -/

/-- The value that LGET reads from a lane; a lane at or above the width reads 0. A v-register at or above the crew's declared count is within
its kind's range of R299: the spec does not say that the count bounds it (log 85). -/
def State.laneGet (s : State) (mask : Bool) (n lane : Nat) : W64 :=
  if lanesOf s.me.width ≤ lane then 0
  else if mask then (if (mGet s.me n).getLsbD lane then 1 else 0)
  else (s.vGet s.cur lane n).setWidth 64

def execLget (d : KReg) (mask : Bool) (n : BitVec 8) (s : State) : Out :=
  if !s.me.handler then s.trapS .illegal 0x14
  else .next (s.result d (s.laneGet mask n.toNat ((s.kv d).toNat % 64)))

/-- What LSET writes in a lane, whatever the masks; a lane at or above the width is ignored. -/
def State.laneSet (s : State) (mask : Bool) (n lane : Nat) (v : W64) : State :=
  if lanesOf s.me.width ≤ lane then s
  else if mask then
    let bit : W64 := 1#64 <<< lane
    s.setMe (mSet s.me n (if v.getLsbD 0 then mGet s.me n ||| bit else mGet s.me n &&& ~~~bit))
  else s.vSet s.cur lane n (v.setWidth 32)

def execLset (d : KReg) (mask : Bool) (n : BitVec 8) (s : State) : Out :=
  if !s.me.handler then s.trapS .illegal 0x14
  else .next ((s.laneSet mask n.toNat (bitsOf (s.kv d).toNat 37 32) (s.kv d)).past 4)

end Sys2Proof.Machine
end

