-- ==== Sys2Proof/Machine/Save.lean ====
section
/-! DEFINITION. Stopping and saving crews: region discard, save images, crew faults (14 R386, R390 to R399). -/

namespace Sys2Proof.Machine

/-! ## Stops when the budget ends (R392, R393) -/

/-- A mark of an open lane word leaves the outstanding operations: the word is dropped (R393). -/
def dropOpen (x : Skein) : Skein := { x with out := x.out.map fun o => { o with lines := o.lines.filter (· ≠ openMark) } }

/-- The lane words that have issued show their effects on SKST (R34). -/
def retireAll (x : Skein) : Skein :=
  { x with unret := [], range := x.range || x.unret.any (·.range), mdepth := match x.unret.getLast? with
    | some u => u.depth
    | none => x.mdepth }

/-- The entry at the head of a context's queue belongs to its region. -/
def headInRegion (x : Skein) : Bool :=
  match x.queue with
  | e :: _ => decide (e.region = x.region.serial)
  | [] => false

/-- The region's entries leave the queue, and a replay or an open word of the entry at its head is dropped with it. -/
def dropRegion (x : Skein) : Skein :=
  let y := if headInRegion x then dropOpen { x with replay := none, decodeAt := none } else x
  { y with queue := x.queue.filter fun e => decide (e.region ≠ x.region.serial) }

/-- The lane shadow is restored (R393). -/
def restoreLanes (x : Skein) : Skein :=
  match x.region.shadow with
  | none => x
  | some h => { x with stack := h.stack, base := h.base, m := h.m, mdepth := h.stack.length }

/-- The live-in registers and the PC of the region's start (R142, R393). -/
def restoreScalar (x : Skein) : Skein :=
  let r := x.region
  { x with
    k := (List.range 64).foldl (fun m i => if r.liveK.getLsbD i then smSet 0 m i (smGet 0 r.k i) else m) x.k,
    c := (x.c &&& ~~~r.liveC) ||| (r.c &&& r.liveC), pc := r.start, region := { r with shadow := none, futures := [] },
    f := x.f.filter fun p => !r.futures.contains (BitVec.ofNat 4 p.1) }

/-- The generator states of the lane shadow return to a context's lanes. -/
def State.restoreGens (s : State) (c : Nat) : State :=
  let x := s.ctx c
  match x.region.shadow with
  | none => s
  | some h => { s with gens := (h.gens.zipIdx).foldl (fun m p => smSet 0 m (physLane x c p.2) p.1) s.gens }

/-- The Loom operations that a context issued in its region are cancelled. -/
def State.cancelRegion (s : State) (c : Nat) : State :=
  let x := s.ctx c
  let core := coreOf c
  (((s.loom core).ops.filter fun p => decide (p.2.ctx = c) && decide (p.2.crew = x.crew) && decide (p.2.region = x.region.serial)).map
    (·.1)).foldl (fun s i => s.cancelLoom core i) s

/-- The futures that a region's registers still wait for are discarded. -/
def State.dropRegionFutures (s : State) (c : Nat) : State :=
  (s.ctx c).region.futures.foldl (fun s r =>
    let v := fGet (s.ctx c) r.toNat
    if isPending v then s.freeFuture (s.ctx c).crew (futTag v) else s) s

/-- REGION_DISCARD: the region of a context is rolled back to its start, and the skein has stopped (R393). -/
def State.discardRegion (s : State) (c : Nat) : State :=
  let s0 := if headInRegion (s.ctx c) && wordOpen (s.ctx c) then s.assaySettle c else s
  let s1 := ((s0.cancelRegion c).dropRegionFutures c).restoreGens c
  let x := restoreScalar (restoreLanes (dropRegion (retireAll (s1.ctx c))))
  s1.setCtx c { x with stopped := true, preempt := none, discarded := true }

/-- A skein whose budget has ended stops: by discard where its region is open, else precisely. -/
def State.budgetStop (s : State) (c : Nat) : State :=
  let x := s.ctx c
  if x.region.committed || x.handler || decide (x.wait ≠ .none) || x.exited then
    s.setCtx c { x with stopped := true, preempt := none }
  else s.discardRegion c

/-- A skein's budget has ended; its bench is not stopped, and no trap waits to be taken (R390, R396, R428). -/
def State.budgetDue (s : State) (c : Nat) : Bool :=
  let x := s.ctx c
  !x.stopped && x.pend.isNone && !(s.bench (benchOf c)).stopped && match x.preempt with
    | some t => decide (t ≤ s.dev.time3)
    | none => false

/-- PREEMPT_BUDGET_EXPIRY: the skeins of a crew whose budget has ended stop. -/
def execPreemptBudgetExpiry (crew : Nat) (s : State) : Out :=
  match (s.crewCtxs crew).filter s.budgetDue with
  | [] => .refused (.notEnabled "PREEMPT_BUDGET_EXPIRY")
  | cs => .next (cs.foldl State.budgetStop s)

/-! ## The areas of a save image (R397 to R399; log 45) -/

/-- A mask stack and m-registers: depth, 33 entries from the base up, m1 to m15. -/
def maskArea (base : W64) (stack : List MaskEntry) (m : SMap W64) : List Byte :=
  leBytes 8 stack.length ++ padTo 528 (le8 base ++ le8 0 ++ stack.reverse.flatMap fun e => le8 e.value ++ le8 e.rest)
    ++ leList ((List.range 15).map fun i => smGet 0 m (i + 1))

def kindCode : EntryKind → Nat
  | .run => 0
  | .loopN => 1
  | .loopAny => 2

/-- A control-queue entry: block, count, CONTROL, then LEN, kind, MSEL, TM and the region mark, then q0 to q7. -/
def queueArea (e : QEntry) : List Byte :=
  padTo 32 (le8 e.block ++ le8 e.count ++ le8 e.control
    ++ [BitVec.ofNat 8 e.len, BitVec.ofNat 8 (kindCode e.kind), e.msel.setWidth 8, e.tm.setWidth 8] ++ leBytes 4 e.region)
    ++ leList ((List.range 8).map fun i => e.q.getD i 0)

/-- A back-queue entry: its kind, 1 or 2 for a vote, so that 0 marks a place without one; valid; value. -/
def backArea (b : BackEntry) : List Byte := [BitVec.ofNat 8 (1 + bnum b.vote), BitVec.ofNat 8 (bnum b.valid)] ++ leBytes 6 0 ++ le8 b.value

/-- A skein record's areas by offset. -/
def skeinAreas (x : Skein) : List (Nat × List Byte) :=
  let head := match x.queue with
    | e :: _ => le8 (BitVec.ofNat 64 e.word) ++ le8 (BitVec.ofNat 64 e.trip)
    | [] => []
  let shadow := match x.region.shadow with
    | some h => [(0x610, maskArea h.base h.stack h.m), (0x1C00, leList h.gens)]
    | none => []
  [(0, recordHead x false), (0x400, leList ((List.range 64).map fun i => smGet 0 x.region.k i) ++ leBytes 8 x.region.c.toNat),
   (0x900, maskArea x.base x.stack x.m), (0xB90, x.back.flatMap backArea), (0xC10, head), (0x1000, x.queue.flatMap queueArea)]
    ++ shadow

/-- The record of an index that an ended child 0 keeps (R164). -/
def endedAreas (i : Nat) : List (Nat × List Byte) := [(0x248, leBytes 8 (8 + 256 * i))]

/-- A strand's registers, v0 to v255 for its four lanes (R22); lane is the physical lane of its first. -/
def State.strandArea (s : State) (lane : Nat) : List Byte :=
  (List.range 256).flatMap fun v => (List.range 4).flatMap fun l => leBytes 4 (smGet 0 s.vregs (256 * (lane + l) + v)).toNat

/-- The first physical lanes of the strands of contexts, in crew-index order and strand order. -/
def State.strandLanes (s : State) (cs : List Nat) : List Nat :=
  cs.flatMap fun c => (List.range (lanesOf (s.ctx c).width / 4)).map fun j => physLane (s.ctx c) c (4 * j)

def slotArea (t : Slot) : List Byte :=
  padTo 8 [BitVec.ofNat 8 t.gen, BitVec.ofNat 8 (bnum t.alloc + 2 * bnum t.first + 4 * bnum t.poisoned + 8 * bnum t.withdrawn + 16 * bnum t.orphan),
    BitVec.ofNat 8 (t.owner.getD 255), BitVec.ofNat 8 t.stamp] ++ le8 t.desc

def permArea (t : PermTable) : List Byte := t.p.flatMap (leBytes 2)

def barArea (b : Barrier) : List Byte :=
  [BitVec.ofNat 8 b.arrived.length, BitVec.ofNat 8 b.count] ++ leBytes 6 ((b.arrived.filter (· < 48)).foldl (fun m i => m + 2 ^ i) 0)

/-- A future of the table; bit 32, the lowest of TAG, is the detached flag. -/
def futArea (e : FutEntry) : List Byte :=
  if e.busy then leBytes 8 (e.value.toNat / 2 ^ 33 * 2 ^ 33 + bnum e.detached * 2 ^ 32 + e.value.toNat % 2 ^ 32) else leBytes 8 0

def copyCode : CopyKind → Nat
  | .cpy => 1
  | .cpyg => 2
  | .cpyz => 3
  | .mupd => 4

/-- The engine record of a channel: kind and progress, descriptor registers, slices with the lines still to be written. -/
def channelArea (y : Copy) : List Byte :=
  padTo 512 ([BitVec.ofNat 8 (copyCode y.kind), BitVec.ofNat 8 (bnum y.started)] ++ leBytes 6 y.slices.length ++ leList y.desc
    ++ y.slices.flatMap fun z => leBytes 4 z.row0 ++ leBytes 4 z.rows ++ leBytes 8 z.lines.length)

def lineArea (l : LineState) : Byte := BitVec.ofNat 8 ((if l.empty then 0 else 128) + l.tag.toNat)

/-- The record of a set's last MBEAM: form, handle or base, layout word, issuing index. -/
def beamArea (o : LoomOp) : List Byte :=
  padTo 64 (le8 (BitVec.ofNat 64 (if o.mem then 2 else 1)) ++ le8 o.base ++ le8 o.lay ++ leBytes 8 o.index)

/-- The header (R398). -/
def State.headerAreas (s : State) (n kind core : Nat) (ixs : List Nat) (beams : List (Nat × LoomOp)) : List (Nat × List Byte) :=
  let w := s.crew n; let m := s.commission w.comm
  [(0, leBytes 4 0x46575356 ++ leBytes 2 1 ++ leBytes 2 kind ++ le8 (commidOf m) ++ leBytes 8 (crewidOf w) ++ leBytes 8 s.time
      ++ leBytes 16 (ixs.foldl (fun x i => x + 2 ^ i) 0) ++ leBytes 4 w.nLines ++ leBytes 2 w.slots.length ++ leBytes 2 m.key.ctx
      ++ leBytes 4 w.ptag ++ leBytes 4 core ++ w.perms.flatMap (fun t => leBytes 4 t.len) ++ w.perms.flatMap (fun t => leBytes 2 t.loads))]
    ++ beams.map fun p => (0x60 + 64 * p.1, beamArea p.2)

/-- The areas of a crew's tables. -/
def tableAreas (w : Crew) : List (Nat × List Byte) :=
  w.perms.zipIdx.map (fun p => (0x203000 + 0x2000 * p.2, permArea p.1))
    ++ [(0x20B000, w.cbs.flatMap fun cb => cb.flatMap fun v => leBytes 2 v.toNat),
        (0x20B100, w.pats.flatMap fun t => t.map fun v => v.setWidth 8),
        (0x20B200, w.bars.flatMap barArea), (0x20B280, w.futs.flatMap futArea), (0x20B480, w.slots.flatMap slotArea)]

/-- The areas of the registers of a crew's contexts, given in index order. -/
def State.registerAreas (s : State) (cs : List Nat) : List (Nat × List Byte) :=
  let lanes := s.strandLanes cs
  cs.flatMap (fun c => (skeinAreas (s.ctx c)).map fun p => (0x1000 + 0x2000 * (s.ctx c).index + p.1, p.2))
    ++ (s.crew (s.ctx (cs.headD 0)).crew).reserved.flatMap (fun i => (endedAreas i).map fun p => (0x1000 + 0x2000 * i + p.1, p.2))
    ++ lanes.zipIdx.map (fun p => (0x101000 + 0x1000 * p.2, s.strandArea p.1))
    ++ [(0x201000, lanes.flatMap fun l => (List.range 4).flatMap fun i => le8 (smGet 0 s.gens (l + i)))]

/-- The areas of a crew's scratchpad, tiles and copies. -/
def State.storeAreas (s : State) (n : Nat) (copies : List Copy) : List (Nat × List Byte) :=
  let w := s.crew n
  let first := lineOf (spadAddr w 0)
  [(0x20D000, (List.range w.nLines).map fun i => lineArea (s.lineState (first + i))), (0x210000, s.read (spadAddr w 0) (128 * w.nLines))]
    ++ (List.range w.slots.length).map (fun i => (0x290000 + 0x1000 * i, s.tileBytes w i 0 4096))
    ++ (copies.reverse).map fun y => (0x20E000 + 512 * ctlChan (copyCtl y), channelArea y)

/-- The buffer's bytes zero, and the merging windows of its lines closed. -/
def State.blankImage (s : State) (addr : Nat) : State :=
  let a := addr % Config.physEnd
  let s1 := s.zeroRange a 0x400000
  let inBuf (w : MergeWindow) : Bool := decide (a / 128 ≤ w.line) && decide (w.line < a / 128 + 0x8000)
  { s1 with ms := { s1.ms with windows := s1.ms.windows.map fun w => if inBuf w then { w with closed := true } else w } }

/-- Words with an uncorrectable error stay so in a copy of n bytes (R449). -/
def State.movePoison (s : State) (src dst n : Nat) : State :=
  let mine := s.ms.poison.filter fun w => decide (src ≤ 4 * w) && decide (4 * w < src + n)
  { s with ms := { s.ms with poison := s.ms.poison ++ mine.map fun w => w - src / 4 + dst / 4 } }

/-- Poison of a crew's scratchpad and tiles, to its image or from it. -/
def State.poisonImage (s : State) (n at_ : Nat) (out : Bool) : State :=
  let w := s.crew n
  let addr := at_ % Config.physEnd
  let go (s : State) (store image k : Nat) : State := if out then s.movePoison store image k else s.movePoison image store k
  (List.range w.slots.length).foldl (fun s i => go s (tileAddr w i 0) (addr + 0x290000 + 0x1000 * i) 4096)
    (go s (spadAddr w 0) (addr + 0x210000) (128 * w.nLines))

/-- The image of a crew written into a buffer. -/
def State.writeImage (s : State) (n kind addr : Nat) (copies : List Copy) (beams : List (Nat × LoomOp)) : State :=
  let w := s.crew n
  let cs := sortBy (fun (a b : Nat) => decide ((s.ctx a).index ≤ (s.ctx b).index)) (s.crewCtxs n)
  let ixs := cs.map (fun c => (s.ctx c).index) ++ w.reserved
  let areas := s.headerAreas n kind w.core ixs beams ++ s.registerAreas cs ++ tableAreas w ++ s.storeAreas n copies
  (areas.foldl (fun s p => s.devWrite (addr + p.1) p.2) (s.blankImage addr)).poisonImage n addr true

/-! ## CREW_SAVE and CREW_FAULT (R386, R395) -/

/-- Every condition of R395 up to its sixth step: every skein has stopped and nothing of the crew is still to end; a buffer is
free, and no record is held back (R413). -/
def State.saveReady (s : State) (n : Nat) : Bool :=
  let w := s.crew n; let m := s.commission w.comm; let cs := s.crewCtxs n
  w.status = .running && w.saveKind ≠ 0 && cs ≠ [] && (!m.multi || m.startOk)
    && cs.all (fun c => (s.ctx c).stopped && (s.ctx c).unret.isEmpty && (s.ctx c).pend.isNone && !(s.bench (benchOf c)).stopped)
    && !s.loomBusy n && !(s.fab.ops.any fun o => o.crew = n) && w.tileOps.isEmpty
    && !(s.die (crewDie w)).pool.isEmpty && !s.rangeBusy ((s.die (crewDie w)).pool.headD 0) 0x400000 && (s.ring (faultRing (crewDie w))).held.isEmpty

/-- A copy stops at a line boundary: its leave returns, and it waits for none. -/
def State.haltCopy (s : State) (y : Copy) : State :=
  let s1 := s.dropLeave (crewDie (s.crew y.crew)) (.copy y.id)
  if y.leave = 0 then s1 else s1.returnLeave y.crew y.leave y.standing

/-- Futures that registers hold are kept in the table, marked by their skeins' indices, until the restore. -/
def markFuture (s : State) (e : FutEntry) : FutEntry :=
  if e.busy && !e.detached then { e with detached := true, ctx := Config.contexts + (s.ctx e.ctx).index } else e

/-- The lanes that a record shows as pending replay: those of a replay, or of a word of which lanes still wait, which may be a packed
atomic's in the middle of a lane (R395 step 1). -/
def pendingLanes (x : Skein) : Option W64 := if x.handler then none else x.replay

/-- A skein with pending lanes of a lane word, as if they had trapped with REPLAY 1: TRAPLW and TRAPMASK name them, TQ and TMSEL hold
its entry's (R395, R399). -/
def recordSkein (x : Skein) : Skein :=
  match pendingLanes x, x.queue with
  | some m, e :: _ => { x with tq := e.q, tmsel := e.msel, traplw := laneAddr x, trapmask := m }
  | _, _ => x

/-- A skein as its record takes it: its operations have returned. -/
def savedSkein (x : Skein) : Skein := recordSkein { x with out := [], branches := [], branchAt := 0 }

/-- A crew-fault record (R386). -/
def faultRecord (time addr cause index ctx tenant crew id : Nat) : BitVec 256 :=
  BitVec.ofNat 256 (time % 2 ^ 64 * 2 ^ 192 + addr * 2 ^ 128 + cause * 2 ^ 96 + index * 2 ^ 88 + ctx * 2 ^ 76 + tenant * 2 ^ 68
    + crew % 2 ^ 32 * 2 ^ 32 + id)

/-- The physical lanes of a crew's strands, with those that its families keep for ended children. -/
def State.lanesHeld (s : State) (n : Nat) (lane : Nat) : Bool :=
  ((s.crewCtxs n).any fun c => decide (physLane (s.ctx c) c 0 ≤ lane) && decide (lane < physLane (s.ctx c) c (lanesOf (s.ctx c).width)))
    || s.families.any fun f => decide (f.2.crew = n) && decide (256 * f.2.bench + 4 * f.2.pStrand.toNat ≤ lane)
      && decide (lane < 256 * f.2.bench + 4 * f.2.pStrand.toNat + lanesOf f.2.pWidth)

/-- The records of a saved crew: its fault, and CAUSE 0 for PREEMPT (R386, R410). -/
def State.saveRecords (s : State) (n addr : Nat) (fault preempt : Bool) : State :=
  let w := s.crew n; let m := s.commission w.comm
  let entry (time cause index : Nat) : BitVec 256 := faultRecord time addr cause index m.key.ctx m.tenant w.lin m.key.id.toNat
  let s1 := if fault then s.postRecord (faultRing (crewDie w)) (entry w.faultTime.toNat w.faultCause.toNat w.faultIndex) else s
  if preempt then s1.postRecord (faultRing (crewDie w)) (entry s1.time 0 0) else s1

/-- A crew leaves its core for a save image in the first buffer of its die's pool. -/
def State.saveCrew (s : State) (n : Nat) : State :=
  let w0 := s.crew n
  let kind := w0.saveKind
  let die := crewDie w0
  let addr := (s.die die).pool.headD 0
  -- step 4: copies stop; step 5: the buffer drains, leave returns
  let copies := s.copies.filter fun y => y.crew = n
  let s1 := copies.foldl State.haltCopy s
  let s2 := ({ s1 with copies := s1.copies.filter fun y => y.crew ≠ n }.sgbDrainCore w0.core).setStanding n 0 0
  let s3 := (s2.crewCtxs n).foldl (fun s c => let s1 := (s.traceFlush c).assaySettle c; s1.setCtx c (savedSkein (s1.ctx c))) s2
  let lm := s3.loom w0.core
  let beams := [0, 1].filterMap fun t => if (loomSet lm t).holder = some n then (loomSet lm t).last.map fun o => (t, o) else none
  -- step 6: the image
  let s4 := (s3.setDie die { s3.die die with pool := (s3.die die).pool.drop 1 }).writeImage n kind addr copies beams
  -- step 7: everything is free
  let sc : SavedCrew := { crew := n, was := s4.crew n, addr, kind, skeins := (s4.crewCtxs n).map (fun c => (c, s4.ctx c)), copies, beams,
                          regs := s4.vregs.filter (fun p => s4.lanesHeld n (p.1 / 256)),
                          gens := s4.gens.filter (fun p => s4.lanesHeld n p.1), held := false }
  let w := s4.crew n
  let status : CrewStatus := if kind = 3 || (w.fetches.any fun h => !h.denied) then .saved else .readyAgain
  let named := s.host.busy.any fun b => b.op = 3 && b.crews.contains n
  let s5 := s4.setCrew n { w with status, saveKind := 0, futs := w.futs.map (markFuture s4) }
  let s6 := (s4.crewCtxs n).foldl (fun s c => (s.leaveWalks c).setCtx c Skein.empty) s5
  let s7 := s6.setLoom w.core (freeSetsOf (s6.loom w.core) n)
  let gone (b : Busy) : Busy :=
    if b.op = 3 && b.crews.contains n then { b with crews := b.crews.erase n, saved := b.saved + 1, bufs := b.bufs ++ [addr] } else b
  { s7 with host := { s7.host with saved := s7.host.saved ++ [sc], busy := s7.host.busy.map gone } }.saveRecords n addr
    (kind = 3) (kind = 1 || named)

/-- CREW_SAVE: a crew that was asked to stop, for PREEMPT or SWAP, is saved. -/
def execCrewSave (crew : Nat) (s : State) : Out :=
  if s.saveReady crew && (s.crew crew).saveKind ≠ 3 then .next (s.saveCrew crew) else .refused (.notEnabled "CREW_SAVE")

/-- CREW_FAULT: a crew with a trap that no handler took is saved, and its record goes to the die's crew-fault ring. -/
def execCrewFault (crew : Nat) (s : State) : Out :=
  if s.saveReady crew && (s.crew crew).saveKind = 3 then .next (s.saveCrew crew) else .refused (.notEnabled "CREW_FAULT")

end Sys2Proof.Machine
end

