-- ==== Sys2Proof/Machine/Restore.lean ====
section
/-! DEFINITION. Restoring a saved crew from its image (14 R386, R387, R400; 11 R328). -/

namespace Sys2Proof.Machine

/-! ## Reading an image -/

def rd8 (bs : List Byte) (o : Nat) : W64 := BitVec.ofNat 64 (leNat ((bs.drop o).take 8))
def rdNat (bs : List Byte) (o n : Nat) : Nat := leNat ((bs.drop o).take n)

/-- The mask stack and m-registers of an area; the loop marks are those that the crew kept. -/
def masksBack (x : Skein) (bs : List Byte) : Skein :=
  let ones := onesW x.width
  let d := min 32 (rdNat bs 0 8)
  let marks := x.stack.reverse
  let entry (i : Nat) : MaskEntry :=
    { value := rd8 bs (24 + 16 * i) &&& ones, rest := rd8 bs (32 + 16 * i) &&& ones, loop := match marks[i]? with
      | some e => e.loop
      | none => false }
  { x with
    base := rd8 bs 8 &&& ones, stack := ((List.range d).map entry).reverse, mdepth := d,
    m := (List.range 15).foldl (fun m i => smSet 0 m (i + 1) (rd8 bs (536 + 8 * i) &&& ones)) [] }

/-- The control-queue entry of an area; its region and its place in the stack are those that the crew kept (R146, R399). -/
def entryBack (bs : List Byte) (old : Option QEntry) : QEntry :=
  let kind : EntryKind := match rdNat bs 25 1 with
    | 1 => .loopN
    | 2 => .loopAny
    | _ => .run
  { kind, block := rd8 bs 0, count := rd8 bs 8, control := rd8 bs 16, len := rdNat bs 24 1, msel := BitVec.ofNat 4 (rdNat bs 26 1),
    tm := BitVec.ofNat 4 (rdNat bs 27 1), region := rdNat bs 28 4, q := (List.range 8).map fun i => rd8 bs (32 + 8 * i),
    started := old.elim false (·.started), word := 0, trip := 0, depth0 := old.elim 0 (·.depth0) }

/-- The entries of an area, up to the first that is zero. -/
def queueBack (bs : List Byte) : Nat → List QEntry → List QEntry
  | 0, _ => []
  | n + 1, old =>
    if rdNat bs 24 1 = 0 then [] else entryBack bs old.head? :: queueBack (bs.drop 96) n (old.drop 1)

/-- The entry at the head takes its word and trip from LANEPOS; one that stands past its first word has started. -/
def headBack (word trip : Nat) : List QEntry → List QEntry
  | [] => []
  | e :: rest => { e with word, trip, started := e.started || decide (word ≠ 0) || decide (trip ≠ 0) } :: rest

/-- The back-queue of an area. -/
def votesBack (bs : List Byte) : List BackEntry :=
  (List.range 8).filterMap fun i =>
    let k := rdNat bs (16 * i) 1
    if k = 0 then none else some { vote := k = 2, valid := rdNat bs (16 * i + 1) 1 = 1, value := rd8 bs (16 * i + 8) }

/-- The barrier at which a skein index stands: the one at which the crew kept it, or the first whose bitmap lists it. -/
def barrierBack (w : Crew) (index : Nat) : Wait → Wait
  | .barrier n => if (w.bars.getD n Barrier.fresh).arrived.contains index then .barrier n else .released n
  | .released n => .released n
  | _ => match (List.range 16).find? fun n => (w.bars.getD n Barrier.fresh).arrived.contains index with
    | some n => .barrier n
    | none => .none

/-- WAIT of a record, with the tag of a FUSE (R381, R399). -/
def waitBack (w : Crew) (x : Skein) (bs : List Byte) : Wait :=
  match bitsOf (rdNat bs 0x248 8) 5 4 with
  | 1 => barrierBack w x.index x.wait
  | 2 => .fuse (rd8 bs 0x250)
  | _ => .none

/-- The lane shadow of a record. -/
def shadowBack (x : Skein) (bs : List Byte) : Option LaneShadow :=
  if !bitOf (rdNat bs 0x248 8) 6 then none
  else
    let h : LaneShadow := x.region.shadow.getD { stack := [], base := 0, m := [], gens := [] }
    let y := masksBack { x with stack := h.stack } (bs.drop 0x610)
    some { stack := y.stack, base := y.base, m := y.m, gens := (List.range (lanesOf x.width)).map fun i => rd8 bs (0x1C00 + 8 * i) }

/-- The region of a record; which registers are live in, the serial number and the futures are what the crew kept. -/
def regionBack (x : Skein) (bs : List Byte) : Region :=
  { x.region with
    start := rd8 bs 0x3A0, index := if rd8 bs 0x3A8 = BitVec.allOnes 64 then none else some (rdNat bs 0x3A8 8),
    committed := bitOf (rdNat bs 0x248 8) 1, shadow := shadowBack x bs,
    k := (List.range 64).foldl (fun m i => smSet 0 m i (rd8 bs (0x400 + 8 * i))) [], c := BitVec.ofNat 16 (rdNat bs 0x600 2) }

/-- A skein as its record has it (R399), with what the crew kept beside the image; w has the barriers of the image. -/
def recordBack (w : Crew) (x : Skein) (bs : List Byte) : Skein :=
  let y := masksBack x (bs.drop 0x900)
  let st := rdNat bs 0x248 8
  { y with
    k := frameK bs, c := BitVec.ofNat 16 (rdNat bs 0x200 2), pc := alignPc (rdNat bs 0x208 8), lpc := rd8 bs 0x210,
    control := rd8 bs 0x220 &&& 0xF, trapcause := rd8 bs 0x228, trappc := rd8 bs 0x230, traplw := rd8 bs 0x238,
    trapmask := rd8 bs 0x240, range := bitOf (rdNat bs 0x218 8) 4, fusecode := BitVec.ofNat 3 (rdNat bs 0x219 1),
    handler := bitOf st 0, replay := if !bitOf st 7 then none else if bitOf st 0 then y.replay else some (rd8 bs 0x240),
    wait := waitBack w x bs, tq := (List.range 8).map fun i => rd8 bs (0x260 + 8 * i), tmsel := BitVec.ofNat 4 (rdNat bs 0x2A0 1),
    f := (List.range 16).foldl (fun m i => smSet 0 m i (rd8 bs (0x300 + 8 * i))) [],
    h := (List.range 16).foldl (fun m i => smSet 0 m i (BitVec.ofNat 16 (rdNat bs (0x380 + 2 * i) 2))) [],
    back := votesBack (bs.drop 0xB90), region := regionBack x bs,
    queue := headBack (rdNat bs 0xC10 8) (rdNat bs 0xC18 8) (queueBack (bs.drop 0x1000) 32 x.queue) }

/-- A tile slot of an area; the tracking of rewritten bytes starts afresh (R233). -/
def slotBack (bs : List Byte) : Slot :=
  let fl := rdNat bs 1 1
  { gen := rdNat bs 0 1, alloc := bitOf fl 0, first := bitOf fl 1, poisoned := bitOf fl 2, withdrawn := bitOf fl 3, orphan := bitOf fl 4, freeing := false,
    owner := if rdNat bs 2 1 = 255 then none else some (rdNat bs 2 1), stamp := rdNat bs 3 1, rewritten := [], desc := rd8 bs 8 }

/-- A barrier of an area: its arrivals in their number. The bitmap lists a skein once, and none above index 47: second arrivals and those of
higher indices are what the crew kept, and an arrival beyond these has no skein's index (R291). -/
def barBack (bs : List Byte) (b : Barrier) : Barrier :=
  let listed := (List.range 48).filter fun i => bitOf (rdNat bs 2 6) i
  let kept := (listed.foldl List.erase b.arrived).filter fun i => decide (48 ≤ i) || listed.contains i
  let n := rdNat bs 0 1
  { arrived := (listed ++ kept).take n ++ List.replicate (n - (listed ++ kept).length) 128, count := rdNat bs 1 1 }

/-- A future of an area. One that the image has as it was saved stands as it is now: an operation may have ended since (R395). -/
def futBack (bs : List Byte) (was now : FutEntry) : FutEntry :=
  if bs = futArea was then now
  else
    let v := rdNat bs 0 8
    if v / 2 ^ 61 = 0 then freeEntry now
    else
      let value := v / 2 ^ 33 * 2 ^ 33 + was.value.toNat / 2 ^ 32 % 2 * 2 ^ 32 + v % 2 ^ 32
      { now with busy := true, value := BitVec.ofNat 64 value, seq := futTag (BitVec.ofNat 64 value) / 64,
                 kind := bitsOf v 60 56, detached := bitOf v 32 || now.detached }

/-- A page that is still to be translated, at its own address. -/
def ownPage (p : Nat) : Nat × Leaf := (p, { frame := 4096 * p, bits := 12, stamp := 0, priv := false, mart := false, x := false, w := false, tenant := 0 })

/-- The MBEAM of a set's record (R398): the one that the crew kept, where the image has it as it was saved; else the one that the record's
form, handle or base, layout word and issuing index give with the crew's tables, and none where no MBEAM could issue so (log 45). -/
def State.beamRead (s : State) (v : SavedCrew) (w : Crew) (t : Nat) : Option (Nat × LoomOp) :=
  let bs := s.devRead (v.addr + 0x60 + 64 * t) 64
  let mem := decide (rdNat bs 0 8 = 2); let base := rd8 bs 8; let l := rdNat bs 16 8; let index := rdNat bs 24 8
  let slot := base.toNat % 256; let desc := (slotOf w slot).desc
  let kb := if mem then layKm1 l + 1 else if layTrans l then descCols desc else descRows desc
  let nb := if mem then layNm1 l + 1 else if layTrans l then descRows desc else descCols desc
  let table := if layPerm l = 0 then PermTable.identity else w.perms.getD (layPerm l - 1) PermTable.identity
  let f := layFmt l
  match v.beams.find? fun p => decide (p.1 = t) && decide (beamArea p.2 = bs) with
  | some p => some p
  | none =>
    if rdNat bs 0 8 = 0 || decide (2 < rdNat bs 0 8) || layBad l false || notLoom f || beamShape f l kb nb table
        || (!mem && decide (f ≠ descFmt desc)) then none
    else
      let at_ := if mem then (beamElems base.toNat l kb nb table).flatten.flatMap fun e => [e.va, e.va + e.bytes - 1] else []
      let pages := (distinct ((at_.filter (· < Config.windowBase)).map (· / 4096))).map ownPage
      let ctx := (v.skeins.find? fun q => q.2.index = index).elim Config.contexts (·.1)
      some (t, { LoomOp.blank s .mbeam with
        ctx, index, crew := v.crew, lw := 0, mem, wide := wideFmt f, set := if wideFmt f then 0 else t, tileSlot := slot, tileDesc := desc, base,
        lay := BitVec.ofNat 64 l, fmt := f, kb, nb, perm := layPerm l, table, cb := if f = .cb4 then w.cbs.getD (layCb l) [] else [], pages,
        region := 0 })

/-- The pages of a copy's rows, with the translations that it has. -/
def rowPages (y : Copy) : List (Nat × Leaf) :=
  let rows := y.slices.flatMap fun z => (sliceChunks y z.row0 z.rows).map (fun c => (c.va, c.len)) ++ sourceRanges y z.row0 z.rows
  (distinct ((rows.filter fun r => decide (r.1 < Config.windowBase)).flatMap fun r => pagesOf r.1 r.2)).map fun p =>
    (y.pages.find? fun q => q.1 = p).getD (ownPage p)

/-- The copy of a channel's engine record (R397): the one that the crew kept, where the image has it as it was saved; else that one with the
record's kind, descriptor and slices, each with the last of its lines in the number that the record gives. Slices beyond the record's room
are those that the crew kept (log 45). -/
def State.copyRead (s : State) (v : SavedCrew) (w0 : Crew) (chan : Nat) (old : Option Copy) : Option Copy :=
  let bs := s.devRead (v.addr + 0x20E000 + 512 * chan) 512
  let asSaved := match old with
    | some y => channelArea y
    | none => List.replicate 512 0
  if bs = asSaved then old
  else
    match rdNat bs 0 1 with
    | 0 => none
    | k + 1 =>
      let kind : CopyKind := match k with
        | 0 => .cpy
        | 1 => .cpyg
        | 2 => .cpyz
        | _ => .mupd
      let desc := (List.range 6).map fun i => rd8 bs (8 + 8 * i)
      let y := old.getD (s.freshCopy v.crew w0.core (s.nextCopy + chan) kind desc)
      let n := rdNat bs 2 6
      let rows (i : Nat) : Slice :=
        { (y.slices[i]?).getD { ctx := (v.skeins.headD (0, Skein.empty)).1, fut := 2 ^ 24, row0 := 0, rows := 0, lines := [], seq := 0 } with
          row0 := rdNat bs (56 + 16 * i) 4, rows := rdNat bs (60 + 16 * i) 4 }
      let y1 : Copy := { y with
        kind, desc, started := rdNat bs 1 1 = 1, slices := (List.range (min n 28)).map rows ++ (y.slices.drop 28).take (n - 28) }
      let y2 : Copy := { y1 with pages := rowPages y1 ++ y.pages.filter fun p => !(rowPages y1).any fun q => q.1 = p.1 }
      let lines (z : Slice) (i : Nat) : Slice :=
        let ls := chunkLines w0 y2.pages (sliceChunks y2 z.row0 z.rows)
        if 28 ≤ i then z else { z with lines := ls.drop (ls.length - rdNat bs (64 + 16 * i) 8) }
      let recLeaf := if copyRec y2 = copyRec y then y.recLeaf else match s.dieView (dieOfCore w0.core) y.tctx (copyRec y2) with
        | .leaf l => some l
        | .invalid | .malformed | .error | .busy => none
      some { y2 with slices := y2.slices.zipIdx.map fun q => lines q.1 q.2, recLeaf }

/-- A saved crew's copies: each channel's oldest from its engine record, and those behind it. -/
def State.copiesRead (s : State) (v : SavedCrew) (w0 : Crew) : List Copy :=
  let chan (y : Copy) : Nat := ctlChan (copyCtl y)
  let first (y : Copy) : Bool := (v.copies.find? fun z => chan z = chan y) == some y
  (v.copies.filterMap fun y => if first y then s.copyRead v w0 (chan y) (some y) else some y)
    ++ (List.range 8).filterMap fun c => if v.copies.any fun y => chan y = c then none else s.copyRead v w0 c none

/-- A crew's tables as the image has them: permutations, codebooks, patterns, barriers, futures, tile slots; was is the crew at the
save. -/
def State.tablesBack (s : State) (addr : Nat) (was w : Crew) : Crew :=
  let rd (off n : Nat) : List Byte := s.devRead (addr + off) n
  let perm (i : Nat) : PermTable :=
    let len := leNat (rd (0x40 + 4 * i) 4)
    { len, p := (List.range (min len 4096)).map fun j => leNat (rd (0x203000 + 0x2000 * i + 2 * j) 2), loads := leNat (rd (0x50 + 2 * i) 2) }
  let cb (i : Nat) : List W16 := (List.range 16).map fun j => BitVec.ofNat 16 (leNat (rd (0x20B000 + 32 * i + 2 * j) 2))
  let pat (i : Nat) : List (BitVec 6) := (rd (0x20B100 + 64 * i) 64).map fun b => b.setWidth 6
  { w with
    perms := (List.range 4).map perm, cbs := (List.range 8).map cb, pats := (List.range 4).map pat,
    bars := (List.range 16).map fun i => barBack (rd (0x20B200 + 8 * i) 8) (w.bars.getD i Barrier.fresh),
    futs := (List.range 64).map fun i =>
      futBack (rd (0x20B280 + 8 * i) 8) (was.futs.getD i FutEntry.free) (w.futs.getD i FutEntry.free),
    slots := (List.range w.slots.length).map fun i => slotBack (rd (0x20B480 + 16 * i) 16) }

/-! ## Old places and new -/

/-- A top skein's move: its old run and lanes, its new run, and its contexts, old and new. -/
structure Move where
  old : Nat
  lanes : Nat
  new : Nat
  ctxs : List (Nat × Nat)
  deriving DecidableEq, Repr

def movesOf (v : SavedCrew) (p : Spot) : List Move :=
  ((savedRuns v.skeins).zip p.seats).map fun q =>
    { old := q.1.1, lanes := q.1.2.1, new := 64 * (4 * p.core + q.2.bench) + q.2.strand, ctxs := q.1.2.2.zip q.2.ctxs }

/-- The new place of a physical lane. -/
def moveLane (ms : List Move) (lane : Nat) : Option Nat :=
  (ms.find? fun m => decide (4 * m.old ≤ lane) && decide (lane < 4 * m.old + m.lanes)).map fun m => lane - 4 * m.old + 4 * m.new

/-- A strand number of a move's bench. -/
def moveStrand (m : Move) (x : BitVec 6) : BitVec 6 := BitVec.ofNat 6 (x.toNat + m.new % 64 - m.old % 64)
def moveSplits (m : Move) (l : List SplitLevel) : List SplitLevel := l.map fun q => { q with strand := moveStrand m q.strand }

/-- A skein in its new place (R35, R400). -/
def moveSkein (m : Move) (age : Nat) (x : Skein) : Skein :=
  { x with strand := moveStrand m x.strand, splits := moveSplits m x.splits, age, stopped := false, discarded := false, preempt := none }

/-- A family in its new place. -/
def moveFamily (ms : List Move) (core : Nat) (f : Family) : Family :=
  match ms.find? fun m => decide (m.old / 64 = f.bench) && decide (m.old % 64 ≤ f.pStrand.toNat)
      && decide (f.pStrand.toNat < m.old % 64 + m.lanes / 4) with
  | some m => { f with core, bench := m.new / 64, pStrand := moveStrand m f.pStrand, up := moveSplits m f.up }
  | none => f

/-- The new context of an old one; none for a skein that has ended. -/
def moveCtx (ms : List Move) (c : Nat) : Nat := ((ms.flatMap (·.ctxs)).find? fun p => p.1 = c).elim Config.contexts (·.2)

/-! ## What resumes -/

/-- The futures of a restored crew's registers: those that ended while it was saved reach their registers. -/
def State.futuresBack (s : State) (n : Nat) : State :=
  (List.range 64).foldl (fun s i =>
    let w := s.crew n
    let e := w.futs.getD i FutEntry.free
    if !e.busy || decide (e.ctx < Config.contexts) then s
    else
      match (s.crewCtxs n).find? fun c => decide ((s.ctx c).index = e.ctx - Config.contexts) with
      | none => s.setCrew n (setFutEntry w i (freeEntry e))
      | some c =>
        let v := fGet (s.ctx c) e.reg.toNat
        if !isPending v || decide (futTag v ≠ futTag e.value) then s.setCrew n (setFutEntry w i (freeEntry e))
        else if isPending e.value then s.setCrew n (setFutEntry w i { e with detached := false, ctx := c })
        else (s.setCrew n (setFutEntry w i (freeEntry e))).setCtx c (fSet (s.ctx c) e.reg.toNat e.value)) s

/-- Source bytes that were kept for a slice are kept for it at its new place; those of the crew's scratchpad move with it (R281). -/
def moveKept (w0 w1 : Crew) (old new : Nat) (m : SMap Byte) : SMap Byte :=
  let at_ (a : Nat) : Nat := if decide (spadAddr w0 0 ≤ a) && decide (a < spadAddr w0 (128 * w0.nLines)) then a - spadAddr w0 0 + spadAddr w1 0 else a
  m.foldl (fun m p => if p.1 / 2 ^ 48 = old then smPut (smDel m p.1) (keptKey new (at_ (p.1 % 2 ^ 48))) p.2 else m) m

/-- A copy resumes: it owns the lines that it has still to write, and its pages are translated again; a heavy one asks for leave
again (R389, R395, R400). w0 is the crew in its old place. -/
def State.copyBack (w0 : Crew) (ms : List Move) (s : State) (y : Copy) : State :=
  let w1 := s.crew y.crew
  let zs := y.slices.zipIdx.map fun q =>
    { q.1 with lines := sliceBack w0 w1 y y.pages q.1, seq := s.nextPlace + q.2, ctx := moveCtx ms q.1.ctx }
  let y1 := { y with core := w1.core, slices := zs, leave := 0, standing := false, waiting := false }
  let y2 := match y.recLeaf, s.dieView (dieOfCore w1.core) y.tctx (copyRec y) with
    | some _, .leaf l => { y1 with recLeaf := some l }
    | _, _ => y1
  let kept := (y.slices.zip zs).foldl (fun m p => moveKept w0 w1 p.1.seq p.2.seq m) s.ms.kept
  let s1 := { s with copies := s.copies ++ [y2], nextPlace := s.nextPlace + zs.length, ms := { s.ms with kept } }
  if y.cancelled then s1 else (s1.retranslate y2).1

/-- A page of a recorded MBEAM translated again on a die. -/
def State.pageBack (s : State) (die : Nat) (m : Commission) (p : Nat × Leaf) : Option (Nat × Leaf) :=
  match s.dieView die m.key.ctx (4096 * p.1) with
  | .leaf l => if pageOk l .read m.tenant (4096 * p.1) then some (p.1, l) else none
  | .invalid | .malformed | .error | .busy => none

/-- The records of the sets as MBEAMs to perform: a wide one once, and before a single one that came after it (R268). -/
def beamRecords (beams : List (Nat × LoomOp)) : List LoomOp :=
  let os := beams.map (·.2)
  (os.filter fun o => o.wide).take 1 ++ os.filter fun o => !o.wide

/-- The elements' lines of an MBEAM in memory. -/
def beamLines (o : LoomOp) : List Nat :=
  if o.mem then elemLines (beamElems o.base.toNat o.lay.toNat o.kb o.nb o.table).flatten else []

/-- A recorded MBEAM is queued again, before any operation that the crew issues later (R268). One whose pages are no longer all
readable fails. Lines that no engine operation before it owns are read at once, a scratchpad line that a copy of the crew will mark empty
again among them: the spec orders this MBEAM before the copies, and says nothing of the wait (R261, R400; log 46). -/
def State.beamBack (n : Nat) (ms : List Move) (s : State) (o : LoomOp) : State :=
  let w := s.crew n
  let ps := o.pages.filterMap (s.pageBack (dieOfCore w.core) (s.commission w.comm))
  let o1 := { o with ctx := moveCtx ms o.ctx, crew := n, fut := none, pages := ps, data := [], left := beamLines o, started := false, leave := 0,
                     standing := false, cancelled := false, poisons := false, failed := if ps.length = o.pages.length then 0 else 1,
                     place := s.nextPlace, seq := w.tileSeq }
  let lm := s.loom w.core
  let lm1 := { lm with ops := lm.ops ++ [(lm.nextOp, o1)], nextOp := lm.nextOp + 1 }
  let lm2 := (opSets o1).foldl (fun m t => putQueue m t (loomQueue m t ++ [lm.nextOp])) lm1
  let s1 := (s.setLoom w.core lm2).setCrew n { w with tileSeq := w.tileSeq + 1 }
  { s1 with nextPlace := s.nextPlace + 1 }

/-- The faulting skein of a crew saved with kind FAULT resumes as by ERET, from its record (R386). -/
def State.faultBack (s : State) (n : Nat) : State :=
  match (s.crewCtxs n).find? fun c => decide ((s.ctx c).index = (s.crew n).faultIndex) with
  | some c => s.leaveHandler c false (s.ctx c).pc (s.ctx c)
  | none => s

/-! ## CREW_RESTORE -/

/-- The registers of a crew's lanes: those that it kept, then those of the image. -/
def State.lanesBack (s : State) (v : SavedCrew) (ms : List Move) (cs : List Nat) : State :=
  let put (m : SMap W32) (p : Nat × W32) : SMap W32 :=
    match moveLane ms (p.1 / 256) with
    | some l => smSet 0 m (256 * l + p.1 % 256) p.2
    | none => m
  let putG (m : SMap W64) (p : Nat × W64) : SMap W64 :=
    match moveLane ms p.1 with
    | some l => smSet 0 m l p.2
    | none => m
  let s1 := { s with vregs := v.regs.foldl put s.vregs, gens := v.gens.foldl putG s.gens }
  (s1.strandLanes cs).zipIdx.foldl (fun s q =>
    let bs := s.devRead (v.addr + 0x101000 + 0x1000 * q.2) 4096
    let gs := s.devRead (v.addr + 0x201000 + 32 * q.2) 32
    { s with
      vregs := (List.range 1024).foldl (fun m i => smSet 0 m (256 * (q.1 + i % 4) + i / 4) (BitVec.ofNat 32 (rdNat bs (4 * i) 4))) s.vregs,
      gens := (List.range 4).foldl (fun m i => smSet 0 m (q.1 + i) (rd8 gs (8 * i))) s.gens }) s1

/-- A crew's scratchpad and tiles from its image, with the lines' bits and tags (R328). -/
def State.storesBack (s : State) (n addr : Nat) : State :=
  let w := s.crew n
  let s1 := s.write (spadAddr w 0) (s.devRead (addr + 0x210000) (128 * w.nLines))
  let s2 := (List.range w.slots.length).foldl (fun s i => s.write (tileAddr w i 0) (s.devRead (addr + 0x290000 + 0x1000 * i) 4096)) s1
  let line (s : State) (i : Nat) : State :=
    let b := leNat (s.devRead (addr + 0x20D000 + i) 1)
    s.setLine (lineOf (spadAddr w 0) + i) { empty := !bitOf b 7, tag := BitVec.ofNat 3 b }
  ((List.range w.nLines).foldl line s2).poisonImage n addr false

/-- A crew starts again at a spot. -/
def State.restoreCrew (s : State) (v : SavedCrew) (p : Spot) : State :=
  let n := v.crew
  let w0 := s.crew n
  let m := s.commission w0.comm
  let ms := movesOf v p
  let (tag, s1) := s.takeTag p.core
  let w1 := s1.tablesBack v.addr v.was { w0 with
    core := p.core, baseLine := p.base, ptag := tag, rename := p.slots, status := .running, fetches := w0.fetches.filter (·.denied) }
  let m1 := { m with lastCore := p.core, seen := if m.seen.contains p.core then m.seen else p.core :: m.seen }
  let s2 := ({ s1 with nextCrew := s1.nextCrew + 1 }.setCrew n w1).setComm m1
  let s3 := (s2.clearStores p.core p.base w1.nLines p.slots).storesBack n v.addr
  let s4 := s3.l1Drop p.core 0 (2 ^ 37)
  let seat (s : State) (q : Move) : State :=
    q.ctxs.foldl (fun s c =>
      let x := smGet Skein.empty v.skeins c.1
      s.setCtx c.2 (moveSkein q s1.nextCrew (recordBack w1 x (s.devRead (v.addr + 0x1000 + 0x2000 * x.index) 0x2000))))
      (s.clearStrands (q.new / 64) (q.new % 64) (q.lanes / 4))
  let s5 := ms.foldl seat s4
  let fam (f : Nat × Family) : Nat × Family := if f.2.crew = n then (f.1, moveFamily ms p.core f.2) else f
  let s6 : State := { s5 with families := s5.families.map fam }
  let cs := sortBy (fun a b => decide ((s6.ctx a).index ≤ (s6.ctx b).index)) (s6.crewCtxs n)
  let s7 := (s6.lanesBack v ms cs).futuresBack n
  let beams := [0, 1].filterMap fun t => s7.beamRead v w1 t
  let copies := s7.copiesRead v w0
  let s8 := (copies.foldl (State.copyBack w0 ms)
    ((beamRecords beams).foldl (State.beamBack n ms) { s7 with nextCopy := s7.nextCopy + 8 })).settleReads
  let s9 : State := { s8 with host := { s8.host with saved := s8.host.saved.filter fun q => q.crew ≠ n } }
  let d := s9.die (dieOfCore p.core)
  let d1 := if d.pool.length < 1024 then { d with pool := d.pool ++ [v.addr] } else { d with poolDrops := d.poolDrops + 1 }
  let s10 := s9.setDie (dieOfCore p.core) d1
  let s11 := if v.kind = 3 then s10.faultBack n else s10
  (s11.crewCtxs n).foldl State.waitsAgain s11

/-- A saved crew comes before another: by its commission's place in the order, then by its number. -/
def State.savedBefore (s : State) (a b : SavedCrew) : Bool :=
  let ra := commRank (s.commission (s.crew a.crew).comm); let rb := commRank (s.commission (s.crew b.crew).comm)
  decide (ra < rb) || (decide (ra = rb) && decide (a.crew < b.crew))

/-- CREW_RESTORE: a saved crew that system software does not hold is placed again, ahead of new crews of its priority; crews of
higher priorities that fit come first. It waits for a core of which no pending operation has a sequence number of its own (R269; log 33). -/
def execCrewRestore (saved : Nat) (s : State) : Out :=
  match s.restorable.find? fun v => v.crew = saved with
  | none => .refused (.notEnabled "CREW_RESTORE")
  | some v =>
    match s.spotFor v with
    | none => .refused (.notEnabled "CREW_RESTORE")
    | some (_, p) =>
      let prio := (s.commission (s.crew saved).comm).prio
      let fits (m : Commission) : Bool := (firstFit s.room (s.coresFor m) (linesOf m) m.slots (unitsOf m)).isSome
      let mine := s.usedSeqs fun n _ => decide (n = saved)
      let theirs := s.usedSeqs fun n k => decide (n ≠ saved) && decide (k = p.core)
      if mine.any theirs.contains then .refused (.notEnabled "CREW_RESTORE")
      else if (s.comms.any fun m => wantsCrew m && (m.drover.isSome || decide (m.prio < prio)) && fits m)
          || s.restorable.any (fun u => s.savedBefore u v && (s.spotFor u).isSome) then .refused (.notEnabled "CREW_RESTORE")
      else .next (s.restoreCrew v p)

end Sys2Proof.Machine
end

