-- ==== Sys2Proof/Machine/Commands.lean ====
section
/-! DEFINITION. The command rings: taking entries, the commands, and their completion (15 R409 to R412; 11 R326, R327; 13 R354;
14 R390). -/

namespace Sys2Proof.Machine

/-! ## Rings (R409) -/

def State.cmdRing (s : State) (fn : Nat) : CmdRing := alGet CmdRing.reset s.host.cmd fn
def State.setCmdRing (s : State) (fn : Nat) (r : CmdRing) : State := { s with host := { s.host with cmd := smPut s.host.cmd fn r } }

/-- The next entry of a function's ring: its address, and its 64 bytes as a number; none while a copy still writes its line (R310). -/
def State.nextCmd (s : State) (fn : Nat) : Option (Nat × Nat) :=
  let r := s.cmdRing fn
  match ringLog r.size with
  | some n =>
    let h := r.head.toNat % 2 ^ n
    let at_ := r.base.toNat + 64 * h
    if h = r.tail.toNat % 2 ^ n || s.rangeBusy at_ 64 then none else some (at_, leNat (s.devRead at_ 64))
  | none => none

/-- The entry is taken. -/
def State.takeCmd (s : State) (fn : Nat) : State :=
  let r := s.cmdRing fn
  s.setCmdRing fn { r with head := BitVec.ofNat 64 ((r.head.toNat + 1) % 2 ^ (ringLog r.size).getD 4) }

/-- A command completes: the STATUS word of its entry, whose address is given, then the ring's vector (R409, R412). -/
def State.completeCmd (s : State) (fn entry code result : Nat) : State :=
  let r := s.cmdRing fn
  let s1 := s.devWrite (entry + 56) (leBytes 8 (2 ^ 63 + result % 2 ^ 32 * 2 ^ 16 + code))
  if bitOf r.vec.toNat 15 then s1.sendMsix fn (bitsOf r.vec.toNat 10 0) else s1

/-- A byte field of an entry. -/
def cmdField (v b n : Nat) : Nat := v / 2 ^ (8 * b) % 2 ^ (8 * n)
def cmdOp (v : Nat) : Nat := cmdField v 0 2
/-- Every byte of ARGS that is not listed is zero (R411). -/
def argsOk (v : Nat) (listed : List (Nat × Nat)) : Bool :=
  (List.range 48).all fun i => (listed.any fun p => decide (p.1 ≤ i + 8) && decide (i + 8 < p.1 + p.2)) || cmdField v (i + 8) 1 = 0

/-- A function may name a context (R410). -/
def State.mayName (s : State) (fn c : Nat) : Bool :=
  let e := s.ctxEntry c
  ctxValid e && (fn = 0 || ctxFunc e = fn)

/-- A command of a kind starts: k gets the entry's address and value. An entry whose OP is another's, or whose bytes 2 to 3 are not
zero, is no such command. -/
def State.runCmd (s : State) (fn op : Nat) (name : String) (k : State → Nat → Nat → State) : Out :=
  if decide (64 < fn) || !s.dev.ready then .refused (.notEnabled name)
  else match s.nextCmd fn with
    | none => .refused (.notEnabled name)
    | some (i, v) => if cmdOp v ≠ op || cmdField v 2 2 ≠ 0 then .refused (.notEnabled name) else .next (k (s.takeCmd fn) i v)

/-- MALFORMED_COMMAND: an OP other than 0x01 to 0x08, or nonzero bytes 2 to 3. -/
def execMalformedCommand (fn : Nat) (s : State) : Out :=
  if decide (64 < fn) || !s.dev.ready then .refused (.notEnabled "MALFORMED_COMMAND")
  else match s.nextCmd fn with
    | none => .refused (.notEnabled "MALFORMED_COMMAND")
    | some (i, v) =>
      if decide (1 ≤ cmdOp v) && decide (cmdOp v ≤ 8) && cmdField v 2 2 = 0 then .refused (.notEnabled "MALFORMED_COMMAND")
      else .next ((s.takeCmd fn).completeCmd fn i 1 0)

/-! ## WITHDRAW and ABORT (R354, R412) -/

def ctxIdArgs : List (Nat × Nat) := [(8, 2), (12, 4)]
/-- The commission that an entry names. -/
def cmdKey (v : Nat) : CommKey := ⟨cmdField v 8 2, BitVec.ofNat 32 (cmdField v 12 4)⟩

def execWithdraw (fn : Nat) (s : State) : Out :=
  s.runCmd fn 1 "WITHDRAW" fun s i v =>
    if !argsOk v ctxIdArgs || decide (4095 < cmdField v 8 2) then s.completeCmd fn i 1 0
    else if !s.mayName fn (cmdField v 8 2) then s.completeCmd fn i 2 0
    else match s.findComm (cmdKey v) with
      | none => s.completeCmd fn i 3 0
      | some m =>
        if m.state = .queued || m.state = .ready then (s.withdrawComm m).completeCmd fn i 0 0 else s.completeCmd fn i 3 0

/-- The non-final children of a commission (R365). -/
def State.childrenOf (s : State) (uid : Nat) : List Nat :=
  (s.comms.filter fun m => !isFinal m.state && (match m.parent with
    | some n => decide ((s.crew n).comm = uid)
    | none => false)).map (·.uid)

/-- The taken launches of a commission's crews enter the table, so that they end with it. -/
def State.enterChildren (s : State) (uid : Nat) : State :=
  let mine (t : Taken) : Bool := match t.parent with
    | some n => decide ((s.crew n).comm = uid)
    | none => false
  let s1 := { s with host := { s.host with taken := s.host.taken.filter fun t => !mine t } }
  (s.host.taken.filter mine).foldl State.enterTable s1

/-- A commission is aborted: its children first, then its crews, which are discarded without a save (R354). -/
def abortComm : Nat → State → Nat → State
  | 0, s, _ => s
  | fuel + 1, s, uid =>
    let s1 := s.enterChildren uid
    let s2 := (s1.childrenOf uid).foldl (abortComm fuel) s1
    let s3 := (s2.openCrews uid).foldl State.discardCrew s2
    let s4 := (s3.crews.filter fun p => decide (p.2.comm = uid) && s3.crewOps p.1).foldl (fun s p => s.discardCrew p.1) s3
    let m := s4.commission uid
    if isFinal m.state then s4 else s4.finish m .aborted 0

def execAbort (fn : Nat) (s : State) : Out :=
  s.runCmd fn 2 "ABORT" fun s i v =>
    if !argsOk v ctxIdArgs || decide (4095 < cmdField v 8 2) then s.completeCmd fn i 1 0
    else if !s.mayName fn (cmdField v 8 2) then s.completeCmd fn i 2 0
    else match s.findComm (cmdKey v) with
      | none => s.completeCmd fn i 3 0
      | some m => (abortComm (Config.maxDepth + 2) s m.uid).completeCmd fn i 0 0

/-! ## PREEMPT and RESTORE (R390, R410, R411) -/

/-- The fields of a PREEMPT entry are in range. -/
def preemptOk (v : Nat) : Bool :=
  let scope := cmdField v 10 1; let which := cmdField v 16 4
  argsOk v [(8, 2), (10, 1), (12, 4), (16, 4)] && decide (scope ≤ 3) && decide (cmdField v 8 2 ≤ 4095)
    && (scope = 0 || scope = 3 || (cmdField v 8 2 = 0 && cmdField v 12 4 = 0))
    && (scope ≠ 1 || decide (which < Config.cores)) && (scope ≠ 2 || decide (which < Config.dies)) && (scope ≠ 3 || which = 0)

/-- The crews in place that a scope names. -/
def State.namedCrews (s : State) (scope which : Nat) (uid : Option Nat) : List Nat :=
  (s.crews.filter fun p => decide (p.2.status = .running) && (match scope with
    | 0 => decide (some p.2.comm = uid) && decide (p.2.lin = which)
    | 1 => decide (p.2.core = which)
    | 2 => decide (dieOfCore p.2.core = which)
    | _ => decide (some p.2.comm = uid))).map (·.1)

/-- A crew has been placed, and has not ended. -/
def State.crewStands (s : State) (uid lin : Nat) : Bool :=
  s.crews.any fun p => decide (p.2.comm = uid) && decide (p.2.lin = lin) && decide (p.2.status ≠ .ended)

/-- A crew is asked to stop; a reduce crew is not (R420), and one that is stopping goes on (R390). -/
def State.askStop (s : State) (n : Nat) : State :=
  let w := s.crew n
  if (s.commission w.comm).drover.isSome || w.saveKind ≠ 0 then s
  else (s.setCrew n { w with saveKind := 1 }).requestStops (s.crewCtxs n)

/-- The crews are asked, and the command waits for them. -/
def State.preemptCrews (s : State) (fn entry : Nat) (crews : List Nat) : State :=
  let s1 := crews.foldl State.askStop s
  { s1 with host := { s1.host with busy := s1.host.busy ++ [{ fn, entry, op := 3, crews, saved := 0, arg := 0, bufs := [] }] } }

def execPreempt (fn : Nat) (s : State) : Out :=
  s.runCmd fn 3 "PREEMPT" fun s i v =>
    let scope := cmdField v 10 1; let which := cmdField v 16 4; let byName := scope = 0 || scope = 3
    if !preemptOk v then s.completeCmd fn i 1 0
    else if fn ≠ 0 || (byName && !s.mayName 0 (cmdField v 8 2)) then s.completeCmd fn i 2 0
    else
      let m := s.findComm (cmdKey v)
      let found := !byName || (match m with
        | some c => scope = 3 || s.crewStands c.uid which
        | none => false)
      if !found then s.completeCmd fn i 3 0 else s.preemptCrews fn i (s.namedCrews scope which (m.map (·.uid)))

/-- RESTORE: HOLD 0 makes a saved crew ready for placement; HOLD 1 keeps one out of it. -/
def execRestore (fn : Nat) (s : State) : Out :=
  s.runCmd fn 4 "RESTORE" fun s i v =>
    let addr := cmdField v 8 8; let hold := cmdField v 16 1
    if !argsOk v [(8, 8), (16, 1)] || decide (1 < hold) || addr % 0x400000 ≠ 0 then s.completeCmd fn i 1 0
    else if fn ≠ 0 then s.completeCmd fn i 2 0
    else match s.host.saved.find? fun q => q.addr = addr with
      | none => s.completeCmd fn i 3 0
      | some q =>
        let put (u : SavedCrew) : SavedCrew := if u.crew = q.crew then { u with held := decide (hold = 1) } else u
        let s1 := { s with host := { s.host with saved := s.host.saved.map put } }
        let w := s1.crew q.crew
        let s2 := if hold = 0 && w.status = .saved then s1.setCrew q.crew { w with status := .readyAgain } else s1
        s2.completeCmd fn i 0 0

/-! ## INVALIDATE (R327, R389) -/

/-- A page of 2^bits bytes at base in a context is among those invalidated. -/
def invHits (kind tctx base len : Nat) (tc page bits : Nat) : Bool :=
  kind = 2 || (decide (tc = tctx) && (kind = 1 || overlaps (page / 2 ^ bits * 2 ^ bits) (2 ^ bits) base len))

/-- A line lies in a frame of a list of leaves. -/
def inFrames (ls : List Leaf) (line : Nat) : Bool :=
  ls.any fun l => decide (l.frame ≤ 128 * line) && decide (128 * line < l.frame + 2 ^ l.bits)

/-- The waiting accesses' numbers: copies and Loom operations that translated at their issue. -/
def copyBusy (id : Nat) : Nat := 2 * id
def loomBusyId (core i : Nat) : Nat := 2 * (core * 2 ^ 40 + i) + 1

/-- The translations of engine operations that an invalidation hits, with the operations' numbers. -/
def State.engineHits (s : State) (hit : Nat → Nat → Nat → Bool) : List (Nat × Leaf) :=
  s.copies.flatMap (fun y =>
      ((if y.started && !y.again then y.pages else y.recLeaf.toList.map fun l => (copyRec y / 4096, l)).filter fun p =>
        hit y.tctx (4096 * p.1) p.2.bits).map fun p => (copyBusy y.id, p.2))
    ++ s.looms.flatMap fun k => k.2.ops.flatMap fun q =>
      let tc := (s.commission (s.crew q.2.crew).comm).key.ctx
      (q.2.pages.filter fun p => hit tc (4096 * p.1) p.2.bits).map fun p => (loomBusyId k.1 q.1, p.2)

/-- Cached translations are gone, and with them the lines in the frames of every translation of those pages that the dies have obtained;
buffered stores to those frames are performed (R314, R327). -/
def State.invalidate (s : State) (hit : Nat → Nat → Nat → Bool) : State :=
  let hits (e : TlbEntry) : Bool := hit e.tctx e.base e.leaf.bits
  let covers (e : WalkCached) : Bool := hit e.tctx (e.cover * 2 ^ (12 + 9 * e.level)) (12 + 9 * e.level)
  let leaves := ((s.ms.tlb ++ s.ms.mapped).filter hits).map (·.leaf) ++ (s.engineHits hit).map (·.2)
  let old (line : Nat) : Bool := inFrames leaves line
  let s1 := (s.ms.sgb.filter fun e => old e.line).foldl (fun s e => s.sgbDrain e.core e.line) s
  { s1 with ms := { s1.ms with tlb := s1.ms.tlb.filter (fun e => !hits e), mapped := s1.ms.mapped.filter (fun e => !hits e),
                               walkCache := s1.ms.walkCache.filter (fun e => !covers e),
                               l1 := s1.ms.l1.filter (fun e => !old e.line), ic := s1.ms.ic.filter fun e => !old e.line } }

/-- The fields of an INVALIDATE entry are in range. -/
def invalidateOk (v : Nat) : Bool :=
  let kind := cmdField v 10 1; let base := cmdField v 16 8; let len := cmdField v 24 8
  argsOk v [(8, 2), (10, 1), (16, 8), (24, 8)] && decide (kind ≤ 2) && decide (cmdField v 8 2 ≤ 4095)
    && (kind ≠ 2 || cmdField v 8 2 = 0) && base % 4096 = 0 && len % 4096 = 0
    && (if kind = 0 then len ≠ 0 else base = 0 && len = 0)

def execInvalidate (fn : Nat) (s : State) : Out :=
  s.runCmd fn 5 "INVALIDATE" fun s i v =>
    let kind := cmdField v 10 1; let c := cmdField v 8 2
    if !invalidateOk v then s.completeCmd fn i 1 0
    else if fn ≠ 0 || (kind ≠ 2 && !s.mayName 0 c) then s.completeCmd fn i 2 0
    else
      let hit := invHits kind c (cmdField v 16 8) (cmdField v 24 8)
      let waits := distinct ((s.engineHits hit).map (·.1))
      let s1 := s.invalidate hit
      { s1 with host := { s1.host with busy := s1.host.busy ++ [{ fn, entry := i, op := 5, crews := waits, saved := 0, arg := 0, bufs := [] }] } }

/-- An operation that an invalidation waits for has not ended. -/
def State.opStands (s : State) (k : Nat) : Bool :=
  if k % 2 = 0 then s.copies.any fun y => copyBusy y.id = k
  else s.looms.any fun p => p.2.ops.any fun q => loomBusyId p.1 q.1 = k

/-! ## PAGE_RESPONSE (R326, R353, R359, R387) -/

/-- A crew that waits for a verdict on a fetch of a page has it: it is ready for placement again, and a DENY stands for the word that
fetches (R387). -/
def State.answerCrew (deny : Bool) (page : Nat) (s : State) (n : Nat) : State :=
  let w := s.crew n
  if !w.fetches.any (fun h => decide (h.page = page) && !h.denied) then s
  else
    let faulted := s.host.saved.any fun v => v.crew = n && v.kind = 3
    let fetches := if deny then w.fetches.map fun h => if h.page = page then { h with denied := true } else h
      else w.fetches.filter fun h => h.page ≠ page || h.denied
    s.setCrew n { w with fetches, status := if w.status = .saved && !faulted then .readyAgain else w.status }

/-- A commission that waits for a verdict at admission has it (R353). -/
def State.answerAdmit (deny : Bool) (s : State) (uid : Nat) : State :=
  match s.lastComm uid with
  | none => s
  | some m =>
    if m.state ≠ .ready then s
    else if deny then s.finish m .refused 9 else s.setComm { m with paging := false }

/-- A record that waits for a verdict has it (R359). -/
def State.answerRecord (deny : Bool) (s : State) (uid : Nat) : State :=
  match s.lastComm uid with
  | none => s
  | some m => if m.recordDue then s.setComm { m with paging := false, record := if deny then 0 else m.record } else s

/-- The records of collectives whose page is denied are not written. -/
def State.answerColl (deny : Bool) (tctx page : Nat) (s : State) : State :=
  let f (o : CollOp) : CollOp :=
    if deny && decide (o.tctx = tctx) && decide (o.record.toNat / 4096 = page) then { o with record := 0 } else o
  s.setFab { s.fab with ops := s.fab.ops.map f }

/-- A set-up that waits for a page of its rank table has its verdict (R416). -/
def setupWaiter (entry : Nat) : Nat := 2 ^ 45 + entry
def State.answerSetup (deny : Bool) (s : State) (entry : Nat) : State :=
  let put (b : Busy) : Busy := if b.op = 9 && b.entry = entry then { b with saved := if deny then 2 else 1 } else b
  { s with host := { s.host with busy := s.host.busy.map put } }

/-- A waiter that is no access of a skein or a copy. -/
def State.answerOne (deny : Bool) (page : Nat) (s : State) (n : Nat) : State :=
  if n < 2 ^ 40 then s
  else if n < 2 ^ 41 then s.answerCrew deny page (n - 2 ^ 40)
  else if n < 2 ^ 42 then s.answerAdmit deny (n - 2 ^ 41)
  else if n < 2 ^ 43 then s.answerRecord deny (n - 2 ^ 42)
  else if 2 ^ 45 ≤ n then s.answerSetup deny (n - 2 ^ 45) else s

/-- A posted request is answered: RETRY walks again for the accesses that wait, and DENY ends their wait. -/
def State.answerWalk (deny : Bool) (s : State) (r : WalkReq) : State :=
  let r1 := { r with waiters := r.waiters.filter (· < 2 ^ 40), status := if deny then WalkStatus.failed else .due }
  let s1 := s.setWalk r (if r1.waiters = [] then none else some r1)
  let s2 := if deny || decide (r1.waiters = []) then s1 else s1.endWalk r1
  r.waiters.foldl (State.answerOne deny r.page) (if r.waiters.contains (droverWaiter 0) then s2.answerColl deny r.tctx r.page else s2)

def execPageResponse (fn : Nat) (s : State) : Out :=
  s.runCmd fn 6 "PAGE_RESPONSE" fun s i v =>
    let c := cmdField v 8 2; let answer := cmdField v 10 1; let page := cmdField v 16 8
    if !argsOk v [(8, 2), (10, 1), (16, 8)] || decide (4095 < c) || decide (1 < answer) || decide (2 ^ 45 ≤ page) then
      s.completeCmd fn i 1 0
    else if fn ≠ 0 || !s.mayName 0 c then s.completeCmd fn i 2 0
    else
      let mine := s.ms.walks.filter fun r => decide (r.tctx = c) && decide (r.page = page) && decide (r.status = .posted)
      (mine.foldl (State.answerWalk (answer = 1)) s).completeCmd fn i 0 0

/-! ## COMM_SETUP and COMM_FREE (R416, R417) -/

/-- The descriptor's fields are in range (R416). -/
def commDescOk (d : Nat) : Bool :=
  let f (b n : Nat) : Nat := cmdField d b n
  let n := f 8 4
  decide (1 ≤ n) && decide (n ≤ 524288) && decide (f 12 4 < n) && decide (f 16 2 ≤ 4095) && decide (1 ≤ f 18 1) && decide (f 18 1 ≤ 6)
    && decide (f 18 1 ≤ f 19 1) && decide (f 19 1 ≤ 6) && decide (f 20 1 ≤ 1) && decide (f 21 1 ≤ 2) && decide (f 22 1 ≤ 1)
    && decide (f 23 1 ≤ 1) && (f 23 1 = 0 || (decide (2 ≤ n) && decide (n ≤ 64))) && f 0x28 8 % 16 = 0 && f 0x42 2 = 0
    && decide (1 ≤ f 0x44 4) && decide (f 0x44 4 ≤ 1000000) && decide (f 0x44 4 ≤ f 0x48 4) && decide (f 0x48 4 ≤ 10000000)
    && f 0x4C 52 = 0

/-- The communicator that a descriptor sets up. -/
def commOfDesc (d handle tenant began : Nat) : Communicator :=
  let f (b n : Nat) : Nat := cmdField d b n
  let w (b : Nat) : W64 := BitVec.ofNat 64 (f b 8)
  { handle, key := w 0, nranks := f 8 4, rank := f 12 4, tctx := f 16 2, tenant, clo := f 18 1, chi := f 19 1, mode := f 20 1,
    delivery := f 21 1, cc := f 22 1, group := f 23 1 = 1, ranktab := w 0x18, buf := w 0x20, buflen := w 0x28, stage := w 0x30,
    enttab := w 0x38, stride := f 0x40 2, tlate := f 0x44 4, tfail := f 0x48 4, agreed := 0, ready := false, answers := [],
    mismatch := false, began, lastgen := 0, freeing := false, reports := [], refusals := [] }

/-- The member's own terms and CAPC words, sent to another member. -/
def State.setupBytes (s : State) (m : Communicator) : List Byte :=
  le8 m.key ++ leBytes 4 m.nranks ++ leBytes 4 m.rank ++ [BitVec.ofNat 8 m.clo, BitVec.ofNat 8 m.chi, BitVec.ofNat 8 m.mode]
    ++ (List.range 8).flatMap fun i => leBytes 8 (capcOf s.part.torhw i)

/-- The set-up starts: the communicator's handle is taken, and every other member is asked. -/
def State.startSetup (s : State) (fn entry : Nat) (m : Communicator) : State :=
  let s1 := s.setFab { s.fab with comms := s.fab.comms ++ [m] }
  let s2 := s1.tellGroup .setup m (s.setupBytes m)
  { s2 with host := { s2.host with busy := s2.host.busy ++ [{ fn, entry, op := 7, crews := [], saved := 0, arg := m.handle, bufs := [] }] } }

/-- The rank table's pages: one that is missing, or one that is denied, if any (R416). -/
def State.rankPages (s : State) (tctx tenant va n : Nat) : Option (Option Nat) :=
  if Config.windowBase < va + n || va % 8 ≠ 0 then some none
  else match s.schedPages tctx tenant (pagesOf va n) [] with
    | .inl _ => none
    | .inr r => some r

/-- A handle that no communicator has. -/
def State.freeHandle (s : State) : Option Nat :=
  ((List.range 4095).map (· + 1)).find? fun h => !(s.fab.comms.any fun m => m.handle = h)

/-- A set-up waits for a page of its rank table. -/
def State.waitSetup (s : State) (fn entry d tctx tenant va : Nat) : State :=
  let b : Busy := { fn, entry, op := 9, crews := [], saved := 0, arg := d, bufs := [] }
  ({ s with host := { s.host with busy := s.host.busy ++ [b] } }).waitPage 0 tctx va 4 tenant (setupWaiter entry)

/-- A set-up with a descriptor, from its first check to its first request (R416, R417). -/
def State.trySetup (s : State) (fn entry d : Nat) : State :=
  let c := cmdField d 16 2
  let tenant := ctxTenant (s.ctxEntry c)
  if !commDescOk d then s.completeCmd fn entry 1 0
  else if !s.mayName fn c then s.completeCmd fn entry 2 0
  else
  let pages := s.rankPages c tenant (cmdField d 0x18 8) (64 * cmdField d 8 4)
  let s := s.schedTouch c tenant (cmdField d 0x18 8) (64 * cmdField d 8 4)
  match pages with
    | some none => s.completeCmd fn entry 1 0
    | some (some va) => s.waitSetup fn entry d c tenant va
    | none =>
      if cmdField d 23 1 = 1 && s.fab.comms.any (fun m => m.group && decide (m.key.toNat = cmdField d 0 8)) then s.completeCmd fn entry 6 0
      else match s.freeHandle with
        | none => s.completeCmd fn entry 8 0
        | some h => s.startSetup fn entry (commOfDesc d h tenant s.time)

/-- The walks for a descriptor's rank table have to wait. -/
def State.rankWaits (s : State) (d : Nat) : Bool := s.schedWaits (cmdField d 16 2) (cmdField d 0x18 8) (64 * cmdField d 8 4)

/-- A function's set-up at the head of its ring has to wait: for a copy that owns a line of its descriptor (R342), or for those walks. -/
def State.setupWaits (s : State) (fn : Nat) : Bool :=
  match s.nextCmd fn with
  | some (_, v) =>
    let at_ := cmdField v 8 8
    let d := leNat (s.devRead at_ 128)
    cmdOp v = 7 && argsOk v [(8, 8)] && at_ % 128 = 0 && !s.part.is384P
      && (s.rangeBusy at_ 128 || (commDescOk d && s.mayName fn (cmdField d 16 2) && s.rankWaits d))
  | none => false

def execCommSetup (fn : Nat) (s : State) : Out :=
  if s.setupWaits fn then .refused (.notEnabled "COMM_SETUP")
  else s.runCmd fn 7 "COMM_SETUP" fun s i v =>
    let at_ := cmdField v 8 8
    if !argsOk v [(8, 8)] || at_ % 128 ≠ 0 then s.completeCmd fn i 1 0
    else if s.part.is384P then s.completeCmd fn i 4 0
    else s.trySetup fn i (leNat (s.devRead at_ 128))

/-- A communicator is gone, with its counters and what it has counted. -/
def State.dropCommunicator (s : State) (h : Nat) : State :=
  s.setFab { s.fab with comms := s.fab.comms.filter (fun m => m.handle ≠ h), counters := s.fab.counters.filter (fun k => k.comm ≠ h),
                        early := s.fab.early.filter fun p => p.comm ≠ h }

/-- COMM_SETUP_TIMEOUT: not every member has answered 1 s after the first request. -/
def execCommSetupTimeout (handle : Nat) (s : State) : Out :=
  match s.fab.comms.find? fun m => decide (m.handle = handle) && !m.ready with
  | none => .refused (.notEnabled "COMM_SETUP_TIMEOUT")
  | some m =>
    match s.host.busy.find? fun b => b.op = 7 && b.arg = handle with
    | none => .refused (.notEnabled "COMM_SETUP_TIMEOUT")
    | some b =>
      if s.time < m.began + 1000000000 then .refused (.notEnabled "COMM_SETUP_TIMEOUT")
      else .next ({ s with host := { s.host with busy := s.host.busy.erase b } }.dropCommunicator handle |>.completeCmd b.fn b.entry 7 0)

def execCommFree (fn : Nat) (s : State) : Out :=
  s.runCmd fn 8 "COMM_FREE" fun s i v =>
    let h := cmdField v 8 2
    if !argsOk v [(8, 2)] || h = 0 || decide (4095 < h) then s.completeCmd fn i 1 0
    else if s.part.is384P then s.completeCmd fn i 4 0
    else match s.commByHandle h with
      | none => s.completeCmd fn i 3 0
      | some m =>
        if fn ≠ 0 && !s.mayName fn m.tctx then s.completeCmd fn i 2 0
        else if m.freeing then s.completeCmd fn i 3 0
        else
          let s1 := s.putCommunicator { m with freeing := true }
          { s1 with host := { s1.host with busy := s1.host.busy ++ [{ fn, entry := i, op := 8, crews := [], saved := 0, arg := h, bufs := [] }] } }

/-! ## Commands that complete later (R327, R410, R417) -/

/-- A set-up that can complete: its code and result. -/
def setupEnd (own : List Nat) (m : Communicator) : Option (Nat × Option Nat) :=
  if m.mismatch then some (6, none)
  else if m.answers.length + 1 < m.nranks then none
  else match agreedContract m.clo m.chi (own :: m.answers.map fun a => a.2.map (·.toNat)) with
    | none => some (5, none)
    | some n => some (0, some n)

/-- A record for one of the buffers of a command's crews is held back (R410, R413). -/
def State.recordHeld (s : State) (bufs : List Nat) : Bool :=
  (List.range Config.dies).any fun d => (s.ring (faultRing d)).held.any fun v => bufs.contains (bitsOf v.toNat 191 128)

/-- A step of a communicator has not ended here: a collective, or a chunk that has not gone on (R410, R422). -/
def State.stepOpen (s : State) (h : Nat) : Bool :=
  (s.fab.ops.any fun o => o.comm = h) || s.fab.counters.any fun k => decide (k.comm = h) && !k.flushed && !k.failed

/-- A command in progress completes, if what it waits for has come about. -/
def State.settleOne (s : State) (b : Busy) : State :=
  let gone : State := { s with host := { s.host with busy := s.host.busy.erase b } }
  if s.rangeBusy b.entry 64 then s
  else match b.op with
  | 3 => if (b.crews.any fun n => (s.crew n).status = .running) || s.recordHeld b.bufs then s else gone.completeCmd b.fn b.entry 0 b.saved
  | 5 => if b.crews.any s.opStands then s else gone.completeCmd b.fn b.entry 0 0
  | 7 =>
    (match s.fab.comms.find? fun m => decide (m.handle = b.arg) && !m.ready with
      | none => gone
      | some m => match setupEnd ((List.range 8).map (capcOf s.part.torhw)) m with
        | none => s
        | some (code, none) => (gone.dropCommunicator b.arg).completeCmd b.fn b.entry code 0
        | some (_, some n) =>
          (gone.putCommunicator { m with agreed := n, ready := true, answers := [] }).completeCmd b.fn b.entry 0 (m.handle + n * 2 ^ 16))
  | 9 => if b.saved = 1 then (if s.rankWaits b.arg then s else gone.trySetup b.fn b.entry b.arg) else if b.saved = 2 then gone.completeCmd b.fn b.entry 1 0 else s
  | _ => if s.stepOpen b.arg then s else (gone.dropCommunicator b.arg).completeCmd b.fn b.entry 0 0

/-- Records held reach their rings where they can, and commands in progress complete. -/
def State.settleBusy (s : State) : State := let s1 := s.flushRings; s1.host.busy.foldl State.settleOne s1

end Sys2Proof.Machine
end

