-- ==== Sys2Proof/Machine/Issue.lean ====
section
/-! DEFINITION. Time, and what the turns of the agenda need: when a word may issue, and how a program is laid in place. -/

namespace Sys2Proof.Machine

/-- A reading of TMAX while the clocks run: below the trip point, which THERMAL_TRIP reaches (R444). -/
def coolTmax (v : Byte) : Byte := if 115 ≤ v.toNat then 114 else v

/-- One arithmetic cycle passes: 5/3 ns, twice that under a clamp (R3, R38, R444); TMAX shows the temperature of the cycle (R445). -/
def passTime (s : State) : State :=
  { s with dev := { s.dev with cycle := s.dev.cycle + 1, time3 := s.dev.time3 + (if s.dev.clamp then 10 else 5),
                               tmax := coolTmax (Config.sensor (2 * s.dev.cycle)) } }

/-- What follows a turn: commands whose work is done complete (R409), and a cycle passes. A thermal trip has stopped the clocks
(R444); TMAX goes on to show the temperature (R445). -/
def tick (s : State) : State :=
  if s.dev.thermal then
    let s1 := s.draw.2
    { s1 with dev := { s1.dev with tmax := Config.sensor (2 * s.draw.1 + 1) } }
  else passTime s.settleBusy

/-- A scalar word of a context may be selected (R119, R133, R144, R378, R392, R427). -/
def State.canScalar (s : State) (c : Nat) : Bool :=
  let x := s.ctx c
  x.live && !x.stopped && (x.handler || !x.exited) && x.pend.isNone && !(x.out.any (·.holds)) && !(s.bench (benchOf c)).stopped

/-- A lane word that has issued and not retired still owes SKST a RANGE bit or a depth: the words after it depend on it, and each of
them finds what it wrote shown (R34, R157, R176). -/
def owesSkst (x : Skein) : Bool := x.unret.any fun u => u.range || decide (u.depth ≠ x.mdepth)

/-- A pending trap lets the lanes of a context go on: it is a scalar word's, and lanes of a word that has issued still wait (R378). -/
def pendLets (x : Skein) : Bool :=
  match x.pend with
  | none => true
  | some t => !t.lane && wordOpen x

/-- The lanes of a context stand at a word that may be selected (R34, R147, R378, R380). On a stopped bench only lanes of a word that has
issued go on, those that a watchpoint stopped apart (R427, R429). -/
def State.canLane (s : State) (c : Nat) : Bool :=
  let x := s.ctx c
  x.live && !x.stopped && !x.handler && pendLets x && !owesSkst x && (!(s.bench (benchOf c)).stopped || (wordOpen x && !x.untestedLane)) &&
    match x.queue with
    | e :: _ => e.started && decide (e.word < e.len)
    | [] => false

/-! ## A program laid in place (log 10) -/

/-- Where withFetchWord lays the ctrl section and the lane section: virtual and physical pages. -/
def testCtrl : Nat := 0x10000
def testLane : Nat := 0x11000
def testPhys : Nat := 0x20000

def testLeaf (frame : Nat) : Leaf :=
  { frame, bits := 12, stamp := 0, priv := false, mart := false, x := true, w := false, tenant := 0 }

/-- The commission, crew and skein that a launch of one crew of one 32-lane skein would place (R44, R45). -/
def testComm (uid : Nat) : Commission :=
  { Commission.empty with uid, key := ⟨0, 1⟩, contract := 5, nskein := 1, state := .running,
                          secs := [(testCtrl, 4096), (testLane, 4096), (0, 0)], placed := 1, scratch := 4096 }
def testCrew (uid : Nat) : Crew :=
  { Crew.empty with comm := uid, core := 0, baseLine := 0, nLines := 32, ptag := 1 }
def testEntry : QEntry :=
  { kind := .run, block := BitVec.ofNat 64 testLane, len := 2, msel := 0, q := List.replicate 8 0, control := 1,
    count := 0, tm := 0, region := 0, started := true, word := 0, trip := 0, depth0 := 0 }
def testSkein (crew : Nat) (lane : Bool) : Skein :=
  { Skein.empty with live := true, crew, pc := BitVec.ofNat 64 testCtrl, width := 3, base := onesW 3,
                     region := Region.entry (BitVec.ofNat 64 testCtrl), queue := if lane then [testEntry] else [] }

/-- A state with that program in context 0, its bytes at the section that its size names, tenant 0 in core 0's tenant map with this cycle's slot, and the turn
that runs it. -/
def placeWord (s : State) (nbits w : Nat) : State :=
  let lane := decide (64 < nbits)
  let bytes := leBytes 16 w
  let k := s.core 0
  { s.setCore 0 { k with slottab := listSet k.slottab (s.dev.cycle % 64) 0x80, tmap := listSet k.tmap 0 0x8000, later := [] } with
    agenda := [if lane then .lane 0 else .scalar 0],
    ctxs := smPut s.ctxs 0 (testSkein s.nextCrew lane), crews := smPut s.crews s.nextCrew (testCrew s.nextReady),
    nextCrew := s.nextCrew + 1, comms := testComm s.nextReady :: s.comms, nextReady := s.nextReady + 1,
    mem := memWrite s.mem (testPhys + if lane then 4096 else 0) bytes,
    ms := { s.ms with ic := [], tlb :=
      [{ place := .bench 0, tctx := 0, base := testCtrl, leaf := testLeaf testPhys },
       { place := .bench 0, tctx := 0, base := testLane, leaf := testLeaf (testPhys + 4096) }] ++ s.ms.tlb } }

end Sys2Proof.Machine
end

