-- ==== Sys2Proof/Machine/Benches.lean ====
section
/-! DEFINITION. What a bench's debug block does beside issue: stops, resume, the dump, beacons, the trace buffer and the assay ring
(16 R424 to R440). -/

namespace Sys2Proof.Machine

/-- A write or a step of a bench's debug block: benches are numbered below 768, and writes are ignored until bring-up is complete
(R424, R451). -/
def State.atBench (s : State) (b : Nat) (name : String) (k : State → State) : Out :=
  if Config.benches ≤ b then .refused (.notEnabled name) else if !s.dev.ready then .next s else .next (k s)

/-! ## Stops and resume (R426 to R428) -/

/-- DBG_STOP. -/
def execDbgStop (bench : Nat) (s : State) : Out := s.atBench bench "DBG_STOP" fun s => s.stopBench bench 0

/-- A register write that a stop held is applied. -/
def applyHeld (bench : Nat) (s : State) (h : Held) : State :=
  let c := 32 * bench + h.ctx
  match h.kind with
  | 0 => s.setCtx c (kSet (s.ctx c) h.reg h.value)
  | 2 => s.setCtx c (fSet (s.ctx c) h.reg h.value)
  | 5 => (lanesIn 64 h.lanes).foldl (fun s l => s.vSet c l h.reg (h.value.setWidth 32)) s
  | 16 => s.setCtx c { s.ctx c with range := true }
  | 17 => s.setCtx c { s.ctx c with mdepth := h.value.toNat }
  | _ => s

/-- A pre-emption request that waited reaches its skein, and its budget starts (R428). -/
def State.askedStop (s : State) (c : Nat) : State :=
  if (s.ctx c).asked then (s.setCtx c { s.ctx c with asked := false }).requestStop c else s

/-- A stopped bench goes on. -/
def State.resumeBench (s : State) (bench : Nat) : State :=
  let v := s.bench bench
  if !v.stopped then s
  else
    let s1 := v.held.foldl (applyHeld bench) s
    let s2 := s1.setBench bench { s1.bench bench with stopped := false, dumpdone := false, held := [], stood := [] }
    ((List.range 32).map (32 * bench + ·)).foldl State.askedStop s2

/-- DBG_RESUME. -/
def execDbgResume (bench : Nat) (s : State) : Out := s.atBench bench "DBG_RESUME" fun s => s.resumeBench bench

/-- The benches that a stop's SPREAD chooses. -/
def spreads (spread a b : Nat) : Bool :=
  match spread with
  | 0 => false
  | 1 => a / 4 = b / 4
  | 2 => dieOfCore (a / 4) = dieOfCore (b / 4)
  | _ => true

/-- Some bench stopped for a cause of its own at most 1.5 us ago, and the SPREAD of that stop reaches a bench that has not stopped
since. -/
def State.spreadReaches (s : State) (bench : Nat) : Bool :=
  s.benches.any fun p => p.1 ≠ bench && spreads p.2.spreading p.1 bench && decide (s.time ≤ p.2.stoptime.toNat + 1500)
    && !(decide (p.2.stoptime.toNat ≤ (s.bench bench).stoptime.toNat) && decide ((s.bench bench).stopcause = 5))

/-- BENCH_STOP_SPREAD: a bench stops with cause 5. -/
def execBenchStopSpread (bench : Nat) (s : State) : Out :=
  if decide (Config.benches ≤ bench) || (s.bench bench).stopped || !s.spreadReaches bench then .refused (.notEnabled "BENCH_STOP_SPREAD")
  else .next (s.stopBench bench 5)

/-! ## The dump (R430, R431) -/

/-- The contexts of a bench that hold skeins. -/
def State.benchCtxs (s : State) (bench : Nat) : List Nat :=
  ((List.range 32).map (32 * bench + ·)).filter fun c => (s.ctx c).live

/-- An entry of the pending list. -/
def heldEntry (h : Held) : List Byte :=
  leBytes 8 (if h.ready && decide (h.kind ≤ 3) then h.value.toNat else 0) ++ le8 h.producer.pc
    ++ leBytes 8 (bnum h.lane * 2 ^ 13 + bnum h.ready * 2 ^ 12 + h.kind * 2 ^ 8 + h.reg) ++ le8 h.lanes

/-- The v-registers that a lane memory word returns. -/
def laneDst : Word → List Nat
  | .instr _ i => if (laneMem i).isSome || i matches .vdec _ then laneWrites i else []
  | .wait _ | .trap _ _ => []

/-- What a context's words have still to write: the registers of its accesses that wait, the futures that its registers await, and the
registers of a lane word of which lanes have still to be performed (R431; log 4). -/
def State.pendingHeld (s : State) (c : Nat) : List Held :=
  let x := s.ctx c
  let due (kind reg : Nat) (producer : Issued) (lanes : W64) : Held :=
    { ctx := c % 32, kind, reg, value := 0, producer, lane := decide (kind = 5), ready := false, lanes }
  let late (o : LateOp) : List Held :=
    (o.kDst.map fun d => due 0 d.toNat o.word 0) ++ o.vDst.map fun r => due 5 r o.word (maskOf o.lanes)
  (s.late.filter fun o => o.ctx = c).flatMap late
    ++ ((s.crew x.crew).futs.filter fun e => e.busy && !e.detached && decide (e.ctx = c) && isPending e.value).map
        (fun e => due 2 e.reg.toNat e.word 0)
    ++ ((pendingLanes x).elim [] fun m => (laneDst (s.nextLane c)).map fun r => due 5 r ⟨laneAddr x, x.openedAt⟩ m)

/-- Entries of one word's v-register stand as one, with all its lanes. -/
def joinHeld (h : Held) (hs : List Held) : List Held :=
  let same (q : Held) : Bool :=
    decide (h.kind = 5) && decide (q.kind = 5) && decide (q.reg = h.reg) && decide (q.producer = h.producer) && (q.ready == h.ready)
  if hs.any same then hs.map fun q => if same q then { q with lanes := q.lanes ||| h.lanes } else q else h :: hs

/-- The pending list of a context in the order of issue: what its stopped bench holds back, and what is still to come. SKST's fields have no
KIND in R431. -/
def State.pendingList (s : State) (c : Nat) : List Held :=
  let hs := ((s.bench (benchOf c)).held.filter fun h => h.ctx = c % 32 && decide (h.kind < 16)) ++ s.pendingHeld c
  (sortBy (fun (a b : Held) => decide (a.producer.since ≤ b.producer.since)) hs).foldr joinHeld []

/-- The pending list as bytes: at most 64 entries, the last of which counts those beyond. -/
def heldArea (hs : List Held) : List Byte :=
  if hs.length ≤ 64 then hs.flatMap heldEntry
  else (hs.take 63).flatMap heldEntry ++ leBytes 8 (hs.length - 63) ++ leBytes 8 0 ++ leBytes 8 (15 * 2 ^ 8) ++ leBytes 8 0

/-- The state of a handle of a skein. -/
def State.handleEntry (s : State) (x : Skein) (h : HReg) : List Byte :=
  let v := hGet x h
  let w := s.crew x.crew
  let t := slotOf w (v.toNat % 256)
  if handleTrap w x.index v = some .handleStale then leBytes 16 v.toNat
  else
    let ops := (w.tileOps.filter fun o => decide (o.dst = v.toNat % 256) || decide (o.src = v.toNat % 256)).length
    leBytes 8 (v.toNat + t.gen * 2 ^ 16 + bnum t.alloc * 2 ^ 24 + bnum t.first * 2 ^ 25 + bnum t.poisoned * 2 ^ 26
      + bnum (t.owner = some x.index && !t.orphan) * 2 ^ 27 + (if t.orphan then 127 else t.owner.getD 127 % 128) * 2 ^ 28 + t.stamp % 16 * 2 ^ 35 + min ops 255 * 2 ^ 40)
      ++ le8 t.desc

/-- The areas of a bench's dump, by offset. -/
def State.dumpAreas (s : State) (bench : Nat) : List (Nat × List Byte) :=
  let v := s.bench bench
  let cs := s.benchCtxs bench
  let held := distinct (s.strandsOf bench)
  let header := leBytes 4 0x46574442 ++ leBytes 4 bench ++ le8 v.stoptime ++ leBytes 8 v.stopcause
    ++ leBytes 8 (cs.foldl (fun m c => m + 2 ^ (c % 32)) 0) ++ leBytes 8 (held.foldl (fun m t => m + 2 ^ t) 0)
  (0, header) :: cs.flatMap (fun c => (skeinAreas (recordSkein { s.ctx c with out := smGet [] v.stood (c % 32) })).map fun p => (0x1000 + 0x2000 * (c % 32) + p.1, p.2))
    ++ held.map (fun t => (0x41000 + 0x1000 * t, s.strandArea (256 * bench + 4 * t)))
    ++ cs.map (fun c => (0x81000 + 0x800 * (c % 32), heldArea (s.pendingList c)))
    ++ cs.map (fun c => (0x91000 + 0x100 * (c % 32), (List.range 16).flatMap fun i => s.handleEntry (s.ctx c) (BitVec.ofNat 4 i)))

/-- Bytes of a dump image. -/
def dumpSize : Nat := 0x93000

/-- A stopped bench writes its dump. -/
def State.dumpBench (s : State) (bench : Nat) : State :=
  let v := s.bench bench
  if !v.stopped then s
  else
    let a := v.dumpaddr.toNat
    let s1 := (s.dumpAreas bench).foldl (fun s p => s.devWrite (a + p.1) p.2) (s.zeroRange (a % Config.physEnd) dumpSize)
    s1.setBench bench { s1.bench bench with dumpdone := true }

/-- A dump waits for a copy that still writes in its buffer (R342). -/
def State.dumpWaits (s : State) (bench : Nat) : Bool := (s.bench bench).stopped && s.rangeBusy (s.bench bench).dumpaddr.toNat dumpSize

/-- DBG_DUMP. -/
def execDbgDump (bench : Nat) (s : State) : Out :=
  if s.dev.ready && s.dumpWaits bench then .refused (.notEnabled "DBG_DUMP") else s.atBench bench "DBG_DUMP" fun s => s.dumpBench bench

/-! ## Beacons (R432) -/

/-- Every beacon on its way: those of the dies in order, then those of other devices. -/
def State.beacons (s : State) : List Beacon := ((List.range Config.dies).flatMap fun d => (s.die d).beacons) ++ s.fab.beacons

/-- Two beacons have one sender. -/
def sameSender (a b : Beacon) : Bool := a.commid = b.commid && a.skid = b.skid

/-- A beacon on its way has reached a bench; it is gone once it has reached every bench. -/
def beaconAt (bench : Nat) (b : Beacon) (l : List Beacon) : List Beacon :=
  let b1 := { b with reached := b.reached ++ [bench] }
  if Config.benches ≤ b1.reached.length then l.erase b else l.map fun q => if q = b then b1 else q

/-- The lowest context of a bench that trace admits. -/
def State.tracedCtx (s : State) (bench : Nat) : Option Nat :=
  ((List.range 32).map (32 * bench + ·)).find? fun c => (s.ctx c).live && traceOn (s.bench bench) (s.commOf c).tenant

/-- The BEACON packet of a bench (R435). Where DELTA would exceed its field, a SYNC of a context that trace admits stands first; with no
such context DELTA shows its greatest value (log 77). -/
def State.traceBeacon (s : State) (bench : Nat) (b : Beacon) : State :=
  let v := s.bench bench
  if traceOn v (bitsOf b.commid.toNat 39 32) && bitOf v.trctl.toNat 4 then
    let s1 := match s.tracedCtx bench with
      | some c => if 2047 < s.dev.cycle - v.lastCycle then s.traceSyncOnly c else s
      | none => s
    let v1 := s1.bench bench
    let head := packetHead 8 0 (min 2047 (s1.dev.cycle - v1.lastCycle)) b.payload.toNat
    s1.setBench bench (queuePacket v1 s1.dev.cycle [head, b.time, BitVec.ofNat 64 s1.time,
      BitVec.ofNat 64 (b.commid.toNat % 2 ^ 32 * 2 ^ 32 + b.skid.toNat % 2 ^ 32)])
  else s

/-- A beacon acts on a bench: a packet, and the test against BCNMATCH. -/
def State.beaconActs (s : State) (bench : Nat) (b : Beacon) : State :=
  let ctl := (s.bench bench).stopctl.toNat
  let s1 := s.traceBeacon bench b
  if bitOf ctl 1 && decide (bitsOf ctl 63 32 = b.payload.toNat) then s1.stopBench bench 4 else s1

/-- BEACON_ARRIVAL: the beacon at a place among those on their way reaches a bench; those of one sender arrive in issue order. -/
def execBeaconArrival (bench pos : Nat) (s : State) : Out :=
  match s.beacons[pos]? with
  | none => .refused (.notEnabled "BEACON_ARRIVAL")
  | some b =>
    if decide (Config.benches ≤ bench) || b.reached.contains bench
        || (s.beacons.take pos).any (fun q => sameSender q b && !q.reached.contains bench) then .refused (.notEnabled "BEACON_ARRIVAL")
    else
      let s1 := (List.range Config.dies).foldl (fun s d =>
        s.setDie d { s.die d with beacons := beaconAt bench b (s.die d).beacons }) s
      .next ((s1.setFab { s1.fab with beacons := beaconAt bench b s1.fab.beacons }).beaconActs bench b)

/-! ## The trace buffer (R437) -/

/-- Software has read packets: the space before the pointer returns, and a full buffer takes packets again with 16 bytes free. -/
def State.writeTrrptr (s : State) (bench : Nat) (v : W64) : State :=
  let b := s.bench bench
  let n := b.trsize.toNat
  let p : W64 := if 12 ≤ n && decide (n ≤ 30) then BitVec.ofNat 64 (v.toNat % 2 ^ n) else v
  let b1 := { b with trrptr := p }
  s.setBench bench (reportLost (if b1.full && decide (16 ≤ traceFree b1) then { b1 with full := false } else b1) s.dev.cycle)

/-- TRRPTR_WRITE. -/
def execTrrptrWrite (bench : Nat) (v : W64) (s : State) : Out := s.atBench bench "TRRPTR_WRITE" fun s => s.writeTrrptr bench v

/-- Words written into a ring buffer of a size, from an offset on. -/
def State.ringWords (s : State) (base size off : Nat) : List W64 → State
  | [] => s
  | w :: ws => (s.devWrite (base + off % size) (le8 w)).ringWords base size (off + 8) ws

/-- Packets that are dropped, and the packets that LOST packets among them had counted (R437). -/
def droppedCount (ps : List (List W64)) : Nat :=
  (ps.map fun p => if bitsOf (p.headD 0).toNat 63 60 = 6 then bitsOf (p.headD 0).toNat 43 0 else 1).foldl (· + ·) 0
def droppedNew (ps : List (List W64)) : Nat := (ps.filter fun p => bitsOf (p.headD 0).toNat 63 60 ≠ 6).length

/-- TRACE_PACKET_WRITE: the oldest packet goes into the buffer, and TRWPTR advances. Where fewer than 8 bytes would stay free it is
dropped, and with it every packet that follows, until software writes TRRPTR. -/
def execTracePacketWrite (bench : Nat) (s : State) : Out :=
  let b := s.bench bench
  match b.packets with
  | [] => .refused (.notEnabled "TRACE_PACKET_WRITE")
  | p :: rest =>
    let size := traceSize b
    if b.trsize.toNat < 12 || decide (30 < b.trsize.toNat)
        || (List.range p.length).any (fun i => s.rangeBusy (b.trbase.toNat + (b.trwptr.toNat + 8 * i) % size) 8) then
      .refused (.notEnabled "TRACE_PACKET_WRITE")
    else if traceFree b < 8 * p.length + 8 then
      .next (s.setBench bench { b with packets := [], full := true, lost := b.lost + droppedCount b.packets,
                                       trlost := BitVec.ofNat 64 (min (b.trlost.toNat + droppedNew b.packets) (2 ^ 64 - 1)) })
    else
      let s1 := s.ringWords b.trbase.toNat size b.trwptr.toNat p
      let b1 := { b with packets := rest, trwptr := BitVec.ofNat 64 ((b.trwptr.toNat + 8 * p.length) % size) }
      .next (s1.setBench bench (reportLost b1 s.dev.cycle))

/-! ## The assay ring (R424, R438, R439) -/

/-- log2 of the assay ring's size, where it enables the ring. -/
def assayRing (b : Bench) : Option Nat :=
  let n := b.assize.toNat
  if 12 ≤ n && n ≤ 26 then some n else none

def State.writeAsrptr (s : State) (bench : Nat) (v : W64) : State :=
  let b := s.bench bench
  s.setBench bench { b with asrptr := match assayRing b with
    | some n => BitVec.ofNat 64 (v.toNat % 2 ^ n)
    | none => v }

/-- ASRPTR_WRITE. -/
def execAsrptrWrite (bench : Nat) (v : W64) (s : State) : Out := s.atBench bench "ASRPTR_WRITE" fun s => s.writeAsrptr bench v

/-- The generator takes a seed, and draws the first interval. -/
def State.writeAsseed (s : State) (bench : Nat) (v : W64) : State :=
  s.setBench bench (drawInterval { s.bench bench with asgen := if v = 0 then 1 else v })

/-- ASSEED_WRITE. -/
def execAsseedWrite (bench : Nat) (v : W64) (s : State) : Out := s.atBench bench "ASSEED_WRITE" fun s => s.writeAsseed bench v

/-- An assay record as a number (R439); cycles gives its counts of cycles. -/
def assayWord (r : Assay) (cycles : Nat → W32) : Nat :=
  r.lw.toNat * 2 ^ 448 + r.tissue.toNat * 2 ^ 384 + r.comm.toNat * 2 ^ 352 + r.tenant % 256 * 2 ^ 344 + r.ctx % 32 * 2 ^ 339
    + r.active % 128 * 2 ^ 332 + r.passes % 256 * 2 ^ 324 + bnum r.trapped * 2 ^ 323 + bnum r.stopped * 2 ^ 322 + r.level % 16 * 2 ^ 318
    + (cycles 0).toNat * 2 ^ 224 + (cycles 1).toNat * 2 ^ 192 + (cycles 2).toNat * 2 ^ 160 + (cycles 3).toNat * 2 ^ 128
    + (cycles 4).toNat * 2 ^ 96

/-- ASSAY_RECORD: the record of the oldest tagged word that has completed or trapped goes into the ring; a full ring takes none and
counts it. -/
def execAssayRecord (bench : Nat) (s : State) : Out :=
  let b := s.bench bench
  match b.tagged.find? (fun r => decide (r.left = 0)) with
  | none => .refused (.notEnabled "ASSAY_RECORD")
  | some r =>
    let rest := b.tagged.erase r
    match assayRing b with
    | none => .next (s.setBench bench { b with tagged := rest })
    | some n =>
      if (b.aswptr.toNat + 64) % 2 ^ n = b.asrptr.toNat % 2 ^ n then
        .next (s.setBench bench { b with tagged := rest, aslost := satInc b.aslost })
      else if s.rangeBusy (b.asbase.toNat + b.aswptr.toNat % 2 ^ n) 64 then .refused (.notEnabled "ASSAY_RECORD")
      else
        let (d, s1) := s.draw
        let s2 := s1.devWrite (b.asbase.toNat + b.aswptr.toNat % 2 ^ n) (leBytes 64 (assayWord r (Config.cycles d)))
        .next (s2.setBench bench { s2.bench bench with tagged := rest, aswptr := BitVec.ofNat 64 ((b.aswptr.toNat + 64) % 2 ^ n) })

end Sys2Proof.Machine
end

