-- ==== Sys2Proof/Machine/Control.lean ====
section
/-! DEFINITION. Control transfer, EXIT, NOP and REGION (05 R138 to R145). -/

namespace Sys2Proof.Machine

/-- A branch target: the word's own address and four times the offset (R138). -/
def State.target {n : Nat} (s : State) (off : Lit n) : W64 := s.me.pc + 4 * litVal off

def execBr (n : CBit) (sense : Bool) (off : Lit 21) (s : State) : Out :=
  let taken := s.cv n == sense
  .next ((if taken then s.goto (s.target off) else s.past (litSize off)).traceBranch s.cur taken)

def execJmp (off : Lit 21) (s : State) : Out := .next (s.goto (s.target off))

/-- CALL leaves the address of the word that follows it in k63 (R138). -/
def execCall (off : Lit 21) (s : State) : Out :=
  .next (((s.setK 63 (s.me.pc + litSize off)).goto (s.target off)).traceSync s.cur)

/-- LOOP (R140). -/
def execLoop (d : KReg) (off : Lit 14) (s : State) : Out :=
  let k := s.kv d
  let taken := k != 0 && k - 1 != 0
  let s1 := if k = 0 then s else s.setK d (k - 1)
  .next ((if taken then s1.goto (s.target off) else s1.past (litSize off)).traceBranch s.cur taken)

/-- A branch to a register's address (R139). -/
def State.jump (s : State) (v : W64) : Out :=
  if v.toNat % 4 ≠ 0 then s.trapS .align 0 else .next ((s.goto v).traceSync s.cur)

def execJr (a : KReg) (s : State) : Out := s.jump (s.kv a)
def execRet (s : State) : Out := s.jump (s.kv 63)
def execNop (s : State) : Out := .next (s.past 4)

/-- EXIT ends the scalar stream, whose PC stays at the EXIT (R144). Entries of the back-queue are discarded, and the pending
BRANCH packet is made (R436). -/
def execExit (s : State) : Out :=
  s.outside fun s =>
    .next ((s.setMe { s.me with exited := true, back := [], untested := false }).traceFlush s.cur)

/-! ## REGION (R118, R142) -/

/-- A REGN entry: its live-in k-registers and c-bits (R118). -/
def regnLive (e : Nat) : Nat × Nat := (bitsOf e 63 0, bitsOf e 79 64)

/-- The region that a REGION opens: the live-in registers are copied. -/
def openRegion (x : Skein) (idx e : Nat) : Region :=
  { start := x.pc, index := some idx, serial := x.region.serial + 1, committed := false,
    k := x.k.filter fun p => bitOf (regnLive e).1 p.1, c := x.c &&& BitVec.ofNat 16 (regnLive e).2,
    liveK := BitVec.ofNat 64 (regnLive e).1, liveC := BitVec.ofNat 16 (regnLive e).2, shadow := none,
    futures := [] }

/-- What reading an entry of the image's REGN table gives. -/
inductive RegnRead
  | got (s : State) (e : Nat)
  | wait
  | error (s : State)
  deriving DecidableEq, Repr

/-- The entry of the image's REGN table, read through the commission's translation as system software wrote it (R118): it waits for a copy
that owns its line (R342), and an uncorrectable error is reported (R315). Where the page has no valid leaf the spec is silent: the entry is
then that of an empty live-in set (log 25). -/
def State.regnEntry (s : State) (c idx : Nat) : RegnRead :=
  let m := s.commOf c
  let va := (secOf m 2).1 + 16 * idx
  match s.dieLeaf (dieOf c) m.key.ctx va with
  | (_, .busy) => .wait
  | (s1, .error) => .error s1
  | (s1, .leaf l) =>
    let a := l.phys va
    if s1.lineBusy (lineOf a) then .wait
    else if s1.poisoned a 16 then .error s1
    else .got (s1.sliceRead (coreOf c) a) (s1.readNat a 16)
  | (s1, .invalid) | (s1, .malformed) => .got s1 0

/-- REGION: a skein asked to pre-empt stops before it (R142, R392); otherwise the current region closes and a new one
opens. -/
def execRegion (idx : BitVec 14) (s : State) : Out :=
  s.outside fun s =>
    if s.me.preempt.isSome then .next (s.setMe { s.me with preempt := none, stopped := true })
    else if (secOf s.myComm 2).2 / 16 ≤ idx.toNat then s.trapS .illegal 6
    else match s.regnEntry s.cur idx.toNat with
      | .wait => s.stall
      | .error s1 => s1.trapS .eccUncorr 0
      | .got s1 e => .next ((s1.setMe { s1.me with region := openRegion s1.me idx.toNat e }).past 4)

end Sys2Proof.Machine
end

