-- ==== Sys2Proof/Machine/Digest.lean ====
section
/-! DEFINITION. The SM3 digest and the SM2 signature check that the boot chain and quotes use (17 R446, R447; log 15). -/

namespace Sys2Proof.Machine

def rotl (x : W32) (n : Nat) : W32 := (x <<< (n % 32)) ||| (x >>> (32 - n % 32))
def sm3P0 (x : W32) : W32 := x ^^^ rotl x 9 ^^^ rotl x 17
def sm3P1 (x : W32) : W32 := x ^^^ rotl x 15 ^^^ rotl x 23

/-- The message words of a block, latest first, extended by one. -/
def sm3Extend (ws : List W32) : List W32 :=
  let w (i : Nat) : W32 := ws.getD i 0
  (sm3P1 (w 15 ^^^ w 8 ^^^ rotl (w 2) 15) ^^^ rotl (w 12) 7 ^^^ w 5) :: ws

/-- The 68 message words of a block of 16. -/
def sm3Words (ws : List W32) : List W32 := ((List.range 52).foldl (fun l _ => sm3Extend l) ws.reverse).reverse

/-- The eight registers of the compression. -/
structure Sm3 where
  a : W32
  b : W32
  c : W32
  d : W32
  e : W32
  f : W32
  g : W32
  h : W32
  deriving DecidableEq, Repr

/-- One round. -/
def sm3Round (ws : List W32) (v : Sm3) (j : Nat) : Sm3 :=
  let t : W32 := if j < 16 then 0x79CC4519 else 0x7A879D8A
  let ss1 := rotl (rotl v.a 12 + v.e + rotl t j) 7
  let ss2 := ss1 ^^^ rotl v.a 12
  let ff := if j < 16 then v.a ^^^ v.b ^^^ v.c else (v.a &&& v.b) ||| (v.a &&& v.c) ||| (v.b &&& v.c)
  let gg := if j < 16 then v.e ^^^ v.f ^^^ v.g else (v.e &&& v.f) ||| (~~~v.e &&& v.g)
  let wj := ws.getD j 0
  let tt1 := ff + v.d + ss2 + (wj ^^^ ws.getD (j + 4) 0)
  let tt2 := gg + v.h + ss1 + wj
  { a := tt1, b := v.a, c := rotl v.b 9, d := v.c, e := sm3P0 tt2, f := v.e, g := rotl v.f 19, h := v.g }

/-- The compression of one block. -/
def sm3Block (v : Sm3) (ws : List W32) : Sm3 :=
  let r := (List.range 64).foldl (sm3Round (sm3Words ws)) v
  { a := r.a ^^^ v.a, b := r.b ^^^ v.b, c := r.c ^^^ v.c, d := r.d ^^^ v.d, e := r.e ^^^ v.e, f := r.f ^^^ v.f, g := r.g ^^^ v.g,
    h := r.h ^^^ v.h }

def sm3Start : Sm3 :=
  { a := 0x7380166F, b := 0x4914B2B9, c := 0x172442D7, d := 0xDA8A0600, e := 0xA96F30BC, f := 0x163138AA, g := 0xE38DEE4D,
    h := 0xB0FB0E4E }

/-- A number from bytes, the first the most significant. -/
def beNat (bs : List Byte) : Nat := bs.foldl (fun n b => 256 * n + b.toNat) 0
/-- The n bytes of a number, the most significant first. -/
def beBytes (n v : Nat) : List Byte := (leBytes n v).reverse

/-- A message with its padding: a 1 bit, zeros, and its length in bits. -/
def sm3Pad (bs : List Byte) : List Byte :=
  bs ++ 0x80 :: List.replicate ((119 - bs.length % 64) % 64) 0 ++ beBytes 8 (8 * bs.length)

/-- The SM3 digest of bytes. -/
def sm3 (bs : List Byte) : BitVec 256 :=
  let p := sm3Pad bs
  let block (i : Nat) : List W32 := (List.range 16).map fun j => BitVec.ofNat 32 (beNat ((p.drop (64 * i + 4 * j)).take 4))
  let v := (List.range (p.length / 64)).foldl (fun v i => sm3Block v (block i)) sm3Start
  v.a ++ v.b ++ v.c ++ v.d ++ v.e ++ v.f ++ v.g ++ v.h

/-! ## SM2 (R446) -/

/-- The prime of the curve's field, the order of its base point, and that point. -/
def sm2P : Nat := 0xFFFFFFFEFFFFFFFFFFFFFFFFFFFFFFFFFFFFFFFF00000000FFFFFFFFFFFFFFFF
def sm2N : Nat := 0xFFFFFFFEFFFFFFFFFFFFFFFFFFFFFFFF7203DF6B21C6052B53BBF40939D54123
def sm2Gx : Nat := 0x32C4AE2C1F1981195F9904466A39C9948FE30BBFF2660BE1715A4589334C74C7
def sm2Gy : Nat := 0xBC3736A2F4F6779C59BDCEE36B692153D0A9877CC62A474002DF32E52139F0A0
def sm2B : Nat := 0x28E9FA9E9D9F5E344D5A9E4BCF6509A7F39789F515AB8F92DDBCBD414D940E93

/-- A point (x / z², y / z³); with z = 0 the point at infinity. -/
structure Sm2Point where
  x : Nat
  y : Nat
  z : Nat
  deriving DecidableEq, Repr

/-- a - b in the field. -/
def fieldSub (a b : Nat) : Nat := (a % sm2P + sm2P - b % sm2P) % sm2P

/-- Twice a point; the curve's a is -3. -/
def sm2Double (q : Sm2Point) : Sm2Point :=
  let zz := q.z * q.z % sm2P
  let yy := q.y * q.y % sm2P
  let m := 3 * (fieldSub q.x zz * ((q.x + zz) % sm2P)) % sm2P
  let t := 4 * q.x * yy % sm2P
  let x := fieldSub (m * m) (2 * t)
  { x, y := fieldSub (m * fieldSub t x) (8 * (yy * yy)), z := 2 * q.y * q.z % sm2P }

/-- The sum of two points. -/
def sm2Add (q r : Sm2Point) : Sm2Point :=
  if q.z = 0 then r else if r.z = 0 then q
  else
    let qz := q.z * q.z % sm2P
    let rz := r.z * r.z % sm2P
    let u := q.x * rz % sm2P
    let v := q.y * rz * r.z % sm2P
    let h := fieldSub (r.x * qz) u
    let w := fieldSub (r.y * qz * q.z) v
    if h = 0 then (if w = 0 then sm2Double q else { x := 1, y := 1, z := 0 })
    else
      let hh := h * h % sm2P
      let t := u * hh % sm2P
      let x := fieldSub (w * w) (hh * h + 2 * t)
      { x, y := fieldSub (w * fieldSub t x) (v * hh * h), z := q.z * r.z * h % sm2P }

/-- A multiple of a point, by the low bits of the factor. -/
def sm2Mul (k : Nat) (q : Sm2Point) : Nat → Sm2Point
  | 0 => { x := 1, y := 1, z := 0 }
  | n + 1 =>
    let d := sm2Double (sm2Mul (k / 2) q n)
    if k % 2 = 1 then sm2Add d q else d

/-- The signature (r, s) over a digest verifies under the public key (x, y): with t = r + s and (x1, y1) = s · G + t · P, r is digest + x1,
all modulo the order. -/
def sm2Accepts (key : BitVec 512) (digest : BitVec 256) (signature : BitVec 512) : Bool :=
  let r := signature.toNat / 2 ^ 256
  let s := signature.toNat % 2 ^ 256
  let x := key.toNat / 2 ^ 256
  let y := key.toNat % 2 ^ 256
  let t := (r + s) % sm2N
  let q := sm2Add (sm2Mul s { x := sm2Gx, y := sm2Gy, z := 1 } 256) (sm2Mul t { x, y, z := 1 } 256)
  let x1 := (r + sm2N - digest.toNat % sm2N) % sm2N
  decide (x < sm2P) && decide (y < sm2P) && decide (y * y % sm2P = (x * x * x + (sm2P - 3) * x + sm2B) % sm2P)
    && decide (0 < r) && decide (r < sm2N) && decide (0 < s) && decide (s < sm2N) && decide (t ≠ 0) && decide (q.z ≠ 0)
    && (decide (q.x = x1 * (q.z * q.z) % sm2P) || (decide (x1 + sm2N < sm2P) && decide (q.x = (x1 + sm2N) * (q.z * q.z) % sm2P)))

end Sys2Proof.Machine
end

