-- ==== Sys2Proof/Machine/Device.lean ====
section
/-! DEFINITION. The module as a device: bring-up and resets, attestation, limits, soft errors, the aperture, and accesses of system
software to scratchpads (15 R407, R408; 17 R441 to R451; 11 R318). -/

namespace Sys2Proof.Machine

/-! ## Reset and bring-up (R446, R451) -/

/-- DEVINFO (R404). -/
def devinfo (p : Part) : Nat := (if p.is384P then 0x385 else 0x384) + p.stepping.toNat * 2 ^ 16

/-- Module reset: every register at its reset value and nothing in place. The bytes of storage and the messages sent stay (log 10). -/
def State.resetModule (s : State) : State :=
  { State.reset with
    agenda := s.agenda, freeCtr := s.freeCtr, part := s.part, mem := s.mem, ms := { MemSys.empty with poison := s.ms.poison },
    host := { HostIf.reset with msgs := s.host.msgs } }

/-- A stage's digest is extended into its measurement register. -/
def State.measure (s : State) (i : Nat) (digest : BitVec 256) : State :=
  let old := s.dev.meas.getD i 0
  { s with dev := { s.dev with meas := listSet s.dev.meas i (sm3 (beBytes 64 (old.toNat * 2 ^ 256 + digest.toNat))) } }

/-- The stages from stage i on: each runs if the stage before it accepts its signature under the fused key, and its security version is
not below the fused rollback counter; the boot ROM has none before it (R446). -/
def bootFrom (i : Nat) : List BootStage → State → State × Bool
  | [], s => (s, true)
  | b :: rest, s =>
    if i = 0 || (sm2Accepts s.part.bootKey (sm3 b.image) b.signature && decide (s.part.rollback ≤ b.version)) then
      bootFrom (i + 1) rest (s.measure i (sm3 b.image))
    else (s, false)

/-- Bring-up: the shares, and READY. -/
def State.bringUp (s : State) : State :=
  let s1 := (List.range Config.dies).foldl (fun s d => s.setDie d { s.die d with share := 650 }) s
  { s1 with dev := { s1.dev with ready := true } }

/-- After a thermal trip a reset is accepted once every junction, and so TMAX, reads below 100 degrees (R444). -/
def State.coolEnough (s : State) (k : State → State) : State := if s.dev.thermal && decide (100 ≤ s.dev.tmax.toNat) then s else k s

/-- MODULE_RESET: power-on or module reset with the images of the four stages. A stage that fails a check is not run, and the module
stays with READY 0. -/
def execModuleReset (stages : List BootStage) (s : State) : Out :=
  if stages.length ≠ 4 then .refused (.notEnabled "MODULE_RESET")
  else .next (s.coolEnough fun s =>
    match bootFrom 0 stages s.resetModule with
    | (s1, true) => s1.bringUp
    | (s1, false) => s1)

/-! ## Function level reset (R408, R474) -/

/-- A context is assigned to a function. -/
def State.ownsCtx (s : State) (fn c : Nat) : Bool := ctxFunc (s.ctxEntry c) = fn

/-- The launches taken for a function's contexts enter the table, so that they end with the rest. -/
def State.enterTaken (s : State) (fn : Nat) : State :=
  let mine (t : Taken) : Bool := t.parent.isNone && s.ownsCtx fn t.window
  (s.host.taken.filter mine).foldl State.enterTable { s with host := { s.host with taken := s.host.taken.filter fun t => !mine t } }

/-- Every commission of a function's contexts is aborted, the Drover's with their reduce crews among them, which leave the table as they do
at their end (R362). -/
def State.abortOwned (s : State) (fn : Nat) : State :=
  let s1 := s.enterTaken fn
  let uids := (s1.comms.filter fun m => !isFinal m.state && s1.ownsCtx fn m.key.ctx).map (·.uid)
  let s2 := uids.foldl (abortComm (Config.maxDepth + 2)) s1
  { s2 with comms := s2.comms.filter fun m => m.drover.isNone || !isFinal m.state }

/-- A function's MSI-X table is at reset, and its command ring is empty. -/
def State.clearFunction (s : State) (fn : Nat) : State :=
  let r := s.cmdRing fn
  let s1 := s.setCmdRing fn { r with head := r.tail }
  { s1 with host := { s1.host with busy := s1.host.busy.filter (fun b => b.fn ≠ fn), msix := s1.host.msix.filter (fun p => p.1 / 2048 ≠ fn),
                                   msixOn := s1.host.msixOn.filter (· ≠ fn), msixMask := s1.host.msixMask.filter (· ≠ fn) } }

/-- FUNCTION_LEVEL_RESET. On the PF it is a module reset, whose boot chain MODULE_RESET then runs. -/
def execFunctionLevelReset (fn : Nat) (s : State) : Out :=
  if 64 < fn then .refused (.notEnabled "FUNCTION_LEVEL_RESET")
  else if fn = 0 then .next (s.coolEnough State.resetModule)
  else
    let s1 := s.abortOwned fn
    let handles := (s1.fab.comms.filter fun m => s1.ownsCtx fn m.tctx).map (·.handle)
    .next ((handles.foldl State.dropCommunicator s1).clearFunction fn)

/-! ## Attestation (R447, R448) -/

/-- A quote without its signature: DEVINFO, UNITCAP, MEAS0 to MEAS3, the nonce. -/
def State.quote (s : State) (nonce : BitVec 256) : List Byte :=
  leBytes 8 (devinfo s.part) ++ leBytes 8 (unitcap s.part) ++ s.dev.meas.flatMap (fun m => leBytes 32 m.toNat) ++ leBytes 32 nonce.toNat

/-- Where the Steward's own context places a byte that it may write: HBM or Mart, on a page without PRIV. -/
def State.stewardAt (s : State) (va : Nat) : Option Nat :=
  if Config.windowBase ≤ va then none
  else match s.dieView 0 (Config.stewardContext % 4096) va with
    | .leaf l => if l.w && !l.priv && (regionOf (l.phys va) = .hbm || regionOf (l.phys va) = .mart) then some (l.phys va) else none
    | _ => none

/-- The Steward answers a request that stands in the mailbox: the quote and its signature go to the result address, if it reaches every
byte of it; it waits for a copy that still writes there. -/
def State.attest (s : State) (nonce : BitVec 256) (addr : W64) : Option State :=
  let s1 := { s with host := { s.host with mailNonce := nonce, mailAddr := addr } }
  let q := s.quote nonce
  let bytes := q ++ leBytes 64 (Config.quoteSignature (sm3 q)).toNat
  let vas := (List.range bytes.length).map (addr.toNat + ·)
  let placed := bytes.zipIdx.map fun p => ((s1.stewardAt (addr.toNat + p.2)), p.1)
  if vas.any fun va => decide (s.dieView 0 (Config.stewardContext % 4096) va = .busy) then none
  else if !placed.all fun p => p.1.isSome then some (s1.dieTouch 0 (Config.stewardContext % 4096) vas)
  else if placed.any fun p => s.lineBusy (lineOf (p.1.getD 0)) then none
  else some ((s1.dieTouch 0 (Config.stewardContext % 4096) vas).writeBytes (placed.map fun p => (p.1.getD 0, p.2)))

/-- ATTESTATION_REQUEST: the nonce and the address are written into the mailbox (R447). -/
def execAttestationRequest (nonce : BitVec 256) (addr : W64) (s : State) : Out :=
  if !s.dev.ready then .next s
  else match s.attest nonce addr with
    | some t => .next t
    | none => .refused (.notEnabled "ATTESTATION_REQUEST")

/-! ## Power and temperature (R374, R444, R445) -/

/-- SHARE_WRITE: the Steward sets a die's share; a write that brings the sum above 2,600 W is ignored and counted. -/
def execShareWrite (die watts : Nat) (s : State) : Out :=
  if Config.dies ≤ die then .refused (.notEnabled "SHARE_WRITE")
  else
    let sum := (List.range Config.dies).foldl (fun n d => n + if d = die then watts else (s.die d).share) 0
    if 2600 < sum then .next { s with host := { s.host with shareDrops := s.host.shareDrops + 1 } }
    else if decide (watts < 200) || decide (800 < watts) then .next s
    else .next (s.setDie die { s.die die with share := watts })

/-- POWER_CLAMP. -/
def execPowerClamp (s : State) : Out :=
  if s.dev.clamp then .refused (.notEnabled "POWER_CLAMP")
  else .next { s with dev := { s.dev with clamp := true, clamps := min (s.dev.clamps + 1) (2 ^ 32 - 1) } }

/-- POWER_CLAMP_END. -/
def execPowerClampEnd (s : State) : Out :=
  if s.dev.clamp then .next { s with dev := { s.dev with clamp := false } } else .refused (.notEnabled "POWER_CLAMP_END")

/-- THERMAL_TRIP: the clocks stop, and every non-final commission is lost without a record. -/
def execThermalTrip (s : State) : Out :=
  .next { s with dev := { s.dev with thermal := true, tmax := 115 }, comms := s.comms.filter fun m => isFinal m.state }

/-! ## Soft errors (R449, R450) -/

/-- Where PATROL_SCRUB numbers the Loom cells of a core's two sets. -/
def loomCells (core set : Nat) : Nat := 2 ^ 46 + 2 * core + set

/-- Where PATROL_SCRUB numbers a line of a core's L1 (cache 0), of its scalar instruction cache (1) and of its lane instruction cache (2);
and the contexts, for their register files. -/
def cacheCells (cache core line : Nat) : Nat := 2 ^ 47 + (256 * cache + core) * 2 ^ 37 + line
/-- The lines that a core's caches hold, as PATROL_SCRUB numbers them. -/
def State.cachedCells (s : State) : List Nat :=
  s.ms.l1.map (fun e => cacheCells 0 e.core e.line) ++ s.ms.ic.map fun e => cacheCells (1 + bnum e.lane) e.core e.line

/-- The word at a storage address belongs to a kind of memory of a die. -/
def State.scrubs (s : State) (die kind a : Nat) : Bool :=
  match kind with
  | 0 => s.cachedCells.contains a && dieOfCore ((a - 2 ^ 47) / 2 ^ 37 % 256) = die
  | 1 => decide (spadBase 0 ≤ a) && decide (a < spadBase Config.cores) && dieOfCore ((a - spadBase 0) / 2 ^ 19) = die
  | 2 => (decide (tileBase 0 ≤ a) && decide (a < tileBase Config.cores) && dieOfCore ((a - tileBase 0) / 2 ^ 20) = die)
      || (decide (loomCells 0 0 ≤ a) && decide (a < loomCells Config.cores 0) && dieOfCore ((a - loomCells 0 0) / 2) = die)
  | 3 => regionOf a = .hbm && homeDie a = die && s.ms.l2.contains (lineOf a)
  | 4 => regionOf a = .mart && homeDie a = die
  | 5 => regionOf a = .hbm && homeDie a = die
  | 6 => (decide (a < kWord Config.contexts 0) && dieOf (a / 64) = die)
      || (decide (vWord 0 ≤ a) && decide (a < vWord (65536 * Config.benches)) && dieOfCore ((a - vWord 0) / 65536 / 4) = die)
  | _ => false

/-- A word is rewritten with the poison pattern, and every later reader takes the uncorrectable outcome. -/
def State.poisonWord (s : State) (a n : Nat) : State :=
  let base := a / n * n
  let s1 := s.write base ((List.range n).map fun i => Config.poisonPattern (base + i))
  let ws := (List.range (n / 4)).map (base / 4 + ·)
  { s1 with ms := { s1.ms with poison := s1.ms.poison ++ ws.filter fun w => !s1.ms.poison.contains w } }

/-- The beam of a set has a cell with an uncorrectable error. -/
def badBeam (t : SetState) : SetState := { t with beam := t.beam.map fun b => { b with bad := true } }

/-- A line in error leaves the cache that holds it, and is fetched again when it is next needed (R108, R314). -/
def State.dropCell (s : State) (a : Nat) : State :=
  { s with ms := { s.ms with l1 := s.ms.l1.filter (fun e => cacheCells 0 e.core e.line ≠ a),
                             ic := s.ms.ic.filter fun e => cacheCells (1 + bnum e.lane) e.core e.line ≠ a } }

/-- A register word in error: a later word that reads it traps ECC_UNCORR (R449; log 15). -/
def State.registerBad (s : State) (a : Nat) : State :=
  if s.ms.badRegs.contains a then s else { s with ms := { s.ms with badRegs := a :: s.ms.badRegs } }

/-- An uncorrectable word of a kind of memory. -/
def State.poisonAt (s : State) (kind a : Nat) : State :=
  if kind = 0 then s.dropCell a
  else if kind = 6 then s.registerBad a
  else if kind = 1 then s.poisonWord a 4
  else if decide (kind ≠ 2) || decide (a < loomCells 0 0) then s.poisonWord a 8
  else
    let core := (a - loomCells 0 0) / 2
    let lm := s.loom core
    s.setLoom core (if (a - loomCells 0 0) % 2 = 0 then { lm with set0 := badBeam lm.set0 } else { lm with set1 := badBeam lm.set1 })

/-- PATROL_SCRUB: one word is read; a correctable error is corrected and counted, an uncorrectable one is counted and poisoned. A line of
an L1 or an instruction cache that is in error is dropped (R450). -/
def execPatrolScrub (die kind addr : Nat) (found : ScrubFinding) (s : State) : Out :=
  if decide (Config.dies ≤ die) || !s.scrubs die kind addr then .refused (.notEnabled "PATROL_SCRUB")
  else match found with
    | .clean => .next s
    | .correctable => .next (s.countError die kind false)
    | .uncorrectable => .next ((s.countError die kind true).poisonAt kind addr)

/-- The counters of a die are zero. -/
def State.clearErrors (s : State) (die : Nat) : State :=
  s.setDie die { s.die die with ce := List.replicate 8 0, ue := List.replicate 8 0 }

/-- ERROR_COUNTER_CLEAR. -/
def execErrorCounterClear (die : Nat) (s : State) : Out :=
  if Config.dies ≤ die then .refused (.notEnabled "ERROR_COUNTER_CLEAR") else if !s.dev.ready then .next s else .next (s.clearErrors die)

/-- LINK_RETRY: the link has sent again, and counts a corrected error of kind 7. -/
def execLinkRetry (die : Nat) (s : State) : Out :=
  if Config.dies ≤ die then .refused (.notEnabled "LINK_RETRY") else .next (s.countError die 7 false)

/-- LINK_LOST: the link retries no more. No register of R450 counts it, and what it carried is lost to the units behind it, which
their own time limits show. -/
def execLinkLost (die : Nat) (s : State) : Out :=
  if Config.dies ≤ die then .refused (.notEnabled "LINK_LOST") else .next s

/-! ## The aperture (R403, R407) -/

/-- The physical address of a byte of BAR4. -/
def State.apAddr (s : State) (off : Nat) : Nat := (s.host.apbase.toNat + off) % Config.physEnd
/-- A byte that the aperture does not reach: unmapped, or in the host-link window. -/
def apHole (a : Nat) : Bool := regionOf a = .hole || regionOf a = .host
/-- Bytes of an access that the aperture admits. -/
def apAccess (off n : Nat) : Bool := decide (0 < n) && decide (n ≤ 4096) && decide (off + n ≤ 2 ^ 39)
/-- An access with a byte that the aperture does not reach is counted. -/
def State.apCount (s : State) (off n : Nat) : State :=
  if (List.range n).any fun i => apHole (s.apAddr (off + i)) then s.setDie 0 { s.die 0 with bar4Drops := (s.die 0).bar4Drops + 1 } else s

/-- BAR4_READ: at the home slice or bank, past every L1 and store-gather buffer; ones where nothing is reached. A line that a copy owns is
read after its last write (R342). -/
def execBar4Read (off len : Nat) (s : State) : Out :=
  if !apAccess off len || s.rangeBusy (s.host.apbase.toNat + off) len then .refused (.notEnabled "BAR4_READ")
  else
    let bytes := (List.range len).map fun i =>
      let a := s.apAddr (off + i)
      if apHole a then 0xFF else memByte s.mem a
    let s1 := s.apCount off len
    .next { s1 with host := { s1.host with lastRead := bytes } }

/-- BAR4_WRITE: at the home slice or bank; discarded where nothing is reached; after the last write of a copy that owns the line. -/
def execBar4Write (off : Nat) (bytes : List Byte) (s : State) : Out :=
  if !apAccess off bytes.length || s.rangeBusy (s.host.apbase.toNat + off) bytes.length then .refused (.notEnabled "BAR4_WRITE")
  else
    let cells := (bytes.zipIdx.map fun p => (s.apAddr (off + p.2), p.1)).filter fun p => !apHole p.1
    .next ((s.apCount off bytes.length).writeBytes cells)

/-! ## Absolute scratchpad addresses (R42, R318) -/

/-- Placement tag, core and offset of an absolute scratchpad address. -/
def absParts (a : W64) : Option (Nat × Nat × Nat) :=
  let v := a.toNat
  if bitsOf v 63 56 = 0xA5 && bitsOf v 55 39 = 0 && decide (bitsOf v 26 19 < Config.cores) then
    some (bitsOf v 38 27, bitsOf v 26 19, bitsOf v 18 0) else none

/-- The placement tag of the crew whose allocation holds a line of a core's scratchpad. -/
def State.lineTag (s : State) (core line : Nat) : Option Nat :=
  (s.crews.find? fun p => decide (p.2.core = core) && s.holds p.1 p.2 && decide (p.2.baseLine ≤ line)
    && decide (line < p.2.baseLine + p.2.nLines)).map fun p => p.2.ptag

/-- A tag reaches a line: that of its holder, or 0 where no crew holds it. -/
def State.tagReaches (s : State) (core ptag line : Nat) : Bool := (s.lineTag core line).getD 0 = ptag

/-- An operation of system software on n bytes at an absolute address: k at the storage address, or STALE_PLACEMENT and nothing
done. It waits for a line that is marked empty (R310). -/
def State.systemAccess (s : State) (addr : W64) (n : Nat) (name : String) (k : State → Nat → State) : Out :=
  match absParts addr with
  | none => .refused (.notEnabled name)
  | some (ptag, core, off) =>
    if n = 0 || decide (2 ^ 19 < off + n) then .refused (.notEnabled name)
    else
      let lines := (List.range ((off + n - 1) / 128 + 1 - off / 128)).map (off / 128 + ·)
      if !lines.all (s.tagReaches core ptag) then .next { s with host := { s.host with lastRead := [], lastStale := true } }
      else if lines.any fun l => s.lineBusy (lineOf (spadBase core) + l) then .refused (.notEnabled name)
      else
        .next (k { s with host := { s.host with lastStale := false } } (spadBase core + off))

/-- SYSTEM_SOFTWARE_COPY. -/
def execSystemSoftwareCopy (addr : W64) (bytes : List Byte) (s : State) : Out :=
  s.systemAccess addr bytes.length "SYSTEM_SOFTWARE_COPY" fun s a => s.write a bytes

/-- DEBUG_READ. -/
def execDebugRead (addr : W64) (len : Nat) (s : State) : Out :=
  s.systemAccess addr len "DEBUG_READ" fun s a => { s with host := { s.host with lastRead := s.read a len } }

end Sys2Proof.Machine
end

