-- ==== Sys2Proof/Machine/LaneCross.lean ====
section
/-! DEFINITION. Cross-lane words (07 R196 to R200; 06 R170). -/

namespace Sys2Proof.Machine

/-- xl_read of a source field, which may be a q-slot (R170, R173). -/
def State.xlField (s : State) (o : LaneOp) (l : Nat) (src : Int) : W32 :=
  if o.sq.getLsbD 2 then
    let r := reachLanes s.w o.reach; let seg := segOf r l
    if (src < seg || (seg + r : Int) ≤ src || (s.w : Int) ≤ src) && !o.fill then 0 else s.src1 o l
  else s.xlRead (reachLanes s.w o.reach) o.fill l src o.s1.toNat

/-- The source lane of VSHF (R197). -/
def shufLane (kind seg l d : Nat) (idx : W32) : Int :=
  match kind with
  | 0 => (seg : Int) + idx.toNat
  | 1 => (Nat.xor l d : Nat)
  | 2 => (l : Int) - d
  | _ => (l : Int) + d

def execVshf (o : LaneOp) (s : State) : Out :=
  let r := reachLanes s.w o.reach
  s.valueWord o false fun l =>
    (s.xlField o l (shufLane (immBits o 1 0) (segOf r l) l (immBits o 13 8) (s.src2 o l)), false)

/-- A pattern table of the crew (R198): its newest content in the order of turns. Without a BAR, BARN or FUSE between a VPTLD of one skein and
a VPRM of another R71 lets either content be read; this is the model's choice (log 80). -/
def State.pattern (s : State) (n : Nat) : List (BitVec 6) := s.myCrew.pats.getD n []

def execVprm (o : LaneOp) (s : State) : Out :=
  s.valueWord o false fun l => (s.xlField o l (((s.pattern (immBits o 1 0)).getD l 0).toNat : Nat), false)

/-- A pattern table with entries written. -/
def putPattern (t : List (BitVec 6)) : List (Nat × BitVec 6) → List (BitVec 6)
  | [] => t
  | (l, v) :: rest => putPattern (listSet t l v) rest

/-- VPTLD writes the entries of its active lanes (R198). -/
def execVptld (o : LaneOp) (s : State) : Out :=
  let act := s.act o.msel
  let n := immBits o 1 0
  let t := putPattern (s.pattern n) ((lanesIn s.w act).map fun l => (l, (s.src1 o l).setWidth 6))
  .next ((s.setMyCrew { s.myCrew with pats := listSet s.myCrew.pats n t }).laneDone act false)

/-! ## Reductions and scans (R199) -/

/-- combine(p, x) of an operation; lane is the lane of x. -/
def combine (op : Nat) (f : Fmt) (rm : Rnd) (flush : Bool) (lw lane p x : Nat) : Nat :=
  match op with
  | 0 => (p + x) % 2 ^ 32
  | 1 => if condHolds 32 (if isSigned f then .le else .len) p x then p else x
  | 2 => if condHolds 32 (if isSigned f then .ge else .gen) p x then p else x
  | 3 => Nat.land p x
  | 4 => Nat.lor p x
  | 5 => Nat.xor p x
  | 6 => vfOp .add .f32 p x 0 rm false flush lw lane
  | 7 => vfMinMax false .f32 p x flush
  | _ => vfMinMax true .f32 p x flush

/-- The identity of an operation. -/
def identityOf (op : Nat) (f : Fmt) : Nat :=
  match op with
  | 1 => patOf 32 (imax f)
  | 2 => patOf 32 (imin f)
  | 3 => 2 ^ 32 - 1
  | 7 => 0x7F800000
  | 8 => 0xFF800000
  | _ => 0

/-- A lane's value in a reduction: after ABS, NEG and, for the float operations, vflush. -/
def State.redSrc (s : State) (o : LaneOp) (l : Nat) : Nat :=
  if 6 ≤ immBits o 3 0 then
    vflush s.flush .f32 (absNeg .f32 (o.neg.getLsbD 2) (o.abs.getLsbD 2) (s.src1 o l).toNat)
  else (s.src1 o l).toNat

/-- The running values of a segment: each lane with the value before it and with it. -/
def scanFrom (g : Nat → Nat → Nat → Nat) (p : Nat) : List (Nat × Nat) → List (Nat × Nat × Nat)
  | [] => []
  | (l, x) :: rest => (l, p, g l p x) :: scanFrom g (g l p x) rest

/-- The lanes of a segment, each with the exclusive and the inclusive value (R199). -/
def scanSeg (g : Nat → Nat → Nat → Nat) (ident : Nat) : List (Nat × Nat) → List (Nat × Nat × Nat)
  | [] => []
  | (l, x) :: rest => (l, ident, x) :: scanFrom g x rest

/-- Every active lane of the word with its exclusive and inclusive value in its segment. -/
def State.scanAll (s : State) (o : LaneOp) : List (Nat × Nat × Nat) :=
  let r := reachLanes s.w o.reach; let op := immBits o 3 0
  let act := lanesIn s.w (s.act o.msel)
  (List.range (s.w / r)).flatMap fun k =>
    scanSeg (fun l p x => combine op o.ty o.rnd s.flush s.lw l p x) (identityOf op o.ty)
      ((act.filter fun l => l / r = k).map fun l => (l, s.redSrc o l))

/-- What a reduction or scan writes: the NaN of a float operation with its quiet bit set, where no combining step has set it (R51, R63). -/
def redOut (op v : Nat) : W32 := BitVec.ofNat 32 (if decide (6 ≤ op) && isNan .f32 v then quietNan .f32 v else v)

def execVscn (o : LaneOp) (s : State) : Out :=
  let all := s.scanAll o
  let ex := immBits o 4 4 = 1
  s.valueWord o (6 ≤ immBits o 3 0) fun l =>
    match all.find? fun p => p.1 = l with
    | some (_, e, i) => (redOut (immBits o 3 0) (if ex then e else i), false)
    | none => (0, false)

def execVred (o : LaneOp) (s : State) : Out :=
  let all := s.scanAll o
  let r := reachLanes s.w o.reach
  s.valueWord o (6 ≤ immBits o 3 0) fun l =>
    match (all.filter fun p => p.1 / r = l / r).getLast? with
    | some (_, _, i) => (redOut (immBits o 3 0) i, false)
    | none => (0, false)

/-! ## VMATCH (R200) -/

def State.matchKey (s : State) (o : LaneOp) (l : Nat) : Nat :=
  let pos := immBits o 8 4; let len := immBits o 14 9
  bitsOf (s.src1 o l).toNat (pos + len - 1) pos

def execVmatch (o : LaneOp) (s : State) : Out :=
  let act := s.act o.msel
  let r := reachLanes s.w o.reach
  let ls := lanesIn s.w act
  let group (l : Nat) : List Nat := ls.filter fun t => t / r = l / r && s.matchKey o t = s.matchKey o l
  let vals := ls.map fun l => (l, BitVec.ofNat 32 ((group l).filter (· < l)).length)
  let bits := maskOf (ls.filter fun l => (group l).all (· ≤ l))
  let s1 := putLanes s s.cur o.dst.toNat vals
  .next ((s1.setMe (putMask s1.me (immBits o 3 0) act bits)).laneDone act false)

end Sys2Proof.Machine
end

