-- ==== Sys2Proof/Machine/LaneMask.lean ====
section
/-! DEFINITION. Mask-stack words, VOTE and VSEND (06 R154, R157, R158). -/

namespace Sys2Proof.Machine

/-- A trap of the mask stack by a word with these active lanes: precise, TRAPMASK 0 (R158). -/
def State.stackTrap (s : State) (act : W64) (detail : Nat) : Out := s.trapWhole .illegal detail act 0

/-- push (R157). -/
def pushMask (v r : W64) (loop : Bool) (x : Skein) : Skein := { x with stack := { value := v, rest := r, loop } :: x.stack }

def execMpush (o : LaneOp) (s : State) : Out :=
  let act := s.act o.msel
  if depthOf s.me = 32 then s.stackTrap act 8
  else
    let m := mGet s.me o.s1.toNat
    let s1 := (s.setMe (pushMask (act &&& m) (act &&& ~~~m) false s.me)).traceMask s.cur 0 (act &&& m)
    .next (s1.laneDone act false)

/-- MELSE or MPOP on an entry that an MPUSH made (R158). -/
def State.onTop (s : State) (act : W64) (k : MaskEntry → List MaskEntry → Out) : Out :=
  match s.me.stack with
  | [] => s.stackTrap act 9
  | e :: rest => if e.loop then s.stackTrap act 9 else k e rest

def execMelse (o : LaneOp) (s : State) : Out :=
  s.onTop (s.act o.msel) fun e rest =>
    let s1 := s.setMe { s.me with stack := { e with value := e.rest, rest := 0 } :: rest }
    .next ((s1.traceMask s.cur 1 e.rest).laneDone (s.act o.msel) false)

def execMpop (o : LaneOp) (s : State) : Out :=
  s.onTop (s.act o.msel) fun _ rest => .next ((s.setMe { s.me with stack := rest }).laneDone (s.act o.msel) false)

/-- Lanes leave every entry from the top to the innermost loop entry (R158). -/
def breakLanes (act : W64) : List MaskEntry → List MaskEntry
  | [] => []
  | e :: rest =>
    let e' := { e with value := e.value &&& ~~~act, rest := e.rest &&& ~~~act }
    if e.loop then e' :: rest else e' :: breakLanes act rest

/-- The kind of the head entry. -/
def headKind (x : Skein) : EntryKind :=
  match x.queue with
  | e :: _ => e.kind
  | [] => .run

def execMbreak (o : LaneOp) (s : State) : Out :=
  if headKind s.me = .run then s.stackTrap (s.act o.msel) 7
  else
    let act := s.act o.msel
    let s1 := s.setMe { s.me with stack := breakLanes act s.me.stack }
    .next ((s1.traceMask s.cur 2 act).laneDone act false)

/-! ## The back-queue (R27, R144, R154) -/

/-- A word makes a back-queue entry once every earlier lane word has retired (R379); it waits while the queue is full, and
after EXIT the entry is discarded. -/
def State.sendBack (s : State) (act : W64) (e : BackEntry) : Out :=
  if !s.me.unret.isEmpty then s.stall
  else if s.me.exited then .next (s.laneDone act false)
  else if Config.backLen ≤ s.me.back.length then s.stall
  else .next ((s.setMe { s.me with back := s.me.back ++ [e] }).laneDone act false)

def execVote (o : LaneOp) (s : State) : Out :=
  let act := s.act o.msel
  s.sendBack act { vote := true, valid := true, value := mGet s.me o.s1.toNat &&& act }

def execVsend (o : LaneOp) (s : State) : Out :=
  let act := s.act o.msel
  match (lanesIn s.w act).head? with
  | some l => s.sendBack act { vote := false, valid := true, value := (s.lv l o.s1.toNat).setWidth 64 }
  | none => s.sendBack act { vote := false, valid := false, value := 0 }

end Sys2Proof.Machine
end

