-- ==== Sys2Proof/Machine/Registers.lean ====
section
/-! DEFINITION. The management registers in BAR0: what a write does and what a read gives (15 R403 to R409, R413, R414, R474; 16
R424; 17 R445, R450, R451). Registers are written and read as aligned 64-bit words. -/

namespace Sys2Proof.Machine

/-! ## Rings and pools -/

/-- A command ring register (R409): CMDBASE only while the ring is empty, CMDTAIL modulo the count. -/
def cmdPut (r : CmdRing) (off : Nat) (v : W64) : CmdRing :=
  let same := match ringLog r.size with
    | some n => decide (r.head.toNat % 2 ^ n = r.tail.toNat % 2 ^ n)
    | none => decide (r.head = r.tail)
  match off with
  | 0x00 => if same then { r with base := v &&& ~~~0xFFF#64 } else r
  | 0x08 => { r with size := v &&& 0x1F }
  | 0x10 => { r with tail := match ringLog r.size with
      | some n => BitVec.ofNat 64 (v.toNat % 2 ^ n)
      | none => v }
  | 0x20 => { r with vec := v &&& 0x87FF }
  | _ => r
def cmdSee (r : CmdRing) (off : Nat) : W64 :=
  match off with
  | 0x00 => r.base
  | 0x08 => r.size
  | 0x10 => r.tail
  | 0x18 => r.head
  | 0x20 => r.vec
  | _ => 0

/-- A register of a page-request or crew-fault ring (R413). -/
def recPut (r : RecRing) (off : Nat) (v : W64) : RecRing :=
  match off with
  | 0x00 => { r with base := v &&& ~~~0x1F#64 }
  | 0x08 => { r with size := v &&& 0x1F }
  | 0x10 => { r with head := match ringLog r.size with
      | some n => BitVec.ofNat 64 (v.toNat % 2 ^ n)
      | none => v }
  | 0x20 => { r with vec := v &&& 0x87FF }
  | _ => r
def recSee (r : RecRing) (off : Nat) : W64 :=
  match off with
  | 0x00 => r.base
  | 0x08 => r.size
  | 0x10 => r.head
  | 0x18 => r.tail
  | 0x20 => r.vec
  | _ => 0

/-- The ring and the register at an offset of a die's block. -/
def ringAt (die off : Nat) : Nat × Nat := if off < 0x40 then (pageRing die, off) else (faultRing die, off - 0x40)

/-- A buffer is pushed into a die's save pool; one beyond 1024 is discarded and counted (R414). -/
def State.pushBuffer (s : State) (die : Nat) (addr : W64) : State :=
  let d := s.die die
  if 1024 ≤ d.pool.length then s.setDie die { d with poolDrops := d.poolDrops + 1 }
  else s.setDie die { d with pool := d.pool ++ [addr.toNat / 0x400000 * 0x400000] }

/-- SAVEPUSH. -/
def execSavepush (die : Nat) (addr : W64) (s : State) : Out :=
  if Config.dies ≤ die then .refused (.notEnabled "SAVEPUSH") else if !s.dev.ready then .next s else .next (s.pushBuffer die addr)

/-! ## Context table, MSI-X (R405, R474) -/

/-- The bits of word i of a context table entry that a write reaches. -/
def ctxMask (i : Nat) : W64 :=
  match i with
  | 0 => 0xFF01FD
  | 2 => BitVec.allOnes 64
  | 3 => 0xFFFFFFFFFFFFFF80
  | 5 => 0xFFFFFFFF00000000
  | 6 => 0xFFFFFFFFFC000000
  | 7 => 0x1FF
  | _ => 0

def State.putCtxWord (s : State) (i : Nat) (v : W64) : State :=
  { s with host := { s.host with ctxTab := smSet 0 s.host.ctxTab i (v &&& ctxMask (i % 8)) } }

/-- An aligned 64-bit write of an MSI-X table entry: the address in its first word; data, and the mask bit of vector control, in its
second. -/
def msixWord (x : MsixVec) (i : Nat) (v : W64) : MsixVec :=
  if i % 2 = 0 then { x with addr := v &&& ~~~3#64 } else { x with data := v.setWidth 32, masked := v.getLsbD 32 }
/-- An aligned 32-bit write of the upper half of a word of an entry: the upper address, or vector control (R474). -/
def msixHigh (x : MsixVec) (i : Nat) (v : W64) : MsixVec :=
  if i % 2 = 0 then { x with addr := (v <<< 32) ||| (x.addr &&& 0xFFFFFFFF) } else { x with masked := v.getLsbD 0 }
def State.putMsix (s : State) (fn off : Nat) (v : W64) : State :=
  let i := off / 8
  let x := s.vector fn (i / 2)
  (s.setVector fn (i / 2) (if off % 8 = 4 then msixHigh x i v else msixWord x i v)).flushVector fn (i / 2)
def State.seeMsix (s : State) (fn i : Nat) : W64 :=
  let x := s.vector fn (i / 2)
  if i % 2 = 0 then x.addr else BitVec.ofNat 64 (bnum x.masked * 2 ^ 32 + x.data.toNat)

/-- 64 pending bits of a function. -/
def State.seePending (s : State) (fn i : Nat) : W64 :=
  BitVec.ofNat 64 ((List.range 64).foldl (fun m j => m + bnum (s.vector fn (64 * i + j)).pending * 2 ^ j) 0)

/-- MSI-X message control, which stands in configuration space: enable in bit 15, the function mask in bit 14. -/
def State.putMsixControl (s : State) (fn : Nat) (v : W64) : State :=
  let put (on : Bool) (l : List Nat) : List Nat := if on then (if l.contains fn then l else l ++ [fn]) else l.filter (· ≠ fn)
  { s with host := { s.host with msixOn := put (v.getLsbD 15) s.host.msixOn, msixMask := put (v.getLsbD 14) s.host.msixMask } }.flushFunction fn

/-! ## The debug block (R424, R429, R434, R439) -/

/-- TRCTL is written: clearing EN makes the pending BRANCH packets first; setting it reports what was dropped, and every context needs
a SYNC (R436, R437). -/
def State.putTrctl (s : State) (bench : Nat) (v : W64) : State :=
  let ctl := v &&& 0x1FFF3F
  let was := bitOf (s.bench bench).trctl.toNat 0
  let now := v.getLsbD 0
  let s1 := if was && !now then (List.range 32).foldl (fun s i => s.traceFlush (32 * bench + i)) s else s
  let b := { s1.bench bench with trctl := ctl }
  if now && !was then s1.setBench bench (reportLost { b with needSync := List.range 32, sinceSync := [] } s.dev.cycle)
  else s1.setBench bench b

/-- A register of a bench's debug block is written. -/
def State.putDebug (s : State) (bench off : Nat) (v : W64) : State :=
  let b := s.bench bench
  let i := off % 0x40 / 16
  match off with
  | 0x000 => if v = 1 then s.stopBench bench 0 else if v = 2 then s.resumeBench bench else if v = 3 then s.dumpBench bench else s
  | 0x018 => s.setBench bench { b with stopctl := v &&& 0xFFFFFFFF0000000F }
  | 0x020 => s.setBench bench { b with dumpaddr := v &&& ~~~0xFFFFF#64 }
  | 0x040 | 0x050 | 0x060 | 0x070 => s.setBench bench { b with bpaddr := listSet b.bpaddr i (v &&& 0x1FFFFFFFFFFFFFC) }
  | 0x048 | 0x058 | 0x068 | 0x078 => s.setBench bench { b with bpctl := listSet b.bpctl i (v &&& 0x1FF) }
  | 0x080 | 0x090 | 0x0A0 | 0x0B0 => s.setBench bench { b with wpbase := listSet b.wpbase i v }
  | 0x088 | 0x098 | 0x0A8 | 0x0B8 => s.setBench bench { b with wpctl := listSet b.wpctl i (v &&& 0xFFFFFFFF000003FF) }
  | 0x100 => s.setBench bench { b with trbase := v &&& ~~~0xFFF#64 }
  | 0x108 => s.setBench bench { b with trsize := v }
  | 0x118 => s.writeTrrptr bench v
  | 0x120 => s.putTrctl bench v
  | 0x200 => s.setBench bench { b with asctl := v &&& 0xFF0101F1 }
  | 0x208 => s.writeAsseed bench v
  | 0x210 => s.setBench bench { b with asbase := v &&& ~~~0xFFF#64 }
  | 0x218 => s.setBench bench { b with assize := v }
  | 0x228 => s.writeAsrptr bench v
  | _ => s

/-- STOPSTAT (R424, R426). -/
def stopstat (b : Bench) : W64 := BitVec.ofNat 64 (bnum b.stopped + bnum b.dumpdone * 2 + b.stopcause * 2 ^ 8)

/-- A register of a bench's debug block is read. -/
def seeDebug (b : Bench) (off : Nat) : W64 :=
  let i := off % 0x40 / 16
  match off with
  | 0x008 => stopstat b
  | 0x010 => b.stoptime
  | 0x018 => b.stopctl
  | 0x020 => b.dumpaddr
  | 0x040 | 0x050 | 0x060 | 0x070 => b.bpaddr.getD i 0
  | 0x048 | 0x058 | 0x068 | 0x078 => b.bpctl.getD i 0
  | 0x080 | 0x090 | 0x0A0 | 0x0B0 => b.wpbase.getD i 0
  | 0x088 | 0x098 | 0x0A8 | 0x0B8 => b.wpctl.getD i 0
  | 0x100 => b.trbase
  | 0x108 => b.trsize
  | 0x110 => b.trwptr
  | 0x118 => b.trrptr
  | 0x120 => b.trctl
  | 0x128 => b.trlost
  | 0x200 => b.asctl
  | 0x210 => b.asbase
  | 0x218 => b.assize
  | 0x220 => b.aswptr
  | 0x228 => b.asrptr
  | 0x230 => b.aslost
  | _ => 0

/-! ## Writes (R6, R403, R404, R451) -/

/-- Eight bytes of a core's slot table or tenant map are written; they wait as R369 says. -/
def State.putSlotWord (s : State) (core off : Nat) (v : W64) : State :=
  let k := s.core core
  let at_ := (s.dev.cycle / 64 + 1) * 64
  s.setCore core { k with later := k.later ++ (List.range 4).map fun i => (at_, off + 2 * i, (v >>> (16 * i)).setWidth 16) }

/-- A BAR0 write of the PF, by block. -/
def State.putPf (s : State) (off : Nat) (v : W64) : State :=
  if 0x10000 ≤ off && decide (off < 0x10028) then s.setCmdRing 0 (cmdPut (s.cmdRing 0) (off - 0x10000) v)
  else if 0x20000 ≤ off && decide (off < 0x20400) then
    let k := ringAt ((off - 0x20000) / 0x100) (off % 0x100)
    (s.setRing k.1 (recPut (s.ring k.1) k.2 v)).flushRing k.1
  else if 0x30000 ≤ off && decide (off < 0x30400) then (if off % 0x100 = 0 then s.pushBuffer ((off - 0x30000) / 0x100) v else s)
  else if 0x70000 ≤ off && decide (off < 0x70400) then (if off % 0x100 = 0x80 then s.clearErrors ((off - 0x70000) / 0x100) else s)
  else if 0x100000 ≤ off && decide (off < 0x140000) then s.putCtxWord ((off - 0x100000) / 8) v
  else if 0x200000 ≤ off && decide (off < 0x20C000) then
    (if off % 0x100 < 0x60 then s.putSlotWord ((off - 0x200000) / 0x100) (off % 0x100) v else s)
  else if 0x300000 ≤ off && decide (off < 0x308000) then s.putMsix 0 (off - 0x300000) v
  else if off = 0x400000 then { s with host := { s.host with apbase := v &&& ~~~0x1FFFFF#64 } }
  else if 0x500000 ≤ off && decide (off < 0x800000) then s.putDebug ((off - 0x500000) / 0x1000) (off % 0x1000) v
  else s

/-- A BAR0 write of a VF: only its MSI-X table and its command ring respond (R403). -/
def State.putVf (s : State) (fn off : Nat) (v : W64) : State :=
  if off < 0x200 then s.putMsix fn off v
  else if 0x10000 ≤ off && decide (off < 0x10028) then s.setCmdRing fn (cmdPut (s.cmdRing fn) (off - 0x10000) v)
  else s

/-- Where REGISTER_WRITE numbers MSI-X message control: the first offset above BAR0. -/
def msixControl : Nat := 0x4000000

/-- The attestation mailbox (R447; log 15): the nonce in its first 32 bytes, the address in the next 8. -/
def inMailbox (fn off : Nat) : Bool := fn = 0 && decide (0x60000 ≤ off) && decide (off < 0x60028)
/-- A word of the nonce is written. -/
def State.putNonce (s : State) (i : Nat) (v : W64) : State :=
  let old := s.host.mailNonce.toNat
  let n := old - old / 2 ^ (64 * i) % 2 ^ 64 * 2 ^ (64 * i) + v.toNat * 2 ^ (64 * i)
  { s with host := { s.host with mailNonce := BitVec.ofNat 256 n } }

/-- The MSI-X tables, which take 32-bit writes too (R474). -/
def inMsix (fn off : Nat) : Bool :=
  if fn = 0 then decide (0x300000 ≤ off) && decide (off < 0x308000) else decide (off < 0x200)

/-- A write of DBGCMD asks for a dump that has to wait. -/
def State.dumpWrite (s : State) (fn off : Nat) (v : W64) : Bool :=
  fn = 0 && decide (0x500000 ≤ off) && decide (off < 0x800000) && decide (off % 0x1000 = 0) && decide (v = 3)
    && s.dumpWaits ((off - 0x500000) / 0x1000)

/-- REGISTER_WRITE: a function's write of an aligned word of its BAR0, of the upper half of a word of its MSI-X table (v's low half), or of
its MSI-X message control. The address in the mailbox, written last, makes the request (R447; log 15). -/
def execRegisterWrite (fn off : Nat) (v : W64) (s : State) : Out :=
  if decide (64 < fn) || decide (msixControl < off) then .refused (.notEnabled "REGISTER_WRITE")
  else if off = msixControl then .next (s.putMsixControl fn v)
  else if !s.dev.ready || (off % 8 ≠ 0 && (off % 8 ≠ 4 || !inMsix fn off)) then .next s
  else if s.dumpWrite fn off v then .refused (.notEnabled "REGISTER_WRITE")
  else if inMailbox fn off then
    (if off < 0x60020 then .next (s.putNonce ((off - 0x60000) / 8) v)
    else match s.attest s.host.mailNonce v with
      | some t => .next t
      | none => .refused (.notEnabled "REGISTER_WRITE"))
  else if fn = 0 then .next (s.putPf off v)
  else .next (s.putVf fn off v)

/-! ## Reads (R403, R404, R425, R442, R445, R450, R451) -/

/-- DEVSTAT (R445). -/
def State.devstat (s : State) : W64 :=
  BitVec.ofNat 64 (s.dev.clamps * 2 ^ 32 + s.dev.tmax.toNat * 2 ^ 24 + bnum s.dev.clamp * 4 + bnum s.dev.thermal * 2 + bnum s.dev.ready)

/-- A core's tables with the writes that have still to take effect: what a read returns (R6). -/
def slotsWritten (k : CoreSt) : CoreSt := k.later.foldl (fun k p => putEntry k p.2.1 p.2.2) k
/-- Eight bytes of a core's slot table or tenant map. -/
def seeSlotWord (k0 : CoreSt) (off : Nat) : W64 :=
  let k := slotsWritten k0
  if off < 64 then BitVec.ofNat 64 (leNat ((k.slottab.drop off).take 8))
  else BitVec.ofNat 64 (leNat (((k.tmap.drop ((off - 64) / 2)).take 4).flatMap fun w => leBytes 2 w.toNat))

/-- A BAR0 read of the PF, by block. -/
def State.seePf (s : State) (off : Nat) : W64 :=
  if off = 0 then BitVec.ofNat 64 (devinfo s.part)
  else if off = 8 then BitVec.ofNat 64 (unitcap s.part)
  else if 0x100 ≤ off && decide (off < 0x140) then BitVec.ofNat 64 (capcOf s.part.torhw ((off - 0x100) / 8))
  else if 0x10000 ≤ off && decide (off < 0x10028) then cmdSee (s.cmdRing 0) (off - 0x10000)
  else if 0x20000 ≤ off && decide (off < 0x20400) then
    let k := ringAt ((off - 0x20000) / 0x100) (off % 0x100)
    recSee (s.ring k.1) k.2
  else if 0x30000 ≤ off && decide (off < 0x30400) then
    (if off % 0x100 = 8 then BitVec.ofNat 64 (s.die ((off - 0x30000) / 0x100)).pool.length else 0)
  else if 0x61000 ≤ off && decide (off < 0x62000) then Config.certificate ((off - 0x61000) / 8)
  else if 0x70000 ≤ off && decide (off < 0x70400) then
    (if off % 0x100 < 0x40 then
      let d := s.die ((off - 0x70000) / 0x100)
      BitVec.ofNat 64 (d.ue.getD (off % 0x100 / 8) 0 * 2 ^ 32 + d.ce.getD (off % 0x100 / 8) 0)
    else 0)
  else if 0x100000 ≤ off && decide (off < 0x140000) then smGet 0 s.host.ctxTab ((off - 0x100000) / 8)
  else if 0x200000 ≤ off && decide (off < 0x20C000) then
    (if off % 0x100 < 0x60 then seeSlotWord (s.core ((off - 0x200000) / 0x100)) (off % 0x100) else 0)
  else if 0x300000 ≤ off && decide (off < 0x308000) then s.seeMsix 0 ((off - 0x300000) / 8)
  else if 0x308000 ≤ off && decide (off < 0x308100) then s.seePending 0 ((off - 0x308000) / 8)
  else if off = 0x400000 then s.host.apbase
  else if 0x500000 ≤ off && decide (off < 0x800000) then seeDebug (s.bench ((off - 0x500000) / 0x1000)) (off % 0x1000)
  else 0

/-- A BAR0 read of a VF. -/
def State.seeVf (s : State) (fn off : Nat) : W64 :=
  if off < 0x200 then s.seeMsix fn (off / 8)
  else if off = 0x800 then s.seePending fn 0
  else if 0x10000 ≤ off && decide (off < 0x10028) then cmdSee (s.cmdRing fn) (off - 0x10000)
  else 0

/-- What a function reads at an aligned offset of its BAR0; until bring-up is complete only DEVSTAT reads. -/
def State.bar0 (s : State) (fn off : Nat) : W64 :=
  if fn = 0 && off = 0x10 then s.devstat
  else if !s.dev.ready then 0
  else if fn = 0 then s.seePf off
  else s.seeVf fn off

end Sys2Proof.Machine
end

