-- ==== Sys2Proof/Machine/Dispatch.lean ====
section
/-! DEFINITION. The one dispatch: every constructor of Instr to its meaning. -/

namespace Sys2Proof.Machine

def exec (i : Instr) (s : State) : Host.Outcome State Fault Refusal :=
  match i with
  | .add d a b => Sys2Proof.Machine.execAdd d a b s
  | .sub d a b => Sys2Proof.Machine.execSub d a b s
  | .mul d a b => Sys2Proof.Machine.execMul d a b s
  | .mulh d a b => Sys2Proof.Machine.execMulh d a b s
  | .mulhn d a b => Sys2Proof.Machine.execMulhn d a b s
  | .div d a b => Sys2Proof.Machine.execDiv d a b s
  | .divn d a b => Sys2Proof.Machine.execDivn d a b s
  | .rem d a b => Sys2Proof.Machine.execRem d a b s
  | .remn d a b => Sys2Proof.Machine.execRemn d a b s
  | .and d a b => Sys2Proof.Machine.execAnd d a b s
  | .or d a b => Sys2Proof.Machine.execOr d a b s
  | .xor d a b => Sys2Proof.Machine.execXor d a b s
  | .andn d a b => Sys2Proof.Machine.execAndn d a b s
  | .shl d a b => Sys2Proof.Machine.execShl d a b s
  | .shr d a b => Sys2Proof.Machine.execShr d a b s
  | .sra d a b => Sys2Proof.Machine.execSra d a b s
  | .clz d a => Sys2Proof.Machine.execClz d a s
  | .popc d a => Sys2Proof.Machine.execPopc d a s
  | .min d a b => Sys2Proof.Machine.execMin d a b s
  | .max d a b => Sys2Proof.Machine.execMax d a b s
  | .minn d a b => Sys2Proof.Machine.execMinn d a b s
  | .maxn d a b => Sys2Proof.Machine.execMaxn d a b s
  | .mov d a => Sys2Proof.Machine.execMov d a s
  | .sel d n a b => Sys2Proof.Machine.execSel d n a b s
  | .lea d a b sh => Sys2Proof.Machine.execLea d a b sh s
  | .cmp n cc a b => Sys2Proof.Machine.execCmp n cc a b s
  | .cset n a => Sys2Proof.Machine.execCset n a s
  | .cget d n => Sys2Proof.Machine.execCget d n s
  | .addi d a imm => Sys2Proof.Machine.execAddi d a imm s
  | .andi d a imm => Sys2Proof.Machine.execAndi d a imm s
  | .ori d a imm => Sys2Proof.Machine.execOri d a imm s
  | .xori d a imm => Sys2Proof.Machine.execXori d a imm s
  | .shli d a sh => Sys2Proof.Machine.execShli d a sh s
  | .shri d a sh => Sys2Proof.Machine.execShri d a sh s
  | .srai d a sh => Sys2Proof.Machine.execSrai d a sh s
  | .movi d imm => Sys2Proof.Machine.execMovi d imm s
  | .movh d imm => Sys2Proof.Machine.execMovh d imm s
  | .cmpi n cc a imm => Sys2Proof.Machine.execCmpi n cc a imm s
  | .ext d a pos len signed => Sys2Proof.Machine.execExt d a pos len signed s
  | .ldk d idx => Sys2Proof.Machine.execLdk d idx s
  | .ld8 d a ord off => Sys2Proof.Machine.execLd8 d a ord off s
  | .ld16 d a ord off => Sys2Proof.Machine.execLd16 d a ord off s
  | .ld32 d a ord off => Sys2Proof.Machine.execLd32 d a ord off s
  | .ld64 d a ord off => Sys2Proof.Machine.execLd64 d a ord off s
  | .st8 d a ord off => Sys2Proof.Machine.execSt8 d a ord off s
  | .st16 d a ord off => Sys2Proof.Machine.execSt16 d a ord off s
  | .st32 d a ord off => Sys2Proof.Machine.execSt32 d a ord off s
  | .st64 d a ord off => Sys2Proof.Machine.execSt64 d a ord off s
  | .atm d a b op wide sc => Sys2Proof.Machine.execAtm d a b op wide sc s
  | .br n sense off => Sys2Proof.Machine.execBr n sense off s
  | .jmp off => Sys2Proof.Machine.execJmp off s
  | .call off => Sys2Proof.Machine.execCall off s
  | .loop d off => Sys2Proof.Machine.execLoop d off s
  | .jr a => Sys2Proof.Machine.execJr a s
  | .ret => Sys2Proof.Machine.execRet s
  | .nop => Sys2Proof.Machine.execNop s
  | .exit => Sys2Proof.Machine.execExit s
  | .region idx => Sys2Proof.Machine.execRegion idx s
  | .lrun e => Sys2Proof.Machine.execLrun e s
  | .lloopN e tk => Sys2Proof.Machine.execLloopN e tk s
  | .lloopAny e tk tm => Sys2Proof.Machine.execLloopAny e tk tm s
  | .lsync => Sys2Proof.Machine.execLsync s
  | .vget d n => Sys2Proof.Machine.execVget d n s
  | .votew d n => Sys2Proof.Machine.execVotew d n s
  | .split d n w => Sys2Proof.Machine.execSplit d n w s
  | .fuse a => Sys2Proof.Machine.execFuse a s
  | .width d => Sys2Proof.Machine.execWidth d s
  | .talloc d a b => Sys2Proof.Machine.execTalloc d a b s
  | .tfree a => Sys2Proof.Machine.execTfree a s
  | .thand d a b => Sys2Proof.Machine.execThand d a b s
  | .ttake d a => Sys2Proof.Machine.execTtake d a s
  | .tzero a => Sys2Proof.Machine.execTzero a s
  | .tcopy d a => Sys2Proof.Machine.execTcopy d a s
  | .tileOpPerform crew pos => Sys2Proof.Machine.execTileOpPerform crew pos s
  | .mbeamTile d a b set => Sys2Proof.Machine.execMbeamTile d a b set s
  | .mbeamMem d a b set => Sys2Proof.Machine.execMbeamMem d a b set s
  | .mloopMem d a b set keep drop => Sys2Proof.Machine.execMloopMem d a b set keep drop s
  | .mloopTile d a b set keep drop => Sys2Proof.Machine.execMloopTile d a b set keep drop s
  | .mstep a b set keep drop => Sys2Proof.Machine.execMstep a b set keep drop s
  | .mcvt d a b => Sys2Proof.Machine.execMcvt d a b s
  | .mperm n a => Sys2Proof.Machine.execMperm n a s
  | .mcode n a => Sys2Proof.Machine.execMcode n a s
  | .loomOpStart core set => Sys2Proof.Machine.execLoomOpStart core set s
  | .loomRowCommit core set ecc => Sys2Proof.Machine.execLoomRowCommit core set ecc s
  | .loomOpComplete core set => Sys2Proof.Machine.execLoomOpComplete core set s
  | .cpy d a b => Sys2Proof.Machine.execCpy d a b s
  | .cpyg d a b => Sys2Proof.Machine.execCpyg d a b s
  | .cpyz d a b => Sys2Proof.Machine.execCpyz d a b s
  | .mupd d a b => Sys2Proof.Machine.execMupd d a b s
  | .copyLineWrite id => Sys2Proof.Machine.execCopyLineWrite id s
  | .copyEnd id => Sys2Proof.Machine.execCopyEnd id s
  | .coll d a b m => Sys2Proof.Machine.execColl d a b m s
  | .fwait d a => Sys2Proof.Machine.execFwait d a s
  | .ftest n a => Sys2Proof.Machine.execFtest n a s
  | .fcan a => Sys2Proof.Machine.execFcan a s
  | .fsto d a => Sys2Proof.Machine.execFsto d a s
  | .fldf d a => Sys2Proof.Machine.execFldf d a s
  | .bar => Sys2Proof.Machine.execBar s
  | .barn n a => Sys2Proof.Machine.execBarn n a s
  | .barnArrive n a => Sys2Proof.Machine.execBarnArrive n a s
  | .fence kind sc => Sys2Proof.Machine.execFence kind sc s
  | .launch d a => Sys2Proof.Machine.execLaunch d a s
  | .ljoin => Sys2Proof.Machine.execLjoin s
  | .pwrq d a => Sys2Proof.Machine.execPwrq d a s
  | .bcn sys a => Sys2Proof.Machine.execBcn sys a s
  | .srd d r => Sys2Proof.Machine.execSrd d r s
  | .swr d r => Sys2Proof.Machine.execSwr d r s
  | .trap imm => Sys2Proof.Machine.execTrap imm s
  | .eret => Sys2Proof.Machine.execEret s
  | .eretSkip => Sys2Proof.Machine.execEretSkip s
  | .lget d mask n => Sys2Proof.Machine.execLget d mask n s
  | .lset d mask n => Sys2Proof.Machine.execLset d mask n s
  | .yield => Sys2Proof.Machine.execYield s
  | .brk imm => Sys2Proof.Machine.execBrk imm s
  | .pairedLaneWord h0 h1 => Sys2Proof.Machine.execPairedLaneWord h0 h1 s
  | .vadd o => Sys2Proof.Machine.execVadd o s
  | .vsub o => Sys2Proof.Machine.execVsub o s
  | .vmul o => Sys2Proof.Machine.execVmul o s
  | .vmulh o => Sys2Proof.Machine.execVmulh o s
  | .vmad o => Sys2Proof.Machine.execVmad o s
  | .vand o => Sys2Proof.Machine.execVand o s
  | .vor o => Sys2Proof.Machine.execVor o s
  | .vxor o => Sys2Proof.Machine.execVxor o s
  | .vandn o => Sys2Proof.Machine.execVandn o s
  | .vshl o => Sys2Proof.Machine.execVshl o s
  | .vshr o => Sys2Proof.Machine.execVshr o s
  | .vsra o => Sys2Proof.Machine.execVsra o s
  | .vmin o => Sys2Proof.Machine.execVmin o s
  | .vmax o => Sys2Proof.Machine.execVmax o s
  | .vclz o => Sys2Proof.Machine.execVclz o s
  | .vpopc o => Sys2Proof.Machine.execVpopc o s
  | .vbrev o => Sys2Proof.Machine.execVbrev o s
  | .vbfx o => Sys2Proof.Machine.execVbfx o s
  | .vbfi o => Sys2Proof.Machine.execVbfi o s
  | .vsel o => Sys2Proof.Machine.execVsel o s
  | .vmov o => Sys2Proof.Machine.execVmov o s
  | .vcmp o => Sys2Proof.Machine.execVcmp o s
  | .vlane o => Sys2Proof.Machine.execVlane o s
  | .vfadd o => Sys2Proof.Machine.execVfadd o s
  | .vfsub o => Sys2Proof.Machine.execVfsub o s
  | .vfmul o => Sys2Proof.Machine.execVfmul o s
  | .vfma o => Sys2Proof.Machine.execVfma o s
  | .vfmin o => Sys2Proof.Machine.execVfmin o s
  | .vfmax o => Sys2Proof.Machine.execVfmax o s
  | .vfcmp o => Sys2Proof.Machine.execVfcmp o s
  | .vfrnd o => Sys2Proof.Machine.execVfrnd o s
  | .vfrcp o => Sys2Proof.Machine.execVfrcp o s
  | .vfrsq o => Sys2Proof.Machine.execVfrsq o s
  | .vfsqrt o => Sys2Proof.Machine.execVfsqrt o s
  | .vfex2 o => Sys2Proof.Machine.execVfex2 o s
  | .vflg2 o => Sys2Proof.Machine.execVflg2 o s
  | .vfsin o => Sys2Proof.Machine.execVfsin o s
  | .vfcos o => Sys2Proof.Machine.execVfcos o s
  | .vftnh o => Sys2Proof.Machine.execVftnh o s
  | .vhadd o => Sys2Proof.Machine.execVhadd o s
  | .vhmul o => Sys2Proof.Machine.execVhmul o s
  | .vhfma o => Sys2Proof.Machine.execVhfma o s
  | .vhdot o => Sys2Proof.Machine.execVhdot o s
  | .vqdot o => Sys2Proof.Machine.execVqdot o s
  | .vcvt o => Sys2Proof.Machine.execVcvt o s
  | .vcbx o => Sys2Proof.Machine.execVcbx o s
  | .vcbq o => Sys2Proof.Machine.execVcbq o s
  | .mand o => Sys2Proof.Machine.execMand o s
  | .mor o => Sys2Proof.Machine.execMor o s
  | .mxor o => Sys2Proof.Machine.execMxor o s
  | .mnot o => Sys2Proof.Machine.execMnot o s
  | .mmov o => Sys2Proof.Machine.execMmov o s
  | .mpush o => Sys2Proof.Machine.execMpush o s
  | .melse o => Sys2Proof.Machine.execMelse o s
  | .mpop o => Sys2Proof.Machine.execMpop o s
  | .mbreak o => Sys2Proof.Machine.execMbreak o s
  | .vote o => Sys2Proof.Machine.execVote o s
  | .vsend o => Sys2Proof.Machine.execVsend o s
  | .vshf o => Sys2Proof.Machine.execVshf o s
  | .vprm o => Sys2Proof.Machine.execVprm o s
  | .vptld o => Sys2Proof.Machine.execVptld o s
  | .vred o => Sys2Proof.Machine.execVred o s
  | .vscn o => Sys2Proof.Machine.execVscn o s
  | .vmatch o => Sys2Proof.Machine.execVmatch o s
  | .vld o => Sys2Proof.Machine.execVld o s
  | .vst o => Sys2Proof.Machine.execVst o s
  | .vlds o => Sys2Proof.Machine.execVlds o s
  | .vsts o => Sys2Proof.Machine.execVsts o s
  | .vldm o => Sys2Proof.Machine.execVldm o s
  | .vstm o => Sys2Proof.Machine.execVstm o s
  | .vatm o => Sys2Proof.Machine.execVatm o s
  | .vatms o => Sys2Proof.Machine.execVatms o s
  | .vatmm o => Sys2Proof.Machine.execVatmm o s
  | .vpre o => Sys2Proof.Machine.execVpre o s
  | .waitc o => Sys2Proof.Machine.execWaitc o s
  | .vdec o => Sys2Proof.Machine.execVdec o s
  | .vrng o => Sys2Proof.Machine.execVrng o s
  | .vtld o => Sys2Proof.Machine.execVtld o s
  | .vtst o => Sys2Proof.Machine.execVtst o s
  | .laneEntryStart c => Sys2Proof.Machine.execLaneEntryStart c s
  | .loopTripTest c => Sys2Proof.Machine.execLoopTripTest c s
  | .loadReturn c p => Sys2Proof.Machine.execLoadReturn c p s
  | .laneRetire c => Sys2Proof.Machine.execLaneRetire c s
  | .skeinEnd c => Sys2Proof.Machine.execSkeinEnd c s
  | .takeTrap c => Sys2Proof.Machine.execTakeTrap c s
  | .crewFault c => Sys2Proof.Machine.execCrewFault c s
  | .fetchSwapOut c => Sys2Proof.Machine.execFetchSwapOut c s
  | .translationWalk die pos => Sys2Proof.Machine.execTranslationWalk die pos s
  | .sgbIdleDrain core line => Sys2Proof.Machine.execSgbIdleDrain core line s
  | .mergeWindowExpiry line => Sys2Proof.Machine.execMergeWindowExpiry line s
  | .hbmReadReturn line => Sys2Proof.Machine.execHbmReadReturn line s
  | .leaveGrant die => Sys2Proof.Machine.execLeaveGrant die s
  | .collSendAck op => Sys2Proof.Machine.execCollSendAck op s
  | .fabricPacketReceive p => Sys2Proof.Machine.execFabricPacketReceive p s
  | .collPartialArrival p => Sys2Proof.Machine.execCollPartialArrival p s
  | .reduceCrewDispatch ctr => Sys2Proof.Machine.execReduceCrewDispatch ctr s
  | .collLateTimeout ctr => Sys2Proof.Machine.execCollLateTimeout ctr s
  | .collFailTimeout ctr => Sys2Proof.Machine.execCollFailTimeout ctr s
  | .collStepEnd op => Sys2Proof.Machine.execCollStepEnd op s
  | .launchSlotWrite fn window slot off bytes => Sys2Proof.Machine.execLaunchSlotWrite fn window slot off bytes s
  | .commissionEnterTable => Sys2Proof.Machine.execCommissionEnterTable s
  | .commissionAdmit => Sys2Proof.Machine.execCommissionAdmit s
  | .crewPlace => Sys2Proof.Machine.execCrewPlace s
  | .coopReserve => Sys2Proof.Machine.execCoopReserve s
  | .commissionRetire k => Sys2Proof.Machine.execCommissionRetire k s
  | .completionRecordWrite k => Sys2Proof.Machine.execCompletionRecordWrite k s
  | .multiPacketReplica key packet => Sys2Proof.Machine.execMultiPacketReplica key packet s
  | .startBarrierComplete group gen => Sys2Proof.Machine.execStartBarrierComplete group gen s
  | .startBarrierTimeout group refusedGen => Sys2Proof.Machine.execStartBarrierTimeout group refusedGen s
  | .slotTableWrite core off v => Sys2Proof.Machine.execSlotTableWrite core off v s
  | .slotTableTakeEffect core => Sys2Proof.Machine.execSlotTableTakeEffect core s
  | .preemptBudgetExpiry crew => Sys2Proof.Machine.execPreemptBudgetExpiry crew s
  | .crewSave crew => Sys2Proof.Machine.execCrewSave crew s
  | .crewRestore saved => Sys2Proof.Machine.execCrewRestore saved s
  | .withdraw fn => Sys2Proof.Machine.execWithdraw fn s
  | .abort fn => Sys2Proof.Machine.execAbort fn s
  | .preempt fn => Sys2Proof.Machine.execPreempt fn s
  | .restore fn => Sys2Proof.Machine.execRestore fn s
  | .invalidate fn => Sys2Proof.Machine.execInvalidate fn s
  | .pageResponse fn => Sys2Proof.Machine.execPageResponse fn s
  | .commSetup fn => Sys2Proof.Machine.execCommSetup fn s
  | .commSetupTimeout handle => Sys2Proof.Machine.execCommSetupTimeout handle s
  | .commFree fn => Sys2Proof.Machine.execCommFree fn s
  | .benchStopSpread bench => Sys2Proof.Machine.execBenchStopSpread bench s
  | .beaconArrival bench pos => Sys2Proof.Machine.execBeaconArrival bench pos s
  | .traceBranchFlush c => Sys2Proof.Machine.execTraceBranchFlush c s
  | .tracePacketWrite bench => Sys2Proof.Machine.execTracePacketWrite bench s
  | .assayRecord bench => Sys2Proof.Machine.execAssayRecord bench s
  | .malformedCommand fn => Sys2Proof.Machine.execMalformedCommand fn s
  | .ringHeadWrite die faultRing v => Sys2Proof.Machine.execRingHeadWrite die faultRing v s
  | .savepush die addr => Sys2Proof.Machine.execSavepush die addr s
  | .errorCounterClear die => Sys2Proof.Machine.execErrorCounterClear die s
  | .attestationRequest nonce addr => Sys2Proof.Machine.execAttestationRequest nonce addr s
  | .shareWrite die watts => Sys2Proof.Machine.execShareWrite die watts s
  | .msixUnmask fn vec => Sys2Proof.Machine.execMsixUnmask fn vec s
  | .bar4Read off len => Sys2Proof.Machine.execBar4Read off len s
  | .bar4Write off bytes => Sys2Proof.Machine.execBar4Write off bytes s
  | .registerWrite fn off v => Sys2Proof.Machine.execRegisterWrite fn off v s
  | .functionLevelReset fn => Sys2Proof.Machine.execFunctionLevelReset fn s
  | .moduleReset stages => Sys2Proof.Machine.execModuleReset stages s
  | .powerClamp => Sys2Proof.Machine.execPowerClamp s
  | .powerClampEnd => Sys2Proof.Machine.execPowerClampEnd s
  | .thermalTrip => Sys2Proof.Machine.execThermalTrip s
  | .patrolScrub die kind addr found => Sys2Proof.Machine.execPatrolScrub die kind addr found s
  | .dbgStop bench => Sys2Proof.Machine.execDbgStop bench s
  | .dbgResume bench => Sys2Proof.Machine.execDbgResume bench s
  | .dbgDump bench => Sys2Proof.Machine.execDbgDump bench s
  | .trrptrWrite bench v => Sys2Proof.Machine.execTrrptrWrite bench v s
  | .asrptrWrite bench v => Sys2Proof.Machine.execAsrptrWrite bench v s
  | .asseedWrite bench v => Sys2Proof.Machine.execAsseedWrite bench v s
  | .systemSoftwareCopy addr bytes => Sys2Proof.Machine.execSystemSoftwareCopy addr bytes s
  | .debugRead addr len => Sys2Proof.Machine.execDebugRead addr len s
  | .linkRetry die => Sys2Proof.Machine.execLinkRetry die s
  | .linkLost die => Sys2Proof.Machine.execLinkLost die s

end Sys2Proof.Machine
end

