-- ==== Sys2Proof/Machine/Late.lean ====
section
/-! DEFINITION. Accesses of skeins that issue in program order and are performed after later ones (12 R330, R334, R337, R340, R345; log 81). -/

namespace Sys2Proof.Machine

/-! ## The words that access memory -/

/-- A scalar word that accesses memory. -/
inductive MemWord
  | load (d a : KReg) (ord : LdOrder) (off : Lit 9) (n : Nat)
  | store (d a : KReg) (ord : StOrder) (off : Lit 9) (n : Nat)
  | atomic (d a b : KReg) (op : AtmOp) (n : Nat)
  deriving DecidableEq, Repr

/-- The scalar access that an instruction is. -/
def memWord (i : Instr) : Option MemWord :=
  match i with
  | .ld8 d a ord off => some (.load d a ord off 1)
  | .ld16 d a ord off => some (.load d a ord off 2)
  | .ld32 d a ord off => some (.load d a ord off 4)
  | .ld64 d a ord off => some (.load d a ord off 8)
  | .st8 d a ord off => some (.store d a ord off 1)
  | .st16 d a ord off => some (.store d a ord off 2)
  | .st32 d a ord off => some (.store d a ord off 4)
  | .st64 d a ord off => some (.store d a ord off 8)
  | .atm d a b op wide _ => some (.atomic d a b op (if wide then 8 else 4))
  | _ => none

/-- The k-registers that an access reads or writes. -/
def MemWord.regs : MemWord → List KReg
  | .load d a _ _ _ => [d, a]
  | .store d a _ _ _ => [d, a]
  | .atomic d a b _ _ => [d, a, b]

/-- The number of its bytes. -/
def MemWord.size : MemWord → Nat
  | .load _ _ _ _ n | .store _ _ _ _ n | .atomic _ _ _ _ n => n

/-- The state once an access of the executing context has passed its checks, and the storage address that it reaches. -/
def State.memPlace (s : State) (m : MemWord) : Option (State × Nat) :=
  let at_ (va kind : Nat) (u : PageUse) (atomic : Bool) : Option (State × Nat) :=
    match s.reach s.cur va m.size m.size kind u atomic with
    | .ok s1 a _ => some (s1, a)
    | .wait _ | .trap _ _ => none
  match m with
  | .load _ a _ off _ => at_ (s.effAddr a off) 0 .read false
  | .store _ a _ off _ => at_ (s.effAddr a off) 1 .write false
  | .atomic _ a _ _ _ => at_ (s.kv a).toNat 2 .write true

/-- The active lanes with the storage addresses that they reach, where every one of them passes its checks and none waits; and the state
after their translations. -/
def State.lanePlaces (s : State) (o : LaneOp) (f : MemForm) : Option (State × List (Nat × Nat)) :=
  let vas := (lanesIn s.w (s.act o.msel)).map fun l => (l, s.addrOf o l)
  let (s1, xs) := s.xlatePages s.cur f.kind (lanePages s.myCrew f (vas.map (·.2)))
  let ready := vas.filterMap fun p => match laneChk s.myCrew s1.myComm.tenant f xs p.2 with
    | .pass a _ => if s1.lineWait s1.cur a f.plain then none else some (p.1, a)
    | .hold | .fail _ => none
  if ready.length = vas.length then some (s1, ready) else none

/-! ## What a word names and reaches -/

/-- The k-registers of a scalar word that touches nothing but these, condition bits and the PC. -/
def plainWord (i : Instr) : Option (List KReg) :=
  match i with
  | .add d a b | .sub d a b | .mul d a b | .mulh d a b | .mulhn d a b | .div d a b | .divn d a b | .rem d a b | .remn d a b
  | .and d a b | .or d a b | .xor d a b | .andn d a b | .shl d a b | .shr d a b | .sra d a b | .min d a b | .max d a b
  | .minn d a b | .maxn d a b | .lea d a b _ | .sel d _ a b => some [d, a, b]
  | .clz d a | .popc d a | .mov d a | .addi d a _ | .andi d a _ | .ori d a _ | .xori d a _ | .shli d a _ | .shri d a _ | .srai d a _
  | .ext d a _ _ _ => some [d, a]
  | .cmp _ _ a b => some [a, b]
  | .cmpi _ _ a _ | .cset _ a | .jr a => some [a]
  | .cget d _ | .movi d _ | .movh d _ | .ldk d _ | .loop d _ => some [d]
  | .call _ | .ret => some [63]
  | .br _ _ _ | .jmp _ | .nop => some []
  | _ => none

/-- A word that orders what its skein has issued before it against what follows: its scope, and whether it concerns reads only, as an
acquire fence does (R336). -/
def orderWord (i : Instr) : Option (Scope × Bool) :=
  match i with
  | .fence kind sc => some (sc, !fenceRel kind)
  | .st8 _ _ (.rel sc) _ | .st16 _ _ (.rel sc) _ | .st32 _ _ (.rel sc) _ | .st64 _ _ (.rel sc) _ => some (sc, false)
  | _ => none

/-- What a word names and reaches: k-registers; v-registers; and the places of its accesses that are
performed as it issues. -/
structure Touch where
  k : List KReg
  v : List Nat
  places : List (Nat × Nat)
  deriving DecidableEq, Repr

/-- What a scalar word names and reaches; none for a word that every access before it precedes. -/
def State.scalarReach (s : State) (i : Instr) : Option Touch :=
  match memWord i, plainWord i, i with
  | some m, _, _ => (s.memPlace m).map fun p => { k := m.regs, v := [], places := [(p.2, m.size)] }
  | none, some ks, _ => some { k := ks, v := [], places := [] }
  | none, none, .fence _ _ => some { k := [], v := [], places := [] }
  | none, none, _ => none

/-- What a lane word names and reaches. The halves of packed pairs at an L2 slice wait in their turn, in their order. -/
def State.laneReach (s : State) (i : Instr) : Option Touch :=
  match laneMem i, i with
  | some (o, f), _ => (s.lanePlaces o f).map fun p =>
    { k := [], v := laneReads i ++ laneWrites i, places := (p.2.filter fun q => !(f.kind = 2 && splitPair o q.2)).map fun q => (q.2, f.n) }
  | none, .vdec _ | none, .waitc _ => none
  | none, _ => some { k := [], v := laneReads i ++ laneWrites i, places := [] }

/-- An access that waits is a release, a store to the host-link window, one that reads, one that writes, or a run of updates that has
begun. -/
def LateOp.isRel (o : LateOp) : Bool :=
  match o.act with
  | .store _ r => r.isSome
  | _ => false
def LateOp.hostStore (o : LateOp) : Bool :=
  match o.act with
  | .store _ _ => regionOf o.addr = .host
  | _ => false
def LateOp.reads (o : LateOp) : Bool :=
  match o.act with
  | .store _ _ => false
  | _ => true
def LateOp.writes (o : LateOp) : Bool :=
  match o.act with
  | .load _ _ | .fill _ _ _ _ _ => false
  | _ => true
def LateOp.opened (o : LateOp) : Bool :=
  match o.act with
  | .update _ _ b => b
  | _ => false

/-- An access that waits shares no register and no byte with a word, and is no store that leaves for the host before an access of the word
(R311, R334). -/
def LateOp.apart (o : LateOp) (r : Touch) : Bool :=
  (o.kDst.all fun d => !r.k.contains d)
    && (o.vDst.all fun d => !r.v.contains d)
    && r.places.all fun p => !overlaps o.addr o.size p.1 p.2 && !(o.hostStore && regionOf p.1 = .host)

/-! ## Performing what waits -/

/-- A k-register is written, by the word that has issued; a stopped bench holds the write back (R427). -/
def State.putK (s : State) (c : Nat) (word : Issued) (d : KReg) (v : W64) : State :=
  if (s.bench (benchOf c)).stopped then s.holdWrite c 0 d.toNat v word else s.setCtx c (kSet (s.ctx c) d.toNat v)

/-- An access that waits is performed, with the values that are there now. -/
def State.performOne (s : State) (o : LateOp) : State :=
  match o.act with
  | .load d plain =>
    let r := s.loadBytes (coreOf o.ctx) o.addr o.size plain
    r.1.putK o.ctx o.word d (BitVec.ofNat 64 (leNat r.2))
  | .store bytes rel =>
    let s1 := if rel.any scopeDie then s.sgbDrainCore (coreOf o.ctx) else s
    (s1.keepMine o.ctx o.addr bytes.length).write o.addr bytes
  | .atomic d op b cmp =>
    let r := s.rmw o.ctx o.addr o.size fun old => atmNew op (8 * o.size) old b cmp
    r.1.putK o.ctx o.word d (BitVec.ofNat 64 r.2)
  | .fill lane dst t n plain =>
    let s1 := if regionOf o.addr = .hbm then s.touchLines (coreOf o.ctx) plain [lineOf o.addr] else s
    putRegs s1 o.ctx o.word lane dst (loadRegs t n (s.peek (coreOf o.ctx) o.addr o.size plain))
  | .update _ _ _ => s.applyUpdates o

/-- Those that a test chooses are performed, those that come before what their skeins have issued since first, and each part in order. -/
def State.performSome (s : State) (p : LateOp → Bool) : State :=
  let go := s.late.filter p
  ((go.filter (·.scope.isSome)) ++ go.filter (·.scope.isNone)).foldl State.performOne { s with late := s.late.filter fun o => !p o }

/-- All are. -/
def State.performLate (s : State) : State := s.performSome fun _ => true

/-- The access at a place among those that wait may be performed: of its context nothing earlier reaches its bytes or comes before it as a
release; no agent that its scope reaches may see it before one that waits; and no run of updates that has begun at its bytes waits for more
(R330, R334, R338). -/
def State.mayPerform (s : State) (n : Nat) (o : LateOp) (sees : LateOp → Bool) : Bool :=
  ((s.late.take n).all fun p => decide (p.ctx ≠ o.ctx) || !(overlaps p.addr p.size o.addr o.size || o.isRel))
    && (s.late.all fun p => !sees p)
    && (s.late.eraseIdx n).all fun p => !(p.opened && o.writes && overlaps p.addr p.size o.addr o.size)

/-- It is performed; of the updates at one element only the first lanes', at least one. -/
def State.performAt (s : State) (n k : Nat) (o : LateOp) : State :=
  match o.act with
  | .update u lanes _ =>
    let rest := lanes.drop (k + 1)
    let s1 := s.applyUpdates { o with act := .update u (lanes.take (k + 1)) true }
    if rest = [] then { s1 with late := s1.late.eraseIdx n } else { s1 with late := listSet s1.late n { o with act := .update u rest true } }
  | .load _ _ | .store _ _ | .atomic _ _ _ _ | .fill _ _ _ _ _ => State.performOne { s with late := s.late.eraseIdx n } o

/-! ## What a turn does not leave waiting -/

/-- The word of a context's stream goes through as far as its turn brings it: it takes no trap, and its bench runs. -/
def wentOn (s t : State) : Bool :=
  decide (t.me.handler = s.me.handler) && t.me.pend.isNone && !(t.bench (benchOf s.cur)).stopped

/-- The next word of a context's stream may go before those of the context that wait (R334). -/
def State.overtakes (s : State) (c : Nat) (lane : Bool) : Bool :=
  match (if lane then s.nextLane c else s.nextScalar c) with
  | .instr s1 i =>
    let u := { s1 with cur := c }
    (match (if lane then u.laneReach i else u.scalarReach i) with
      | some r => (s.late.filter fun o => o.ctx = c).all (·.apart r) && (match exec i u with
        | .next t => wentOn u t
        | .fault _ | .refused _ => false)
      | none => false)
  | .wait _ => true
  | .trap _ _ => false

/-- The word that a context's scalar stream presents. -/
def State.nextIs (s : State) (c : Nat) (p : Instr → Bool) : Bool :=
  match s.nextScalar c with
  | .instr _ i => p i
  | .wait _ | .trap _ _ => false

/-- A word of the copy family: it takes lines that an access which waits must have reached before (R310). -/
def isCopyWord (i : Instr) : Bool :=
  match i with
  | .cpy _ _ _ | .cpyg _ _ _ | .cpyz _ _ _ | .mupd _ _ _ => true
  | _ => false

/-- A turn writes no memory: updates at one element may stand begun through it (R330). -/
def State.mild (s : State) (t : Turn) : Bool :=
  match t with
  | .scalar c | .late c => s.nextIs c fun i => (plainWord i).isSome || (match memWord i with
    | some (.load _ _ _ _ _) => true
    | _ => false)
  | .lane c | .lateLane c => (match s.nextLane c with
    | .instr _ (.waitc _) => false
    | .instr _ i => (laneMem i).all fun p => p.2.kind = 0
    | .wait _ => true
    | .trap _ _ => false)
  | .idle | .cycle _ | .perform _ _ => true
  | .event _ | .hostMem _ _ | .steward _ _ _ => false

/-- The crew index of the skein at split depth 0 from which a context's descends (R335, R371). -/
def State.rootIndex (s : State) (c : Nat) : Nat :=
  match (s.ctx c).splits.getLast? with
  | some l => (smGet Family.empty s.families l.family).index
  | none => (s.ctx c).index

/-- Two contexts' skeins descend from one skein at split depth 0 (R335). -/
def State.oneFamily (s : State) (c d : Nat) : Bool :=
  decide ((s.ctx c).crew = (s.ctx d).crew) && decide (s.rootIndex c = s.rootIndex d)

/-- A scope of a skein reaches the skein of another context (R335). -/
def State.reaches (s : State) (c : Nat) (sc : Scope) (d : Nat) : Bool :=
  decide (d ≠ c) && match sc with
    | .skein => s.oneFamily c d
    | .crew => decide ((s.ctx c).crew = (s.ctx d).crew)
    | .core => decide (coreOf c = coreOf d)
    | .die => decide (dieOf c = dieOf d)
    | .dev | .sys => true

/-- A turn is one of an agent that the scope of an access reaches: what follows the access in its skein may not be seen before it
(R338). -/
def State.seenIn (s : State) (t : Turn) (o : LateOp) : Bool :=
  o.scope.any fun sc => match t with
    | .scalar d | .late d | .lane d | .lateLane d => s.reaches o.ctx sc d
    | .event _ => scopeDie sc
    | .hostMem _ _ | .steward _ _ _ => decide (sc = .sys)
    | .idle | .cycle _ | .perform _ _ => false

/-- Steps of the device that leave waiting what a skein has issued: those of other agents, and those that make no difference to it. -/
def State.leavesWaiting (s : State) (i : Instr) : Bool :=
  match i with
  | .sgbIdleDrain _ _ | .hbmReadReturn _ | .mergeWindowExpiry _ | .translationWalk _ _ | .leaveGrant _ | .laneRetire _ | .laneEntryStart _
  | .loopTripTest _ | .traceBranchFlush _ | .tracePacketWrite _ | .assayRecord _ | .beaconArrival _ _ | .dbgStop _ | .benchStopSpread _
  | .dbgDump _ | .loomOpStart _ _ | .loomRowCommit _ _ _ | .loomOpComplete _ _ | .copyEnd _ | .collSendAck _ | .fabricPacketReceive _
  | .collPartialArrival _ | .reduceCrewDispatch _ | .collLateTimeout _ | .collFailTimeout _ | .collStepEnd _ | .slotTableWrite _ _ _
  | .slotTableTakeEffect _ => true
  | .copyLineWrite id => s.copies.all fun y => decide (y.id ≠ id) || !y.again
  | .loadReturn _ _ => true
  | _ => false

/-- An access that waits is performed before a turn. -/
def State.goesBefore (s : State) (t : Turn) (o : LateOp) : Bool :=
  (o.opened && !s.mild t) || match t with
    | .scalar c | .late c => s.nextIs c isCopyWord || (decide (o.ctx = c) && !s.overtakes c false)
    | .lane c | .lateLane c => decide (o.ctx = c) && !s.overtakes c true
    | .event (.loadReturn c _) => decide (o.ctx = c)
    | .event i => !s.leavesWaiting i
    | .idle | .hostMem _ _ | .steward _ _ _ | .cycle _ | .perform _ _ => false

/-- The wider of two scopes. -/
def scopeRank : Scope → Nat
  | .skein => 0 | .crew => 1 | .core => 2 | .die => 3 | .dev => 4 | .sys => 5
def widerScope (sc : Scope) : Option Scope → Option Scope
  | none => some sc
  | some q => some (if scopeRank q < scopeRank sc then sc else q)

/-- A release or a fence that a context's scalar stream presents orders what waits of the context before what follows (R336). -/
def State.orderBefore (s : State) (t : Turn) (o : LateOp) : LateOp :=
  match t with
  | .scalar c | .late c =>
    (match s.nextScalar c with
      | .instr _ i => (match orderWord i with
        | some (sc, readsOnly) => if decide (o.ctx = c) && (o.reads || !readsOnly) then { o with scope := widerScope sc o.scope } else o
        | none => o)
      | .wait _ | .trap _ _ => o)
  | _ => o

/-- What waits when a turn comes: performed are, first, the accesses that the turn's agent must not see late, then those that come before
the turn itself. -/
def State.passLate (s : State) (t : Turn) : State :=
  if s.late.isEmpty then s
  else
    let s1 := s.performSome (s.seenIn t)
    let s2 := s1.performSome (s1.goesBefore t)
    { s2 with late := s2.late.map (s2.orderBefore t) }

/-! ## Executing a word -/

/-- A word executes; where it has issued, the registers that it writes hold no error any more (R449). -/
def State.cleanRegs (s t : State) (i : Instr) : State :=
  if s.ms.badRegs.isEmpty then t
  else
    let ks := if t.me.pc = s.me.pc then [] else (scalarWrites i).map (kWord s.cur)
    let vs := if t.me.unret.length ≤ s.me.unret.length then [] else vWords s.me s.cur (lanesIn s.w (s.act (rOf (wordSel i)))) (laneWrites i)
    t.cleanWords (ks ++ vs)
def State.runInstr (s : State) (i : Instr) : Out :=
  match exec i s with
  | .next t => .next (s.cleanRegs t i)
  | r => r

/-! ## A word that waits -/

/-- The count of an access that waits lets the scalar stream go on. -/
def goOn (x : Skein) : Skein := { x with out := x.out.map fun o => { o with holds := false } }

/-- A scalar access issues and is performed later, where it passes its checks now; a store to HBM waits in the buffer instead (R311). Its
register keeps its value until then: no word that names it goes first. -/
def State.issueLate (s : State) (i : Instr) (m : MemWord) : Out :=
  match s.memPlace m, s.runInstr i with
  | some (s1, a), .next t =>
    let wait (u : State) (act : LateAct) (scope : Option Scope) : Out :=
      .next { t.setMe (goOn { t.me with k := s.me.k }) with
        mem := u.mem, ms := { u.ms with badRegs := t.ms.badRegs }, late := t.late ++ [{ ctx := s.cur, word := ⟨s.me.pc, s.dev.cycle⟩, addr := a, size := m.size, act, scope }] }
    if t.me.pc = s.me.pc || !wentOn s t then .next t
    else match m with
      | .load d _ ord _ _ => wait (s1.acquireAt ord) (.load d (isPlain ord)) (match ord with
        | .acq sc => some sc
        | _ => none)
      | .store d _ ord _ n =>
        if regionOf a = .hbm then .next t
        else (match ord with
          | .plain => wait s1 (.store (leBytes n (s.kv d).toNat) none) none
          | .rel sc => wait (s1.releaseAt sc) (.store (leBytes n (s.kv d).toNat) (some sc)) none)
      | .atomic d _ b op n => wait s1 (.atomic d op ((s.kv b).toNat % 2 ^ (8 * n)) ((s.kv d).toNat % 2 ^ (8 * n))) none
  | _, r => r

/-- What the lanes of a memory word will do: each lane of a load and of a store by itself, an atomic's updates by elements. -/
def State.laneLate (s : State) (o : LaneOp) (f : MemForm) (ready : List (Nat × Nat)) : List LateOp :=
  let one (a : Nat) (act : LateAct) : LateOp := { ctx := s.cur, word := s.laneIssued, addr := a, size := f.n, act, scope := none }
  match f.kind with
  | 0 => ready.map fun q => one q.2 (.fill q.1 o.dst.toNat o.ty (cntOf (immBits o 15 14)) f.plain)
  | 1 => ready.map fun q => one q.2 (.store (s.storeData o q.1) none)
  | _ => s.updates o none (ready.filter fun q => !splitPair o q.2) ++ s.halves o ready

/-- A lane memory word issues and its lanes are performed later, where every one of them passes its checks now and none waits; stores to HBM
wait in the buffer instead. -/
def State.issueLateLane (s : State) (i : Instr) (o : LaneOp) (f : MemForm) : Out :=
  match s.lanePlaces o f, s.runInstr i with
  | some (s1, ready), .next t =>
    if t.me.unret.length ≤ s.me.unret.length || !wentOn s t || (f.kind = 1 && ready.any fun q => regionOf q.2 = .hbm) then .next t
    else .next { t with mem := s1.mem, ms := { s1.ms with badRegs := t.ms.badRegs }, vregs := s1.vregs, late := s1.late ++ State.laneLate (s1.setMe { s1.me with openedAt := s1.dev.cycle }) o f ready }
  | _, r => r

/-- The word that a context's stream presents, executed so that it waits where it may. -/
def runLate (c : Nat) : Word → Out
  | .instr s1 i => (match memWord i, laneMem i with
    | some m, _ => State.issueLate { s1 with cur := c } i m
    | none, some (o, f) => State.issueLateLane { s1 with cur := c } i o f
    | none, none => State.runInstr { s1 with cur := c } i)
  | .wait s1 => .next s1
  | .trap s1 t => .next (s1.takeTrap c t)

end Sys2Proof.Machine
end

