-- ==== Sys2Proof/Machine/Order.lean ====
section
/-! DEFINITION. Turns: what one does, and the default order in which they come when the agenda is empty (13 R369 to R373; log 1). -/

namespace Sys2Proof.Machine

/-! ## One turn -/

/-- A cycle passes after a next state. -/
def ticked : Out → Out
  | .next s => .next (tick s)
  | o => o

/-- The word that a stream of context c presents, executed; or its wait, or its trap. -/
def doWord (c : Nat) : Word → Out
  | .instr s i => State.runInstr { s with cur := c } i
  | .wait s => .next s
  | .trap s t => .next (s.takeTrap c t)
/-- The same as a whole cycle. -/
def runWord (c : Nat) (w : Word) : Out := ticked (doWord c w)

def State.runScalar (s : State) (c : Nat) : Out := runWord c (s.nextScalar c)
def State.runLane (s : State) (c : Nat) : Out := runWord c (s.nextLane c)

/-- A row of the table that no word encodes: a step of the device or of its environment. -/
def isEvent (i : Instr) : Bool :=
  match i with
  | .tileOpPerform _ _ | .loomOpStart _ _ | .loomRowCommit _ _ _ | .loomOpComplete _ _ | .copyLineWrite _ | .copyEnd _ | .laneEntryStart _
  | .loopTripTest _ | .loadReturn _ _ | .laneRetire _ | .skeinEnd _ | .takeTrap _ | .crewFault _ | .fetchSwapOut _ | .translationWalk _ _
  | .sgbIdleDrain _ _ | .mergeWindowExpiry _ | .hbmReadReturn _ | .leaveGrant _ | .collSendAck _ | .fabricPacketReceive _
  | .collPartialArrival _ | .reduceCrewDispatch _ | .collLateTimeout _ | .collFailTimeout _ | .collStepEnd _ | .launchSlotWrite _ _ _ _ _
  | .commissionEnterTable | .commissionAdmit | .crewPlace | .coopReserve | .commissionRetire _ | .completionRecordWrite _
  | .multiPacketReplica _ _ | .startBarrierComplete _ _ | .startBarrierTimeout _ _ | .slotTableWrite _ _ _ | .slotTableTakeEffect _
  | .preemptBudgetExpiry _ | .crewSave _ | .crewRestore _ | .withdraw _ | .abort _ | .preempt _ | .restore _ | .invalidate _
  | .pageResponse _ | .commSetup _ | .commSetupTimeout _ | .commFree _ | .benchStopSpread _ | .beaconArrival _ _ | .traceBranchFlush _
  | .tracePacketWrite _ | .assayRecord _ | .malformedCommand _ | .ringHeadWrite _ _ _ | .savepush _ _ | .errorCounterClear _
  | .attestationRequest _ _ | .shareWrite _ _ | .msixUnmask _ _ | .bar4Read _ _ | .bar4Write _ _ | .registerWrite _ _ _
  | .functionLevelReset _ | .moduleReset _ | .powerClamp | .powerClampEnd | .thermalTrip | .patrolScrub _ _ _ _ | .dbgStop _
  | .dbgResume _ | .dbgDump _ | .trrptrWrite _ _ | .asrptrWrite _ _ | .asseedWrite _ _ | .systemSoftwareCopy _ _ | .debugRead _ _
  | .linkRetry _ | .linkLost _ => true
  | _ => false

/-- A turn needs the clocks that a thermal trip stops (R444). -/
def needsClock : Turn → Bool
  | .event (.moduleReset _) => false
  | .event (.functionLevelReset fn) => fn ≠ 0
  | .hostMem _ _ => false
  | .idle => false
  | _ => true

/-- What a turn of a word does, whoever may issue it in this cycle. -/
def State.bareTurn (s : State) (t : Turn) : Out :=
  match t with
  | .scalar c => if s.canScalar c then s.runScalar c else .refused (.notEnabled "scalar")
  | .lane c => if s.canLane c then s.runLane c else .refused (.notEnabled "lane")
  | _ => .refused (.notEnabled "word")

/-- A turn does something; which context ran is no part of it. -/
def moves (s : State) : Out → Bool
  | .next t => { t with cur := s.cur } ≠ tick s
  | _ => false

/-! ## Who issues in a cycle (R369 to R373) -/

/-- A context's next scalar word, or its next lane word, meets every condition for issue: its turn has some effect (R370). -/
def State.scalarReady (s : State) (c : Nat) : Bool := moves s (s.bareTurn (.scalar c))
def State.laneReady (s : State) (c : Nat) : Bool := moves s (s.bareTurn (.lane c))

/-- The live contexts of a tenant on a core. -/
def State.tenantCtxs (s : State) (core tenant : Nat) : List Nat :=
  (s.ctxs.filter fun p => p.2.live && decide (coreOf p.1 = core) && decide ((s.commOf p.1).tenant = tenant)).map (·.1)

/-- A context that has yielded may be selected again: every other ready context of its tenant on its bench has been selected since, or
16 cycles have passed (R299). -/
def State.pastYield (s : State) (c : Nat) : Bool :=
  decide ((s.ctx c).yieldUntil ≤ s.dev.cycle)
    || (s.tenantCtxs (coreOf c) (s.commOf c).tenant).all fun d =>
        decide (d = c) || decide (benchOf d ≠ benchOf c) || (s.ctx c).yieldSeen.contains d || !s.scalarReady d

/-- A context's scalar word can be selected. -/
def State.scalarMay (s : State) (c : Nat) : Bool := s.scalarReady c && s.pastYield c

/-- A scalar word that is selected ends a YIELD of its context, and is noted in those of the others on its bench (R299). -/
def State.endYield (s : State) (c : Nat) : State :=
  let note (p : Nat × Skein) : Nat × Skein :=
    if p.1 = c then (p.1, { p.2 with yieldUntil := 0, yieldSeen := [] })
    else if decide (benchOf p.1 = benchOf c) && decide (p.2.yieldUntil ≠ 0) && !p.2.yieldSeen.contains c then
      (p.1, { p.2 with yieldSeen := p.2.yieldSeen ++ [c] })
    else p
  if s.ctxs.any fun p => p.2.yieldUntil ≠ 0 then { s with ctxs := s.ctxs.map note } else s

/-- The age of a skein as a number: its crew's placement, its crew index, and below its parent's the child numbers of its SPLITs, outermost
first (R371). -/
def State.ageKey (s : State) (c : Nat) : Nat :=
  let x := s.ctx c
  let path := x.splits.reverse
  (List.range 6).foldl (fun n i => n * 32 + (path[i]?).elim 0 fun l => l.child + 1) (x.age * 256 + s.rootIndex c)

/-- The contexts of a tenant on a core, oldest first (R371). -/
def State.byAge (s : State) (core tenant : Nat) : List Nat :=
  sortBy (fun (a b : Nat) => decide (s.ageKey a ≤ s.ageKey b)) (s.tenantCtxs core tenant)

/-- The older contexts of a context's tenant on its bench, oldest first. -/
def State.olderOn (s : State) (c : Nat) : List Nat :=
  ((s.byAge (coreOf c) (s.commOf c).tenant).takeWhile (· ≠ c)).filter fun d => benchOf d = benchOf c

/-- The quarters of a bench's two ports that a skein's strands feed, as 4 · port + quarter (R372). -/
def quartersOf (x : Skein) : List Nat :=
  distinct ((List.range (lanesOf x.width / 4)).map fun j => (x.strand.toNat + j) / 8 % 2 * 4 + (x.strand.toNat + j) / 2 % 4)

/-- Port packing: of contexts that are ready, oldest first, those whose words issue together (R373). -/
def State.packed (s : State) : List Nat → List Nat → List Nat
  | _, [] => []
  | taken, c :: rest =>
    let q := quartersOf (s.ctx c)
    if q.any taken.contains then s.packed taken rest else c :: s.packed (q ++ taken) rest

/-- A scalar word of a context is one that its bench's Foreman may take: at most one older context of the tenant is ready (R371). -/
def State.foremanTakes (s : State) (c : Nat) : Bool := decide (((s.olderOn c).filter s.scalarMay).length < 2)
/-- A lane word of a context is one that its port may take (R373). -/
def State.portTakes (s : State) (c : Nat) : Bool := (s.packed [] ((s.olderOn c).filter s.laneReady ++ [c])).contains c

/-- A reduce crew's skein can do its work (R362, R420). -/
def State.workReady (s : State) (c : Nat) : Bool := (s.commOf c).drover.isSome && moves s (ticked (exec (.skeinEnd c) s))

/-- Some skein of a tenant on a core is ready. -/
def State.tenantReady (s : State) (core tenant : Nat) : Bool :=
  (s.tenantCtxs core tenant).any fun c => s.scalarMay c || s.laneReady c || s.workReady c

/-- A tenant issues on a core in this cycle (R370): the slot's own while it has a ready skein; else, in a free cycle, the next in turn that
has one, to which the round-robin pointer moves. -/
def State.slotPick (s : State) (core tenant : Nat) : Option State :=
  let k := s.tables core
  let own := s.slotOwner core
  if own = some tenant then some s
  else if own.any (s.tenantReady core) || !s.slotFree core then none
  else
    let may (i : Nat) : Bool := (mapTenant k i).any (s.tenantReady core)
    match ((List.range 16).map fun d => (k.rrPtr + 1 + d) % 16).find? may with
    | none => none
    | some i => if mapTenant k i = some tenant then some (s.setCore core { s.core core with rrPtr := i }) else none

/-- The state in which a word is selected: none while its context, its tenant or its port does not let it. -/
def State.select (s : State) (t : Turn) : Option State :=
  match t with
  | .scalar c =>
    if s.canScalar c && s.pastYield c && s.foremanTakes c then
      (s.slotPick (coreOf c) (s.commOf c).tenant).map fun (y : State) => y.endYield c
    else none
  | .lane c => if s.canLane c && s.portTakes c then s.slotPick (coreOf c) (s.commOf c).tenant else none
  | _ => none

/-- The words of one cycle, in an order: each is one that could be selected as the cycle began, s0 (R371, R373); the first of a core
chooses the core's issuing tenant, and the others of the core are its words too (R370). -/
def State.cycleWords (s0 : State) : List (Nat × Bool) → List (Nat × Nat) → State → Out
  | [], _, s => .next s
  | (c, lane) :: rest, picked, s =>
    let core := coreOf c
    let tenant := (s.commOf c).tenant
    let ready := if lane then s0.canLane c && s.canLane c && s0.portTakes c
      else s0.canScalar c && s.canScalar c && s0.pastYield c && s0.foremanTakes c
    let chosen := match picked.find? fun p => p.1 = core with
      | some p => if p.2 = tenant then some s else none
      | none => s.slotPick core tenant
    match (if ready then chosen else none) with
    | none => .refused (.notEnabled "slot")
    | some y =>
      let y := (if lane then y else y.endYield c).passLate (if lane then .lane c else .scalar c)
      match doWord c (if lane then y.nextLane c else y.nextScalar c) with
      | .next t => s0.cycleWords rest ((core, tenant) :: picked) t
      | r => r

/-- A packet of a die's Steward leaves with the die's own endpoint address as its source; a forged one is replaced and counted (R448). -/
def State.stewardSends (s : State) (die : Nat) (source : BitVec 128) (bytes : List Byte) : State :=
  let own := Config.endpoint die
  let f := s.fab
  s.setFab { f with
    steward := f.steward ++ [{ die, source := own, bytes }],
    forged := if source = own then f.forged else listSet f.forged die (f.forged.getD die 0 + 1) }

/-- A lane word of a context reads or writes a tile (R231). -/
def State.laneAtTile (s : State) (c : Nat) : Bool :=
  match s.nextLane c with
  | .instr _ (.vtld _) | .instr _ (.vtst _) => true
  | _ => false

/-- The words of a cycle with those lane words last: of a scalar and a lane operation that reach one tile in one cycle the scalar one comes
first (R231). -/
def State.tilesLast (s : State) (ws : List (Nat × Bool)) : List (Nat × Bool) :=
  (ws.filter fun p => !(p.2 && s.laneAtTile p.1)) ++ ws.filter fun p => p.2 && s.laneAtTile p.1

/-- The state in which a step of the device comes: a reduce crew's work takes a cycle of its core for its tenant (R370, R420). -/
def State.eventSlot (s : State) : Instr → Option State
  | .skeinEnd c => if (s.commOf c).drover.isSome then s.slotPick (coreOf c) (s.commOf c).tenant else some s
  | _ => some s

/-- One turn, while the clocks run. -/
def State.turn (s : State) (t : Turn) : Out :=
  match t with
  | .scalar _ | .lane _ => (s.select t).elim (.refused (.notEnabled "slot")) fun y => y.bareTurn t
  | .event i =>
    if isEvent i then (s.eventSlot i).elim (.refused (.notEnabled "slot")) fun y => ticked (exec i y) else .refused (.notEnabled "event")
  | .hostMem a bs =>
    if Config.hostBase ≤ a && decide (a + bs.length ≤ Config.physEnd) then .next (tick (s.write a bs))
    else .refused (.notEnabled "hostMem")
  | .late c =>
    (s.select (.scalar c)).elim (.refused (.notEnabled "slot")) fun y => ticked (runLate c (y.nextScalar c))
  | .lateLane c =>
    (s.select (.lane c)).elim (.refused (.notEnabled "slot")) fun y => ticked (runLate c (y.nextLane c))
  | .perform n k =>
    (match s.late[n]? with
      | some o =>
        if s.mayPerform n o (fun p => p.scope.any fun sc => s.reaches p.ctx sc o.ctx) then .next (tick (s.performAt n k o))
        else .refused (.notEnabled "perform")
      | none => .refused (.notEnabled "perform"))
  | .cycle ws => if ws.Nodup then ticked (s.cycleWords (s.tilesLast ws) [] s) else .refused (.notEnabled "slot")
  | .steward d source bytes =>
    if Config.dies ≤ d || s.part.is384P then .refused (.notEnabled "steward") else .next (tick (s.stewardSends d source bytes))
  | .idle => .next (tick s)

/-- One turn, after what it does not leave waiting (R334). -/
def runTurn (t : Turn) (s : State) : Out := if s.dev.thermal && needsClock t then .fault .clocksStopped else (s.passLate t).turn t

/-! ## The default order (log 1) -/

/-- What the contexts, crews and memory system can do by themselves. -/
def State.ownSteps (s : State) : List Instr :=
  let cs := (s.ctxs.filter fun p => p.2.live).map (·.1)
  let crews := s.crews.map (·.1)
  cs.flatMap (fun c => [.takeTrap c, .laneRetire c, .loadReturn c .g, .loadReturn c .s, .loadReturn c .m, .loadReturn c .w,
      .laneEntryStart c, .loopTripTest c, .skeinEnd c, .fetchSwapOut c, .traceBranchFlush c])
    ++ crews.flatMap (fun n => [.preemptBudgetExpiry n, .crewFault n, .crewSave n]
      ++ (List.range (s.crew n).tileOps.length).map fun i => .tileOpPerform n i)
    ++ (List.range Config.dies).map (fun d => .translationWalk d 0)
    ++ s.ms.windows.flatMap (fun w => [.hbmReadReturn w.line, .mergeWindowExpiry w.line])
    ++ s.ms.sgb.map (fun e => .sgbIdleDrain e.core e.line)

/-- What the engines can do by themselves. -/
def State.engineSteps (s : State) : List Instr :=
  s.looms.flatMap (fun p => [0, 1].flatMap fun t => [.loomOpStart p.1 t, .loomRowCommit p.1 t false, .loomOpComplete p.1 t])
    ++ s.copies.flatMap (fun y => [.copyLineWrite y.id, .copyEnd y.id])
    ++ (List.range Config.dies).map (fun d => .leaveGrant d)
    ++ s.fab.counters.flatMap (fun k => [.reduceCrewDispatch k.id, .collLateTimeout k.id, .collFailTimeout k.id])
    ++ s.fab.ops.map (fun o => .collStepEnd o.id)
    ++ s.fab.comms.map (fun m => .commSetupTimeout m.handle)

/-- What the scheduler, the command rings and the debug blocks can do by themselves. -/
def State.deviceSteps (s : State) : List Instr :=
  s.coreSt.map (fun p => .slotTableTakeEffect p.1)
    ++ [.commissionEnterTable, .commissionAdmit, .coopReserve, .crewPlace]
    ++ s.host.saved.map (fun v => .crewRestore v.crew)
    ++ s.comms.flatMap (fun m => [.commissionRetire m.key, .completionRecordWrite m.key, .startBarrierTimeout m.group false,
      .startBarrierTimeout m.group true])
    ++ s.host.cmd.flatMap (fun p => [.malformedCommand p.1, .withdraw p.1, .abort p.1, .preempt p.1, .restore p.1, .invalidate p.1,
      .pageResponse p.1, .commSetup p.1, .commFree p.1])
    ++ s.benches.flatMap (fun p => [.tracePacketWrite p.1, .assayRecord p.1])
    ++ (if s.benches.any fun p => p.2.spreading ≠ 0 then (List.range Config.benches).map fun b => .benchStopSpread b else [])
    ++ (match s.beacons with
      | [] => []
      | b :: _ => ((List.range Config.benches).filter fun k => !b.reached.contains k).take 1 |>.map fun k => .beaconArrival k 0)

/-- The first step of the device that does something. -/
def State.nextStep (s : State) : Option Instr :=
  (s.ownSteps ++ s.engineSteps ++ s.deviceSteps).find? fun i => moves s (s.turn (.event i))

/-- The cores that hold skeins. -/
def State.busyCores (s : State) : List Nat := distinct ((s.ctxs.filter fun p => p.2.live).map fun p => coreOf p.1)

/-- The words of a tenant on a core that may issue in this cycle: of each bench the two oldest ready scalar words, and the lane words that
pack its ports (R371, R373). -/
def State.tenantWords (s : State) (core tenant : Nat) : List Turn :=
  let cs := s.byAge core tenant
  let on (b : Nat) : List Nat := cs.filter fun c => benchOf c = b
  let benches := (List.range 4).map (4 * core + ·)
  benches.flatMap (fun b => (((on b).filter s.scalarMay).take 2).map Turn.scalar)
    ++ benches.flatMap fun b => (s.packed [] ((on b).filter s.laneReady)).map Turn.lane

/-- The words that may issue on a core in this cycle: those of the issuing tenant (R370). -/
def State.coreWords (s : State) (core : Nat) : List Turn :=
  let k := s.tables core
  let own := (s.slotOwner core).elim [] (s.tenantWords core)
  if own ≠ [] then own
  else if s.slotFree core then
    (((List.range 16).map fun d => (k.rrPtr + 1 + d) % 16).findSome? fun i =>
      let ts := (mapTenant k i).elim [] (s.tenantWords core)
      if ts = [] then none else some ts).getD []
  else []

/-- The word that issues: of the first core that can issue one, each in its turn; and the count of those turns. -/
def State.nextIssue (s : State) : Option (Turn × State) :=
  let cores := s.busyCores
  let n := s.rr % max 1 cores.length
  (cores.drop n ++ cores.take n).findSome? fun k =>
    let ts := s.coreWords k
    ts[s.rr / max 1 cores.length % max 1 ts.length]?.map fun t => (t, { s with rr := s.rr + 1 })

/-- The turn that comes when the agenda is empty. -/
def State.defaultTurn (s : State) : Turn × State :=
  match s.nextStep with
  | some i => (.event i, s)
  | none => s.nextIssue.getD (.idle, s)

end Sys2Proof.Machine
end

