-- ==== Sys2Proof/Safety.lean ====
section
/-! DEFINITION. What a safe run is, and the terms in which claims speak: what a word leaves unchanged. -/

namespace Sys2Proof.Machine

/-- The storage of a state is in canonical form. -/
def State.MemOk (s : State) : Prop := Memory.wf s.mem = true

/-- A run of k steps keeps going: no step of it stops. -/
def State.RunsFor : Nat → State → Prop
  | 0, _ => True
  | k + 1, s => ∃ s', step s = .next s' ∧ State.RunsFor k s'

/-! ## Frames -/

/-- Nothing but the record of the running context differs: every other field of the state, every byte of storage and every
other context are the same. -/
def State.OnlyMe (s t : State) : Prop :=
  t = { s with ctxs := t.ctxs } ∧ (∀ c, c ≠ s.cur → t.ctx c = s.ctx c) ∧ ∀ a, memByte t.mem a = memByte s.mem a

/-- A context after a scalar word of n bytes that writes no register: the PC has moved, with its bits [63:57] zero (R20), its next
issue is tested for breakpoints (R429), and a word of handler state has committed the region (R391). -/
def Skein.afterWord (x : Skein) (n : W64) : Skein :=
  { x with pc := codeAddr (x.pc + n), untested := false, region := { x.region with committed := x.region.committed || x.handler } }

/-- The word completes: it writes v into kD, or nothing into k0 (R16), the next word follows at n bytes, and nothing else
changes. -/
def WritesK (i : Instr) (s : State) (d : KReg) (v n : W64) : Prop :=
  ∃ t, exec i s = .next t ∧ s.OnlyMe t ∧ t.me = { s.me.afterWord n with k := t.me.k }
    ∧ ∀ r, t.kv r = if r = 0 then 0 else if r = d then v else s.kv r

/-- The word completes: it writes a condition bit, the next word follows at n bytes, and nothing else changes. -/
def WritesC (i : Instr) (s : State) (c : CBit) (v : Bool) (n : W64) : Prop :=
  ∃ t, exec i s = .next t ∧ s.OnlyMe t ∧ t.me = { s.me.afterWord n with c := t.me.c }
    ∧ ∀ r, t.cv r = if r = c then v else s.cv r

/-- The word completes: the next word stands at pc, and nothing else changes but the debug block of the bench and the branch
outcomes that it collects. -/
def GoesTo (i : Instr) (s : State) (pc : W64) : Prop :=
  ∃ t, exec i s = .next t ∧ t = { s with ctxs := t.ctxs, benches := t.benches } ∧ (∀ c, c ≠ s.cur → t.ctx c = s.ctx c)
    ∧ t.me = { s.me.afterWord 0 with pc := codeAddr pc, branches := t.me.branches, branchAt := t.me.branchAt }

/-- The word traps, in this context, with this cause and DETAIL: what taking that trap leaves. -/
def Traps (i : Instr) (s : State) (cause : Cause) (detail : Nat) : Prop :=
  exec i s = .next (s.takeTrap s.cur (scalarTrap cause detail))

/-! ## Traps -/

/-- A trap of context c can be taken at once (R378, R382): no lane word is on its way or has lanes that wait, the bench runs, the context is not in handler
state and has a handler, and its frame can be written: its address answers, and none of its eight lines is owned or empty. -/
def State.TrapEnters (s : State) (c : Nat) : Prop :=
  lanesOut (s.ctx c) = false ∧ (s.bench (benchOf c)).stopped = false ∧ (s.ctx c).handler = false
    ∧ ctxTrapVec (s.ctxEntry (s.commOf c).key.ctx) ≠ 0
    ∧ ∃ s1 a l, s.reach c (s.trapFrame c) 1024 8 1 .write false = .ok s1 a l
        ∧ ∀ i, i < 8 → s1.lineBusy (lineOf a + i) = false

/-- Context c has taken a trap from s to t (R37, R382): it is in handler state at TRAPVEC with these trap registers, and its other
registers are those of the trapped word. -/
def TrapTaken (s t : State) (c : Nat) (word lw mask : W64) : Prop :=
  let x := s.ctx c
  let y := t.ctx c
  y.handler = true ∧ y.exited = false ∧ y.pc = alignPc (ctxTrapVec (s.ctxEntry (s.commOf c).key.ctx))
    ∧ y.trapcause = word ∧ y.trappc = x.pc ∧ y.traplw = lw ∧ y.trapmask = mask
    ∧ y.k = x.k ∧ y.c = x.c ∧ y.f = x.f ∧ y.h = x.h ∧ y.m = x.m ∧ y.base = x.base ∧ y.stack = x.stack
    ∧ y.queue = x.queue ∧ y.back = x.back ∧ y.control = x.control ∧ y.width = x.width ∧ y.splits = x.splits

/-! ## Lane words -/

/-- A lane word that completes changes nothing but the running context and the bench's debug block (assay counting and trace):
no storage, no other context, no lane register. The context then stands as y does after the lanes move on (R147, R379): range says
that the word sets SKST.RANGE. -/
def LaneCompletes (i : Instr) (s : State) (range : Bool) (y : Skein) : Prop :=
  ∃ t, exec i s = .next t ∧ t = { s with ctxs := t.ctxs, benches := t.benches } ∧ (∀ c, c ≠ s.cur → t.ctx c = s.ctx c)
    ∧ t.me = laneStep range none { y with branches := t.me.branches, branchAt := t.me.branchAt }

/-- Lane l of the running skein is active in a word with selector sel (R24). -/
def State.active (s : State) (sel : MReg) (l : Nat) : Prop := l < s.w ∧ (s.act sel).getLsbD l = true

/-- The place of a lane register of the running skein among all lane registers (R11, R22). -/
def State.vPlace (s : State) (l n : Nat) : Nat := 256 * physLane s.me s.cur l + n

/-- A lane word that completes and whose active lanes l each receive f l in register o.dst: every other lane register is unchanged,
and so is everything but the running context's progress and the bench's debug block. -/
def LanesReceive (i : Instr) (o : LaneOp) (s : State) (range : Bool) (f : Nat → W32) : Prop :=
  ∃ t, exec i s = .next t ∧ t = { s with ctxs := t.ctxs, benches := t.benches, vregs := t.vregs }
    ∧ (∀ c, c ≠ s.cur → t.ctx c = s.ctx c) ∧ t.me = laneStep range none s.me
    ∧ (∀ l, s.active o.msel l → smGet 0 t.vregs (s.vPlace l o.dst.toNat) = f l)
    ∧ ∀ p, (∀ l, s.active o.msel l → p ≠ s.vPlace l o.dst.toNat) → smGet 0 t.vregs p = smGet 0 s.vregs p

/-- A lane word that completes and whose active lanes l each receive the bit f l in an m-register; other bits of it, and m0, are
unchanged. -/
def MaskReceives (i : Instr) (o : LaneOp) (s : State) (dst : Nat) (f : Nat → Bool) : Prop :=
  ∃ t, exec i s = .next t ∧ t = { s with ctxs := t.ctxs, benches := t.benches } ∧ (∀ c, c ≠ s.cur → t.ctx c = s.ctx c)
    ∧ (∃ m, t.me = laneStep false none { s.me with m })
    ∧ ∀ n b, n < 16 → b < 64 → (mGet t.me n).getLsbD b =
        if n = dst ∧ n ≠ 0 ∧ b < s.w ∧ (s.act o.msel).getLsbD b = true then f b else (mGet s.me n).getLsbD b

/-- The word traps with a cause that concerns the whole lane word (R380); it has issued, and the assay has counted it with
its active lanes (R438, R439). -/
def TrapsWhole (i : Instr) (s : State) (cause : Cause) (detail : Nat) (act mask : W64) : Prop :=
  exec i s = .next ((s.assay act 0 0 true).takeTrap s.cur (wholeTrap s.me cause detail mask))

/-! ## Memory as a core sees it -/

/-- The byte that a fresh read by a core gives: from its store-gather buffer, or from storage (R313, R331). -/
def State.sees (s : State) (core a : Nat) : Byte := (s.readFresh core a 1).headD 0

/-- No watchpoint of the running context's bench is enabled (R429). -/
def State.unwatched (s : State) : Prop := ∀ i, i < 4 → bitOf ((s.bench (benchOf s.cur)).wpctl.getD i 0).toNat 0 = false

/-- The bench's translations hold the page of a virtual address of the running context. -/
def State.holdsPage (s : State) (va : Nat) (l : Leaf) : Prop :=
  s.tlbAt (.bench (benchOf s.cur)) s.myComm.key.ctx (va / 4096 * 4096) = some l

/-- An active lane of a memory word of form f passes every check of R208 at storage address a and waits for nothing: its address is
aligned and in range; its page is held by the bench and admits the access, with a stamp that the running contract accepts; the line
is neither owned nor empty, and what is read holds no error. a is aligned as the address is. -/
def State.LaneReaches (s : State) (o : LaneOp) (f : MemForm) (l a : Nat) : Prop :=
  let va := s.addrOf o l
  let w := s.myCrew
  va % f.n = 0 ∧ a % f.n = 0 ∧ s.lineBusy (lineOf a) = false ∧ (f.kind ≠ 1 → s.poisoned a f.n = false)
    ∧ (f.path = .s → spadIn w va f.n = true ∧ a = spadAddr w va)
    ∧ (f.path ≠ .s → va < 2 ^ 57
        ∧ (Config.windowBase ≤ va → f.path = .g ∧ f.kind ≠ 2 ∧ spadIn w (va - Config.windowBase) f.n = true
            ∧ a = spadAddr w (va - Config.windowBase))
        ∧ (va < Config.windowBase → ∃ p, s.holdsPage va p ∧ a = p.phys va ∧ pageOk p (useOf f.kind) s.myComm.tenant va = true
            ∧ (f.path = .m → p.mart = true) ∧ (f.kind = 2 → regionOf a ≠ .host)
            ∧ (f.stamped = true → bitOf (entryControl s.me).toNat 0 = true → (regionOf a = .hbm ∨ regionOf a = .mart) →
                p.stamp = 0 ∨ p.stamp = s.contract)))

/-- Every active lane of a memory word passes, lane l at place l; there is one, the path's counter has room, no earlier lanes of the
word stand performed, the bench runs, and nothing is watched. -/
def State.LanesReach (s : State) (o : LaneOp) (f : MemForm) (place : Nat → Nat) : Prop :=
  s.act o.msel ≠ 0 ∧ (s.bench (benchOf s.cur)).stopped = false ∧ pathCount s.me f.counter < 63 ∧ wordOpen s.me = false ∧ s.unwatched
    ∧ ∀ l, s.active o.msel l → s.LaneReaches o f l (place l)

/-- A word has been issued on a path: the counter is one higher (R21, R203). -/
def counted (p : Path) (lines : List Nat) (data : Bool) (x : Skein) (holds : Bool := false) : Skein :=
  { x with out := x.out ++ [{ path := p, lines, data, holds }] }

/-- A lane memory word has been issued so, in a cycle. -/
def laneCounted (cycle : Nat) (p : Path) (lines : List Nat) (data : Bool) (x : Skein) : Skein := { counted p lines data x with openedAt := cycle }

/-- A scalar access of n bytes at a virtual address passes every check of R131 at storage address a, and waits for nothing: the address is
aligned and in range, its page is held by the bench and admits the access, the line is neither owned nor empty, and nothing is
watched. -/
def State.ScalarPasses (s : State) (va n : Nat) (u : PageUse) (atomic : Bool) (a : Nat) : Prop :=
  va < 2 ^ 57 ∧ va % n = 0 ∧ a % n = 0 ∧ s.lineBusy (lineOf a) = false ∧ s.unwatched
    ∧ (Config.windowBase ≤ va → spadIn s.myCrew (va - Config.windowBase) n = true ∧ a = spadAddr s.myCrew (va - Config.windowBase))
    ∧ (va < Config.windowBase → ∃ l, s.holdsPage va l ∧ a = l.phys va ∧ pageOk l u s.myComm.tenant va = true
        ∧ (atomic = true → regionOf a ≠ .host))

/-- The access passes, and the path's counter has room (R21). -/
def State.ScalarReaches (s : State) (va n : Nat) (u : PageUse) (atomic : Bool) (p : Path) (a : Nat) : Prop :=
  s.ScalarPasses va n u atomic a ∧ pathCount s.me p < 63

/-- A context after a scalar word of n bytes that also commits the region (R391). -/
def Skein.afterCommit (x : Skein) (n : W64) : Skein :=
  { x with pc := codeAddr (x.pc + n), untested := false, region := { x.region with committed := true } }

/-! ## Crews -/

/-- Nothing but the running context and its crew differs. -/
def State.OnlyCrew (s t : State) : Prop :=
  t = { s with ctxs := t.ctxs, crews := t.crews } ∧ (∀ c, c ≠ s.cur → t.ctx c = s.ctx c) ∧ ∀ n, n ≠ s.me.crew → t.crew n = s.crew n

/-- A scalar word of four bytes completes and changes only the running context, whose registers reg chooses, and its crew as w says. -/
def ChangesCrew (i : Instr) (s : State) (y : Skein → Skein) (w : Crew) : Prop :=
  ∃ t, exec i s = .next t ∧ s.OnlyCrew t ∧ t.me = y t.me ∧ t.myCrew = w

/-- A handle value names a tile of the crew that index may use: its first slot is i (R19, R229). -/
def HandleIs (w : Crew) (index : Nat) (v : W16) (i : Nat) : Prop :=
  i = v.toNat % 256 ∧ v.toNat / 256 ≠ 0 ∧ i < w.slots.length ∧ (slotOf w i).alloc = true ∧ (slotOf w i).first = true
    ∧ (slotOf w i).freeing = false ∧ (slotOf w i).gen = v.toNat / 256 ∧ (slotOf w i).owner = some index ∧ (slotOf w i).orphan = false
/-- A handle value names a live tile that another skein owns, or none does. -/
def HandleForeign (w : Crew) (index : Nat) (v : W16) : Prop :=
  let i := v.toNat % 256
  v.toNat / 256 ≠ 0 ∧ i < w.slots.length ∧ (slotOf w i).alloc = true ∧ (slotOf w i).first = true
    ∧ (slotOf w i).freeing = false ∧ (slotOf w i).gen = v.toNat / 256 ∧ ((slotOf w i).owner ≠ some index ∨ (slotOf w i).orphan = true)
/-- A handle value names no live tile. -/
def HandleStale (w : Crew) (v : W16) : Prop :=
  let i := v.toNat % 256
  ¬ (v.toNat / 256 ≠ 0 ∧ i < w.slots.length ∧ (slotOf w i).alloc = true ∧ (slotOf w i).first = true
    ∧ (slotOf w i).freeing = false ∧ (slotOf w i).gen = v.toNat / 256)

/-- The crew with one more tile operation queued, at the next place of its order (R231). -/
def Crew.queued (w : Crew) (act : TileAct) (dst src : Nat) : Crew :=
  { w with tileSeq := w.tileSeq + 1
           tileOps := w.tileOps ++ [{ seq := w.tileSeq, act, dst, dstDesc := (slotOf w dst).desc, src, srcDesc := (slotOf w src).desc }] }

/-! ## Futures and engine operations -/

/-- Register d of the running context receives a new pending future of this KIND, in the lowest free entry of its crew's table (R18,
R269, R272). Where the register held no pending future, the table records it. -/
def IssuesFuture (s t : State) (d : FReg) (kind tag : Nat) : Prop :=
  freeIndex s.myCrew = some (tag % 64) ∧ tag < 2 ^ 24
    ∧ (∀ r, r < 16 → fGet t.me r = if r = d.toNat then futVal 1 kind tag 0 else fGet s.me r)
    ∧ (isPending (fGet s.me d.toNat) = false → tag % 64 < s.myCrew.futs.length →
        ∃ e, futEntry t.myCrew tag = some e ∧ e.kind = kind ∧ e.detached = false ∧ e.ctx = s.cur ∧ e.reg = d ∧ e.control = s.me.control
          ∧ isPending e.value = true)

/-- An operation has joined the queues of its sets on the running core (R248). -/
def QueuesLoom (s t : State) (o : LoomOp) : Prop :=
  let lm := s.loom (coreOf s.cur)
  t.loom (coreOf s.cur) = { lm with
      ops := lm.ops ++ [(lm.nextOp, o)]
      q0 := if o.wide || decide (o.set = 0) then lm.q0 ++ [lm.nextOp] else lm.q0
      q1 := if o.wide || decide (o.set ≠ 0) then lm.q1 ++ [lm.nextOp] else lm.q1
      nextOp := lm.nextOp + 1 }
    ∧ ∀ k, k ≠ coreOf s.cur → t.loom k = s.loom k

/-- A Loom word completes: its operation, of which P holds, stands in its queues, not started, and its future is pending (R248, R254). -/
def LoomIssued (i : Instr) (s : State) (fut : Option (FReg × Nat)) (P : LoomOp → Prop) : Prop :=
  ∃ t o, exec i s = .next t ∧ P o ∧ QueuesLoom s t o
    ∧ o.ctx = s.cur ∧ o.crew = s.me.crew ∧ o.seq = s.myCrew.tileSeq ∧ o.place = s.nextPlace
    ∧ o.started = false ∧ o.row = 0 ∧ o.failed = 0 ∧ o.cancelled = false
    ∧ t = { s with ctxs := t.ctxs, crews := t.crews, looms := t.looms, nextPlace := s.nextPlace + 1, mem := t.mem, ms := t.ms
                   freeCtr := t.freeCtr }
    ∧ (o.mem = false → t.mem = s.mem ∧ t.ms = s.ms ∧ t.freeCtr = s.freeCtr)
    ∧ (∀ c, c ≠ s.cur → t.ctx c = { s.ctx c with out := (t.ctx c).out }) ∧ (∀ n, n ≠ s.me.crew → t.crew n = s.crew n)
    ∧ t.myCrew = { s.myCrew with tileSeq := s.myCrew.tileSeq + 1, futs := t.myCrew.futs, futCtl := t.myCrew.futCtl }
    ∧ match fut with
      | none => o.fut = none ∧ t.me = s.me.afterWord 4
      | some (d, kind) => ∃ tag, o.fut = some tag ∧ IssuesFuture s t d kind tag
          ∧ t.me = { s.me.afterWord 4 with f := t.me.f, out := t.me.out, region := { s.me.region with futures := t.me.region.futures } }

/-- Each of these sets' queues on the running core has room (R248). -/
def State.setsFree (s : State) (wide : Bool) (set : Nat) : Prop :=
  ∀ n, n < 2 → wide = true ∨ n = set → (loomQueue (s.loom (coreOf s.cur)) n).length < Config.loomQueueLen

/-- The operand class that the elements of B alone decide (R266). -/
def beamClass (f : Fmt) : Option Nat :=
  if f = .cb4 then some 2 else if f = .bf16 ∨ f = .f16 then some 0 else if f = .s8 ∨ f = .n8 ∨ f = .s4 ∨ f = .n4 then some 1 else none

/-- An MBEAM of this layout word and shape passes orders 4 and 5 of R266 (R245, R253). -/
def State.BeamFits (s : State) (set : BeamSet) (l kb nb : Nat) : Prop :=
  let f := layFmt l
  notLoom f = false ∧ 1 ≤ kb ∧ kb ≤ 512 ∧ 1 ≤ nb ∧ nb ≤ (if f = .f16 then 256 else 512)
    ∧ (layPerm l ≠ 0 → kb % (s.permTable (layPerm l - 1)).len = 0) ∧ (wideFmt f = true ↔ set = .s01)
    ∧ ∀ c, beamClass f = some c → s.capCode c ≠ 0 ∧ s.capCode c ≠ 1

/-- The elements of an operand in memory pass orders 6 to 8 of R266, without a wait, under these translations (R261, R263). -/
def State.OperandReads (s : State) (es : List ElemAt) (span : Nat) (ps : List (Nat × Leaf)) : Prop :=
  let bs := es.flatMap fun e => [e.va, e.va + e.bytes - 1]
  let pages := distinct ((bs.filter fun a => decide (a < Config.windowBase)).map (· / 4096))
  (∀ a ∈ bs, a < 2 ^ 57
      ∧ (Config.windowBase ≤ a → spadIn s.myCrew (a - Config.windowBase) 1 = true
          ∧ let l := s.lineState (lineOf (spadAddr s.myCrew (a - Config.windowBase)))
            l.empty = true ∨ l.tag.toNat = span))
    ∧ reachPages s.cur 4 s.myComm.tenant .read true pages s [] = .inl (s, ps)
    ∧ ∀ p ∈ ps, regionOf (p.2.phys (4096 * p.1)) ≠ .mart
        ∧ (bitOf s.me.control.toNat 0 = true → p.2.stamp = 0 ∨ p.2.stamp = s.contract)

/-- An MLOOP or MSTEP that names this set and accumulator tile, with A of a format, and a loop word, finds the beam b and passes orders 4
and 5 of R266 (R244, R256, R257). -/
def State.LoopFits (s : State) (set : Nat) (acc lw : W64) (af : Fmt) (b : Beam) : Prop :=
  let nks := loopSteps lw.toNat
  claimOf (s.loom (coreOf s.cur)) set s.me.crew = some b ∧ bitsOf lw.toNat 21 19 = 0 ∧ pairAcc b.fmt af = some (descFmt acc)
    ∧ b.kb % nks = 0 ∧ descCols acc = b.nb ∧ loopArow0 lw.toNat + loopRows lw.toNat ≤ descRows acc
    ∧ (wideFmt b.fmt = true → set = 0) ∧ (b.perm ≠ 0 → (s.permTable (b.perm - 1)).loads = b.table.loads)
    ∧ s.capCode (classNum (classFor b.fmt af)) ≠ 0 ∧ s.capCode (classNum (classFor b.fmt af)) ≠ 1

/-- Ranges of bytes pass checks 1 to 5 of R131 without a wait, a page that is translated already with its translation: the translations
ps become qs (R279). -/
def State.RangesReach (s : State) (rs : List (Nat × Nat)) (kind : Nat) (u : PageUse) (ps qs : List (Nat × Leaf)) : Prop :=
  let pages := distinct ((rs.filter fun r => decide (r.1 < Config.windowBase)).flatMap fun r => pagesOf r.1 r.2)
  (∀ r ∈ rs, ∀ a ∈ [r.1, r.1 + r.2 - 1], a < 2 ^ 57 ∧ (Config.windowBase ≤ a → spadIn s.myCrew (a - Config.windowBase) 1 = true))
    ∧ reachPages s.cur kind s.myComm.tenant u false pages s ps = .inl (s, qs)

/-- The future that an operation of a crew held under this TAG has its final value, where its bench runs or the future was detached (R269,
R272). e is the entry that it had. -/
def FutureEnds (s t : State) (crew tag : Nat) (v : W64) (e : FutEntry) : Prop :=
  (e.detached = true → ∃ e', futEntry (t.crew crew) tag = some e' ∧ e'.value = v)
    ∧ (e.detached = false → (s.bench (benchOf e.ctx)).stopped = false →
        fGet (t.ctx e.ctx) e.reg.toNat = v ∧ futEntry (t.crew crew) tag = none)

end Sys2Proof.Machine
end

