-- ==== Sys2Proof/WellFormed.lean ====
section
/-! DEFINITION. The instructions that some words encode: the operand limits that the types of Syntax.lean leave open. -/

namespace Sys2Proof

/-- An immediate field does not hold its sentinel (R97). -/
def Lit.wf {n : Nat} : Lit n → Bool
  | .short v => v.toNat != 2 ^ (n - 1)
  | .long _ => true

/-- The captures lie in k0 to k63, at most eight, and none names no register (R95, R150). -/
def Enqueue.wf (e : Enqueue) : Bool :=
  e.qn.toNat ≤ 8 && e.qk.toNat + e.qn.toNat ≤ 64 && (e.qn != 0 || e.qk = 0)

/-- A half-op whose own fields pass the decode checks of R106 with 256 registers declared. -/
def HalfOp.wf (h : HalfOp) : Bool := halfFault 256 h = 0

/-- An instruction is well formed when some words of the manual's encoding stand for it (R95 to R105). A device step
has no words, and every one is well formed. -/
def Instr.wf (i : Instr) : Bool :=
  match i with
  | .addi _ _ l | .andi _ _ l | .ori _ _ l | .xori _ _ l | .movi _ l | .movh _ l | .loop _ l => l.wf
  | .cmpi _ _ _ l => l.wf
  | .ext _ _ pos len _ => pos.toNat + extLen len.toNat ≤ 64
  | .ld8 _ _ _ l | .ld16 _ _ _ l | .ld32 _ _ _ l | .ld64 _ _ _ l => l.wf
  | .st8 _ _ _ l | .st16 _ _ _ l | .st32 _ _ _ l | .st64 _ _ _ l => l.wf
  | .br _ _ l | .jmp l | .call l => l.wf
  | .lrun e | .lloopN e _ | .lloopAny e _ _ => e.wf
  | .mloopMem _ a _ _ _ _ => a.toNat ≤ 61
  | .mloopTile _ _ b _ _ _ | .mstep _ b _ _ _ => b.toNat ≤ 14
  | .cpy _ a _ | .cpyg _ a _ | .cpyz _ a _ | .mupd _ a _ => a.toNat ≤ 58
  | .coll _ a _ _ => a.toNat ≤ 62
  | .srd _ r | .swr _ r => sysAssigned r.toNat
  | .lget _ mask n | .lset _ mask n => !mask || n.toNat < 16
  | .pairedLaneWord h0 h1 => h0.wf && h1.wf && pairFault h0 h1 = 0
  | _ =>
    match laneParts i with
    | some (c, o) => laneFault 256 c o = none
    | none => true

end Sys2Proof
end

