-- ==== Sys2Proof/Certificates/Slice0/Obligations.lean ====
section
/-! DEFINITION. The statements about the machine. Each docstring names the rules of spec/ on which it rests. -/

open Sys2Proof Sys2Proof.Machine

/-! ## Scalar integer words (05 R122 to R129) -/

/-- Major 0x01, three registers: each word completes in every state, and kD receives the value of R122's table; a write to k0 is
discarded (R16). The signed and natural high products are the high halves of the 128-bit products. -/
def Claims.ScalarArithmetic : Prop :=
  ∀ (s : State) (d a b : KReg),
    let x := s.kv a
    let y := s.kv b
    let n := y.toNat % 64
    WritesK (.add d a b) s d (x + y) 4
    ∧ WritesK (.sub d a b) s d (x - y) 4
    ∧ WritesK (.mul d a b) s d (x * y) 4
    ∧ WritesK (.mulh d a b) s d ((x.signExtend 128 * y.signExtend 128).extractLsb' 64 64) 4
    ∧ WritesK (.mulhn d a b) s d ((x.setWidth 128 * y.setWidth 128).extractLsb' 64 64) 4
    ∧ WritesK (.and d a b) s d (x &&& y) 4
    ∧ WritesK (.or d a b) s d (x ||| y) 4
    ∧ WritesK (.xor d a b) s d (x ^^^ y) 4
    ∧ WritesK (.andn d a b) s d (x &&& ~~~y) 4
    ∧ WritesK (.shl d a b) s d (x * BitVec.ofNat 64 (2 ^ n)) 4
    ∧ WritesK (.shr d a b) s d (BitVec.ofNat 64 (x.toNat / 2 ^ n)) 4
    ∧ WritesK (.sra d a b) s d (BitVec.ofInt 64 (x.toInt / 2 ^ n)) 4
    ∧ WritesK (.min d a b) s d (if x.toInt ≤ y.toInt then x else y) 4
    ∧ WritesK (.max d a b) s d (if y.toInt ≤ x.toInt then x else y) 4
    ∧ WritesK (.minn d a b) s d (if x.toNat ≤ y.toNat then x else y) 4
    ∧ WritesK (.maxn d a b) s d (if y.toNat ≤ x.toNat then x else y) 4
    ∧ WritesK (.mov d a) s d x 4

/-- DIV, DIVN, REM and REMN (R123): the quotient is rounded toward zero, a remainder has the sign of the dividend, and a zero
divisor gives all ones or the dividend, without a trap. -/
def Obligations.DivisionRoundsTowardZero : Prop :=
  ∀ (s : State) (d a b : KReg),
    let x := s.kv a
    let y := s.kv b
    WritesK (.div d a b) s d (if y = 0 then BitVec.allOnes 64 else x.sdiv y) 4
    ∧ WritesK (.rem d a b) s d (if y = 0 then x else x.srem y) 4
    ∧ WritesK (.divn d a b) s d (if y = 0 then BitVec.allOnes 64 else x / y) 4
    ∧ WritesK (.remn d a b) s d (if y = 0 then x else x % y) 4

/-- CLZ and POPC (R122): CLZ counts the zeros above the highest one bit, POPC the one bits. -/
def Claims.BitCountsAreExact : Prop :=
  ∀ (s : State) (d a : KReg),
    (∃ n : Nat, n ≤ 64 ∧ WritesK (.clz d a) s d (BitVec.ofNat 64 n) 4
      ∧ (∀ i, 64 - n ≤ i → (s.kv a).getLsbD i = false) ∧ (n < 64 → (s.kv a).getLsbD (63 - n) = true))
    ∧ WritesK (.popc d a) s d (BitVec.ofNat 64 ((List.range 64).countP fun i => (s.kv a).getLsbD i)) 4

/-- Every word of major 0x01 but the divisions (R122): it completes in every state and writes its result. -/
def Obligations.ScalarArithmeticWritesItsResult : Prop := Claims.ScalarArithmetic ∧ Claims.BitCountsAreExact

/-- The value of an immediate that R97 and R124 give: sign-extended from its field or from the literal. -/
def immValue {n : Nat} : Lit n → W64
  | .short v => BitVec.ofInt 64 v.toInt
  | .long v => BitVec.ofInt 64 v.toInt
/-- The bytes of a word with that field. -/
def immBytes {n : Nat} : Lit n → W64
  | .short _ => 4
  | .long _ => 8

/-- The immediate forms, MOVI, MOVH, SEL, LEA, EXT and CGET (R124 to R126, R128): what kD receives, for both forms of the
immediate. The word after a literal follows at 8 bytes. -/
def Claims.ImmediateAndSelectForms : Prop :=
  ∀ (s : State) (d a b : KReg) (l : Lit 14) (sh : BitVec 6) (lsh : BitVec 3) (n : CBit) (pos len : BitVec 6),
    let x := s.kv a
    let i := immValue l
    let w := immBytes l
    let m := if len = 0 then 64 else len.toNat
    WritesK (.addi d a l) s d (x + i) w
    ∧ WritesK (.andi d a l) s d (x &&& i) w
    ∧ WritesK (.ori d a l) s d (x ||| i) w
    ∧ WritesK (.xori d a l) s d (x ^^^ i) w
    ∧ WritesK (.shli d a sh) s d (x * BitVec.ofNat 64 (2 ^ sh.toNat)) 4
    ∧ WritesK (.shri d a sh) s d (BitVec.ofNat 64 (x.toNat / 2 ^ sh.toNat)) 4
    ∧ WritesK (.srai d a sh) s d (BitVec.ofInt 64 (x.toInt / 2 ^ sh.toNat)) 4
    ∧ WritesK (.movi d l) s d i w
    ∧ WritesK (.movh d l) s d (i.extractLsb' 0 32 ++ (s.kv d).extractLsb' 0 32) w
    ∧ WritesK (.sel d n a b) s d (if s.cv n = true then x else s.kv b) 4
    ∧ WritesK (.lea d a b lsh) s d (x + s.kv b * BitVec.ofNat 64 (2 ^ lsh.toNat)) 4
    ∧ WritesK (.cget d n) s d (if s.cv n = true then 1 else 0) 4
    ∧ (pos.toNat + m ≤ 64 →
        WritesK (.ext d a pos len false) s d ((x.extractLsb' pos.toNat m).setWidth 64) 4
        ∧ WritesK (.ext d a pos len true) s d ((x.extractLsb' pos.toNat m).signExtend 64) 4)

/-- A comparison as R98 and R127 name it: signed for LT, LE, GT, GE, natural for LTN, LEN, GTN, GEN. -/
def compares (cc : Cond) (x y : W64) : Bool :=
  match cc with
  | .eq => decide (x = y)
  | .ne => decide (x ≠ y)
  | .lt => x.slt y
  | .le => x.sle y
  | .gt => y.slt x
  | .ge => y.sle x
  | .ltn => x.ult y
  | .len => x.ule y
  | .gtn => y.ult x
  | .gen => y.ule x

/-- CMP, CMPI and CSET write one condition bit and nothing else (R127, R128). -/
def Claims.ComparisonsWriteOneConditionBit : Prop :=
  ∀ (s : State) (n : CBit) (cc : Cond) (a b : KReg) (l : Lit 10),
    WritesC (.cmp n cc a b) s n (compares cc (s.kv a) (s.kv b)) 4
    ∧ WritesC (.cmpi n cc a l) s n (compares cc (s.kv a) (immValue l)) (immBytes l)
    ∧ WritesC (.cset n a) s n (decide (s.kv a ≠ 0)) 4

/-- Comparisons, condition bits, immediate forms, selection (R124 to R128). -/
def Obligations.ComparisonImmediateAndSelectWords : Prop := Claims.ComparisonsWriteOneConditionBit ∧ Claims.ImmediateAndSelectForms

/-- LDK reads the commission's copy of its arguments; an index at or beyond the block reads 0 (R129). -/
def Obligations.ArgumentsComeFromTheCommissionsCopy : Prop :=
  ∀ (s : State) (d : KReg) (idx : BitVec 14),
    WritesK (.ldk d idx) s d (if h : idx.toNat < s.myComm.argv.length then s.myComm.argv[idx.toNat] else 0) 4

/-! ## Control transfer (05 R138 to R145) -/

/-- BR, JMP, CALL, LOOP, JR, RET and NOP complete with the next word where R138 to R140 and R145 put it: a taken branch at
its own address plus four times the offset, the word after the transfer otherwise; bits [63:57] of the PC stay zero (R20). JR and RET trap ALIGN on a target that is no multiple
of 4 (R139); CALL leaves the return address in k63, LOOP its counter in kD.
That a target with a bit of [63:57] set loses it, with no trap of its own, is the model's choice and no rule's (log 75). -/
def Obligations.ControlTransfersReachTheirTargets : Prop :=
  ∀ (s : State) (n : CBit) (sense : Bool) (off : Lit 21) (l : Lit 14) (a d : KReg),
    GoesTo (.br n sense off) s (if s.cv n = sense then s.me.pc + 4 * immValue off else s.me.pc + immBytes off)
    ∧ GoesTo (.jmp off) s (s.me.pc + 4 * immValue off)
    ∧ (∃ t, exec (.call off) s = .next t ∧ t.me.pc = codeAddr (s.me.pc + 4 * immValue off)
        ∧ (∀ r, t.kv r = if r = 0 then 0 else if r = 63 then s.me.pc + immBytes off else s.kv r)
        ∧ t.me = { s.me.afterWord 0 with pc := t.me.pc, k := t.me.k, branches := t.me.branches, branchAt := t.me.branchAt }
        ∧ t = { s with ctxs := t.ctxs, benches := t.benches } ∧ ∀ c, c ≠ s.cur → t.ctx c = s.ctx c)
    ∧ (∃ t, exec (.loop d l) s = .next t
        ∧ t.me.pc = codeAddr (if s.kv d = 0 ∨ s.kv d = 1 then s.me.pc + immBytes l else s.me.pc + 4 * immValue l)
        ∧ (∀ r, t.kv r = if r = 0 then 0 else if r = d ∧ s.kv d ≠ 0 then s.kv d - 1 else s.kv r)
        ∧ t.me = { s.me.afterWord 0 with pc := t.me.pc, k := t.me.k, branches := t.me.branches, branchAt := t.me.branchAt }
        ∧ t = { s with ctxs := t.ctxs, benches := t.benches } ∧ ∀ c, c ≠ s.cur → t.ctx c = s.ctx c)
    ∧ ((s.kv a).toNat % 4 = 0 → GoesTo (.jr a) s (s.kv a))
    ∧ ((s.kv a).toNat % 4 ≠ 0 → Traps (.jr a) s .align 0)
    ∧ ((s.kv 63).toNat % 4 = 0 → GoesTo .ret s (s.kv 63))
    ∧ ((s.kv 63).toNat % 4 ≠ 0 → Traps .ret s .align 0)
    ∧ GoesTo .nop s (s.me.pc + 4)

/-! ## Traps and handler state (14 R377 to R386; 10 R298, R299) -/

/-- TRAPCAUSE of a scalar word (R37): DETAIL in [31:16], REPLAY and STREAM 0, CAUSE in [7:0]. -/
def scalarCause (code detail : Nat) : W64 := BitVec.ofNat 64 (detail % 2 ^ 16 * 2 ^ 16 + code)

/-- Taking a trap (R37, R380, R382): the context enters handler state at TRAPVEC; TRAPCAUSE holds the cause, DETAIL, STREAM and REPLAY,
TRAPPC the address of the scalar word at which it stopped, TRAPLW and TRAPMASK what R37 gives; its registers stay those of the
trapped word. -/
def Claims.TakingATrapEntersHandlerState : Prop :=
  ∀ (s : State) (c : Nat) (t : Trap), s.TrapEnters c →
    TrapTaken s (s.takeTrap c t) c
      (BitVec.ofNat 64 (t.detail % 2 ^ 16 * 2 ^ 16 + (if t.replay then 2 ^ 9 else 0) + (if t.lane then 2 ^ 8 else 0) + causeCode t.cause))
      (if t.lane then t.lw else 0) t.mask

/-- The trap frame (R382, R383): a reader that looks in the core's buffer finds at the frame address k0 to k63, the c-bits, the
resume PC and q0 to q7, as the trapped word left them. The premises say that the frame is aligned to a line and that the core's
store-gather buffer has room for its eight lines. -/
def Claims.TrapFrameHoldsTheTrappedRegisters : Prop :=
  ∀ (s : State) (c : Nat) (t : Trap) (s1 : State) (a : Nat) (l : Option Leaf), s.TrapEnters c →
    s.reach c (s.trapFrame c) 1024 8 1 .write false = .ok s1 a l → a % 128 = 0 →
    (s1.ms.sgb.filter fun e => e.core = coreOf c).length + 8 ≤ Config.sgbEntries →
    let u := s.takeTrap c t
    let rd (off n : Nat) : Nat := leNat (u.readFresh (coreOf c) (a + off) n)
    (∀ r, r < 64 → rd (8 * r) 8 = (kGet (s.ctx c) r).toNat)
      ∧ rd 0x200 2 = (s.ctx c).c.toNat ∧ rd 0x208 8 = (s.ctx c).pc.toNat
      ∧ (t.lane = true → ∀ e rest, (s.ctx c).queue = e :: rest → ∀ i, i < 8 → rd (0x260 + 8 * i) 8 = (e.q.getD i 0).toNat)

/-- Taking a trap: handler state, the trap registers and the frame (R37, R378, R382).
Where the spec leaves a point open, this rests on the model's reading (log 21). -/
def Obligations.TakingATrapSavesTheContext : Prop := Claims.TakingATrapEntersHandlerState ∧ Claims.TrapFrameHoldsTheTrappedRegisters

/-- A trap that has no handler is a crew fault (R384, R386): in handler state, or with a TRAPVEC of 0, the crew is to be saved with kind
FAULT and the record's cause and index are those of the trap; the skein stops as it stands, outside any new handler.
Where the spec leaves a point open, this rests on the model's reading (log 24). -/
def Obligations.TrapWithoutHandlerIsACrewFault : Prop :=
  ∀ (s : State) (c : Nat) (t : Trap), lanesOut (s.ctx c) = false → (s.bench (benchOf c)).stopped = false →
    (s.crew (s.ctx c).crew).saveKind ≠ 3 →
    (s.ctx c).handler = true ∨ ctxTrapVec (s.ctxEntry (s.commOf c).key.ctx) = 0 →
    let u := s.takeTrap c t
    (u.ctx c).stopped = true ∧ (u.ctx c).pc = (s.ctx c).pc ∧ (u.ctx c).handler = (s.ctx c).handler
      ∧ (u.ctx c).trapcause = causeWord t ∧ (u.ctx c).trappc = (s.ctx c).pc
      ∧ (u.crew (s.ctx c).crew).saveKind = 3 ∧ (u.crew (s.ctx c).crew).faultCause = (causeWord t).setWidth 32
      ∧ (u.crew (s.ctx c).crew).faultIndex = (s.ctx c).index ∧ u.mem = s.mem

/-- TRAP and BRK (R299): TRAP traps SYSCALL with DETAIL imm; BRK stops the bench where debug stop is enabled, with nothing else
changed, and traps WATCH with DETAIL 0x1000 + imm otherwise. -/
def Claims.TrapAndBreakWords : Prop :=
  ∀ (s : State) (imm : BitVec 12), s.TrapEnters s.cur →
    (∃ t, exec (.trap imm) s = .next t ∧ TrapTaken s t s.cur (scalarCause 0x14 imm.toNat) 0 0)
    ∧ (bitOf (s.bench (benchOf s.cur)).stopctl.toNat 0 = false →
        ∃ t, exec (.brk imm) s = .next t ∧ TrapTaken s t s.cur (scalarCause 0x13 (0x1000 + imm.toNat)) 0 0)
    ∧ (bitOf (s.bench (benchOf s.cur)).stopctl.toNat 0 = true →
        ∃ t, exec (.brk imm) s = .next t ∧ t = { s with benches := t.benches }
          ∧ (t.bench (benchOf s.cur)).stopped = true ∧ (t.bench (benchOf s.cur)).stopcause = 1
          ∧ ∀ b, b ≠ benchOf s.cur → t.bench b = s.bench b)

/-- YIELD, EXIT and REGION outside handler state, and what each leaves (R142, R144, R299): YIELD notes until which cycle the context gives way; EXIT ends the
scalar stream with its PC at the EXIT and empties the back-queue; REGION opens a region at its own address with the live-in
registers of its entry copied, waits while a copy owns the entry's line, and traps ECC_UNCORR on an entry with an error (R315, R342). A REGION of a skein that is asked to pre-empt stops the skein before it issues (R392); any other beyond the REGN
table traps ILLEGAL 6. -/
def Claims.YieldExitAndRegion : Prop :=
  ∀ (s : State) (idx : BitVec 14),
    (∃ t, exec .yield s = .next t ∧ s.OnlyMe t ∧ t.me = { s.me.afterWord 4 with yieldUntil := s.dev.cycle + 17, yieldSeen := [] })
    ∧ (s.me.handler = false →
      (∃ t, exec .exit s = .next t ∧ t = { s with ctxs := t.ctxs, benches := t.benches } ∧ (∀ c, c ≠ s.cur → t.ctx c = s.ctx c)
        ∧ t.me = { s.me with exited := true, back := [], untested := false, branches := t.me.branches, branchAt := t.me.branchAt })
      ∧ ((secOf s.myComm 2).2 / 16 ≤ idx.toNat → s.me.preempt = none → Traps (.region idx) s .illegal 6)
      ∧ (idx.toNat < (secOf s.myComm 2).2 / 16 → s.me.preempt = none →
          let va := (secOf s.myComm 2).1 + 16 * idx.toNat
          (s.regnEntry s.cur idx.toNat = .wait → exec (.region idx) s = .next s)
          ∧ (∀ s1, s.regnEntry s.cur idx.toNat = .error s1 → exec (.region idx) s = .next (s1.takeTrap s1.cur (scalarTrap .eccUncorr 0)))
          ∧ ∀ s1 e, s.regnEntry s.cur idx.toNat = .got s1 e →
            (∀ l, s.dieView (dieOf s.cur) s.myComm.key.ctx va = .leaf l → e = leNat (s.read (l.phys va) 16))
            ∧ ∃ t, exec (.region idx) s = .next t ∧ t = { s with ctxs := t.ctxs, ms := t.ms, freeCtr := t.freeCtr }
              ∧ (∀ c, c ≠ s.cur → t.ctx c = s.ctx c) ∧ t.me = { s.me.afterWord 4 with region := t.me.region }
              ∧ t.me.region.start = s.me.pc ∧ t.me.region.index = some idx.toNat ∧ t.me.region.committed = false
              ∧ t.me.region.serial = s.me.region.serial + 1
              ∧ (∀ r, 0 < r → smGet 0 t.me.region.k r = if bitOf (bitsOf e 63 0) r then smGet 0 s.me.k r else 0)
              ∧ (∀ n, n < 16 → t.me.region.c.getLsbD n = (s.me.c.getLsbD n && bitOf (bitsOf e 79 64) n)))
      ∧ (s.me.preempt ≠ none →
          ∃ t, exec (.region idx) s = .next t ∧ s.OnlyMe t ∧ t.me = { s.me with preempt := none, stopped := true }))

/-- TRAP, BRK, YIELD, EXIT, NOP and REGION.
Where the spec leaves a point open, this rests on the model's reading (log 13, 25). -/
def Obligations.TrapBreakYieldExitAndRegion : Prop := Claims.TrapAndBreakWords ∧ Claims.YieldExitAndRegion

/-- SRD reads every assigned system register as R29 to R38, R383 and R442 give it. -/
def Claims.SystemRegisterReads : Prop :=
  ∀ (s : State) (d : KReg),
    let x := s.me
    let m := s.myComm
    let w := s.myCrew
    let reads (r : BitVec 12) (v : Nat) : Prop := WritesK (.srd d r) s d (BitVec.ofNat 64 v) 4
    (∀ p ∈ [(1, 0x11), (2, 0x22), (3, 0x23), (4, 0x34), (5, 0x45), (6, 0x46)], m.contract = p.1 → reads 0x000 p.2)
    ∧ reads 0x001 (x.width.toNat + (if x.range then 2 ^ 4 else 0) + x.fusecode.toNat * 2 ^ 8 + x.splits.length * 2 ^ 16
        + x.child.toNat * 2 ^ 20 + x.mdepth * 2 ^ 24 + x.strand.toNat * 2 ^ 32)
    ∧ reads 0x002 (x.index + s.cur % 32 * 2 ^ 8 + s.cur / 32 % 4 * 2 ^ 16 + s.cur / 128 * 2 ^ 24)
    ∧ reads 0x003 (w.x + w.y * 2 ^ 16 + w.z * 2 ^ 32)
    ∧ reads 0x004 (m.nx + m.ny * 2 ^ 16 + m.nz * 2 ^ 32 + m.nskein * 2 ^ 48)
    ∧ reads 0x005 (m.key.id.toNat + m.tenant * 2 ^ 32 + m.prio * 2 ^ 40)
    ∧ reads 0x006 m.depth ∧ reads 0x007 x.control.toNat ∧ reads 0x008 x.trapcause.toNat ∧ reads 0x009 x.trappc.toNat
    ∧ reads 0x00A x.traplw.toNat ∧ reads 0x00B x.trapmask.toNat ∧ reads 0x00C (s.dev.time3 / 3)
    ∧ (let a := ctxFrameBase (s.ctxEntry m.key.ctx) + 1024 * s.cur
       a < 2 ^ 57 → reads 0x00D (a / 1024 * 1024))
    ∧ reads 0x00E ((if s.part.torhw then 4 else 0) + (if s.part.decomp then 2 else 0) + (if s.part.is384P then 0 else 1))
    ∧ (s.part.torhw = true →
        reads 0x010 0x1CE ∧ reads 0x011 0x2CE)
    ∧ (s.part.torhw = false →
        reads 0x010 0x145 ∧ reads 0x011 0x245)
    ∧ reads 0x012 0x2CF ∧ reads 0x013 0x3FF ∧ reads 0x014 0x4FF ∧ reads 0x015 0x4FF ∧ reads 0x016 0 ∧ reads 0x017 0

/-- A register number that the manual does not assign traps ILLEGAL with DETAIL 5, at SRD and at SWR (R29, R298). -/
def Claims.UnassignedSystemRegistersTrap : Prop :=
  ∀ (s : State) (d : KReg) (r : BitVec 12), r = 0x00F ∨ 0x018 ≤ r.toNat →
    Traps (.srd d r) s .illegal 5 ∧ Traps (.swr d r) s .illegal 5

/-- SWR writes the four RW bits of CONTROL and clears SKST.RANGE where it writes it as 1; a write of any other register or field has
no effect (R6, R34, R36). It commits the region (R391). -/
def Claims.SystemRegisterWrites : Prop :=
  ∀ (s : State) (d : KReg) (r : BitVec 12), (r.toNat < 0x018 ∧ r ≠ 0x00F) →
    let y := s.me.afterWord 4
    ∃ t, exec (.swr d r) s = .next t ∧ s.OnlyMe t ∧
      t.me = { y with
        control := if r = 0x007 then (s.kv d) &&& 0xF else y.control
        range := if r = 0x001 ∧ (s.kv d).getLsbD 4 = true then false else y.range
        region := { y.region with committed := true } }

/-- SRD and SWR (R29, R298): reads, writes, and what an unassigned number does. -/
def Obligations.SystemRegistersAreReadAndWritten : Prop := Claims.SystemRegisterReads ∧ Claims.SystemRegisterWrites ∧ Claims.UnassignedSystemRegistersTrap

/-- LGET and LSET (R299): outside handler state they trap ILLEGAL 0x14; in it LGET reads the lane, and 0 at or above the width, and LSET
writes the one lane, and nothing at or above the width, whatever the masks. -/
def Claims.LaneGetAndSetInHandlerState : Prop :=
  ∀ (s : State) (d : KReg) (n : BitVec 8),
    let w := 4 * 2 ^ s.me.width.toNat
    let l := (s.kv d).toNat % 64
    let j := (s.kv d).toNat / 2 ^ 32 % 64
    (s.me.handler = false → ∀ mask, Traps (.lget d mask n) s .illegal 0x14 ∧ Traps (.lset d mask n) s .illegal 0x14)
    ∧ (s.me.handler = true →
      WritesK (.lget d false n) s d (if l < w then (s.vGet s.cur l n.toNat).setWidth 64 else 0) 4
      ∧ WritesK (.lget d true n) s d (if l < w ∧ (mGet s.me n.toNat).getLsbD l = true then 1 else 0) 4
      ∧ (∃ t, exec (.lset d false n) s = .next t ∧ t = { s with ctxs := t.ctxs, vregs := t.vregs }
          ∧ (∀ c, c ≠ s.cur → t.ctx c = s.ctx c) ∧ t.me = s.me.afterWord 4
          ∧ ∀ p, smGet 0 t.vregs p = if p = 256 * physLane s.me s.cur j + n.toNat ∧ j < w then (s.kv d).setWidth 32
              else smGet 0 s.vregs p)
      ∧ (n.toNat < 16 → ∃ t, exec (.lset d true n) s = .next t ∧ s.OnlyMe t ∧ t.me = { s.me.afterWord 4 with m := t.me.m }
          ∧ ∀ i b, i < 16 → b < 64 → (mGet t.me i).getLsbD b =
              if i = n.toNat ∧ 0 < i ∧ b = j ∧ j < w then (s.kv d).getLsbD 0 else (mGet s.me i).getLsbD b))

/-- ERET (R385): outside handler state it traps ILLEGAL 0x14; in it, where the frame answers and holds no error, the context leaves handler
state with k1 to k63, the c-bits and the resume PC of the frame, and its trap registers keep their values. Under eret.skip a
scalar trap resumes after the word. The lanes do as the table of R385 says. -/
def Claims.ReturnFromHandler : Prop :=
  ∀ (s : State) (skip : Bool),
    let w : Instr := if skip then .eretSkip else .eret
    (s.me.handler = false → Traps w s .illegal 0x14)
    ∧ (s.me.handler = true → ∀ s1 a l, s.reach s.cur (s.trapFrame s.cur) 1024 8 0 .read false = .ok s1 a l →
        (∀ i, i < 8 → s1.lineBusy (lineOf a + i) = false) → s1.freshBad (coreOf s.cur) a 1024 = false →
        let rd (off n : Nat) : Nat := leNat (((s1.readFresh (coreOf s.cur) a 1024).drop off).take n)
        let resume : W64 := BitVec.ofNat 64 (rd 0x208 8 % 2 ^ 57 / 4 * 4)
        let x := s.me
        let lanes := bitOf x.trapcause.toNat 8
        let rep := bitOf x.trapcause.toNat 9
        ∃ t, exec w s = .next t ∧ t.me.handler = false ∧ t.mem = s.mem
          ∧ (∀ r : KReg, t.kv r = if r = 0 then 0 else BitVec.ofNat 64 (rd (8 * r.toNat) 8))
          ∧ t.me.c = BitVec.ofNat 16 (rd 0x200 2)
          ∧ t.me.pc = codeAddr (if skip && !lanes then resume + (if hasLiteral (s1.codeWord s.cur resume.toNat) then 8 else 4) else resume)
          ∧ t.me.trapcause = x.trapcause ∧ t.me.trappc = x.trappc ∧ t.me.traplw = x.traplw ∧ t.me.trapmask = x.trapmask
          ∧ (lanes = false → t.me.queue = x.queue ∧ t.me.replay = x.replay)
          ∧ (lanes = true → rep = true → x.trapDone = false → x.trapPush = false →
              (skip = false → t.me.queue = x.queue ∧ t.me.replay = some x.trapmask) ∧ (skip = true → t.me.queue = (laneNext x).queue ∧ t.me.replay = none))
          ∧ (lanes = true → rep = false → x.trapDone = false → x.trapPush = false →
              t.me.queue = (if skip then (laneNext x).queue else x.queue))
          ∧ (lanes = true → x.trapDone = true → x.trapPush = false → t.me.queue = (laneNext x).queue)
          ∧ (lanes = true → x.trapPush = true → t.me.queue = (if skip then x.queue.drop 1 else x.queue)))

/-- LGET, LSET and ERET in handler state (R299, R385).
That the resume PC of the frame loses its bits [63:57] and its two lowest bits is the model's choice (log 26, 75). -/
def Obligations.HandlerWordsAndReturn : Prop := Claims.LaneGetAndSetInHandlerState ∧ Claims.ReturnFromHandler

/-- The scalar words that R384 does not list: they are not issued in handler state. ERET, LGET and LSET are listed. -/
def outsideOnly : Instr → Bool
  | .exit | .region _ | .lrun _ | .lloopN _ _ | .lloopAny _ _ _ | .lsync | .vget _ _ | .votew _ _ | .split _ _ _ | .fuse _
  | .width _ | .talloc _ _ _ | .tfree _ | .thand _ _ _ | .ttake _ _ | .tzero _ | .tcopy _ _ | .mbeamTile _ _ _ _
  | .mbeamMem _ _ _ _ | .mloopMem _ _ _ _ _ _ | .mloopTile _ _ _ _ _ _ | .mstep _ _ _ _ _ | .mcvt _ _ _ | .mperm _ _
  | .mcode _ _ | .cpy _ _ _ | .cpyg _ _ _ | .cpyz _ _ _ | .mupd _ _ _ | .coll _ _ _ _ | .fwait _ _ | .ftest _ _ | .fcan _
  | .fsto _ _ | .fldf _ _ | .bar | .barn _ _ | .barnArrive _ _ | .launch _ _ | .ljoin | .pwrq _ _ | .bcn _ _ | .trap _
  | .brk _ => true
  | _ => false

/-- The v-registers that a COLL names are below the commission's declared count, which is a check of decoding (R106, R276). -/
def groupDeclared (s : State) : Instr → Prop
  | .coll _ _ b _ => b.toNat + 2 < s.myComm.vregs
  | _ => True

/-- MBEAM, MLOOP and MSTEP, whose class is checked once their formats are known (R266). -/
def loomWord : Instr → Bool
  | .mbeamTile _ _ _ _ | .mbeamMem _ _ _ _ | .mloopMem _ _ _ _ _ _ | .mloopTile _ _ _ _ _ _ | .mstep _ _ _ _ _ => true
  | _ => false

/-- In handler state every scalar word that R384 does not list, but those of the Loom, traps ILLEGAL with DETAIL 0x18, and does nothing else; a
COLL whose register group is not declared has failed its decoding before. -/
def Claims.HandlerStateRefusesScalarWords : Prop :=
  ∀ (s : State) (i : Instr), outsideOnly i = true → loomWord i = false → s.me.handler = true → groupDeclared s i → Traps i s .illegal 0x18

/-- In handler state an MBEAM, MLOOP or MSTEP always traps; where it would pass its checks of width, handles, words and class, it traps ILLEGAL
0x18: the class is check 7 of R106, which comes before (R266, R384; log 78). -/
def Claims.HandlerStateRefusesLoomWords : Prop :=
  ∀ (s : State) (d : FReg) (a b : KReg) (h : HReg) (set : BeamSet) (st keep drop : Bool), s.me.handler = true →
    let w := s.myCrew
    let lay := (s.kv b).toNat
    let lw := s.kv a
    let l := s.kv (a + 2)
    let n := if st then 1 else 0
    (∀ i, loomWord i = true → ∃ cause detail, Traps i s cause detail
      ∧ cause ∈ [Cause.matrixWidth, .handleStale, .handleForeign, .layoutMismatch, .illegal])
    ∧ (3 ≤ s.me.width.toNat →
      (∀ i, HandleIs w s.me.index (hGet s.me h) i → layBad lay false = false → layPitch lay = 0 → laySpan lay = 0 →
          let desc := (slotOf w i).desc
          layFmt lay = descFmt desc → s.BeamFits set lay (if layTrans lay then descCols desc else descRows desc)
            (if layTrans lay then descRows desc else descCols desc) → Traps (.mbeamTile d h b set) s .illegal 0x18)
      ∧ (layBad lay false = false → s.BeamFits set lay (layKm1 lay + 1) (layNm1 lay + 1) → Traps (.mbeamMem d a b set) s .illegal 0x18)
      ∧ (∀ i beam, HandleIs w s.me.index (hGet s.me h) i → s.LoopFits n (slotOf w i).desc lw (layFmt l.toNat) beam → loopKinc lw.toNat % 16 = 0 →
          layBad l.toNat true = false → layPerm l.toNat = beam.perm → Traps (.mloopMem d a h st keep drop) s .illegal 0x18)
      ∧ ∀ i j beam, HandleIs w s.me.index (hGet s.me h) i → HandleIs w s.me.index (hGet s.me (h + 1)) j → i ≠ j →
          let x := (slotOf w j).desc
          s.LoopFits n (slotOf w i).desc lw (descFmt x) beam → 0 ≤ loopKinc lw.toNat → (loopRows lw.toNat - 1) * loopRinc lw.toNat < descRows x →
          ((loopSteps lw.toNat - 1 : Nat) : Int) * loopKinc lw.toNat + (beam.kb / loopSteps lw.toNat : Nat) ≤ descCols x →
          Traps (.mloopTile d a h st keep drop) s .illegal 0x18 ∧ Traps (.mstep a h st keep drop) s .illegal 0x18)

/-- In handler state the scalar words that R384 does not list trap. -/
def Obligations.HandlerStateRefusesOtherWords : Prop := Claims.HandlerStateRefusesScalarWords ∧ Claims.HandlerStateRefusesLoomWords

/-! ## The control queue and the back-queue (06 R146 to R156) -/

/-- LRUN, LLOOP.n and LLOOP.any (R146, R150, R151): outside handler state, with the block in the lane section and a slot free, the word
appends one entry with the captured values and goes on at 8 bytes. A block outside the section traps FETCH 2; a full queue is waited
for, but traps ILLEGAL 0xC where the lanes wait on a full back-queue (R156). -/
def Obligations.EnqueueAppendsOneEntry : Prop :=
  ∀ (s : State) (e : Enqueue) (tk : KReg) (tm : MReg), s.me.handler = false →
    let base := (secOf s.myComm 1).1 + 4 * e.blk.toNat
    let len := if e.len = 0 then 64 else e.len.toNat
    let inside := (secOf s.myComm 1).1 ≤ base % 2 ^ 64 ∧ base % 2 ^ 64 + 12 * len ≤ (secOf s.myComm 1).1 + (secOf s.myComm 1).2
    ∀ w ∈ [(Instr.lrun e, EntryKind.run, (0 : W64), (0 : MReg)), (.lloopN e tk, .loopN, s.kv tk, 0),
        (.lloopAny e tk tm, .loopAny, s.kv tk, tm)],
      (inside → s.me.queue.length < 32 →
        ∃ t x, exec w.1 s = .next t ∧ s.OnlyMe t
          ∧ t.me = { s.me.afterWord 8 with queue := s.me.queue ++ [x], lpc := x.block }
          ∧ x.kind = w.2.1 ∧ x.block = BitVec.ofNat 64 base ∧ x.len = len ∧ x.msel = e.msel
          ∧ (∀ i, i < 8 → x.q[i]? = some (if i < e.qn.toNat then kGet s.me (e.qk.toNat + i) else 0))
          ∧ x.control = s.me.control ∧ x.count = w.2.2.1 ∧ x.tm = w.2.2.2
          ∧ x.started = false ∧ x.word = 0 ∧ x.trip = 0)
      ∧ (¬ inside → Traps w.1 s .fetch 2)
      ∧ (inside → 32 ≤ s.me.queue.length → s.backStuck s.cur = true → Traps w.1 s .illegal 0xC)
      ∧ (inside → 32 ≤ s.me.queue.length → s.backStuck s.cur = false → exec w.1 s = .next s)

/-- LANE_ENTRY_START (R152, R157): the lanes take the head entry. A RUN entry starts as it is; a repeating entry of count 0 leaves the
queue; at depth 32 the push traps; otherwise a loop entry with the top's value is pushed. Nothing else of the context changes but
the region's shadow and the trace's branch outcomes. -/
def Claims.EntriesStartAsTheyAreMade : Prop :=
  ∀ (s : State) (c : Nat) (e : QEntry) (rest : List QEntry), s.lanesGo c = true → (s.ctx c).queue = e :: rest → e.started = false →
    let x := s.ctx c
    (e.kind ≠ .run → e.count = 0 → exec (.laneEntryStart c) s = .next (s.setCtx c { x with queue := rest }))
    ∧ (e.kind ≠ .run → e.count ≠ 0 → x.stack.length = 32 →
        exec (.laneEntryStart c) s = .next (s.takeTrap c { wholeTrap x .illegal 8 0 with pushLoop := true }))
    ∧ (e.kind = .run ∨ (e.count ≠ 0 ∧ x.stack.length ≠ 32) →
        ∃ t e', exec (.laneEntryStart c) s = .next t ∧ t = { s with ctxs := t.ctxs, benches := t.benches }
          ∧ (∀ j, j ≠ c → t.ctx j = s.ctx j)
          ∧ e' = { e with started := true, depth0 := x.stack.length, word := if e.kind = .loopAny then e.len else 0 }
          ∧ t.ctx c = { x with queue := e' :: rest
                               stack := if e.kind = .run then x.stack else { value := topMask x, rest := 0, loop := true } :: x.stack
                               region := { x.region with shadow := (t.ctx c).region.shadow }
                               branches := (t.ctx c).branches, branchAt := (t.ctx c).branchAt })

/-- LOOP_TRIP_TEST (R152): once the lane words before it have retired, an LLOOP.any entry makes another trip where the bound is not
reached and its mask has a bit in the loop entry, and leaves the queue otherwise; an LLOOP.n entry that stands past its block
makes its next trip. A trip starts with the stack cut to the loop entry; the end of the loop cuts it away. -/
def Claims.LoopsTestBeforeEachTrip : Prop :=
  ∀ (s : State) (c : Nat) (e : QEntry) (rest : List QEntry), s.lanesGo c = true → (s.ctx c).queue = e :: rest → e.started = true →
    e.len ≤ e.word → (s.ctx c).unret = [] →
    let x := s.ctx c
    let go := e.kind = .loopN ∨ (e.trip < e.count.toNat ∧ mGet x e.tm.toNat &&& loopValue x e.depth0 &&& onesW x.width ≠ 0)
    ∃ t, exec (.loopTripTest c) s = .next t ∧ t = { s with ctxs := t.ctxs, benches := t.benches } ∧ (∀ j, j ≠ c → t.ctx j = s.ctx j)
      ∧ (go → t.ctx c = { x with queue := { e with word := 0 } :: rest, stack := x.stack.drop (x.stack.length - (e.depth0 + 1))
                                 branches := (t.ctx c).branches, branchAt := (t.ctx c).branchAt })
      ∧ (¬ go → t.ctx c = { x with queue := rest, stack := x.stack.drop (x.stack.length - e.depth0)
                                   mdepth := (x.stack.drop (x.stack.length - e.depth0)).length
                                   branches := (t.ctx c).branches, branchAt := (t.ctx c).branchAt })

/-- Control-queue entries start in order, and a loop tests before each trip (R147 to R152). -/
def Obligations.EntriesStartAndLoopsTest : Prop := Claims.EntriesStartAsTheyAreMade ∧ Claims.LoopsTestBeforeEachTrip

/-- LSYNC, VOTEW, VGET and WIDTH (R153, R155, R161): LSYNC goes on once the queue is empty and every lane word has retired, its loads
returned, and waits otherwise. VOTEW and VGET take the oldest entry of their kind, trap ILLEGAL 0xA on the other kind and
0xB where nothing can come, and wait otherwise. WIDTH samples the free contexts, the live lanes and the width. -/
def Obligations.LaneFactsReachTheScalarSide : Prop :=
  ∀ (s : State) (d : KReg) (n : CBit), s.me.handler = false →
    (s.me.queue = [] → s.me.unret = [] →
        ∃ t, exec .lsync s = .next t ∧ s.OnlyMe t ∧ t.me = s.me.afterWord 4)
    ∧ (¬ (s.me.queue = [] ∧ s.me.unret = []) → exec .lsync s = .next s)
    ∧ (∀ (e : BackEntry) (rest : List BackEntry) (vote : Bool), s.me.back = e :: rest →
        let w : Instr := if vote then .votew d n else .vget d n
        (e.vote = vote → ∃ t, exec w s = .next t ∧ s.OnlyMe t
          ∧ t.me = { s.me.afterWord 4 with back := rest, k := t.me.k, c := t.me.c }
          ∧ (∀ r, t.kv r = if r = 0 then 0 else if r = d then e.value else s.kv r)
          ∧ ∀ r, t.cv r = if r = n then (if vote then decide (e.value ≠ 0) else e.valid) else s.cv r)
        ∧ (e.vote ≠ vote → Traps w s .illegal 0xA))
    ∧ (s.me.back = [] → s.me.queue = [] → s.me.unret = [] → Traps (.votew d n) s .illegal 0xB ∧ Traps (.vget d n) s .illegal 0xB)
    ∧ (s.me.back = [] → ¬ (s.me.queue = [] ∧ s.me.unret = []) → exec (.votew d n) s = .next s ∧ exec (.vget d n) s = .next s)
    ∧ (let free := ((List.range 32).filter fun i => !(s.ctx (32 * (s.cur / 32) + i)).live).length
       let live := (List.range 64).countP fun l => s.me.base.getLsbD l
       WritesK (.width d) s d (BitVec.ofNat 64 (free * 2 ^ 16 + live * 2 ^ 8 + 4 * 2 ^ s.me.width.toNat)) 4)

/-! ## Skein width (06 R162 to R167) -/

/-- SPLIT (R162 to R164): a width not below the current one traps ILLEGAL 0xD. Until the skein is quiet it waits, and what the core's buffer holds
of the skein drains (R312). Once the skein is quiet, with too few contexts or indices
free it clears cN and kD, commits the region (R391) and changes nothing else; otherwise child j stands in its context with its slice of the masks, its number in
kD and 1 in cN, and no lane register moves. -/
def Claims.SplitMakesChildren : Prop :=
  ∀ (s : State) (d : KReg) (n : CBit) (w : BitVec 2), s.me.handler = false → s.me.live = true →
    (s.me.width.toNat ≤ w.toNat → Traps (.split d n w) s .illegal 0xD)
    ∧ (w.toNat < s.me.width.toNat →
      (¬ (s.me.queue = [] ∧ s.me.unret = []) → exec (.split d n w) s = .next s)
      ∧ (s.me.queue = [] → s.me.unret = [] → s.me.out ≠ [] → exec (.split d n w) s = .next (s.sgbDrainCtx s.cur)))
    ∧ (w.toNat < s.me.width.toNat → s.me.queue = [] → s.me.unret = [] → s.me.out = [] →
      let k := 2 ^ (s.me.width.toNat - w.toNat)
      let lanes := 4 * 2 ^ w.toNat
      let part (j : Nat) (v : W64) : W64 := (v >>> (j * lanes)) &&& BitVec.ofNat 64 (2 ^ lanes - 1)
      let cs := (s.freeCtxs (benchOf s.cur)).take (k - 1)
      let is := (s.freeIndices s.me.crew).take (k - 1)
      (cs.length < k - 1 ∨ is.length < k - 1 →
        ∃ t, exec (.split d n w) s = .next t ∧ s.OnlyMe t ∧ t.me = { s.me.afterCommit 4 with k := t.me.k, c := t.me.c }
          ∧ (∀ r, t.kv r = if r = 0 ∨ r = d then 0 else s.kv r) ∧ ∀ r, t.cv r = if r = n then false else s.cv r)
      ∧ (cs.length = k - 1 → is.length = k - 1 →
        ∃ t, exec (.split d n w) s = .next t ∧ t = { s with ctxs := t.ctxs, families := t.families, nextFamily := s.nextFamily + 1 }
          ∧ (∀ c, c ≠ s.cur → c ∉ cs → t.ctx c = s.ctx c)
          ∧ ∀ (j c i : Nat), ((s.cur :: cs).zip (s.me.index :: is))[j]? = some (c, i) →
            let y := t.ctx c
            y.live = true ∧ y.crew = s.me.crew ∧ y.index = i ∧ y.width.toNat = w.toNat
              ∧ y.strand = s.me.strand + BitVec.ofNat 6 (j * (lanes / 4)) ∧ y.child = BitVec.ofNat 4 j ∧ y.fusecode = 0
              ∧ y.splits.length = s.me.splits.length + 1 ∧ y.pc = codeAddr (s.me.pc + 4) ∧ y.control = s.me.control ∧ y.range = s.me.range
              ∧ (∀ r : KReg, kGet y r.toNat = if r = 0 then 0 else if r = d then BitVec.ofNat 64 j else s.kv r)
              ∧ (∀ r, cGet y r = if r = n then true else s.cv r)
              ∧ (∀ r, r < 16 → fGet y r = if j = 0 then fGet s.me r else 0)
              ∧ (∀ r, hGet y r = if j = 0 then hGet s.me r else 0)
              ∧ (∀ m, m < 16 → smGet 0 y.m m = part j (smGet 0 s.me.m m)) ∧ y.base = part j s.me.base
              ∧ y.stack = s.me.stack.map (fun e => { e with value := part j e.value, rest := part j e.rest })
              ∧ y.queue = [] ∧ y.back = if j = 0 then s.me.back else []))

/-- FUSE (R164 to R167, R169): at split depth 0 it traps ILLEGAL 0xE. A sibling that is not quiet waits, as SPLIT does. A quiet one arrives, once its
copies have read the source bytes of what it gave them (log 16), and waits while a sibling has neither arrived nor ended, or one that has arrived
has stopped or trapped. The last one completes the FUSE where depths and tags agree: the lowest-numbered sibling that arrived stands past its FUSE
with the parent's place and the m-registers and mask-stack entries of all that arrived put together, and the others' contexts are free. Otherwise the
depths give FUSECODE 3 and the tags FUSECODE 4, every sibling stays split, and each that arrived traps FUSE_MISMATCH with that DETAIL: it has taken
the trap, or will as soon as it can. -/
def Claims.FuseJoinsSiblings : Prop :=
  ∀ (s : State) (a : KReg), s.me.handler = false →
    (s.me.splits = [] → Traps (.fuse a) s .illegal 0xE)
    ∧ (s.me.splits ≠ [] → (∃ tag, s.me.wait = .fuse tag) → exec (.fuse a) s = .next s)
    ∧ ∀ (l : SplitLevel) (up : List SplitLevel), s.me.splits = l :: up → s.me.wait = .none →
      (¬ (s.me.queue = [] ∧ s.me.unret = []) → exec (.fuse a) s = .next s)
      ∧ (s.me.queue = [] → s.me.unret = [] → s.me.out ≠ [] → exec (.fuse a) s = .next (s.sgbDrainCtx s.cur))
      ∧ (s.me.queue = [] → s.me.unret = [] → s.me.out = [] →
      (s.readsOut s.cur = true → exec (.fuse a) s = .next s) ∧ (s.readsOut s.cur = false →
      let s1 := s.setMe { s.me with wait := .fuse (s.kv a), region := { s.me.region with committed := true } }
      let f := smGet Family.empty s.families l.family
      let cs := s1.arrived l.family
      let still (e : Nat) : Prop := (s1.ctx e).stopped = false ∧ (s1.ctx e).handler = false ∧ (s1.ctx e).pend = none
      (cs.length + f.ended.length < f.n ∨ (∃ e ∈ cs, ¬ still e) → exec (.fuse a) s = .next s1)
      ∧ ∀ (c : Nat) (rest : List Nat), cs = c :: rest → f.n ≤ cs.length + f.ended.length → (∀ e ∈ cs, still e) →
        let x := s1.ctx c
        let same := ∀ e ∈ rest, (s1.ctx e).stack.length = x.stack.length
        let tags := ∀ e ∈ rest, waitTag (s1.ctx e).wait = waitTag x.wait
        let joined (g : Skein → W64) : W64 :=
          cs.foldl (fun (m : W64) e => m ||| g (s1.ctx e) <<< ((s1.ctx e).child.toNat * (4 * 2 ^ f.wcode.toNat))) 0
        let mismatch (code : Nat) : Prop := ∃ t, exec (.fuse a) s = .next t ∧ ∀ e ∈ cs,
          let y := t.ctx e
          y.fusecode.toNat = code ∧ y.splits = (s1.ctx e).splits
            ∧ (y.pend = some (scalarTrap .fuseMismatch code) ∨ y.trapcause = scalarCause (causeCode .fuseMismatch) code)
        (same → tags →
          ∃ t, exec (.fuse a) s = .next t ∧ t.mem = s.mem ∧ t.vregs = s.vregs
            ∧ (let y := t.ctx c
               y.width = f.pWidth ∧ y.strand = f.pStrand ∧ y.child = f.pChild ∧ y.index = f.index ∧ y.splits = f.up
                ∧ y.pc = codeAddr (x.pc + 4) ∧ y.k = x.k ∧ y.c = x.c ∧ y.f = x.f ∧ y.h = x.h ∧ y.control = x.control ∧ y.wait = .none
                ∧ y.stack.length = x.stack.length ∧ y.fusecode = (if cs.length < f.n then 2 else 1)
                ∧ y.range = cs.any (fun e => (s1.ctx e).range)
                ∧ y.base = joined (·.base) ∧ (∀ n, n < 16 → smGet 0 y.m n = joined fun z => smGet 0 z.m n)
                ∧ (∀ (n : Nat) (q : MaskEntry), y.stack[n]? = some q → q.value = joined (fun (z : Skein) => match z.stack[n]? with | some (p : MaskEntry) => p.value | none => 0)
                    ∧ q.rest = joined fun (z : Skein) => match z.stack[n]? with | some (p : MaskEntry) => p.rest | none => 0)
                ∧ y.back = x.back ∧ y.trapcause = x.trapcause ∧ y.trappc = x.trappc ∧ y.traplw = x.traplw ∧ y.trapmask = x.trapmask)
            ∧ ∀ e ∈ rest, e ≠ c → (t.ctx e).live = false)
        ∧ (¬ same → mismatch 3)
        ∧ (same → ¬ tags → mismatch 4)))

/-- SPLIT and FUSE (R163 to R167).
Where the spec leaves a point open, this rests on the model's reading (log 16, 23). -/
def Obligations.SplitAndFuse : Prop := Claims.SplitMakesChildren ∧ Claims.FuseJoinsSiblings

/-! ## The mask stack (06 R157, R158) and the lanes' progress (06 R147, R152) -/

/-- How the lanes move on after a word (R147, R152, R379): to the next word of the block, to the next entry after a RUN block, and
at the end of a repeating block to its next trip, or past it with the stack cut; the word is on its way to retire, with the depth it leaves. -/
def Claims.LanesMoveOnWordByWord : Prop :=
  ∀ (x : Skein) (e : QEntry) (rest : List QEntry) (range : Bool) (p : Option Path), x.queue = e :: rest →
    let y := laneStep range p x
    y.replay = none ∧ y.decodeAt = none ∧ y.unret = x.unret ++ [{ range, depth := y.stack.length, awaits := p }]
      ∧ (e.word + 1 < e.len → y.queue = { e with word := e.word + 1 } :: rest ∧ y.stack = x.stack)
      ∧ (e.len ≤ e.word + 1 → e.kind = .run → y.queue = rest ∧ y.stack = x.stack)
      ∧ (e.len ≤ e.word + 1 → e.kind = .loopAny → y.queue = { e with word := e.len, trip := e.trip + 1 } :: rest ∧ y.stack = x.stack)
      ∧ (e.len ≤ e.word + 1 → e.kind = .loopN → e.trip + 1 < e.count.toNat →
          y.queue = { e with word := e.len, trip := e.trip + 1 } :: rest ∧ y.stack = x.stack)
      ∧ (e.len ≤ e.word + 1 → e.kind = .loopN → e.count.toNat ≤ e.trip + 1 →
          y.queue = rest ∧ y.stack = x.stack.drop (x.stack.length - e.depth0))

/-- MPUSH, MELSE, MPOP and MBREAK (R157, R158): what each does to the stack, and the traps ILLEGAL 7, 8 and 9 with TRAPMASK 0. -/
def Claims.MaskStackWords : Prop :=
  ∀ (s : State) (o : LaneOp),
    let act := s.act o.msel
    let m := mGet s.me o.s1.toNat
    (s.me.stack.length = 32 → TrapsWhole (.mpush o) s .illegal 8 act 0)
    ∧ (s.me.stack.length ≠ 32 → LaneCompletes (.mpush o) s false
        { s.me with stack := { value := act &&& m, rest := act &&& ~~~m, loop := false } :: s.me.stack })
    ∧ (s.me.stack = [] → TrapsWhole (.melse o) s .illegal 9 act 0 ∧ TrapsWhole (.mpop o) s .illegal 9 act 0)
    ∧ (∀ e rest, s.me.stack = e :: rest →
        (e.loop = true → TrapsWhole (.melse o) s .illegal 9 act 0 ∧ TrapsWhole (.mpop o) s .illegal 9 act 0)
        ∧ (e.loop = false →
            LaneCompletes (.melse o) s false { s.me with stack := { e with value := e.rest, rest := 0 } :: rest }
            ∧ LaneCompletes (.mpop o) s false { s.me with stack := rest }))
    ∧ (∀ e rest, s.me.queue = e :: rest →
        (e.kind = .run → TrapsWhole (.mbreak o) s .illegal 7 act 0)
        ∧ (e.kind ≠ .run → ∀ (inner outer : List MaskEntry) (l : MaskEntry), s.me.stack = inner ++ l :: outer →
            (∀ x ∈ inner, x.loop = false) → l.loop = true →
            LaneCompletes (.mbreak o) s false
              { s.me with stack := (inner ++ [l]).map (fun x => { x with value := x.value &&& ~~~act, rest := x.rest &&& ~~~act }) ++ outer }))

/-- VOTE and VSEND (R154, R379): once every earlier lane word has retired, each makes exactly one entry, whatever lanes are active; it
waits while the back-queue is full, and after EXIT the entry is discarded. -/
def Claims.VoteAndSendMakeOneEntry : Prop :=
  ∀ (s : State) (o : LaneOp),
    let act := s.act o.msel
    let voted : BackEntry := { vote := true, valid := true, value := mGet s.me o.s1.toNat &&& act }
    (s.me.unret ≠ [] → exec (.vote o) s = .next s ∧ exec (.vsend o) s = .next s)
    ∧ (s.me.unret = [] → s.me.exited = true → LaneCompletes (.vote o) s false s.me ∧ LaneCompletes (.vsend o) s false s.me)
    ∧ (s.me.unret = [] → s.me.exited = false → 8 ≤ s.me.back.length → exec (.vote o) s = .next s ∧ exec (.vsend o) s = .next s)
    ∧ (s.me.unret = [] → s.me.exited = false → s.me.back.length < 8 →
        LaneCompletes (.vote o) s false { s.me with back := s.me.back ++ [voted] }
        ∧ (∀ l, s.active o.msel l → (∀ j, j < l → ¬ s.active o.msel j) →
            LaneCompletes (.vsend o) s false
              { s.me with back := s.me.back ++ [{ vote := false, valid := true, value := (s.lv l o.s1.toNat).setWidth 64 }] })
        ∧ ((∀ l, ¬ s.active o.msel l) →
            LaneCompletes (.vsend o) s false { s.me with back := s.me.back ++ [{ vote := false, valid := false, value := 0 }] }))

/-- The lanes move on word by word; VOTE and VSEND make back-queue entries. -/
def Obligations.LanesMoveOnAndReport : Prop := Claims.LanesMoveOnWordByWord ∧ Claims.VoteAndSendMakeOneEntry

/-! ## Lane arithmetic (07 R172 to R195) -/

/-- An integer type is signed (R52). -/
def signedType (f : Fmt) : Bool := f == .s32 || f == .s8
/-- A pattern read under an integer type (R178). -/
def typedValue {n : Nat} (f : Fmt) (x : BitVec n) : Int := if signedType f then x.toInt else x.toNat
/-- The exact result as a pattern of n bits: modulo 2^n, or clamped to the range of the type (R178). -/
def typedResult (n : Nat) (f : Fmt) (sat : Bool) (x : Int) : BitVec n :=
  let lo : Int := if signedType f then -2 ^ (n - 1) else 0
  let hi : Int := if signedType f then 2 ^ (n - 1) - 1 else 2 ^ n - 1
  BitVec.ofInt n (if sat then max lo (min hi x) else x)

/-- VADD, VSUB, VMUL, VMAD, VMULH, VMIN and VMAX (R177, R178): the exact result modulo 2^n or clamped, per lane, and per byte of a packed
type; VMULH gives the high half of the 64-bit product. -/
def Claims.LaneIntegerArithmetic : Prop :=
  ∀ (s : State) (o : LaneOp),
    let a := s.src1 o
    let b := s.src2 o
    let c := s.src3 o
    let byte (x : W32) (i : Nat) : BitVec 8 := x.extractLsb' (8 * i) 8
    let v {n : Nat} (x : BitVec n) : Int := typedValue o.ty x
    let whole (i : Instr) (sat : Bool) (g : Int → Int → Int → Int) : Prop :=
      LanesReceive i o s false fun l => typedResult 32 o.ty sat (g (v (a l)) (v (b l)) (v (c l)))
    let packed (i : Instr) (sat : Bool) (g : Int → Int → Int) : Prop :=
      ∃ f, LanesReceive i o s false f ∧ ∀ l k, k < 4 → byte (f l) k = typedResult 8 o.ty sat (g (v (byte (a l) k)) (v (byte (b l) k)))
    (o.ty = .s32 ∨ o.ty = .n32 →
      whole (.vadd o) o.sat (fun x y _ => x + y) ∧ whole (.vsub o) o.sat (fun x y _ => x - y)
      ∧ whole (.vmul o) o.sat (fun x y _ => x * y) ∧ whole (.vmad o) o.sat (fun x y z => x * y + z)
      ∧ whole (.vmin o) false (fun x y _ => min x y) ∧ whole (.vmax o) false (fun x y _ => max x y))
    ∧ (o.ty = .s8 ∨ o.ty = .n8 →
      packed (.vadd o) o.sat (fun x y => x + y) ∧ packed (.vsub o) o.sat (fun x y => x - y)
      ∧ packed (.vmin o) false min ∧ packed (.vmax o) false max)
    ∧ (o.ty = .s32 → LanesReceive (.vmulh o) o s false fun l => ((a l).signExtend 64 * (b l).signExtend 64).extractLsb' 32 32)
    ∧ (o.ty = .n32 → LanesReceive (.vmulh o) o s false fun l => ((a l).setWidth 64 * (b l).setWidth 64).extractLsb' 32 32)

/-- The type-neutral words, VBFX, VLANE and VCMP (R174, R178 to R182): bitwise and shift results, bit counts and reversal, bit
fields, selection by a mask, lane numbers, and comparisons into a mask register. -/
def Claims.LaneBitWords : Prop :=
  ∀ (s : State) (o : LaneOp),
    let a := s.src1 o
    let b := s.src2 o
    let n (l : Nat) : Nat := (b l).toNat % 32
    let pos := immBits o 4 0
    let len := immBits o 10 5
    let r := if o.reach = 0 then s.w else min s.w (2 ^ (o.reach.toNat + 1))
    LanesReceive (.vand o) o s false (fun l => a l &&& b l)
    ∧ LanesReceive (.vor o) o s false (fun l => a l ||| b l)
    ∧ LanesReceive (.vxor o) o s false (fun l => a l ^^^ b l)
    ∧ LanesReceive (.vandn o) o s false (fun l => a l &&& ~~~b l)
    ∧ LanesReceive (.vshl o) o s false (fun l => BitVec.ofNat 32 ((a l).toNat * 2 ^ n l))
    ∧ LanesReceive (.vshr o) o s false (fun l => BitVec.ofNat 32 ((a l).toNat / 2 ^ n l))
    ∧ LanesReceive (.vsra o) o s false (fun l => BitVec.ofInt 32 ((a l).toInt / 2 ^ n l))
    ∧ LanesReceive (.vmov o) o s false a
    ∧ LanesReceive (.vpopc o) o s false (fun l => BitVec.ofNat 32 ((List.range 32).countP fun i => (a l).getLsbD i))
    ∧ (∃ z : Nat → Nat, LanesReceive (.vclz o) o s false (fun l => BitVec.ofNat 32 (z l))
        ∧ ∀ l, z l ≤ 32 ∧ (∀ i, 32 - z l ≤ i → (a l).getLsbD i = false) ∧ (z l < 32 → (a l).getLsbD (31 - z l) = true))
    ∧ (∃ f, LanesReceive (.vbrev o) o s false f ∧ ∀ l i, i < 32 → (f l).getLsbD i = (a l).getLsbD (31 - i))
    ∧ LanesReceive (.vsel o) o s false (fun l => if (mGet s.me o.s3.toNat).getLsbD l then a l else b l)
    ∧ (1 ≤ len → pos + len ≤ 32 →
        LanesReceive (.vbfx o) o s false (fun l =>
          if o.ty = .s32 then ((a l).extractLsb' pos len).signExtend 32 else ((a l).extractLsb' pos len).setWidth 32)
        ∧ ∃ f, LanesReceive (.vbfi o) o s false f
            ∧ ∀ l i, i < 32 → (f l).getLsbD i = if pos ≤ i ∧ i < pos + len then (a l).getLsbD (i - pos) else (b l).getLsbD i)
    ∧ (immBits o 1 0 = 0 → LanesReceive (.vlane o) o s false (fun l => BitVec.ofNat 32 l))
    ∧ (immBits o 1 0 = 1 → LanesReceive (.vlane o) o s false (fun l => BitVec.ofNat 32 (l % r)))
    ∧ (immBits o 1 0 = 2 → LanesReceive (.vlane o) o s false (fun l =>
        BitVec.ofNat 32 ((List.range l).countP fun t => decide (t / r = l / r) && (s.act o.msel).getLsbD t)))
    ∧ ∀ cc, condOf (immBits o 3 0) = some cc → MaskReceives (.vcmp o) o s o.dst.toNat fun l =>
        let x := a l
        let y := b l
        match cc with
        | .eq => decide (x = y) | .ne => decide (x ≠ y) | .lt => x.slt y | .le => x.sle y | .gt => y.slt x | .ge => y.sle x
        | .ltn => x.ult y | .len => x.ule y | .gtn => y.ult x | .gen => y.ule x

/-- Lane integer and bit words. -/
def Obligations.LaneIntegerWords : Prop := Claims.LaneIntegerArithmetic ∧ Claims.LaneBitWords

/-- The mask-logic words (R195): the bit of each active lane; bits of inactive lanes and m0 keep their value. MMOV takes the mask or a
q-slot of 64 bits. -/
def Claims.MaskLogicWords : Prop :=
  ∀ (s : State) (o : LaneOp),
    let a (l : Nat) : Bool := (mGet s.me o.s1.toNat).getLsbD l
    let b (l : Nat) : Bool := (mGet s.me o.s2.toNat).getLsbD l
    let d := o.dst.toNat
    MaskReceives (.mand o) o s d (fun l => a l && b l) ∧ MaskReceives (.mor o) o s d (fun l => a l || b l)
    ∧ MaskReceives (.mxor o) o s d (fun l => xor (a l) (b l)) ∧ MaskReceives (.mnot o) o s d (fun l => !a l)
    ∧ MaskReceives (.mmov o) o s d (fun l => if o.sq.getLsbD 2 then (s.qv o.s1.toNat).getLsbD l else a l)

/-- The mask-stack words and the words that write m-registers. -/
def Obligations.MaskWordsWriteMasks : Prop := Claims.MaskStackWords ∧ Claims.MaskLogicWords

/-- A floating-point source of a lane: element 0 of the format, after ABS, then NEG (R102, R184). -/
def floatSource (o : LaneOp) (k : Nat) (x : W32) : Nat :=
  let n := fmtBits o.ty
  let m := x.toNat % 2 ^ n
  let m := if o.abs.getLsbD k then m % 2 ^ (n - 1) else m
  if o.neg.getLsbD k then (m + 2 ^ (n - 1)) % 2 ^ n else m

/-- A lane word traps ILLEGAL 0x103 under an emulated vector unit, whatever its lanes, and is otherwise `w` (R87, R88). -/
def emulatedOr (i : Instr) (o : LaneOp) (s : State) (w : Prop) : Prop :=
  (s.capCode 3 = 1 → TrapsWhole i s .illegal 0x103 (s.act o.msel) (s.act o.msel)) ∧ (s.capCode 3 ≠ 1 → w)

/-- The floating-point words of one format (R183 to R188): VFADD to VFMA by vf_op, VFMIN, VFMAX, VFRND, the function words by fn_eval of
the running contract's revision, and VFCMP into a mask; under an emulated vector unit each traps. -/
def Claims.LaneFloat : Prop :=
  ∀ (s : State) (o : LaneOp), o.ty = .f32 ∨ o.ty = .bf16 ∨ o.ty = .f16 →
    let a (l : Nat) : Nat := floatSource o 2 (s.src1 o l)
    let b (l : Nat) : Nat := floatSource o 1 (s.src2 o l)
    let c (l : Nat) : Nat := floatSource o 0 (s.src3 o l)
    let gives (i : Instr) (f : Nat → Nat) : Prop := emulatedOr i o s (LanesReceive i o s false fun l => BitVec.ofNat 32 (f l))
    let op (x : VfOp) (l : Nat) : Nat := vfOp x o.ty (a l) (b l) (c l) o.rnd o.sat s.flush s.lw l
    let fn (x : Func) (l : Nat) : Nat := fnEval (ftrevOf s.contract) x o.ty (a l) o.rnd s.flush s.lw l
    gives (.vfadd o) (op .add) ∧ gives (.vfsub o) (op .sub) ∧ gives (.vfmul o) (op .mul) ∧ gives (.vfma o) (op .fma)
    ∧ gives (.vfmin o) (fun l => vfMinMax false o.ty (a l) (b l) s.flush)
    ∧ gives (.vfmax o) (fun l => vfMinMax true o.ty (a l) (b l) s.flush)
    ∧ gives (.vfrnd o) (fun l => vfRound o.ty (a l) o.rnd s.flush)
    ∧ gives (.vfrcp o) (fn .rcp) ∧ gives (.vfrsq o) (fn .rsq) ∧ gives (.vfsqrt o) (fn .sqrt) ∧ gives (.vfex2 o) (fn .ex2)
    ∧ gives (.vflg2 o) (fn .lg2) ∧ gives (.vfsin o) (fn .sin) ∧ gives (.vfcos o) (fn .cos) ∧ gives (.vftnh o) (fn .tnh)
    ∧ emulatedOr (.vfcmp o) o s (MaskReceives (.vfcmp o) o s o.dst.toNat fun l => vfCompare (immBits o 3 0) o.ty (a l) (b l) s.flush)

/-- The packed and dot words (R81, R189 to R191): VHADD, VHMUL and VHFMA by vf_op on both halves; VHDOT and VQDOT by loom_group of the
running contract's class, with two and four terms. -/
def Claims.LanePackedFloatWords : Prop :=
  ∀ (s : State) (o : LaneOp),
    let half (k : Nat) (x : W32) (i : Nat) : Nat := absNeg o.ty (o.neg.getLsbD k) (o.abs.getLsbD k) (bitsOf x.toNat (16 * i + 15) (16 * i))
    let halves (i : Instr) (op : VfOp) : Prop := emulatedOr i o s (∃ f, LanesReceive i o s false f ∧ ∀ l k, k < 2 →
      ((f l).extractLsb' (16 * k) 16).toNat = vfOp op o.ty (half 2 (s.src1 o l) k) (half 1 (s.src2 o l) k) (half 0 (s.src3 o l) k)
        o.rnd o.sat s.flush s.lw l % 2 ^ 16)
    let dot (i : Instr) (cls : OpClass) (n : Nat) (bf : Fmt) : Prop := emulatedOr i o s (LanesReceive i o s false fun l =>
      let w := fmtBits o.ty
      let x (j : Nat) : Nat := absNeg o.ty (o.neg.getLsbD 2) (o.abs.getLsbD 2) (bitsOf (s.src1 o l).toNat (w * j + w - 1) (w * j))
      let y (j : Nat) : Nat := absNeg bf (o.neg.getLsbD 1) (o.abs.getLsbD 1) (bitsOf (s.src2 o l).toNat (w * j + w - 1) (w * j))
      let acc := absNeg .f32 (o.neg.getLsbD 0) (o.abs.getLsbD 0) (s.src3 o l).toNat
      let k := classOf s.contract cls
      BitVec.ofNat 32 (vflush s.flush .f32 (loomGroup k n (vflush s.flush .f32 acc)
        ((List.range n).map fun j => loomTerm k o.ty (vflush s.flush o.ty (x j)) bf (vflush s.flush bf (y j))) s.lw l)))
    (o.ty = .bf16 ∨ o.ty = .f16 →
      halves (.vhadd o) .add ∧ halves (.vhmul o) .mul ∧ halves (.vhfma o) .fma ∧ dot (.vhdot o) .c16 2 o.ty)
    ∧ (o.ty = .e4m3 → dot (.vqdot o) .c8 4 (if immBits o 0 0 = 1 then .e5m2 else .e4m3))
    ∧ (o.ty = .e5m2 → dot (.vqdot o) .c8 4 (if immBits o 0 0 = 1 then .e4m3 else .e5m2))

/-- Lane floating-point words, single and packed.
That the function words answer with fnEval, which stands for the exact real by 1400 fractional bits, is the model's choice (log 11). -/
def Obligations.LaneFloatWords : Prop := Claims.LaneFloat ∧ Claims.LanePackedFloatWords

/-- VCVT, VCBX and VCBQ (R192 to R194): the converted element in its place, the others from the merge source or zero; under FLUSH a
subnormal codebook entry is compared as the zero of its sign (R60); and SKST.RANGE is set exactly where an active lane's conversion of VCVT or VCBQ saturates (R67, R175).
Where the spec leaves a point open, this rests on the model's reading (log 66). -/
def Obligations.LaneConversions : Prop :=
  ∀ (s : State) (o : LaneOp),
    let w := fmtBits o.ty
    let src (f : Fmt) (i l : Nat) : Nat :=
      let x := bitsOf (s.src1 o l).toNat (fmtBits f * i + fmtBits f - 1) (fmtBits f * i)
      if isFloat f then absNeg f (o.neg.getLsbD 2) (o.abs.getLsbD 2) x else x
    let keep (merge : Bool) (l : Nat) : W32 := if merge then s.src2 o l else 0
    let some_ (f : Nat → Bool) : Bool := (lanesIn s.w (s.act o.msel)).any f
    (∀ sf, fmtOf (immBits o 3 0) = some sf →
      (isFloat o.ty || isFloat sf) = true ∧ s.capCode 3 = 1 → TrapsWhole (.vcvt o) s .illegal 0x103 (s.act o.msel) (s.act o.msel))
    ∧ (∀ sf, fmtOf (immBits o 3 0) = some sf →
      let r (l : Nat) : Nat × Bool := cvt o.ty sf (src sf (immBits o 6 4) l) o.rnd s.flush
      let merge := decide (immBits o 10 10 = 1)
      let place := immBits o 9 7
      ¬ ((isFloat o.ty || isFloat sf) = true ∧ s.capCode 3 = 1) →
      LanesReceive (.vcvt o) o s (some_ fun l => (r l).2) fun l =>
        if merge = false ∧ place = 0 then widen o.ty (r l).1 else putElem w place (r l).1 (keep merge l))
    ∧ emulatedOr (.vcbx o) o s (LanesReceive (.vcbx o) o s false fun l =>
        let v := cbValue (s.codebook (immBits o 2 0)) (bitsOf (s.src1 o l).toNat (4 * immBits o 5 3 + 3) (4 * immBits o 5 3))
        if o.ty = .f32 then BitVec.ofNat 32 (vflush s.flush .f32 (cvt .f32 .bf16 v .rne false).1)
        else putElem 16 (immBits o 6 6) (vflush s.flush .bf16 (if isNan .bf16 v then quietNan .bf16 v else v))
          (keep (decide (immBits o 7 7 = 1)) l))
    ∧ (let slot (l : Nat) : Nat := if immBits o 7 7 = 1 then
          slotOfChannel (s.permTable (immBits o 9 8)) (immBits o 2 0) (immBits o 13 10) (s.src3 o l).toNat
        else immBits o 2 0
       let entries (i : Nat) : List W16 := (s.codebook i).map fun w => BitVec.ofNat 16 (vflush s.flush .bf16 w.toNat)
       let r (l : Nat) : Nat × Bool := cbNear (entries (slot l)) (src .f32 0 l) o.rnd s.flush
       emulatedOr (.vcbq o) o s (LanesReceive (.vcbq o) o s (some_ fun l => (r l).2) fun l =>
         putElem 4 (immBits o 5 3) (r l).1 (keep (decide (immBits o 6 6 = 1)) l)))

/-- The paired word (R103, R104, R201): both half-ops read every source as it stood before the word, on the same active lanes, and
each writes its own register; a floating-point half under an emulated vector unit makes the word trap. -/
def Obligations.PairedWordRunsBothHalves : Prop :=
  ∀ (s : State) (h0 h1 : HalfOp), h0.dst ≠ h1.dst →
    let fp := pairFloat h0.op || pairFloat h1.op
    let val (h : HalfOp) (l : Nat) : W32 :=
      let x (k : Nat) (v : W32) : W32 := if pairFloat h.op then absNegAll h.ty (h.neg.getLsbD k) false v else v
      pairValue h.op h.ty h.sat .rne s.flush s.lw l (x 1 (s.lv l h.s1.toNat)) (x 0 (s.lv l h.s2.toNat)) (s.lv l h.s3.toNat)
    (fp = true → s.capCode 3 = 1 → TrapsWhole (.pairedLaneWord h0 h1) s .illegal 0x103 (s.act 0) (s.act 0))
    ∧ (fp = false ∨ s.capCode 3 ≠ 1 →
      ∃ t, exec (.pairedLaneWord h0 h1) s = .next t ∧ t = { s with ctxs := t.ctxs, benches := t.benches, vregs := t.vregs }
        ∧ (∀ c, c ≠ s.cur → t.ctx c = s.ctx c) ∧ t.me = laneStep false none s.me
        ∧ (∀ l, s.active 0 l → smGet 0 t.vregs (s.vPlace l h0.dst.toNat) = val h0 l
            ∧ smGet 0 t.vregs (s.vPlace l h1.dst.toNat) = val h1 l)
        ∧ ∀ p, (∀ l, s.active 0 l → p ≠ s.vPlace l h0.dst.toNat ∧ p ≠ s.vPlace l h1.dst.toNat) → smGet 0 t.vregs p = smGet 0 s.vregs p)

/-- The cross-lane words VSHF, VPRM, VPTLD, VRED and VSCN (R170, R196 to R199): a lane reads within its reach segment, and outside it 0
or, with .fill, its own value; reductions and scans combine the active lanes of the segment in ascending order, and a NaN that they write is quiet (R51, R63; of a value that no combining step reaches, log 66). -/
def Claims.CrossLane : Prop :=
  ∀ (s : State) (o : LaneOp),
    let r := if o.reach = 0 then s.w else min s.w (2 ^ (o.reach.toNat + 1))
    let own (l : Nat) : W32 := s.src1 o l
    let read (l : Nat) (j : Int) : W32 :=
      if j < (l / r * r : Nat) ∨ ((l / r * r + r : Nat) : Int) ≤ j ∨ (s.w : Int) ≤ j then (if o.fill then own l else 0) else own j.toNat
    let d := immBits o 13 8
    let tab (n l : Nat) : BitVec 6 := (s.myCrew.pats.getD n []).getD l 0
    let op := immBits o 3 0
    let seg (l : Nat) : List Nat := (lanesIn s.w (s.act o.msel)).filter fun j => j / r = l / r
    let comb (p j : Nat) : Nat := combine op o.ty o.rnd s.flush s.lw j p (s.redSrc o j)
    let total : List Nat → Nat
      | [] => identityOf op o.ty
      | j :: js => js.foldl comb (s.redSrc o j)
    let float := decide (6 ≤ op)
    let quiet (v : Nat) : Nat := if float && isNan .f32 v then quietNan .f32 v else v
    let gives (i : Instr) (w : Prop) : Prop :=
      (float = true → s.capCode 3 = 1 → TrapsWhole i s .illegal 0x103 (s.act o.msel) (s.act o.msel)) ∧ (float = false ∨ s.capCode 3 ≠ 1 → w)
    (immBits o 1 0 = 0 → LanesReceive (.vshf o) o s false fun l => read l ((l / r * r : Nat) + (s.src2 o l).toNat : Int))
    ∧ (immBits o 1 0 = 1 → LanesReceive (.vshf o) o s false fun l => read l (Nat.xor l d : Nat))
    ∧ (immBits o 1 0 = 2 → LanesReceive (.vshf o) o s false fun l => read l (l - d : Int))
    ∧ (immBits o 1 0 = 3 → LanesReceive (.vshf o) o s false fun l => read l (l + d : Int))
    ∧ LanesReceive (.vprm o) o s false (fun l => read l ((tab (immBits o 1 0) l).toNat : Nat))
    ∧ (immBits o 1 0 < s.myCrew.pats.length → (∀ l, s.active o.msel l → l < (s.myCrew.pats.getD (immBits o 1 0) []).length) →
        ∃ t, exec (.vptld o) s = .next t ∧ t = { s with ctxs := t.ctxs, benches := t.benches, crews := t.crews }
          ∧ (∀ c, c ≠ s.cur → t.ctx c = s.ctx c) ∧ t.me = laneStep false none s.me
          ∧ (∀ n, n ≠ s.me.crew → t.crew n = s.crew n) ∧ t.myCrew = { s.myCrew with pats := t.myCrew.pats }
          ∧ ∀ n l, (t.myCrew.pats.getD n []).getD l 0 =
              if n = immBits o 1 0 ∧ l < s.w ∧ (s.act o.msel).getLsbD l = true then (s.src1 o l).setWidth 6 else tab n l)
    ∧ gives (.vred o) (LanesReceive (.vred o) o s false fun l => BitVec.ofNat 32 (quiet (total (seg l))))
    ∧ gives (.vscn o) (LanesReceive (.vscn o) o s false fun l =>
        BitVec.ofNat 32 (quiet (total ((seg l).filter fun j => if immBits o 4 4 = 1 then decide (j < l) else decide (j ≤ l)))))

/-- VMATCH (R200): each active lane receives the number of lower active lanes of its segment with its key, and its bit of the mask says
that no higher one has it. -/
def Claims.MatchCountsEqualKeys : Prop :=
  ∀ (s : State) (o : LaneOp), 1 ≤ immBits o 14 9 → immBits o 8 4 + immBits o 14 9 ≤ 32 →
    let r := if o.reach = 0 then s.w else min s.w (2 ^ (o.reach.toNat + 1))
    let key (l : Nat) : Nat := (s.src1 o l).toNat / 2 ^ immBits o 8 4 % 2 ^ immBits o 14 9
    let peer (l j : Nat) : Bool := decide (j / r = l / r) && decide (key j = key l) && (s.act o.msel).getLsbD j
    ∃ t, exec (.vmatch o) s = .next t ∧ t = { s with ctxs := t.ctxs, benches := t.benches, vregs := t.vregs }
      ∧ (∀ c, c ≠ s.cur → t.ctx c = s.ctx c) ∧ (∃ m, t.me = laneStep false none { s.me with m })
      ∧ (∀ l, s.active o.msel l → smGet 0 t.vregs (s.vPlace l o.dst.toNat) = BitVec.ofNat 32 ((List.range l).countP (peer l)))
      ∧ (∀ p, (∀ l, s.active o.msel l → p ≠ s.vPlace l o.dst.toNat) → smGet 0 t.vregs p = smGet 0 s.vregs p)
      ∧ ∀ n b, n < 16 → b < 64 → (mGet t.me n).getLsbD b =
          if n = immBits o 3 0 ∧ n ≠ 0 ∧ b < s.w ∧ (s.act o.msel).getLsbD b = true then
            (List.range s.w).all (fun j => decide (j ≤ b) || !peer b j)
          else (mGet s.me n).getLsbD b

/-- The words that read other lanes.
That a float value which no combining step of VRED or VSCN reaches is written with its NaN quieted is the model's choice (log 66). -/
def Obligations.CrossLaneWords : Prop := Claims.CrossLane ∧ Claims.MatchCountsEqualKeys

/-! ## Lane memory (08 R203 to R225) -/

/-- VLD, VLDS and VLDM (R203 to R211): where every active lane passes its checks, each receives its registers from the bytes at its
place; no byte of storage changes, the counter of the word's path rises by one, and the word retires when its data has returned. -/
def Claims.LaneLoads : Prop :=
  ∀ (s : State) (o : LaneOp) (place : Nat → Nat),
    let cnt := cntOf (immBits o 15 14)
    let n := if cnt = 1 then elemBytes o.ty else 4 * cnt
    let fl := isFloat o.ty
    ∀ w ∈ [(Instr.vld o, Path.g, fl, decide (immBits o 19 19 = 0)), (.vlds o, .s, false, false), (.vldm o, .m, fl, false)],
      s.LanesReach o { n, kind := 0, path := w.2.1, stamped := w.2.2.1, plain := w.2.2.2 } place →
      let bytes (l : Nat) : List Byte := s.peek (coreOf s.cur) (place l) n w.2.2.2
      ∃ t, exec w.1 s = .next t
        ∧ t = { s with ctxs := t.ctxs, benches := t.benches, vregs := t.vregs, ms := t.ms, freeCtr := t.freeCtr }
        ∧ (∀ c, c ≠ s.cur → t.ctx c = s.ctx c) ∧ t.me = laneStep false (some w.2.1) (laneCounted s.dev.cycle w.2.1 [] true s.me)
        ∧ (∀ x, t.sees (coreOf s.cur) x = s.sees (coreOf s.cur) x)
        ∧ (∀ l, s.active o.msel l →
            (cnt = 1 → smGet 0 t.vregs (s.vPlace l o.dst.toNat) = widen o.ty (leNat (bytes l)))
            ∧ (cnt ≠ 1 → ∀ i, i < cnt → smGet 0 t.vregs (s.vPlace l (o.dst.toNat + i)) = BitVec.ofNat 32 (leNat (((bytes l).drop (4 * i)).take 4))))
        ∧ ∀ p, (∀ l i, s.active o.msel l → i < cnt → p ≠ s.vPlace l (o.dst.toNat + i)) → smGet 0 t.vregs p = smGet 0 s.vregs p

/-- What a load returns (R133, R211): a load that never passes the L1, or whose line the L1 does not hold, returns the bytes that a
fresh read of the core sees; a plain VLD of a held line returns that copy. -/
def Claims.LoadsReadFreshOrTheL1Copy : Prop :=
  ∀ (s : State) (core a n : Nat),
    s.peek core a n false = s.readFresh core a n
    ∧ (s.l1Find core (lineOf a) = none → s.peek core a n true = s.readFresh core a n)
    ∧ (∀ e, regionOf a = .hbm → s.l1Find core (lineOf a) = some e → s.peek core a n true = (e.data.drop (a % 128)).take n)
    ∧ (regionOf a ≠ .hbm → s.readFresh core a n = (List.range n).map fun i => memByte s.mem (a + i))

/-- Lane loads: what the lanes receive, and which copy a load reads (R203, R208, R313, R314, R331).
Where the spec leaves a point open, this rests on the model's reading (log 4). -/
def Obligations.LaneLoadsReceiveTheirBytes : Prop := Claims.LaneLoads ∧ Claims.LoadsReadFreshOrTheL1Copy

/-- VST, VSTS and VSTM (R203, R204, R210, R212): where every active lane passes and the store-gather buffer has room, each byte that
some active lane stores to is, as the core sees it, that of the highest such lane; every other byte is as before, no lane register
changes, and the counter W rises by one.
Where the spec leaves a point open, this rests on the model's reading (log 4). -/
def Obligations.LaneStoresWriteTheirBytes : Prop :=
  ∀ (s : State) (o : LaneOp) (place : Nat → Nat),
    let cnt := cntOf (immBits o 15 14)
    let n := if cnt = 1 then elemBytes o.ty else 4 * cnt
    let fl := isFloat o.ty
    ∀ w ∈ [(Instr.vst o, Path.g, fl), (.vsts o, .s, false), (.vstm o, .m, fl)],
      s.LanesReach o { n, kind := 1, path := w.2.1, stamped := w.2.2, plain := false } place →
      (s.ms.sgb.filter fun e => e.core = coreOf s.cur).length + s.w ≤ Config.sgbEntries →
      let hits (l x : Nat) : Prop := s.active o.msel l ∧ place l ≤ x ∧ x < place l + n
      ∃ t lines, exec w.1 s = .next t
        ∧ t = { s with ctxs := t.ctxs, benches := t.benches, mem := t.mem, ms := t.ms }
        ∧ (∀ c, c ≠ s.cur → t.ctx c = s.ctx c) ∧ t.me = laneStep false none (laneCounted s.dev.cycle .w lines false s.me)
        ∧ (∀ x l, hits l x → (∀ j, l < j → ¬ hits j x) → t.sees (coreOf s.cur) x = (s.storeData o l).getD (x - place l) 0)
        ∧ ∀ x, (∀ l, ¬ hits l x) → t.sees (coreOf s.cur) x = s.sees (coreOf s.cur) x

/-- VATM, VATMS and VATMM (R215 to R217): where every active lane passes, the lanes update their words one by one in ascending order:
with RET each lane receives what the lanes before it left there, and the word ends as the last one leaves it. Every other byte is as
before. A floating-point form traps under an emulated vector unit (R88). The packed additions at an L2 slice are not meant here. -/
def Claims.LaneAtomicsUpdateWholeWords : Prop :=
  ∀ (s : State) (o : LaneOp) (place : Nat → Nat),
    let aop := immBits o 18 15
    let packed := decide (aop = 9) || decide (aop = 10)
    let fp := decide (8 ≤ aop) && decide (aop ≤ 12)
    let core := coreOf s.cur
    ∀ w ∈ [(Instr.vatm o, Path.g, fp), (.vatms o, .s, false), (.vatmm o, .m, fp)],
      (fp = true → s.capCode 3 = 1 → TrapsWhole w.1 s .illegal 0x103 (s.act o.msel) (s.act o.msel))
      ∧ (fp = false ∨ s.capCode 3 ≠ 1 →
        s.LanesReach o { n := 4, kind := 2, path := w.2.1, stamped := w.2.2, plain := false } place →
        (∀ l, s.active o.msel l → s.sgbFind core (lineOf (place l)) = none) →
        (packed = true → ∀ l, s.active o.msel l → regionOf (place l) ≠ .hbm) →
        let word (u : State) (a : Nat) : Nat := leNat ((List.range 4).map fun i => u.sees core (a + i))
        let next (l old : Nat) : Nat :=
          vatmNew aop o.ty o.rnd o.sat s.flush s.lw l old (s.lv l o.s3.toNat).toNat (s.lv l (o.s3.toNat + 1)).toNat % 2 ^ 32
        let after (l : Nat) (ls : List Nat) : Nat := ls.foldl (fun v j => if place j = place l then next j v else v) (word s (place l))
        let ls := lanesIn s.w (s.act o.msel)
        ∃ t, exec w.1 s = .next t
          ∧ t = { s with ctxs := t.ctxs, benches := t.benches, vregs := t.vregs, mem := t.mem, ms := t.ms, freeCtr := t.freeCtr }
          ∧ (∀ c, c ≠ s.cur → t.ctx c = s.ctx c)
          ∧ t.me = laneStep false (some w.2.1) (laneCounted s.dev.cycle w.2.1 [] true { s.me with region := { s.me.region with committed := true } })
          ∧ (∀ l, s.active o.msel l → word t (place l) = after l ls)
          ∧ (∀ x, (∀ l, s.active o.msel l → ¬ (place l ≤ x ∧ x < place l + 4)) → t.sees core x = s.sees core x)
          ∧ (∀ l, s.active o.msel l → immBits o 19 19 = 1 →
              smGet 0 t.vregs (s.vPlace l o.dst.toNat) = BitVec.ofNat 32 (after l (ls.filter (· < l))))
          ∧ ∀ p, (∀ l, s.active o.msel l → immBits o 19 19 = 1 → p ≠ s.vPlace l o.dst.toNat) → smGet 0 t.vregs p = smGet 0 s.vregs p)

/-- .add2b and .add2h at an L2 slice (R217, R333, R344): each half of an element is an atomic of its own. The word issues and is counted once;
the updates of each half of each element wait, in ascending order of their lanes, and no byte and no register has changed yet. Performed, such
a half takes the sum of the lanes at its element and changes nothing else of storage as the core sees it; one without RET writes no
register. -/
def Claims.PackedAtomicsUpdateHalfByHalf : Prop :=
  ∀ (s : State) (o : LaneOp) (place : Nat → Nat),
    let aop := immBits o 18 15
    let core := coreOf s.cur
    let ls := lanesIn s.w (s.act o.msel)
    let up (high : Bool) : LaneUpdate :=
      { aop, ty := o.ty, rnd := o.rnd, sat := o.sat, flush := s.flush, lw := s.lw, half := some high,
        dst := if immBits o 19 19 = 1 then some o.dst.toNat else none }
    let waits (high : Bool) (a : Nat) : LateOp :=
      { ctx := s.cur, word := ⟨laneAddr s.me, s.dev.cycle⟩, addr := a + (if high then 2 else 0), size := 2, scope := none,
        act := .update (up high) ((ls.filter fun l => place l = a).map fun l =>
          (l, (s.lv l o.s3.toNat).toNat, (s.lv l (o.s3.toNat + 1)).toNat)) false }
    aop = 9 ∨ aop = 10 → s.capCode 3 ≠ 1 →
    s.LanesReach o { n := 4, kind := 2, path := .g, stamped := true, plain := false } place →
    (∀ l, s.active o.msel l → regionOf (place l) = .hbm) →
    (∃ t, exec (.vatm o) s = .next t
      ∧ t = { s with ctxs := t.ctxs, benches := t.benches, ms := t.ms, freeCtr := t.freeCtr
                     late := s.late ++ [false, true].flatMap fun high => (distinct (ls.map place)).map (waits high) }
      ∧ (∀ c, c ≠ s.cur → t.ctx c = s.ctx c)
      ∧ t.me = laneStep false (some .g) (laneCounted s.dev.cycle .g [] true { s.me with region := { s.me.region with committed := true } })
      ∧ ∀ x, t.sees core x = s.sees core x)
    ∧ ∀ (u : State) (high : Bool) (a : Nat), a % 4 = 0 → regionOf a = .hbm → u.sgbFind core (lineOf a) = none →
        let v := u.performOne (waits high a)
        let a' := a + (if high then 2 else 0)
        let half (u : State) : Nat := leNat ((List.range 2).map fun i => u.sees core (a' + i))
        let add (old l : Nat) : Nat := vatmNew aop o.ty o.rnd o.sat s.flush s.lw l old (halfOf high (s.lv l o.s3.toNat).toNat) 0 % 2 ^ 16
        v.late = u.late ∧ half v = (ls.filter fun l => place l = a).foldl add (half u)
          ∧ (∀ x, x ≠ a' → x ≠ a' + 1 → v.sees core x = u.sees core x) ∧ (immBits o 19 19 ≠ 1 → v.vregs = u.vregs)

/-- Lane atomics, word by word and, for packed pairs at a slice, half by half (R215 to R217).
Where the spec leaves a point open, this rests on the model's reading (log 4, 12). -/
def Obligations.LaneAtomicsUpdateInLaneOrder : Prop := Claims.LaneAtomicsUpdateWholeWords ∧ Claims.PackedAtomicsUpdateHalfByHalf

/-- The faulted lanes of a load (R208, R380): a VLDS whose active lanes are in bounds but partly misaligned performs the aligned lanes, and
traps ALIGN with the lowest misaligned lane as DETAIL, the misaligned lanes as TRAPMASK, and REPLAY. -/
def Obligations.MisalignedLanesTrapAfterTheOthers : Prop :=
  ∀ (s : State) (o : LaneOp) (low : Nat),
    let cnt := cntOf (immBits o 15 14)
    let n := if cnt = 1 then elemBytes o.ty else 4 * cnt
    let va (l : Nat) : Nat := s.addrOf o l
    let bad (l : Nat) : Bool := (s.act o.msel).getLsbD l && decide (va l % n ≠ 0)
    o.dst.toNat + cnt ≤ 256 → pathCount s.me .s < 63 → wordOpen s.me = false → s.unwatched →
    low < s.w → bad low = true → (∀ l, l < low → bad l = false) →
    (∀ l, s.active o.msel l → bad l = false → spadIn s.myCrew (va l) n = true
      ∧ s.lineBusy (lineOf (spadAddr s.myCrew (va l))) = false ∧ s.poisoned (spadAddr s.myCrew (va l)) n = false) →
    ∃ u : State, exec (.vlds o) s = .next (u.takeTrap s.cur
        { wholeTrap s.me .align low (maskOf ((List.range s.w).filter bad)) with replay := true })
      ∧ u.mem = s.mem ∧ (∀ c, c ≠ s.cur → u.ctx c = s.ctx c)
      ∧ (∀ l i, s.active o.msel l → bad l = true → i < 256 → smGet 0 u.vregs (s.vPlace l i) = smGet 0 s.vregs (s.vPlace l i))
      ∧ (∀ l, s.active o.msel l → bad l = false → cnt = 1 →
          smGet 0 u.vregs (s.vPlace l o.dst.toNat) = widen o.ty (leNat (s.read (spadAddr s.myCrew (va l)) n)))

/-- A memory word with no active lane takes its issue slot and nothing else: no register, counter, line or generator changes, and it
takes no trap of its own; only a floating-point form under an emulated vector unit still traps (R172, R225, R88). -/
def Obligations.MemoryWordsWithoutLanesDoNothing : Prop :=
  ∀ (s : State) (o : LaneOp), s.act o.msel = 0 →
    (∀ i ∈ [Instr.vld o, .vst o, .vlds o, .vsts o, .vldm o, .vstm o, .vpre o, .vdec o], LaneCompletes i s false s.me)
    ∧ ∀ w ∈ [(Instr.vatm o, decide (8 ≤ immBits o 18 15 ∧ immBits o 18 15 ≤ 12)), (.vatms o, decide (8 ≤ immBits o 18 15 ∧ immBits o 18 15 ≤ 12)),
        (.vatmm o, decide (8 ≤ immBits o 18 15 ∧ immBits o 18 15 ≤ 12)), (.vrng o, decide (immBits o 1 0 = 0 ∧ o.ty = .f32))],
      (w.2 = false ∨ s.capCode 3 ≠ 1 → LaneCompletes w.1 s false s.me)
      ∧ (w.2 = true → s.capCode 3 = 1 → TrapsWhole w.1 s .illegal 0x103 0 0)

/-- VPRE completes whatever its lanes' addresses are: it writes no register and no byte, moves no counter and takes no trap (R218). It only
waits while the die's translation unit cannot take the walk of a lane's page (R325). -/
def Claims.PrefetchChangesOnlyCaches : Prop :=
  ∀ (s : State) (o : LaneOp),
    let busy (l : Nat) : Prop :=
      s.addrOf o l % 4 = 0 ∧ s.addrOf o l < Config.windowBase ∧ (s.quietLeaf s.cur (s.addrOf o l)).2 = .busy
    (∀ l, s.active o.msel l → busy l → exec (.vpre o) s = .next s)
    ∧ ((∀ l, s.active o.msel l → ¬ busy l) →
      ∃ t, exec (.vpre o) s = .next t ∧ t = { s with ctxs := t.ctxs, benches := t.benches, ms := t.ms, freeCtr := t.freeCtr }
      ∧ (∀ c, c ≠ s.cur → t.ctx c = s.ctx c) ∧ t.me = laneStep false none s.me
      ∧ t.ms.sgb = s.ms.sgb ∧ t.ms.walks = s.ms.walks)

/-- WAITC (R220): it completes, whatever its mask, once each path counter is at or below its threshold; while only G, S or M stands
above, nothing happens; while W does, the skein's global stores drain (R312): no entry of the core's buffer holds one any more, and no byte of HBM changes as the core
sees it. -/
def Claims.WaitcWaitsForTheCounters : Prop :=
  ∀ (s : State) (o : LaneOp),
    let low (p : Path) (hi : Nat) : Prop := pathCount s.me p ≤ immBits o hi (hi - 5)
    (low .g 23 → low .s 17 → low .m 11 → low .w 5 → LaneCompletes (.waitc o) s false s.me)
    ∧ (¬ (low .g 23 ∧ low .s 17 ∧ low .m 11) → low .w 5 → exec (.waitc o) s = .next s)
    ∧ (¬ low .w 5 → ∃ t, exec (.waitc o) s = .next t ∧ t = { s with ctxs := t.ctxs, mem := t.mem, ms := t.ms, freeCtr := t.freeCtr }
        ∧ (∀ c, t.ctx c = { s.ctx c with out := (t.ctx c).out })
        ∧ (∀ e ∈ t.ms.sgb, e ∈ s.ms.sgb ∧ ¬ (e.core = coreOf s.cur ∧ e.writers.contains s.cur = true))
        ∧ ∀ x, regionOf x = .hbm → t.sees (coreOf s.cur) x = s.sees (coreOf s.cur) x)

/-- VPRE and WAITC (R21, R203).
Where the spec leaves a point open, this rests on the model's reading (log 29). -/
def Obligations.PrefetchAndCounterWaits : Prop := Claims.PrefetchChangesOnlyCaches ∧ Claims.WaitcWaitsForTheCounters

/-- VDEC (R221, R222), none of its lanes performed before, within the allocation, with no line empty, no error and nothing watched: each active lane receives its element and the
end position with the stop bit. Where a stop meets CONTROL.DECLEN the completed word traps DECODE_LENGTH with the stop code and the lanes
that received none. A stream beyond the allocation traps ACCESS for every active lane.
Where the spec leaves a point open, this rests on the model's reading (log 28, 67). -/
def Obligations.DecodeGivesElementsAndEndPosition : Prop :=
  ∀ (s : State) (o : LaneOp) (l0 : Nat) (rest : List Nat), lanesIn s.w (s.act o.msel) = l0 :: rest →
    s.me.replay = none → s.me.decodeAt = none → (s.bench (benchOf s.cur)).stopped = false → pathCount s.me .s < 63 → wordOpen s.me = false → s.unwatched →
    let base := (s.qv o.s1.toNat).toNat
    let len := (s.qv o.s3.toNat).toNat
    let p0 := (s.lv l0 o.s2.toNat).toNat % 2 ^ 31
    let a := spadAddr s.myCrew base
    let bit (p : Nat) : Bool := (memByte s.mem (a + p / 8)).getLsbD (p % 8)
    let r := decodeLanes o bit (8 * len) (l0 :: rest) 0 p0
    let stop := r.2.1
    let last : W32 := BitVec.ofNat 32 ((if stop ≠ 0 then 2 ^ 31 else 0) + r.2.2 % 2 ^ 31)
    (¬ (base + len ≤ 128 * s.myCrew.nLines) →
      ∃ u : State, exec (.vdec o) s = .next (u.takeTrap s.cur { wholeTrap s.me .access l0 (s.act o.msel) with replay := true })
        ∧ u = { s with ctxs := u.ctxs, benches := u.benches } ∧ (∀ c, c ≠ s.cur → u.ctx c = s.ctx c) ∧ u.me = laneCounted s.dev.cycle .s [] false s.me)
    ∧ (base + len ≤ 128 * s.myCrew.nLines → (∀ x, s.lineBusy (lineOf x) = false) → (∀ x n, s.poisoned x n = false) →
      ∃ u : State, u = { s with ctxs := u.ctxs, benches := u.benches, vregs := u.vregs } ∧ (∀ c, c ≠ s.cur → u.ctx c = s.ctx c)
        ∧ (∀ q ∈ r.1, smGet 0 u.vregs (s.vPlace q.lane o.dst.toNat) = BitVec.ofNat 32 q.value
            ∧ smGet 0 u.vregs (s.vPlace q.lane (o.dst.toNat + 1)) = last)
        ∧ (∀ p, (∀ l, s.active o.msel l → p ≠ s.vPlace l o.dst.toNat ∧ p ≠ s.vPlace l (o.dst.toNat + 1)) →
            smGet 0 u.vregs p = smGet 0 s.vregs p)
        ∧ (stop = 0 ∨ bitOf (entryControl s.me).toNat 2 = false →
            exec (.vdec o) s = .next u ∧ u.me = laneStep false (some .s) (laneCounted s.dev.cycle .s [] true s.me))
        ∧ (stop ≠ 0 → bitOf (entryControl s.me).toNat 2 = true → u.me = laneCounted s.dev.cycle .s [] false s.me
            ∧ exec (.vdec o) s = .next (u.takeTrap s.cur
              { wholeTrap s.me .decodeLength stop (maskOf ((r.1.filter fun q => !q.got).map (·.lane))) with done := true })))

/-- The generator's step and output (R224). -/
def stepOf (x : W64) : W64 :=
  let y := x ^^^ (x <<< 13)
  let z := y ^^^ (y >>> 7)
  z ^^^ (z <<< 17)

/-- VRNG (R223, R224): each active lane steps its generator and receives the output, or for f32 its top 24 bits scaled to [0, 1); .seed sets the
state, with 0 replaced; .get reads it. Generators of other lanes do not move. -/
def Obligations.RandomLanesStepTheirGenerators : Prop :=
  ∀ (s : State) (o : LaneOp),
    let at_ (l : Nat) : Nat := physLane s.me s.cur l
    let out (l : Nat) : W32 := (stepOf (s.genOf l)).extractLsb' 32 32 ^^^ (stepOf (s.genOf l)).extractLsb' 0 32
    let done (t : State) : Prop :=
      exec (.vrng o) s = .next t ∧ t = { s with ctxs := t.ctxs, benches := t.benches, vregs := t.vregs, gens := t.gens }
        ∧ (∀ c, c ≠ s.cur → t.ctx c = s.ctx c) ∧ t.me = laneStep false none s.me
    let others (t : State) : Prop := ∀ p, (∀ l, s.active o.msel l → p ≠ at_ l) → smGet 0 t.gens p = smGet 0 s.gens p
    let keep (t : State) (k : Nat) : Prop := ∀ p, (∀ l i, s.active o.msel l → i < k → p ≠ s.vPlace l (o.dst.toNat + i)) →
      smGet 0 t.vregs p = smGet 0 s.vregs p
    (immBits o 1 0 = 0 → o.ty = .n32 → ∃ t, done t ∧ others t ∧ keep t 1 ∧ ∀ l, s.active o.msel l →
      smGet 0 t.gens (at_ l) = stepOf (s.genOf l) ∧ smGet 0 t.vregs (s.vPlace l o.dst.toNat) = out l)
    ∧ (immBits o 1 0 = 0 → o.ty = .f32 → s.capCode 3 ≠ 1 → ∃ t, done t ∧ others t ∧ keep t 1 ∧ ∀ l, s.active o.msel l →
      smGet 0 t.gens (at_ l) = stepOf (s.genOf l)
      ∧ smGet 0 t.vregs (s.vPlace l o.dst.toNat) = BitVec.ofNat 32 (roundTo (floatOf .f32) false ((out l).toNat / 2 ^ 8) (2 ^ 24) .rne false).1)
    ∧ (immBits o 1 0 = 0 → o.ty = .f32 → s.capCode 3 = 1 → TrapsWhole (.vrng o) s .illegal 0x103 (s.act o.msel) (s.act o.msel))
    ∧ (immBits o 1 0 = 1 → ∃ t, done t ∧ others t ∧ t.vregs = s.vregs ∧ ∀ l, s.active o.msel l →
      smGet 0 t.gens (at_ l) = (let v : W64 := s.src2 o l ++ s.src1 o l
        if v = 0 then 0x8000000000000000 else v))
    ∧ (immBits o 1 0 = 2 → ∃ t, done t ∧ t.gens = s.gens ∧ keep t 2 ∧ ∀ l, s.active o.msel l →
      smGet 0 t.vregs (s.vPlace l o.dst.toNat) = (s.genOf l).extractLsb' 0 32
      ∧ smGet 0 t.vregs (s.vPlace l (o.dst.toNat + 1)) = (s.genOf l).extractLsb' 32 32)

/-! ## Scalar memory (05 R130 to R137; 10 R292) -/

/-- An address beyond the 57-bit space traps ACCESS, and then one that is no multiple of the size traps ALIGN (R131). -/
def badAddressTraps (i : Instr) (s : State) (va n : Nat) : Prop :=
  (2 ^ 57 ≤ va → Traps i s .access 0) ∧ (va < 2 ^ 57 → va % n ≠ 0 → Traps i s .align 0)

/-- LD8 to LD64 (R131 to R133): where the access passes and its bytes hold no error, kD receives the bytes zero-extended, no byte changes,
and the path's counter rises by one, at which the scalar stream of an acquire stands until it returns; a load with .acq waits, as LSYNC does, for the
lane work before it. -/
def Claims.ScalarLoadsZeroExtend : Prop :=
  ∀ (s : State) (d a : KReg) (ord : LdOrder) (off : Lit 9) (pa : Nat),
    let va := (s.kv a + immValue off).toNat
    let core := coreOf s.cur
    let acq := match ord with | .acq _ => true | _ => false
    ∀ w ∈ [(Instr.ld8 d a ord off, 1), (.ld16 d a ord off, 2), (.ld32 d a ord off, 4), (.ld64 d a ord off, 8)],
      (acq = true → laneIdle s.me = false → exec w.1 s = .next s)
      ∧ (acq = false ∨ laneIdle s.me = true →
        badAddressTraps w.1 s va w.2
        ∧ (s.ScalarReaches va w.2 .read false (pathOf pa) pa → s.poisoned pa w.2 = false →
            ∃ t, exec w.1 s = .next t ∧ t = { s with ctxs := t.ctxs, ms := t.ms, freeCtr := t.freeCtr }
              ∧ (∀ c, c ≠ s.cur → t.ctx c = s.ctx c) ∧ (∀ x, t.sees core x = s.sees core x)
              ∧ t.me = { (counted (pathOf pa) [] false s.me acq).afterWord (immBytes off) with k := t.me.k }
              ∧ ∀ r, t.kv r = if r = 0 then 0
                  else if r = d then BitVec.ofNat 64 (leNat (s.peek core pa w.2 (decide (ord = .plain)))) else s.kv r))

/-- ST8 to ST64 (R131 to R133, R311, R312): where the access passes, the low bytes of kD stand at the address, as the core sees it; every
other byte is as before and W rises. A store with .rel waits for the lane work before it, and while copies or Loom operations of the
skein have source bytes to read (R338; log 16); at scope die or wider the core's buffered stores, and then its own bytes, reach storage. -/
def Claims.ScalarStoresWriteLowBytes : Prop :=
  ∀ (s : State) (d a : KReg) (ord : StOrder) (off : Lit 9) (pa : Nat),
    let va := (s.kv a + immValue off).toNat
    let core := coreOf s.cur
    let rel := match ord with | .rel _ => true | .plain => false
    let wide := match ord with | .rel sc => decide (sc = .die ∨ sc = .dev ∨ sc = .sys) | .plain => false
    let byte (i : Nat) : Byte := (s.kv d).extractLsb' (8 * i) 8
    ∀ w ∈ [(Instr.st8 d a ord off, 1), (.st16 d a ord off, 2), (.st32 d a ord off, 4), (.st64 d a ord off, 8)],
      (rel = true → laneIdle s.me = false ∨ s.readsOut s.cur = true → exec w.1 s = .next s)
      ∧ (rel = false ∨ (laneIdle s.me = true ∧ s.readsOut s.cur = false) →
        badAddressTraps w.1 s va w.2
        ∧ (s.ScalarReaches va w.2 .write false .w pa → wide = false →
            (s.ms.sgb.filter fun e => e.core = core).length < Config.sgbEntries →
            ∃ t lines, exec w.1 s = .next t ∧ t = { s with ctxs := t.ctxs, mem := t.mem, ms := t.ms }
              ∧ (∀ c, c ≠ s.cur → t.ctx c = s.ctx c) ∧ t.me = (counted .w lines false s.me).afterWord (immBytes off)
              ∧ (∀ i, i < w.2 → t.sees core (pa + i) = byte i)
              ∧ ∀ x, x < pa ∨ pa + w.2 ≤ x → t.sees core x = s.sees core x)
        ∧ (s.ScalarReaches va w.2 .write false .w pa → wide = true →
            let u := s.sgbDrainCore core
            ∃ t, exec w.1 s = .next t ∧ t = { s with ctxs := t.ctxs, mem := t.mem, ms := t.ms, freeCtr := t.freeCtr }
              ∧ (∀ c, c ≠ s.cur → t.ctx c = { s.ctx c with out := (t.ctx c).out })
              ∧ t.me = { s.me.afterWord (immBytes off) with out := t.me.out }
              ∧ (∀ i, i < w.2 → memByte t.mem (pa + i) = byte i)
              ∧ ∀ x, x < pa ∨ pa + w.2 ≤ x → memByte t.mem x = memByte u.mem x))

/-- Accesses that issue and are performed after later ones (R311, R334, R340): a load, an atomic or a plain store outside HBM that passes may
issue so, and the lanes of a lane memory word that all pass, each by itself; storage and every register are as before. A word that goes before
them names no register that they write, reaches no byte of theirs, and is no store that would leave for the host before one of theirs. -/
def Claims.AccessesMayWait : Prop :=
  (∀ (s : State) (i : Instr) (m : MemWord) (d a : KReg) (off : Lit 9) (n pa : Nat), memWord i = some m →
    let va := (s.kv a + immValue off).toNat
    let issued (act : LateAct) (scope : Option Scope) (bytes : W64) : Prop := ∃ t, s.issueLate i m = .next t
      ∧ t.late = s.late ++ [{ ctx := s.cur, word := ⟨s.me.pc, s.dev.cycle⟩, addr := pa, size := n, act, scope }]
      ∧ t.mem = s.mem ∧ (∀ r, t.kv r = s.kv r) ∧ t.me.pc = codeAddr (s.me.pc + bytes)
    s.me.pend = none → (s.bench (benchOf s.cur)).stopped = false →
    (∀ ord, m = .load d a ord off n → (∀ sc, ord = .acq sc → laneIdle s.me = true) →
      s.ScalarReaches va n .read false (pathOf pa) pa → s.poisoned pa n = false →
      issued (.load d (decide (ord = .plain))) (match ord with | .acq sc => some sc | _ => none) (immBytes off))
    ∧ (m = .store d a .plain off n → s.ScalarReaches va n .write false .w pa → regionOf pa ≠ .hbm →
      issued (.store (leBytes n (s.kv d).toNat) none) none (immBytes off))
    ∧ (∀ b op, m = .atomic d a b op n → s.ScalarReaches (s.kv a).toNat n .write true (pathOf pa) pa → s.poisoned pa n = false →
      issued (.atomic d op ((s.kv b).toNat % 2 ^ (8 * n)) ((s.kv d).toNat % 2 ^ (8 * n))) none 4))
  ∧ (∀ (s : State) (i : Instr) (o : LaneOp) (f : MemForm) (place : Nat → Nat), laneMem i = some (o, f) → s.LanesReach o f place →
    s.me.pend = none → (f.kind = 2 → floatAtomic o = false ∨ s.capCode 3 ≠ 1) →
    (f.kind = 1 → ∀ l, s.active o.msel l → regionOf (place l) ≠ .hbm) →
    let ls := lanesIn s.w (s.act o.msel)
    let one (a : Nat) (act : LateAct) : LateOp := { ctx := s.cur, word := ⟨laneAddr s.me, s.dev.cycle⟩, addr := a, size := f.n, act, scope := none }
    ∃ t q, s.issueLateLane i o f = .next t ∧ t.late = s.late ++ q ∧ t.mem = s.mem ∧ t.vregs = s.vregs
      ∧ (f.kind = 0 → q = ls.map fun l => one (place l) (.fill l o.dst.toNat o.ty (cntOf (immBits o 15 14)) f.plain))
      ∧ (f.kind = 1 → q = ls.map fun l => one (place l) (.store (s.storeData o l) none))
      ∧ (f.kind = 2 → ∀ p ∈ q, ∃ u ks, p.act = .update u ks false ∧ u.aop = immBits o 18 15
          ∧ ∃ a, p.addr = a + (if u.half = some true then 2 else 0) ∧ ks.map (·.1) = ls.filter fun l => place l = a))
  ∧ ∀ (s s1 s2 : State) (c : Nat) (i : Instr) (m : MemWord) (a : Nat) (o : LateOp), s.nextScalar c = .instr s1 i → memWord i = some m →
    ({ s1 with cur := c } : State).memPlace m = some (s2, a) → s.overtakes c false = true → o ∈ s.late → o.ctx = c →
      (o.addr + o.size ≤ a ∨ a + m.size ≤ o.addr) ∧ (∀ d ∈ o.kDst, d ∉ m.regs)
        ∧ ¬ (o.hostStore = true ∧ regionOf a = .host)

/-- What an access that waits does when it is performed (R137, R210, R216, R334): a load's or a lane's registers receive the bytes that are then
there; a store's bytes stand; an atomic returns the old value and leaves the new one; the updates at one element apply in their order. No
other byte and no other register changes. Where its bench is stopped, a load's write is held, as KIND 0, and its context unchanged (R427). -/
def Claims.PerformingWhatWaits : Prop :=
  ∀ (s : State) (o : LateOp),
    let t := s.performOne o
    let core := coreOf o.ctx
    let run := (s.bench (benchOf o.ctx)).stopped = false
    let at_ (u : State) : Nat := leNat ((List.range o.size).map fun j => memByte u.mem (o.addr + j))
    let only (n : Nat) : Prop := ∀ x, x < o.addr ∨ o.addr + n ≤ x → memByte t.mem x = memByte s.mem x
    let gets (d : KReg) (v : Nat) : Prop := (∀ c, c ≠ o.ctx → t.ctx c = s.ctx c)
      ∧ ∀ r, kGet (t.ctx o.ctx) r = if r = 0 then 0 else if r = d.toNat then BitVec.ofNat 64 v else kGet (s.ctx o.ctx) r
    (∀ d plain, o.act = .load d plain →
      let v := leNat (s.peek core o.addr o.size plain)
      t.mem = s.mem ∧ (run → gets d v)
        ∧ (¬ run → t.ctxs = s.ctxs ∧ (t.bench (benchOf o.ctx)).held = (s.bench (benchOf o.ctx)).held ++
          [{ ctx := o.ctx % 32, kind := 0, reg := d.toNat, value := BitVec.ofNat 64 v, producer := o.word, lane := false, ready := true
             lanes := 0 }]))
    ∧ (∀ bytes rel, o.act = .store bytes rel → rel.any scopeDie = false →
      t.ctxs = s.ctxs ∧ only bytes.length ∧ ∀ j, j < bytes.length → memByte t.mem (o.addr + j) = bytes.getD j 0)
    ∧ (∀ lane dst ty n plain, o.act = .fill lane dst ty n plain → run →
      let vs := loadRegs ty n (s.peek core o.addr o.size plain)
      let at_ (r : Nat) : Nat := 256 * physLane (s.ctx o.ctx) o.ctx lane + r
      t.mem = s.mem ∧ t.ctxs = s.ctxs ∧ (∀ j, j < vs.length → smGet 0 t.vregs (at_ (dst + j)) = vs.getD j 0)
        ∧ ∀ p, (∀ j, j < vs.length → p ≠ at_ (dst + j)) → smGet 0 t.vregs p = smGet 0 s.vregs p)
    ∧ ((regionOf o.addr = .hbm → s.sgbFind core (lineOf o.addr) = none) →
      (∀ d op b cmp, o.act = .atomic d op b cmp → run →
        only o.size ∧ at_ t = atmNew op (8 * o.size) (at_ s) b cmp % 2 ^ (8 * o.size) ∧ gets d (at_ s))
      ∧ (∀ u lanes b, o.act = .update u lanes b → o.size = u.size →
        only u.size ∧ at_ t = lanes.foldl (fun old p => u.value p.1 old p.2.1 p.2.2 % 2 ^ (8 * u.size)) (at_ s)
          ∧ (u.dst = none → t.vregs = s.vregs)))

/-- Scalar loads and stores (R130 to R134), also where later accesses are performed first (R334, R340).
Where the spec leaves a point open, this rests on the model's reading (log 4, 16, 81). -/
def Obligations.ScalarMemoryAccesses : Prop := Claims.ScalarLoadsZeroExtend ∧ Claims.ScalarStoresWriteLowBytes ∧ Claims.AccessesMayWait ∧ Claims.PerformingWhatWaits

/-- The new value of an atomic: old value, operand, comparand (R136, R137); MIN and MAX are signed, MINN and MAXN natural. -/
def atomicNew {n : Nat} (op : AtmOp) (x b c : BitVec n) : BitVec n :=
  match op with
  | .swap => b
  | .add => x + b
  | .and => x &&& b
  | .or => x ||| b
  | .xor => x ^^^ b
  | .min => if x.toInt ≤ b.toInt then x else b
  | .max => if b.toInt ≤ x.toInt then x else b
  | .minn => if x.toNat ≤ b.toNat then x else b
  | .maxn => if b.toNat ≤ x.toNat then x else b
  | .cas => if x = c then b else x

/-- ATM and FENCE (R135 to R137, R292, R307, R312, R343): where the access passes, ATM returns the old value in kD and leaves the new one
at the address, with the core's buffered stores of the line performed first. FENCE waits for the lane work before it, and a release also while
copies or Loom operations of the skein have source bytes to read (R338); then it goes on: a release of scope die or wider has performed every
buffered store of the core, any other fence changes no byte; an acquire of scope dev or sys drops from the core's L1 the lines of every range
posted to the core, and any other leaves the L1 as it is (R343).
Where the spec leaves a point open, this rests on the model's reading (log 16). -/
def Obligations.AtomicsReturnOldAndFencesRelease : Prop :=
  ∀ (s : State) (d a b : KReg) (op : AtmOp) (wide : Bool) (sc : Scope) (pa : Nat) (kind : FenceKind),
    let n := if wide then 8 else 4
    let va := (s.kv a).toNat
    let core := coreOf s.cur
    let i : Instr := .atm d a b op wide sc
    badAddressTraps i s va n
    ∧ (s.ScalarReaches va n .write true (pathOf pa) pa → s.poisoned pa n = false →
        let u := if regionOf pa = .hbm then s.sgbDrain core (lineOf pa) else s
        let old : BitVec (8 * n) := BitVec.ofNat (8 * n) (leNat ((List.range n).map fun j => memByte u.mem (pa + j)))
        let new := atomicNew op old ((s.kv b).setWidth (8 * n)) ((s.kv d).setWidth (8 * n))
        ∃ t, exec i s = .next t ∧ t = { s with ctxs := t.ctxs, mem := t.mem, ms := t.ms, freeCtr := t.freeCtr }
          ∧ (∀ c, c ≠ s.cur → t.ctx c = u.ctx c)
          ∧ t.me = { (counted (pathOf pa) [] false u.me).afterWord 4 with k := t.me.k, region := { s.me.region with committed := true } }
          ∧ (∀ r, t.kv r = if r = 0 then 0 else if r = d then old.setWidth 64 else s.kv r)
          ∧ (∀ j, j < n → memByte t.mem (pa + j) = new.extractLsb' (8 * j) 8)
          ∧ ∀ x, x < pa ∨ pa + n ≤ x → memByte t.mem x = memByte u.mem x)
    ∧ (laneIdle s.me = false ∨ (kind ≠ .acq ∧ s.readsOut s.cur = true) → exec (.fence kind sc) s = .next s)
    ∧ (laneIdle s.me = true → kind = .acq ∨ s.readsOut s.cur = false →
        let drains := kind ≠ .acq ∧ (sc = .die ∨ sc = .dev ∨ sc = .sys)
        let u := if kind ≠ .acq ∧ (sc = .die ∨ sc = .dev ∨ sc = .sys) then s.sgbDrainCore core else s
        ∃ t, exec (.fence kind sc) s = .next t ∧ t = { u with ctxs := t.ctxs, ms := t.ms }
          ∧ (∀ c, c ≠ s.cur → t.ctx c = u.ctx c) ∧ t.me = u.me.afterWord 4
          ∧ t.ms.sgb = u.ms.sgb ∧ (drains → ∀ e ∈ t.ms.sgb, e.core ≠ core)
          ∧ (kind ≠ .rel → sc = .dev ∨ sc = .sys →
              (∀ e, e ∈ t.ms.l1 ↔ e ∈ u.ms.l1 ∧ ¬ (e.core = core ∧ ∃ r ∈ u.ms.ranges, r.core = core ∧ e.line ∈ r.lines))
                ∧ ∀ r, r ∈ t.ms.ranges ↔ r ∈ u.ms.ranges ∧ r.core ≠ core)
          ∧ (kind = .rel ∨ (sc ≠ .dev ∧ sc ≠ .sys) → t.ms = u.ms))

/-! ## Tiles (09 R226 to R243, R264, R265) -/

/-- A descriptor is valid (R227): a format code, rows and columns above 0, rows of whole words, at most 2^23 bits. -/
def validDesc (v : W64) : Prop :=
  let rows := (v.extractLsb' 14 14).toNat
  let cols := (v.extractLsb' 0 14).toNat
  let bits := fmtBits (descFmt v)
  v.extractLsb' 32 32 = 0 ∧ (v.extractLsb' 28 4).toNat ≤ 11 ∧ rows ≠ 0 ∧ cols ≠ 0 ∧ cols * bits % 32 = 0 ∧ rows * cols * bits ≤ 2 ^ 23

/-- TALLOC, TFREE, THAND, TTAKE, TZERO, TCOPY and MCVT outside handler state (R19, R229, R231, R234 to R239, R264): their traps in order, and
what each leaves in the crew's slots and queue. TALLOC takes the lowest free run. -/
def Obligations.TileWordsUseHandles : Prop :=
  ∀ (s : State) (d a : HReg) (k kb : KReg) (n : CBit), s.me.handler = false →
    let w := s.myCrew
    let v := s.kv k
    let size (x : W64) : Nat := ((x.extractLsb' 14 14).toNat * (x.extractLsb' 0 14).toNat * fmtBits (descFmt x) + 32767) / 32768
    let run (i : Nat) : Prop := i + size v ≤ w.slots.length ∧
      ∀ j, j < size v → (slotOf w (i + j)).alloc = false ∧ (slotOf w (i + j)).withdrawn = false
    let uses (i : Instr) (x : W16) : Prop :=
      (HandleStale w x → Traps i s .handleStale x.toNat) ∧ (HandleForeign w s.me.index x → Traps i s .handleForeign x.toNat)
    let hd := hGet s.me d
    let ha := hGet s.me a
    -- TALLOC
    (¬ validDesc v → Traps (.talloc d k n) s .layoutMismatch 7)
    ∧ (validDesc v → (∀ i, ¬ run i) →
        ChangesCrew (.talloc d k n) s (fun y => { s.me.afterCommit 4 with h := y.h, c := y.c }) w
        ∧ ∃ t, exec (.talloc d k n) s = .next t ∧ (∀ r, hGet t.me r = if r = d then 0 else hGet s.me r)
            ∧ ∀ r, t.cv r = if r = n then false else s.cv r)
    ∧ (∀ i, validDesc v → run i → (∀ j, j < i → ¬ run j) →
        ∃ t, exec (.talloc d k n) s = .next t ∧ s.OnlyCrew t ∧ t.me = { s.me.afterCommit 4 with h := t.me.h, c := t.me.c }
          ∧ (∀ r, hGet t.me r = if r = d then BitVec.ofNat 16 ((slotOf w i).gen * 256 + i) else hGet s.me r)
          ∧ (∀ r, t.cv r = if r = n then true else s.cv r)
          ∧ t.myCrew = { w with slots := t.myCrew.slots } ∧ t.myCrew.slots.length = w.slots.length
          ∧ ∀ j, j < w.slots.length → slotOf t.myCrew j =
              if i ≤ j ∧ j < i + size v then
                { slotOf w j with alloc := true, first := decide (j = i), desc := if j = i then v else 0
                                  owner := some s.me.index, orphan := false
                                  stamp := 0, poisoned := false, rewritten := [], freeing := false }
              else slotOf w j)
    -- TFREE
    ∧ uses (.tfree a) ha
    ∧ (∀ i, HandleIs w s.me.index ha i → (∀ j, (slotOf w j).freeing = false) →
        (∀ j, i < j → j < i + descSlots (slotOf w i).desc → (slotOf w j).first = false) →
        ∃ t, exec (.tfree a) s = .next t ∧ s.OnlyCrew t ∧ t.me = { s.me.afterCommit 4 with h := t.me.h }
          ∧ (∀ r, hGet t.me r = if r = a then 0 else hGet s.me r) ∧ t.myCrew = { w with slots := t.myCrew.slots }
          ∧ ∀ j, j < w.slots.length → slotOf t.myCrew j =
              if i ≤ j ∧ j < i + descSlots (slotOf w i).desc then
                let u := slotOf w j
                let gone := !s.tileWaits s.me.crew i true w.tileSeq
                { u with gen := if u.gen = 255 then 255 else u.gen + 1, withdrawn := decide (u.gen = 255), owner := none, orphan := false
                         alloc := u.alloc && !gone, first := u.first && !gone, freeing := !gone }
              else slotOf w j)
    -- THAND
    ∧ (laneIdle s.me = false → exec (.thand k a kb) s = .next s)
    ∧ (laneIdle s.me = true → uses (.thand k a kb) ha)
    ∧ (∀ i, laneIdle s.me = true → HandleIs w s.me.index ha i →
        let x := (s.kv kb).toNat % 128
        ∃ t, exec (.thand k a kb) s = .next t ∧ s.OnlyCrew t ∧ t.me = { s.me.afterCommit 4 with k := t.me.k, h := t.me.h }
          ∧ (∀ r, t.kv r = if r = 0 then 0 else if r = k then ha.setWidth 64 else s.kv r)
          ∧ (∀ r, hGet t.me r = if r = a ∧ x ≠ s.me.index then 0 else hGet s.me r)
          ∧ t.myCrew = { w with slots := t.myCrew.slots }
          ∧ ∀ j, j < w.slots.length → slotOf t.myCrew j =
              if i ≤ j ∧ j < i + descSlots (slotOf w i).desc ∧ x ≠ s.me.index then { slotOf w j with owner := if s.indexLive s.me.crew x then some x else none }
              else slotOf w j)
    -- TTAKE
    ∧ uses (.ttake d k) (v.setWidth 16)
    ∧ (∀ i, HandleIs w s.me.index (v.setWidth 16) i →
        ∃ t, exec (.ttake d k) s = .next t ∧ s.OnlyMe t ∧ t.me = { s.me.afterCommit 4 with h := t.me.h }
          ∧ ∀ r, hGet t.me r = if r = d then v.setWidth 16 else hGet s.me r)
    -- TZERO and TCOPY
    ∧ uses (.tzero a) ha
    ∧ (∀ i, HandleIs w s.me.index ha i → ChangesCrew (.tzero a) s (fun _ => s.me.afterWord 4) (w.queued .zero i i))
    ∧ uses (.tcopy d a) hd
    ∧ (∀ i, HandleIs w s.me.index hd i → uses (.tcopy d a) ha
        ∧ ∀ j, HandleIs w s.me.index ha j →
          let x := (slotOf w i).desc
          let y := (slotOf w j).desc
          (i = j → ∃ t, exec (.tcopy d a) s = .next t ∧ s.OnlyMe t ∧ t.me = s.me.afterWord 4)
          ∧ (i ≠ j → descFmt x ≠ descFmt y → Traps (.tcopy d a) s .layoutMismatch 1)
          ∧ (i ≠ j → descFmt x = descFmt y → descRows x ≠ descRows y ∨ descCols x ≠ descCols y → Traps (.tcopy d a) s .layoutMismatch 3)
          ∧ (i ≠ j → descFmt x = descFmt y → descRows x = descRows y → descCols x = descCols y →
              ChangesCrew (.tcopy d a) s (fun _ => s.me.afterWord 4) (w.queued .copy i j)))
    -- MCVT
    ∧ (s.me.width.toNat < 3 → Traps (.mcvt d a kb) s .matrixWidth s.me.width.toNat)
    ∧ (3 ≤ s.me.width.toNat → uses (.mcvt d a kb) hd ∧ ∀ i, HandleIs w s.me.index hd i → uses (.mcvt d a kb) ha)
    ∧ (∀ i j, 3 ≤ s.me.width.toNat → HandleIs w s.me.index hd i → HandleIs w s.me.index ha j →
        let x := (slotOf w i).desc
        let y := (slotOf w j).desc
        let c := s.kv kb
        let good := c.extractLsb' 16 48 = 0 ∧ c.extractLsb' 2 3 = 0 ∧ (c.extractLsb' 11 4).toNat ≤ 12 ∧ (c.extractLsb' 8 3).toNat ≤ 4
        let wide (f : Fmt) : Prop := f = .f32 ∨ f = .bf16 ∨ f = .f16
        let pair := (descFmt x = .cb4 → wide (descFmt y)) ∧ (descFmt y = .cb4 → wide (descFmt x))
        (¬ good → Traps (.mcvt d a kb) s .layoutMismatch 7)
        ∧ (good → ¬ pair → Traps (.mcvt d a kb) s .layoutMismatch 2)
        ∧ (good → pair → descRows x ≠ descRows y ∨ descCols x ≠ descCols y → Traps (.mcvt d a kb) s .layoutMismatch 3)
        ∧ (good → pair → descRows x = descRows y → descCols x = descCols y →
            ChangesCrew (.mcvt d a kb) s (fun _ => s.me.afterWord 4)
              (w.queued (.cvt c (s.permTable ((c.extractLsb' 8 3).toNat - 1)) w.cbs s.cur) i j)))

/-- TILE_OP_PERFORM, MPERM and MCODE (R116, R231, R239, R264, R265): an operation that nothing before it holds back is performed and
leaves the queue: a zeroed tile reads 0 in every byte, a copy holds the bytes that the source held, a conversion from a readable source
records the contract. MPERM and MCODE install the table or codebook that memory holds, MPERM refuses one that is no permutation, and both trap ACCESS on a
Mart page (R266). -/
def Claims.TileOperationsAndTables : Prop :=
  (∀ (s : State) (crew pos : Nat) (o : TileOp), (s.crew crew).tileOps[pos]? = some o →
    s.tileWaits crew o.dst true o.seq = false → s.tileWaits crew o.src false o.seq = false →
    let w := s.crew crew
    let bytes := 4096 * descSlots o.dstDesc
    let at_ (b : Nat) : Nat := tileAddr w o.dst b
    ∃ t, exec (.tileOpPerform crew pos) s = .next t
      ∧ t = { s with crews := t.crews, ctxs := t.ctxs, mem := t.mem, ms := t.ms }
      ∧ (∀ n, n ≠ crew → t.crew n = s.crew n)
      ∧ t.crew crew = { w with slots := (t.crew crew).slots, tileOps := w.tileOps.filter fun p => p.seq ≠ o.seq }
      ∧ (o.act = .zero → t.ctxs = s.ctxs ∧ (∀ b, b < bytes → memByte t.mem (at_ b) = 0)
          ∧ ∀ x, (∀ b, b < bytes → x ≠ at_ b) → memByte t.mem x = memByte s.mem x)
      ∧ (o.act = .copy → t.ctxs = s.ctxs
          ∧ (∀ b, b < bytes → (∀ e, b < e → e < bytes → at_ e ≠ at_ b) → memByte t.mem (at_ b) = memByte s.mem (tileAddr w o.src b))
          ∧ ∀ x, (∀ b, b < bytes → x ≠ at_ b) → memByte t.mem x = memByte s.mem x)
      ∧ ∀ ctl tab cbs c, o.act = .cvt ctl tab cbs c → o.dst < w.slots.length → 0 < descSlots (slotOf w o.dst).desc →
          ((slotOf w o.src).poisoned = true → t.mem = s.mem ∧ (slotOf (t.crew crew) o.dst).poisoned = true)
          ∧ ((slotOf w o.src).poisoned = false → (slotOf (t.crew crew) o.dst).stamp = (s.commission w.comm).contract))
  ∧ ∀ (s : State) (n : BitVec 2) (m : BitVec 3) (a : KReg), s.me.handler = false →
    let va := (s.kv a).toNat
    let w := s.myCrew
    let reads (u : State) (len : Nat) (ps : List (Nat × Leaf)) : Prop := va + len ≤ 2 ^ 57 ∧ u.reachRange s.cur va len 0 .read false [] = .inl (u, ps)
      ∧ (∀ p ∈ ps, regionOf (p.2.phys (4096 * p.1)) ≠ .mart)
      ∧ ∀ i, i < len → s.lineBusy (lineOf (leafAddr w ps (va + i))) = false ∧ s.poisoned (leafAddr w ps (va + i)) 1 = false
    let touched (u : State) (len : Nat) (ps : List (Nat × Leaf)) : State := u.sliceReads (coreOf s.cur) ((List.range len).map fun i => leafAddr w ps (va + i))
    let refuses (i : Instr) (detail : Nat) : Prop := ∃ u : State, u = { s with ms := u.ms, freeCtr := u.freeCtr }
      ∧ exec i s = .next (u.takeTrap s.cur (scalarTrap .layoutMismatch detail))
    let installs (i : Instr) (v : Crew) : Prop := ∃ t, exec i s = .next t ∧ t = { s with ctxs := t.ctxs, crews := t.crews, ms := t.ms, freeCtr := t.freeCtr }
      ∧ (∀ c, c ≠ s.cur → t.ctx c = s.ctx c) ∧ (∀ n, n ≠ s.me.crew → t.crew n = s.crew n) ∧ t.me = s.me.afterCommit 4 ∧ t.myCrew = v
    let half (ps : List (Nat × Leaf)) (off : Nat) : Nat :=
      (s.sees (coreOf s.cur) (leafAddr w ps (va + off))).toNat + 256 * (s.sees (coreOf s.cur) (leafAddr w ps (va + off + 1))).toNat
    let inMart (len : Nat) : Prop := ∃ ps p, va + len ≤ 2 ^ 57 ∧ s.reachRange s.cur va len 0 .read false [] = .inl (s, ps) ∧ p ∈ ps
      ∧ regionOf (p.2.phys (4096 * p.1)) = .mart
    (va % 8 = 0 → inMart 8 → Traps (.mperm n a) s .access 0) ∧ (va % 32 = 0 → inMart 32 → Traps (.mcode m a) s .access 0)
    ∧ (va < 2 ^ 57 → va % 8 ≠ 0 → Traps (.mperm n a) s .align 0)
    ∧ (va < 2 ^ 57 → va % 32 ≠ 0 → Traps (.mcode m a) s .align 0)
    ∧ (∀ p, va % 8 = 0 → reads s 8 p →
        let len := half p 0
        let clean := 1 ≤ len ∧ len ≤ 4096 ∧ half p 2 = 0 ∧ half p 4 = 0 ∧ half p 6 = 0
        (¬ clean → refuses (.mperm n a) 0x20)
        ∧ (clean → ∀ q, reads (touched s 8 p) (8 + 2 * len) q →
            let tab := (List.range len).map fun i => half q (8 + 2 * i)
            (¬ List.Perm tab (List.range len) → refuses (.mperm n a) 0x21)
            ∧ (List.Perm tab (List.range len) →
                let new : PermTable := { len, p := tab, loads := (w.perms.getD n.toNat PermTable.identity).loads + 1 }
                installs (.mperm n a) { w with perms := listSet w.perms n.toNat new })))
    ∧ (∀ p, va % 32 = 0 → reads s 32 p →
        installs (.mcode m a) { w with cbs := listSet w.cbs m.toNat ((List.range 16).map fun i => BitVec.ofNat 16 (half p (2 * i))) })

/-- VTLD and VTST (R231, R233, R241 to R243): a stale or foreign handle and a wrong element type trap for the whole word; a tile that is
waited for holds the word. Otherwise, where every active lane's elements lie in the tile, aligned, and no slot that holds them has an error, VTLD gives each lane its elements
and VTST writes each byte that no later lane writes, and nothing else of storage. -/
def Claims.LaneAccessToTiles : Prop :=
  ∀ (s : State) (o : LaneOp), s.act o.msel ≠ 0 →
    let v : W16 := (s.qv o.s1.toNat).setWidth 16
    let w := s.myCrew
    let cnt := cntOf (immBits o 17 16)
    let e := elemBytes o.ty
    let first (l : Nat) : Nat := (s.lv l o.s2.toNat).toNat + immBits o 15 0
    (∀ x ∈ [Instr.vtld o, .vtst o],
      (HandleStale w v → TrapsWhole x s .handleStale v.toNat (s.act o.msel) (s.act o.msel))
      ∧ (HandleForeign w s.me.index v → TrapsWhole x s .handleForeign v.toNat (s.act o.msel) (s.act o.msel)))
    ∧ ∀ i, HandleIs w s.me.index v i →
      let d := (slotOf w i).desc
      let fits := ∀ l, s.active o.msel l → first l % cnt = 0 ∧ (first l + cnt) * e ≤ descBits d / 8
      (o.ty ≠ descFmt d → o.ty ≠ .n32 → ∀ x ∈ [Instr.vtld o, .vtst o], TrapsWhole x s .layoutMismatch 1 (s.act o.msel) (s.act o.msel))
      ∧ (o.ty = descFmt d ∨ o.ty = .n32 →
        (s.tileWaits s.me.crew i false w.tileSeq = true → exec (.vtld o) s = .next s)
        ∧ (s.tileWaits s.me.crew i true w.tileSeq = true → exec (.vtst o) s = .next s)
        ∧ (s.tileWaits s.me.crew i false w.tileSeq = false → fits → (slotOf w i).poisoned = false →
            (∀ l, s.active o.msel l → s.tileErr s.me.crew i (tileParts (first l * e) (e * cnt)) = false) →
            let bytes (l k n : Nat) : Nat := leNat ((List.range n).map fun b => memByte s.mem (tileAddr w i (first l * e + k + b)))
            ∃ t, exec (.vtld o) s = .next t ∧ t = { s with ctxs := t.ctxs, benches := t.benches, vregs := t.vregs }
              ∧ (∀ c, c ≠ s.cur → t.ctx c = s.ctx c) ∧ t.me = laneStep false none s.me
              ∧ (∀ l, s.active o.msel l →
                  (cnt = 1 → smGet 0 t.vregs (s.vPlace l o.dst.toNat) = widen o.ty (bytes l 0 e))
                  ∧ (cnt ≠ 1 → e = 4 → ∀ k, k < cnt → smGet 0 t.vregs (s.vPlace l (o.dst.toNat + k)) = BitVec.ofNat 32 (bytes l (4 * k) 4)))
              ∧ ∀ p, (∀ l k, s.active o.msel l → k < cnt → p ≠ s.vPlace l (o.dst.toNat + k)) → smGet 0 t.vregs p = smGet 0 s.vregs p)
        ∧ (s.tileWaits s.me.crew i true w.tileSeq = false → fits →
            let at_ (l j : Nat) : Nat := tileAddr w i (first l * e + j)
            ∃ t, exec (.vtst o) s = .next t
              ∧ t = { s with ctxs := t.ctxs, benches := t.benches, crews := t.crews, mem := t.mem, ms := t.ms }
              ∧ (∀ c, c ≠ s.cur → t.ctx c = s.ctx c) ∧ t.me = laneStep false none s.me
              ∧ (∀ n, n ≠ s.me.crew → t.crew n = s.crew n) ∧ t.myCrew = { w with slots := t.myCrew.slots }
              ∧ (∀ j, j < i ∨ i + descSlots d ≤ j → slotOf t.myCrew j = slotOf w j)
              ∧ (∀ j, ∃ stamp poisoned rewritten, slotOf t.myCrew j = { slotOf w j with stamp, poisoned, rewritten })
              ∧ (slotOf t.myCrew i).stamp = (if isFloat o.ty = true ∧ (slotOf w i).stamp = 0 then s.contract else (slotOf w i).stamp)
              ∧ (∀ l j, s.active o.msel l → j < e * cnt →
                  (∀ l' j', s.active o.msel l' → j' < e * cnt → (l < l' ∨ (l = l' ∧ j < j')) → at_ l' j' ≠ at_ l j) →
                  memByte t.mem (at_ l j) = (s.tileData o l).getD j 0)
              ∧ ∀ x, (∀ l j, s.active o.msel l → j < e * cnt → x ≠ at_ l j) → memByte t.mem x = memByte s.mem x))

/-- Lane access to tiles, tile operations, and the Loom's tables.
Where the spec leaves a point open, this rests on the model's reading (log 30). -/
def Obligations.TilesAreReadWrittenAndFilled : Prop := Claims.LaneAccessToTiles ∧ Claims.TileOperationsAndTables

/-! ## The Loom (09 R244 to R268) -/

/-- MBEAM, MLOOP and MSTEP (R244 to R266): a skein narrower than 32 lanes traps; a stale or foreign handle traps; a malformed layout word and a
set that no beam of the crew is ahead in trap LAYOUT_MISMATCH. Where every check of R266 passes and a future and queue places are free,
the word returns at once with its operation queued.
Where the spec leaves a point open, this rests on the model's reading (log 31, 69). -/
def Obligations.LoomWordsQueueOperations : Prop :=
  ∀ (s : State) (d : FReg) (a b : KReg) (h : HReg) (set : BeamSet) (st keep drop : Bool), s.me.handler = false →
    let w := s.myCrew
    let lay := (s.kv b).toNat
    let lw := s.kv a
    let n := if st then 1 else 0
    let tile := Instr.mbeamTile d h b set
    let fromMem := Instr.mbeamMem d a b set
    let loopTile := Instr.mloopTile d a h st keep drop
    let loopMem := Instr.mloopMem d a h st keep drop
    let step := Instr.mstep a h st keep drop
    (s.me.width.toNat < 3 → ∀ i ∈ [tile, fromMem, loopTile, loopMem, step], Traps i s .matrixWidth s.me.width.toNat)
    ∧ (3 ≤ s.me.width.toNat →
      (∀ i ∈ [tile, loopTile, loopMem, step],
        (HandleStale w (hGet s.me h) → Traps i s .handleStale (hGet s.me h).toNat)
        ∧ (HandleForeign w s.me.index (hGet s.me h) → Traps i s .handleForeign (hGet s.me h).toNat))
      ∧ (layBad lay false = true → Traps fromMem s .layoutMismatch 7)
      ∧ (∀ i, HandleIs w s.me.index (hGet s.me h) i →
          let desc := (slotOf w i).desc
          let kb := if layTrans lay then descCols desc else descRows desc
          let nb := if layTrans lay then descRows desc else descCols desc
          let clean := layBad lay false = false ∧ layPitch lay = 0 ∧ laySpan lay = 0
          (¬ clean → Traps tile s .layoutMismatch 7)
          ∧ (clean → layFmt lay ≠ descFmt desc → Traps tile s .layoutMismatch 1)
          ∧ (clean → layFmt lay = descFmt desc → s.BeamFits set lay kb nb → (freeIndex w).isSome = true →
              s.setsFree (wideFmt (layFmt lay)) (if set = .s1 then 1 else 0) →
              LoomIssued tile s (some (d, 1)) fun o => o.kind = .mbeam ∧ o.mem = false ∧ o.tileSlot = i ∧ o.kb = kb ∧ o.nb = nb
                ∧ o.fmt = layFmt lay ∧ o.wide = wideFmt (layFmt lay) ∧ o.set = (if set = .s1 then 1 else 0)))
      ∧ (∀ ps, layBad lay false = false → s.BeamFits set lay (layKm1 lay + 1) (layNm1 lay + 1) → lw.toNat < 2 ^ 57 → lw.toNat % 16 = 0 →
          (let t := if layPerm lay = 0 then PermTable.identity else s.permTable (layPerm lay - 1)
           s.OperandReads (beamElems lw.toNat lay (layKm1 lay + 1) (layNm1 lay + 1) t).flatten (laySpan lay) ps) →
          (freeIndex w).isSome = true → s.setsFree (wideFmt (layFmt lay)) (if set = .s1 then 1 else 0) →
          LoomIssued fromMem s (some (d, 1)) fun o => o.kind = .mbeam ∧ o.mem = true ∧ o.base = lw ∧ o.kb = layKm1 lay + 1
            ∧ o.nb = layNm1 lay + 1 ∧ o.fmt = layFmt lay ∧ o.pages = ps)
      ∧ (∀ i j, HandleIs w s.me.index (hGet s.me h) i → HandleIs w s.me.index (hGet s.me (h + 1)) j →
          let acc := (slotOf w i).desc
          let x := (slotOf w j).desc
          (bitsOf lw.toNat 21 19 ≠ 0 → Traps loopTile s .layoutMismatch 7 ∧ Traps step s .layoutMismatch 7)
          ∧ (bitsOf lw.toNat 21 19 = 0 → 0 ≤ loopKinc lw.toNat → i ≠ j → claimOf (s.loom (coreOf s.cur)) n s.me.crew = none →
              Traps loopTile s .layoutMismatch 5 ∧ Traps step s .layoutMismatch 5)
          ∧ (∀ beam, s.LoopFits n acc lw (descFmt x) beam → i ≠ j → 0 ≤ loopKinc lw.toNat →
              (loopRows lw.toNat - 1) * loopRinc lw.toNat < descRows x →
              ((loopSteps lw.toNat - 1 : Nat) : Int) * loopKinc lw.toNat + (beam.kb / loopSteps lw.toNat : Nat) ≤ descCols x →
              s.setsFree (wideFmt beam.fmt) n →
              let made (o : LoomOp) : Prop := o.mem = false ∧ o.accSlot = i ∧ o.tileSlot = j ∧ o.loopw = lw ∧ o.fmt = descFmt x
                ∧ o.kb = beam.kb ∧ o.nb = beam.nb ∧ o.set = n ∧ o.drop = drop
              ((freeIndex w).isSome = true → LoomIssued loopTile s (some (d, 2)) fun o => o.kind = .mloop ∧ made o)
              ∧ LoomIssued step s none fun o => o.kind = .mstep ∧ made o))
      ∧ ∀ i beam ps, HandleIs w s.me.index (hGet s.me h) i →
          let l := s.kv (a + 2)
          let base := s.kv (a + 1)
          s.LoopFits n (slotOf w i).desc lw (layFmt l.toNat) beam → loopKinc lw.toNat % 16 = 0 → layBad l.toNat true = false →
          layPerm l.toNat = beam.perm → s.setsFree (wideFmt beam.fmt) n → (freeIndex w).isSome = true →
          (∀ o : LoomOp, o.base = base → o.lay = l → o.loopw = lw → o.fmt = layFmt l.toNat → o.kb = beam.kb → o.table = beam.table →
            s.OperandReads ((List.range (loopRows lw.toNat)).flatMap (rowElems o)) (laySpan l.toNat) ps) →
          LoomIssued loopMem s (some (d, 2)) fun o => o.kind = .mloop ∧ o.mem = true ∧ o.accSlot = i ∧ o.loopw = lw ∧ o.base = base
            ∧ o.lay = l ∧ o.fmt = layFmt l.toNat ∧ o.kb = beam.kb ∧ o.nb = beam.nb ∧ o.pages = ps)

/-- LOOM_OP_START, LOOM_ROW_COMMIT and LOOM_OP_COMPLETE on the operation whose turn it is (R248, R254, R257, R263, R275, R376): it starts with
leave, or asks for it; an uncorrectable error of the beam or a tile fails the operation with code 1 and is counted; a row whose A
operand is a readable tile, or memory whose lines have been read without fault, is reduced into its accumulator row in one commit; a cancelled,
a failed and a finished operation leave their queues with CANCELLED, FAILED or DONE; a finished MBEAM leaves DONE with its sets held by its crew
and the elements of its operand in their beam, through the permutation and the transpose of its layout word.
Where the spec leaves a point open, this rests on the model's reading (log 31, 78). -/
def Obligations.LoomOperationsAdvance : Prop :=
  ∀ (s : State) (core set i : Nat) (o : LoomOp), s.loomAt core set = some (i, o) →
    let lm := s.loom core
    let w := s.crew o.crew
    let others (t : State) : Prop := ∀ k, k ≠ core → t.loom k = s.loom k
    let puts (t : State) (o' : LoomOp) : Prop :=
      t.loom core = { lm with ops := lm.ops.map fun p => if p.1 = i then (p.1, o') else p } ∧ others t
    -- the start
    (o.started = false → o.cancelled = false → o.failed = 0 → s.loomTilesFree o = true →
      (o.kind = .mbeam ∨ (loomSet lm o.set).holder = some o.crew) →
      let cost := s.loomCost o (((loomSet lm o.set).beam).getD (beamOf o))
      (o.leave ≠ 0 → ∃ t, exec (.loomOpStart core set) s = .next t ∧ t = { s with looms := t.looms } ∧ puts t { o with started := true })
      ∧ (o.leave = 0 → s.leaveQueued (crewDie w) (.loom core i) = false → standingCovers w cost = true →
          ∃ t, exec (.loomOpStart core set) s = .next t ∧ t = { s with looms := t.looms, crews := t.crews, dies := t.dies }
            ∧ puts t { o with started := true, leave := cost, standing := true }
            ∧ (t.crew o.crew).standHeld = w.standHeld + cost)
      ∧ (o.leave = 0 → s.leaveQueued (crewDie w) (.loom core i) = false → standingCovers w cost = false →
          ∃ t, exec (.loomOpStart core set) s = .next t ∧ t = { s with dies := t.dies }
            ∧ (t.die (crewDie w)).leaveQ = (s.die (crewDie w)).leaveQ ++ [{ owner := .loom core i, tokens := cost }]))
    -- a row
    ∧ (∀ b, (loomSet lm o.set).beam = some b → o.kind ≠ .mbeam → o.started = true → o.cancelled = false → o.failed = 0 →
        o.row < loopRows o.loopw.toNat →
        (b.bad = true → ∃ t, exec (.loomRowCommit core set false) s = .next t ∧ t = { s with looms := t.looms }
          ∧ puts t { o with failed := 1, poisons := true })
        ∧ (∃ t, exec (.loomRowCommit core set true) s = .next t ∧ t = { s with looms := t.looms, dies := t.dies }
          ∧ puts t { o with failed := 1, poisons := true }
          ∧ (2 < (s.die (dieOfCore core)).ue.length →
              (t.die (dieOfCore core)).ue.getD 2 0 = min ((s.die (dieOfCore core)).ue.getD 2 0 + 1) (2 ^ 32 - 1)))
        ∧ (o.mem = true → b.bad = false → s.tileCode o.crew o.accSlot (accParts o (loopArow0 o.loopw.toNat + o.row)) = 0 →
            ∀ code, code ≠ 0 → linesCode o (rowElems o o.row) = some code →
              ∃ t, exec (.loomRowCommit core set false) s = .next t ∧ t = { s with looms := t.looms } ∧ puts t { o with failed := code, poisons := false })
        ∧ (b.bad = false → o.accSlot < w.slots.length → 0 < descSlots (slotOf w o.accSlot).desc → fmtBits (descFmt o.accDesc) = 32 →
            b.nb = descCols o.accDesc → s.tileCode o.crew o.accSlot (accParts o (loopArow0 o.loopw.toNat + o.row)) = 0 →
            (o.mem = false → s.tileCode o.crew o.tileSlot (rowParts o) = 0) → (o.mem = true → linesCode o (rowElems o o.row) = some 0) →
            let r := loopArow0 o.loopw.toNat + o.row
            let byte (n j : Nat) : Nat := tileAddr w o.accSlot (4 * (r * b.nb + n) + j)
            (∀ n j n' j', n < b.nb → n' < b.nb → j < 4 → j' < 4 → byte n j = byte n' j' → n = n' ∧ j = j') →
            let kt := o.kb / loopSteps o.loopw.toNat
            let av := if o.mem then (rowElems o o.row).map (elemVal o.data) else (List.range o.kb).map fun k =>
              let p := permPos o.table.len o.table.p k
              s.tileElem w o.tileSlot o.tileDesc (o.row * loopRinc o.loopw.toNat) (p / kt * (loopKinc o.loopw.toNat).toNat + p % kt)
            let m := s.commission w.comm
            ∃ t, exec (.loomRowCommit core set false) s = .next t
              ∧ t = { s with ctxs := t.ctxs, crews := t.crews, looms := t.looms, benches := t.benches, mem := t.mem, ms := t.ms }
              ∧ puts t { o with row := o.row + 1 }
              ∧ (∀ n, n < b.nb → leNat ((List.range 4).map fun j => memByte t.mem (byte n j))
                  = (rowElem m.contract o b av n (s.tileElem w o.accSlot o.accDesc r n)).1 % 2 ^ 32)
              ∧ (∀ x, (∀ n j, n < b.nb → j < 4 → x ≠ byte n j) → memByte t.mem x = memByte s.mem x)
              ∧ (slotOf (t.crew o.crew) o.accSlot).stamp = m.contract))
    -- the end of an MBEAM
    ∧ (o.kind = .mbeam → o.started = true → o.cancelled = false → o.failed = 0 → w.status ≠ .ended →
        (o.mem = true → linesCode o (beamElems o.base.toNat o.lay.toNat o.kb o.nb o.table).flatten = some 0) →
        (o.mem = false → s.tileCode o.crew o.tileSlot (tileWhole o.tileDesc) = 0) →
        let elem (k n : Nat) : Nat :=
          let p := permPos o.table.len o.table.p k
          let q := if layTrans o.lay.toNat then (n, p) else (p, n)
          if o.mem then elemVal o.data (elemAt o.base.toNat o.lay.toNat q.1 (q.2 * fmtBits (layFmt o.lay.toNat) : Nat) (fmtBits (layFmt o.lay.toNat)))
          else s.tileElem w o.tileSlot o.tileDesc q.1 q.2
        ∃ t, exec (.loomOpComplete core set) s = .next t
          ∧ t = { s with ctxs := t.ctxs, crews := t.crews, looms := t.looms, dies := t.dies, benches := t.benches, ms := t.ms, freeCtr := t.freeCtr }
          ∧ (∀ n, n < 2 → o.wide = true ∨ n = o.set →
              (loomSet (t.loom core) n).holder = some o.crew
              ∧ ∃ b, (loomSet (t.loom core) n).beam = some b ∧ b.fmt = o.fmt ∧ b.kb = o.kb ∧ b.nb = o.nb
                ∧ ∀ k m, k < o.kb → m < o.nb → (b.elems.getD k []).getD m 0 = elem k m)
          ∧ ∀ tag e, o.fut = some tag → futEntry w tag = some e → FutureEnds s t o.crew tag (futVal 2 e.kind tag 0) e)
    -- the end of another
    ∧ ∀ code st, (o.cancelled = true ∧ code = 0 ∧ st = 4) ∨ (o.cancelled = false ∧ o.failed ≠ 0 ∧ code = o.failed ∧ st = 3)
          ∨ (o.cancelled = false ∧ o.failed = 0 ∧ o.started = true ∧ o.kind ≠ .mbeam ∧ loopRows o.loopw.toNat ≤ o.row ∧ code = 0 ∧ st = 2) →
        let status := (if o.kind = .mbeam ∨ st = 2 then 0 else o.row % 2 ^ 16 * 2 ^ 16) + code
        ∃ t, exec (.loomOpComplete core set) s = .next t
          ∧ t = { s with ctxs := t.ctxs, crews := t.crews, looms := t.looms, dies := t.dies, benches := t.benches, ms := t.ms }
          ∧ others t ∧ (∀ p ∈ (t.loom core).ops, p.1 ≠ i)
          ∧ ((o.wide = true ∨ o.set = 0) → i ∉ (t.loom core).q0) ∧ ((o.wide = true ∨ o.set ≠ 0) → i ∉ (t.loom core).q1)
          ∧ ∀ tag e, o.fut = some tag → futEntry w tag = some e →
              FutureEnds s t o.crew tag (futVal st e.kind tag status) e

/-! ## Copies (10 R276 to R285) -/

/-- CPY, CPYG, CPYZ and MUPD (R276 to R280): a malformed word, another descriptor than the channel's open copy has, and rows outside the copy or
taken already trap ILLEGAL; where the destination, source and record ranges answer and a future is free, the word returns with a
pending future, and its slice stands in the copy, which starts once its slices hold every row. From then on the slice's destination lines are
the copy's (R280): no buffer of the device holds bytes of such a line of HBM, and one in the scratchpad is marked empty with the span tag; the
slice of a copy that does not start yet lists them, and an access that reaches one waits.
Where the spec leaves a point open, this rests on the model's reading (log 33, 73). -/
def Obligations.CopyWordsAddSlices : Prop :=
  ∀ (s : State) (d : FReg) (a b : KReg), s.me.handler = false →
    ∀ p ∈ [(Instr.cpy d a b, CopyKind.cpy), (.cpyg d a b, .cpyg), (.cpyz d a b, .cpyz), (.mupd d a b, .mupd)],
      let reg (i : Nat) : W64 := kGet s.me (a.toNat + i)
      let ctl := (reg 2).toNat
      let sl := (s.kv b).toNat
      let desc := [reg 0, reg 1, reg 2, reg 3, reg 4, if p.2 = .cpyg then reg 5 else 0]
      let opened := s.openCopy s.me.crew (ctlChan ctl)
      let absent := p.2 = .cpy ∧ ctlDecomp ctl = true ∧ s.part.decomp = false
      let bad := copyBad p.2 (reg 0).toNat ctl (bitsOf (reg 3).toNat 63 32) sl = true
      let row0 := sliceRow0 sl
      let rows := sliceRows sl
      (absent → Traps p.1 s .illegal 0x10)
      ∧ (¬ absent → bad → Traps p.1 s .illegal 0x17)
      ∧ (¬ absent → ¬ bad → ∀ y, opened = some y → y.kind ≠ p.2 ∨ y.desc ≠ desc → Traps p.1 s .illegal 0x11)
      ∧ (¬ absent → ¬ bad → (∀ y, opened = some y → y.kind = p.2 ∧ y.desc = desc) → ctlRows ctl < row0 + rows → Traps p.1 s .illegal 0x12)
      ∧ (¬ absent → ¬ bad → ∀ y z, opened = some y → y.kind = p.2 → y.desc = desc → z ∈ y.slices → z.row0 < row0 + rows → row0 < z.row0 + z.rows →
          Traps p.1 s .illegal 0x12)
      ∧ ∀ (y : Copy) (q0 q1 q2 : List (Nat × Leaf)), ¬ absent → ¬ bad → y.kind = p.2 → y.desc = desc →
          (match opened with
            | some o => y = o
            | none => y.slices = [] ∧ y.pages = [] ∧ y.id = s.nextCopy) →
          row0 + rows ≤ ctlRows ctl → (∀ z ∈ y.slices, z.row0 + z.rows ≤ row0 ∨ row0 + rows ≤ z.row0) →
          let cs := sliceChunks y row0 rows
          s.RangesReach (cs.map fun c => (c.va, c.len)) 5 .write [] q0 →
          (p.2 = .mupd → ∀ c ∈ cs, ∀ v ∈ [c.va, c.va + c.len - 1], (copyAddr s.myCrew q0 v).map regionOf = some .mart) →
          (ctlDecomp ctl = true ∨ p.2 = .cpyg → copySrc y < 2 ^ 57) → s.RangesReach (sourceRanges y row0 rows) 4 .read q0 q1 →
          copyRec y < 2 ^ 57 → copyRec y % 64 = 0 → s.RangesReach (if copyRec y = 0 then [] else [(copyRec y, 64)]) 5 .write q1 q2 →
          (freeIndex s.myCrew).isSome = true →
          ∃ t tag y' z', exec p.1 s = .next t ∧ IssuesFuture s t d (kindNum p.2) tag
            ∧ y' ∈ t.copies ∧ y'.id = y.id ∧ y'.kind = p.2 ∧ y'.desc = desc ∧ y'.slices.length = y.slices.length + 1
            ∧ z' ∈ y'.slices ∧ z'.fut = tag ∧ z'.ctx = s.cur ∧ z'.row0 = row0 ∧ z'.rows = rows
            ∧ y'.started = decide ((y.slices.map fun z => z.rows).sum + rows = ctlRows ctl)
            ∧ (let own := chunkLines s.myCrew q2 cs
               (∀ line ∈ own, (regionOf (128 * line) = .hbm → ∀ e ∈ t.ms.sgb, e.line ≠ line)
                 ∧ (regionOf (128 * line) = .spad → t.lineState line = { empty := true, tag := BitVec.ofNat 3 (ctlSpan ctl) }))
               ∧ (y'.started = false → z'.lines = own ∧ ∀ line ∈ own, hostLine line = false → t.lineBusy line = true))
            ∧ t = { s with ctxs := t.ctxs, crews := t.crews, copies := t.copies, mem := t.mem, ms := t.ms, lineSt := t.lineSt
                           dies := t.dies, nextPlace := s.nextPlace + 1, nextCopy := t.nextCopy, freeCtr := t.freeCtr }
            ∧ (∀ c, c ≠ s.cur → t.ctx c = { s.ctx c with out := (t.ctx c).out })
            ∧ t.me = { s.me.afterCommit 4 with f := t.me.f, out := t.me.out
                                               region := { s.me.region with committed := true, futures := t.me.region.futures } }

/-- COPY_LINE_WRITE (R280 to R283): the first line of a started copy receives its bytes, where none of their sources stand in the copy's own
destination, and then belongs to the copy no longer: the fill pattern of CPYZ; the source rows of CPY, or the bytes that its compressed stream
has brought; for CPYG the row that the index entry of each row names; MUPD's elements are each read, combined with their source element by the
AOP and written. Nothing else of storage changes, where no Loom operation waits to read a line (R261) and no source byte has been kept from a
later store of the skein. -/
def Claims.CopiesWriteLines : Prop :=
  ∀ (s : State) (id : Nat) (y : Copy), (s.copies.find? fun v => v.id = id) = some y → y.again = false → y.waiting = false → y.badPages = [] →
    let w := s.crew y.crew
    ∀ (z : Slice) (line : Nat) (rest : List (Slice × Nat)), y.started = true → y.cancelled = false →
      (y.slices.flatMap fun z => z.lines.map fun l => (z, l)) = (z, line) :: rest →
      s.lineBefore line z.seq = false → s.readersBefore y.id line z.seq = false → (∀ p ∈ s.looms, ∀ q ∈ p.2.ops, q.2.left = []) →
      let rb := ctlRowBytes (copyCtl y)
      let all := lineBytesOf w y.pages (sliceChunks y z.row0 z.rows) line
      let once (b : Nat × Nat × Nat) : Prop := all.countP (fun c => c.1 = b.1) = 1
      let done (t : State) : Prop := exec (.copyLineWrite id) s = .next t
        ∧ t = { s with mem := t.mem, ms := t.ms, copies := t.copies, lineSt := t.lineSt, freeCtr := t.freeCtr }
        ∧ (∀ v ∈ t.copies, v.id = y.id → ∀ u ∈ v.slices, u.seq = z.seq → line ∉ u.lines)
      let frame (t : State) : Prop := ∀ x, (∀ b ∈ all, b.1 ≠ x) → memByte t.mem x = memByte s.mem x
      -- the storage address of a source byte: by the copy's translations, or by the die's
      let place (v : Nat) : Option Nat :=
        if Config.windowBase ≤ v ∨ (y.pages.any fun q => q.1 = v / 4096) = true then copyAddr w y.pages v
        else (s.tlbAt (.die (dieOfCore y.core)) y.tctx (4096 * (v / 4096))).bind fun l =>
          if pageOk l .read y.tenant (4096 * (v / 4096)) then some (l.phys v) else none
      let readable (v : Nat) : Prop := v < 2 ^ 57 ∧ ∃ p, place v = some p ∧ s.poisoned p 1 = false
        ∧ smFind s.ms.kept (keptKey z.seq p) = none ∧ s.otherBefore y.id (lineOf p) z.seq = false ∧ s.sgbFind y.core (lineOf p) = none
      let at_ (v : Nat) : Byte := memByte s.mem ((place v).getD 0)
      let src (r o : Nat) : Nat := (copySrc y + r * copySpitch y + o) % 2 ^ 64
      let gathered (r o : Nat) : Nat := src (leNat ((List.range 4).map fun i => at_ (copyIdx y + 4 * r + i))) o
      (y.kind = .cpyz → ∃ t, done t ∧ frame t ∧ ∀ b ∈ all, once b →
          memByte t.mem b.1 = BitVec.ofNat 8 ((y.desc.getD 1 0).toNat / 2 ^ (8 * (b.2.2 % 4))))
      ∧ (y.kind = .cpy → ctlDecomp (copyCtl y) = false → (∀ b ∈ all, readable (src b.2.1 b.2.2)) →
          ∃ t, done t ∧ frame t ∧ ∀ b ∈ all, once b → ownDest y (src b.2.1 b.2.2) = false → memByte t.mem b.1 = at_ (src b.2.1 b.2.2))
      ∧ (y.kind = .cpy → ctlDecomp (copyCtl y) = true → (∀ b ∈ all, y.ended = true ∨ b.2.1 * rb + b.2.2 < y.expanded.length) →
          ∃ t, done t ∧ frame t ∧ ∀ b ∈ all, once b → memByte t.mem b.1 = y.expanded.getD (b.2.1 * rb + b.2.2) 0)
      ∧ (y.kind = .cpyg → (∀ b ∈ all, (∀ i, i < 4 → readable (copyIdx y + 4 * b.2.1 + i)) ∧ readable (gathered b.2.1 b.2.2)) →
          ∃ t, done t ∧ frame t ∧ ∀ b ∈ all, once b → ownDest y (gathered b.2.1 b.2.2) = false → memByte t.mem b.1 = at_ (gathered b.2.1 b.2.2))
      ∧ (y.kind = .mupd →
          let starts := all.filter fun b => b.2.2 % 4 = 0
          (∀ b ∈ starts, ∀ i, i < 4 → readable (src b.2.1 (b.2.2 + i))
            ∧ copyAddr w y.pages (elemAddr (copyDst y) (ctlSpan (copyCtl y)) (copyDpitch y) b.2.1 (8 * (b.2.2 + i) : Nat)) = some (b.1 + i)) →
          (starts.Pairwise fun b c => b.1 + 4 ≤ c.1 ∨ c.1 + 4 ≤ b.1) →
          ∃ t, done t ∧ (∀ x, (∀ b ∈ starts, x < b.1 ∨ b.1 + 4 ≤ x) → memByte t.mem x = memByte s.mem x)
            ∧ ∀ b ∈ starts, (∀ i, i < 4 → ownDest y (src b.2.1 (b.2.2 + i)) = false) →
              let word (u : State) : Nat := leNat ((List.range 4).map fun i => memByte u.mem (b.1 + i))
              ∃ lw lane c, word t = vatmNew (ctlAop (copyCtl y)) ((ctlFmt (copyCtl y)).getD .n32) .rne false (flushOf y.contract) lw lane (word s)
                (leNat ((List.range 4).map fun i => at_ (src b.2.1 (b.2.2 + i)))) c % 2 ^ 32)

/-- COPY_END (R283, R284): a copy with no line left ends: it is gone, its record is written, and the future of each of its slices is DONE, FAILED
or CANCELLED with its STATUS. -/
def Claims.CopiesEnd : Prop :=
  ∀ (s : State) (id : Nat) (y : Copy), (s.copies.find? fun v => v.id = id) = some y → y.again = false → y.waiting = false →
    let w := s.crew y.crew
    y.started = true ∨ y.cancelled = true → (∀ z ∈ y.slices, z.lines = []) →
      let rec_ := if copyRec y ≠ 0 ∧ y.cancelled = false then
        copyAddr w (y.recLeaf.toList.map fun l => (copyRec y / 4096, l)) (copyRec y) else none
      (∀ a, rec_ = some a → s.lineBusy (lineOf a) = false) →
      let st := if y.cancelled then 4 else if y.code = 0 then 2 else 3
      ∃ t, exec (.copyEnd id) s = .next t
        ∧ t = { s with ctxs := t.ctxs, crews := t.crews, benches := t.benches, dies := t.dies, copies := t.copies, mem := t.mem, ms := t.ms
                       freeCtr := t.freeCtr }
        ∧ t.copies = s.copies.filter (fun v => v.id ≠ id)
        ∧ (∀ a, rec_ = some a → ∀ i, i < 64 → memByte t.mem (a + i) = (copyRecord y).getD i 0)
        ∧ (∀ x, (∀ a, rec_ = some a → x < a ∨ a + 64 ≤ x) → memByte t.mem x = memByte s.mem x)
        ∧ ∀ (pre post : List Slice) (z : Slice) (e : FutEntry), y.slices = pre ++ z :: post → futEntry w z.fut = some e →
            (∀ u ∈ pre ++ post, u.fut % 64 ≠ z.fut % 64 ∧ ∀ e', futEntry w u.fut = some e' → e'.ctx ≠ e.ctx ∨ e'.reg ≠ e.reg) →
            FutureEnds s t y.crew z.fut (futVal st e.kind z.fut (y.code * 2 ^ 24 + y.flags * 2 ^ 8)) e

/-- Copies write their lines, and end.
Where the spec leaves a point open, this rests on the model's reading (log 16, 33, 68, 73). -/
def Obligations.CopiesWriteLinesAndEnd : Prop := Claims.CopiesWriteLines ∧ Claims.CopiesEnd

/-! ## Collectives (10 R286 to R288; 15 R415 to R423) -/

/-- COLL (R106, R276, R286, R287): a register group at or above the declared count traps ILLEGAL 3; absent on a part without peer links, malformed, or of a communicator that the tenant does not have, it traps ILLEGAL; it
waits for the lane work before it; a record beyond the address space or the allocation traps ACCESS and one off its boundary ALIGN (R39, R41,
R42), and contributors outside the communicator or its buffer trap ACCESS with the lowest as DETAIL and all in TRAPMASK. Where the sources read and
its contributions find counters and a future, the word returns with a pending future of KIND 7 and its operation in the Drover.
Where the spec leaves a point open, this rests on the model's reading (log 37, 73). -/
def Obligations.CollectivesAreTakenOrTrap : Prop :=
  ∀ (s : State) (d : FReg) (a : KReg) (b : BitVec 6) (m : MReg), s.me.handler = false →
    let i : Instr := .coll d a b m
    let w := (s.kv a).toNat
    let record := kGet s.me (a.toNat + 1)
    let chunk := bitsOf w 23 0
    let lanes := (List.range (lanesOf s.me.width)).filter fun l => (heldLanes s.me m.toNat).getLsbD l
    (s.myComm.vregs ≤ b.toNat + 2 → Traps i s .illegal 3)
    ∧ (b.toNat + 2 < s.myComm.vregs → s.part.is384P = true → Traps i s .illegal 0x10)
    ∧ (b.toNat + 2 < s.myComm.vregs → s.part.is384P = false → s.commByHandle (bitsOf w 63 48) = none → Traps i s .illegal 0x17)
    ∧ ∀ cm, b.toNat + 2 < s.myComm.vregs → s.part.is384P = false → s.commByHandle (bitsOf w 63 48) = some cm →
      let good := collBad w = false ∧ cm.tenant = s.myComm.tenant ∧ cm.freeing = false
      let bad := lanes.filter fun l => collFails cm chunk (s.collLane b.toNat l)
      let idle := laneIdle s.me = true
      let inside := Config.windowBase ≤ record.toNat → record.toNat + 128 ≤ Config.windowBase + 128 * s.myCrew.nLines
      let placed := record.toNat < 2 ^ 57 ∧ record.toNat % 128 = 0 ∧ inside
      let keys := lanes.map fun l => ((s.collLane b.toNat l).1, (s.collLane b.toNat l).2 - cm.buf.toNat)
      (¬ good → Traps i s .illegal 0x17)
      ∧ (good → ¬ idle → exec i s = .next s)
      ∧ (good → idle → 2 ^ 57 ≤ record.toNat → Traps i s .access 0)
      ∧ (good → idle → record.toNat < 2 ^ 57 → record.toNat % 128 ≠ 0 → Traps i s .align 0)
      ∧ (good → idle → record.toNat < 2 ^ 57 → record.toNat % 128 = 0 → ¬ inside → Traps i s .access 0)
      ∧ (good → idle → placed → ∀ l rest, bad = l :: rest →
          exec i s = .next (s.takeTrap s.cur (scalarTrap .access l (lanesMask bad))))
      ∧ ∀ ls, good → idle → placed → bad = [] →
          s.collSources chunk (lanes.map fun l => (l, (s.collLane b.toNat l).2)) [] = .inl (s, ls) →
          (∀ l ∈ lanes, ∀ j, j < chunk →
            let p := leafAddr s.myCrew ls ((s.collLane b.toNat l).2 + j)
            s.lineBusy (lineOf p) = false ∧ s.freshBad (coreOf s.cur) p 1 = false) →
          s.collReady cm (dieOf s.cur) (bitsOf w 39 32) chunk (decide (bitsOf w 47 44 = 1)) keys = true → (freeIndex s.myCrew).isSome = true →
          ∃ t tag, exec i s = .next t ∧ IssuesFuture s t d 7 tag
            ∧ t = { s with ctxs := t.ctxs, crews := t.crews, dies := t.dies, fab := t.fab, mem := t.mem, ms := t.ms, freeCtr := t.freeCtr }
            ∧ (∀ c, c ≠ s.cur → t.ctx c = { s.ctx c with out := (t.ctx c).out })
            ∧ t.me = { s.me.afterCommit 4 with f := t.me.f, out := t.me.out
                                               region := { s.me.region with committed := true, futures := t.me.region.futures } }
            ∧ ((∀ o ∈ s.fab.ops, o.id ≠ s.fab.nextId) → ∃ o ∈ t.fab.ops, o.fut = tag ∧ o.crew = s.me.crew ∧ o.comm = cm.handle
                ∧ o.step = bitsOf w 39 32 ∧ o.reduce = decide (bitsOf w 47 44 = 1) ∧ o.record = record)

/-- The Drover's steps (R288, R362, R415 to R423): an acknowledgement is counted; a partial sum is stored in the staging buffer and its counter
holds it; a partial that no contribution meets in time goes on late, and a contribution that no partial meets fails, with its counter kept to drop
that partial; a packet that ROD does not yet permit waits (R415); a member's report of a generation that a start barrier here may still await is
kept, and any other is discarded (R368; which ones may still be awaited is the model's reading, log 82); a counter that holds both enters the
scheduler as a commission of priority 0; a collective with nothing left ends DONE with its outcome.
Where the spec leaves a point open, this rests on the model's reading (log 37, 49, 72, 82). -/
def Obligations.DroverStepsServeCollectives : Prop :=
  ∀ s : State,
    (∀ (op : Nat) (o : CollOp), (s.fab.ops.find? fun p => p.id = op) = some o → o.toAck ≠ 0 →
      exec (.collSendAck op) s = .next { s with fab := { s.fab with
        ops := s.fab.ops.map fun p => if p.id = op then { o with toAck := o.toAck - 1 } else p } })
    ∧ (∀ (p : PartialMsg) (m : Communicator) (ls : List (Nat × Leaf)), s.part.is384P = false → s.commByKey p.key false = some m → p.owner ≠ m.rank →
        p.owner < m.nranks → p.failed = false → p.bytes.length = p.chunk → p.offset + p.chunk ≤ m.buflen.toNat →
        s.counterOf m.handle p.step p.owner p.offset p.chunk = none → s.countersFree (chunkDie p.offset) 1 = true →
        s.sendBusy m p.owner p.offset p.step = false →
        s.commLeaves (chunkDie p.offset) m.tctx m.tenant .write (m.stage.toNat + p.offset) p.chunk = some ls →
        let at_ (j : Nat) : Nat := pageAddr ls (m.stage.toNat + p.offset + j)
        (∀ j, j < p.chunk → s.lineBusy (lineOf (at_ j)) = false) → (∀ k ∈ s.fab.counters, k.id ≠ s.fab.nextId) →
        ∃ t k, exec (.collPartialArrival p) s = .next t ∧ t = { s with mem := t.mem, ms := t.ms, fab := t.fab, freeCtr := t.freeCtr }
          ∧ t.fab = { s.fab with counters := s.fab.counters ++ [k], nextId := s.fab.nextId + 1 }
          ∧ k.comm = m.handle ∧ k.step = p.step ∧ k.owner = p.owner ∧ k.offset = p.offset ∧ k.part = true ∧ k.own = none
          ∧ k.late = p.late ∧ k.partTime = s.time
          ∧ (∀ j, j < p.chunk → (∀ n, j < n → n < p.chunk → at_ n ≠ at_ j) → memByte t.mem (at_ j) = p.bytes.getD j 0)
          ∧ ∀ x, (∀ j, j < p.chunk → x ≠ at_ j) → memByte t.mem x = memByte s.mem x)
    ∧ (∀ (ctr : Nat) (k : Counter) (m : Communicator), (s.fab.counters.find? fun q => q.id = ctr) = some k →
        s.commByHandle k.comm = some m →
        (k.part = true → k.own = none → k.flushed = false → k.partTime + 1000 * m.tlate ≤ s.time → s.flushBusy m k = false →
          ∃ t msg, exec (.collLateTimeout ctr) s = .next t
            ∧ t = { s with fab := t.fab, dies := t.dies, ms := t.ms, freeCtr := t.freeCtr } ∧ t.fab.sent = s.fab.sent ++ [msg]
            ∧ msg.late = k.late ++ [m.rank] ∧ msg.comm = m.handle ∧ msg.step = k.step ∧ msg.owner = k.owner ∧ msg.offset = k.offset
            ∧ t.fab.counters = s.fab.counters.map fun q => if q.id = ctr then { k with flushed := true } else q)
        ∧ (∀ o, k.op = some o → k.own.isSome = true → k.part = false → k.failed = false → k.ownTime + 1000 * m.tfail ≤ s.time →
          s.sendBusy m k.owner k.offset k.step = false →
          ∃ t msg, exec (.collFailTimeout ctr) s = .next t
            ∧ t = { s with fab := t.fab, dies := t.dies, ms := t.ms, freeCtr := t.freeCtr } ∧ t.fab.sent = s.fab.sent ++ [msg]
            ∧ msg.kind = .marker ∧ msg.owner = k.owner ∧ msg.offset = k.offset ∧ msg.fcode = 1
            ∧ t.fab.counters = s.fab.counters.map (fun q => if q.id = ctr then
                { k with failed := true, sent := true, flushed := true, own := none, op := none, fcode := 1 } else q)
            ∧ ∀ p ∈ t.fab.ops, p.id = o → 2 ≤ p.outcome)
        ∧ (k.part = true → k.own.isSome = true → k.flushed = false → k.sent = false →
          ∃ t c, exec (.reduceCrewDispatch ctr) s = .next t
            ∧ t = { s with fab := t.fab, comms := s.comms ++ [c], nextReady := s.nextReady + 1 }
            ∧ t.fab = { s.fab with counters := s.fab.counters.map fun q => if q.id = ctr then { k with sent := true } else q }
            ∧ c.key = ⟨m.tctx, 0⟩ ∧ c.tenant = m.tenant ∧ c.prio = 0 ∧ c.contract = m.agreed ∧ c.nx = 1 ∧ c.ny = 1 ∧ c.nz = 1
            ∧ c.nskein = 1 ∧ c.drover = some ctr))
    ∧ (∀ (op : Nat) (o : CollOp), (s.fab.ops.find? fun p => p.id = op) = some o → o.waiting = false → o.toAck = 0 → o.toFold = 0 →
        o.owned = [] → o.locals = [] → s.collRecordWaits o = false → s.collRecordWalk o ≠ some .busy →
        let at_ := s.collRecordAt o
        (∀ f, at_ = some f → ∀ j, j < 128 → s.lineBusy (lineOf (f j)) = false) →
        ∃ t, exec (.collStepEnd op) s = .next t
          ∧ t = { s with ctxs := t.ctxs, crews := t.crews, benches := t.benches, dies := t.dies, fab := t.fab, mem := t.mem, ms := t.ms
                         freeCtr := t.freeCtr }
          ∧ (∀ p ∈ t.fab.ops, p.id ≠ op)
          ∧ (∀ f, at_ = some f → ∀ j, j < 128 → (∀ n, j < n → n < 128 → f n ≠ f j) → memByte t.mem (f j) = (collRecord s o).getD j 0)
          ∧ (∀ x, (∀ f, at_ = some f → ∀ j, j < 128 → x ≠ f j) → memByte t.mem x = memByte s.mem x)
          ∧ ∀ e, futEntry (s.crew o.crew) o.fut = some e → FutureEnds s t o.crew o.fut (futVal 2 e.kind o.fut o.outcome) e)
    ∧ ∀ (p : FabricPacket), s.part.is384P = false →
        (p.kind = .beacon → ∃ t x, exec (.fabricPacketReceive p) s = .next t ∧ t = { s with fab := { s.fab with beacons := s.fab.beacons ++ [x] } }
          ∧ x.payload = (p.caps.getD 0 0).setWidth 32 ∧ x.time = p.caps.getD 1 0 ∧ x.sys = true ∧ x.reached = [])
        ∧ (∀ m, p.kind = .setup → (s.fab.comms.find? fun c => decide (c.key = p.key) && !c.ready) = some m →
            ∃ t x, exec (.fabricPacketReceive p) s = .next t ∧ t = { s with fab := { s.fab with
                comms := s.fab.comms.map fun c => if c.handle = m.handle then x else c } }
              ∧ x = { m with answers := m.answers ++ [(p.rank, p.caps)], mismatch := x.mismatch })
        ∧ (∀ m ls, p.kind = .send ∨ (p.kind = .result ∧ p.failed = false) → s.commByKey p.key false = some m → p.bytes ≠ [] →
            p.bytes.length ≤ 4096 → p.offset + p.bytes.length ≤ m.buflen.toNat → rodPermits s.fab m p = true →
            s.commLeaves (chunkDie p.offset) m.tctx m.tenant .write (m.buf.toNat + p.offset) p.bytes.length = some ls →
            let at_ (j : Nat) : Nat := pageAddr ls (m.buf.toNat + p.offset + j)
            (∀ j, j < p.bytes.length → s.lineBusy (lineOf (at_ j)) = false) →
            ∃ t, exec (.fabricPacketReceive p) s = .next t ∧ t = { s with mem := t.mem, ms := t.ms, fab := t.fab, freeCtr := t.freeCtr }
              ∧ (∀ j, j < p.bytes.length → (∀ n, j < n → n < p.bytes.length → at_ n ≠ at_ j) → memByte t.mem (at_ j) = p.bytes.getD j 0)
              ∧ ∀ x, (∀ j, j < p.bytes.length → x ≠ at_ j) → memByte t.mem x = memByte s.mem x)
        ∧ (∀ m, p.kind = .send → s.commByKey p.key false = some m → m.delivery = 1 → p.msg ≠ rodTurn s.fab p.source (chunkDie p.offset) →
            exec (.fabricPacketReceive p) s = .refused (.notEnabled "FABRIC_PACKET_RECEIVE"))
        ∧ ∀ m, p.kind = .placed → s.commByKey p.key true = some m → p.rank ≠ m.rank → p.rank < m.nranks →
            exec (.fabricPacketReceive p) s = .next (if s.awaits m p.gen.toNat = true then { s with fab := { s.fab with
              comms := s.fab.comms.map fun c => if c.handle = m.handle then { m with reports := m.reports ++ [(p.rank, p.gen.toNat)] } else c } }
              else s)

/-! ## Futures (10 R269 to R275) -/

/-- FWAIT, FTEST, FCAN, FSTO and FLDF (R18, R269 to R275). FWAIT waits for a pending future, traps as R273's table says for each outcome, and
otherwise gives the STATUS, or 0 of a free register. FTEST tests without waiting. FCAN commits the region and cancels: a copy stops, a Loom
operation that runs stops at its next row, one that does not ends CANCELLED, and leaves its queues at once unless it changes its sets and
operations of its crew stand before it there: that it keeps its place then is the model's choice (log 78). FSTO takes the value out, FLDF
puts it back. -/
def Obligations.FutureWordsFollowTheTable : Prop :=
  ∀ (s : State) (d : KReg) (f : FReg) (k : KReg) (n : CBit), s.me.handler = false →
    let v := fGet s.me f.toNat
    let kind := futKind v
    let status := futStatus v
    let code := status % 2 ^ 16
    let cc := bitsOf status 31 24
    let ctl := (s.futControl s.me.crew (futTag v)).toNat
    let w := s.myCrew
    let failed := futState v = 3
    let done := futState v = 2
    (isPending v = true → exec (.fwait d f) s = .next s)
    ∧ (failed → (kind = 1 ∨ kind = 2) → code = 2 → Traps (.fwait d f) s .layoutMismatch 6)
    ∧ (failed → (kind = 1 ∨ kind = 2) → code = 1 ∨ code = 3 → Traps (.fwait d f) s .eccUncorr code)
    ∧ (failed → kind = 2 → code = 4 → Traps (.fwait d f) s .layoutMismatch 5)
    ∧ (failed → 3 ≤ kind → kind ≤ 6 → cc = 1 → Traps (.fwait d f) s .eccUncorr (status / 2 ^ 16))
    ∧ (failed → 3 ≤ kind → kind ≤ 6 → cc = 2 → Traps (.fwait d f) s .xlate (status / 2 ^ 16))
    ∧ (failed → 3 ≤ kind → kind ≤ 6 → cc = 3 → Traps (.fwait d f) s .access (status / 2 ^ 16))
    ∧ (done → kind = 3 ∨ kind = 4 → bitsOf status 10 8 ≠ 0 → ctl.testBit 2 = true → Traps (.fwait d f) s .decodeLength (bitsOf status 10 8))
    ∧ (done → kind = 7 → status % 256 = 1 → ctl.testBit 3 = true → Traps (.fwait d f) s .collLate 0)
    ∧ (isPending v = false → waitTrap v (s.futControl s.me.crew (futTag v)) = none →
        ∃ t, exec (.fwait d f) s = .next t ∧ t = { s with ctxs := t.ctxs, ms := t.ms } ∧ (∀ c, c ≠ s.cur → t.ctx c = s.ctx c)
          ∧ (kind < 7 → t.ms = s.ms) ∧ t.me = { s.me.afterWord 4 with k := t.me.k }
          ∧ ∀ r, t.kv r = if r = 0 then 0 else if r = d then (if futState v = 0 then 0 else BitVec.ofNat 64 status) else s.kv r)
    ∧ WritesC (.ftest n f) s n (!isPending v) 4
    -- FCAN
    ∧ (isPending v = false → ∃ t, exec (.fcan f) s = .next t ∧ s.OnlyMe t ∧ t.me = s.me.afterCommit 4)
    ∧ (∀ y, isPending v = true → 3 ≤ kind → kind ≤ 6 → y.cancelled = false → (∀ p ∈ s.looms, ∀ q ∈ p.2.ops, q.2.left = []) →
        (s.copies.find? fun z => decide (z.crew = s.me.crew) && z.slices.any fun u => decide (u.fut = futTag v)) = some y →
        ∃ t y', exec (.fcan f) s = .next t ∧ t = { s with ctxs := t.ctxs, copies := t.copies, dies := t.dies }
          ∧ t.copies = s.copies.map (fun z => if z.id = y.id then y' else z) ∧ y'.cancelled = true
          ∧ (∀ z ∈ y'.slices, ∀ l ∈ z.lines, regionOf (128 * l) = .spad) ∧ t.me = s.me.afterCommit 4)
    ∧ (∀ i o, isPending v = true → kind = 1 ∨ kind = 2 → s.loomOf w.core s.me.crew (futTag v) = some i →
        loomOp (s.loom w.core) i = some o →
        (o.started = true → ∃ t, exec (.fcan f) s = .next t ∧ t = { s with ctxs := t.ctxs, looms := t.looms } ∧ t.me = s.me.afterCommit 4
          ∧ t.loom w.core = { s.loom w.core with ops := (s.loom w.core).ops.map fun p => if p.1 = i then (p.1, { o with cancelled := true }) else p })
        ∧ (o.started = false → o.cancelled = false →
            let waits := (o.kind = .mbeam ∨ o.drop = true) ∧ opBefore (s.loom w.core) i o = true
            (¬ waits → ∃ t, exec (.fcan f) s = .next t ∧ (∀ p ∈ (t.loom w.core).ops, p.1 ≠ i) ∧ t.mem = s.mem)
            ∧ (waits → ∃ t, exec (.fcan f) s = .next t ∧ t.mem = s.mem ∧ (t.loom w.core).ops =
                (s.loom w.core).ops.map fun p => if p.1 = i then (p.1, { o with cancelled := true, fut := none }) else p)))
    -- FSTO
    ∧ (∃ t, exec (.fsto d f) s = .next t ∧ s.OnlyCrew t
        ∧ t.me = { s.me.afterCommit 4 with k := t.me.k, f := t.me.f }
        ∧ (∀ r, t.kv r = if r = 0 then 0 else if r = d then v else s.kv r)
        ∧ (∀ r, fGet t.me r = if r = f.toNat then 0 else fGet s.me r)
        ∧ (isPending v = false → t.myCrew = w)
        ∧ ∀ e, isPending v = true → futEntry w (futTag v) = some e →
            futEntry t.myCrew (futTag v) = some { e with detached := true, value := v })
    -- FLDF
    ∧ (let x := s.kv k
       let e := futEntry w (futTag x)
       (8 < futKind x ∨ futState x = 0 ∨ 4 < futState x ∨ (futState x = 1 ∧ ∀ y, e = some y → y.detached = false) →
          ∃ t, exec (.fldf f k) s = .next t ∧ (∀ r, fGet t.me r = if r = f.toNat then 0 else fGet s.me r) ∧ t.me.pc = codeAddr (s.me.pc + 4)
            ∧ s.OnlyCrew t)
       ∧ (futKind x ≤ 8 → 2 ≤ futState x → futState x ≤ 4 →
          ∃ t, exec (.fldf f k) s = .next t ∧ (∀ r, fGet t.me r = if r = f.toNat then x else fGet s.me r) ∧ t.me.pc = codeAddr (s.me.pc + 4)
            ∧ s.OnlyCrew t)
       ∧ ∀ y, futKind x ≤ 8 → futState x = 1 → e = some y → y.detached = true → isPending v = false →
          ∃ t, exec (.fldf f k) s = .next t ∧ (∀ r, fGet t.me r = if r = f.toNat then y.value else fGet s.me r) ∧ t.me.pc = codeAddr (s.me.pc + 4)
            ∧ s.OnlyCrew t
            ∧ (isPending y.value = true → futEntry t.myCrew (futTag x) = some { y with detached := false, ctx := s.cur, reg := f })
            ∧ (isPending y.value = false → futEntry t.myCrew (futTag x) = none))

/-! ## Barriers and launches (10 R289 to R297; 13 R348) -/

/-- BAR, BARN and BARN.arrive (R289 to R291): they wait for the lane work and for the source reads of the skein's copies, trap RANGE where CONTROL asks for it, and ILLEGAL for barrier 0 or a bad or
differing count. An arrival that does not complete the phase is recorded, and the word waits, or for .arrive goes on; the last arrival
empties the phase, releases every skein that waits there, and goes on; a released word goes on.
The wait for the source reads of the skein's copies and Loom operations is the model's choice (log 16). -/
def Obligations.BarriersReleaseTogether : Prop :=
  ∀ (s : State) (n : BitVec 4) (a : KReg), s.me.handler = false →
    let w := s.myCrew
    let x := s.me
    (∀ i ∈ [Instr.barn 0 a, .barnArrive 0 a], Traps i s .illegal 0x15)
    ∧ ∀ p ∈ [(Instr.bar, (0 : Nat), (0 : Nat), true), (.barn n a, n.toNat, (s.kv a).toNat, true), (.barnArrive n a, n.toNat, (s.kv a).toNat, false)],
      let i := p.1
      let b := p.2.1
      let count := p.2.2.1
      let waits := p.2.2.2
      (i = .bar ∨ n ≠ 0) → b < w.bars.length →
      let bar := barrierOf w b
      let range := x.control.getLsbD 1 && x.range
      let asked := b = 0 ∨ (1 ≤ count ∧ count ≤ 128)
      let agrees := b = 0 ∨ bar.arrived = [] ∨ bar.count = count
      let idle := laneIdle x = true ∧ s.readsOut s.cur = false
      (waits = true → x.wait = .released b →
        ∃ t, exec i s = .next t ∧ s.OnlyMe t ∧ t.me = { x.afterWord 4 with wait := .none })
      ∧ (waits = true → x.wait = .barrier b → exec i s = .next s)
      ∧ (x.wait = .none →
        (¬ idle → exec i s = .next s)
        ∧ (idle → range = true → Traps i s .range b)
        ∧ (idle → range = false → ¬ asked → Traps i s .illegal 0x15)
        ∧ (idle → range = false → asked → ¬ agrees → Traps i s .illegal 0x16)
        ∧ (idle → range = false → asked → agrees → x.live = true →
            let y : Skein := { x with wait := if waits then .barrier b else .none, region := { x.region with committed := true } }
            let need := if b = 0 then ((s.setMe y).crewCtxs x.crew).length else count
            (bar.arrived.length + 1 < need →
              ∃ t, exec i s = .next t ∧ s.OnlyCrew t ∧ t.me = (if waits then y else y.afterWord 4)
                ∧ t.myCrew = { w with bars := listSet w.bars b { arrived := bar.arrived ++ [x.index], count } })
            ∧ (need ≤ bar.arrived.length + 1 →
              ∃ t, exec i s = .next t ∧ t = { s with ctxs := t.ctxs, crews := t.crews }
                ∧ t.me = { x.afterCommit 4 with wait := .none }
                ∧ (∀ c, c ≠ s.cur → t.ctx c = if (s.ctx c).live = true ∧ (s.ctx c).crew = x.crew ∧ (s.ctx c).wait = .barrier b then
                    { s.ctx c with wait := .released b } else s.ctx c)
                ∧ t.myCrew = { w with bars := listSet w.bars b Barrier.fresh } ∧ ∀ m, m ≠ x.crew → t.crew m = s.crew m)))

/-- LAUNCH, LJOIN and PWRQ (R293 to R296, R348, R376). LAUNCH and LJOIN trap ILLEGAL in any skein but index 0. LAUNCH waits for the lane work, for the
source reads of the skein's copies and Loom operations (the model's reading, log 16) and for room; a packet marked MULTI, bit 303, traps ACCESS
(R294, R349) and one beyond the depth limit DEPTH; one that is taken stands with the scheduler as it was read, with every store of the core
performed first, and its future is pending. LJOIN waits for the crew's launches. PWRQ grants what the pool has and answers the leave held. -/
def Claims.LaunchesJoinAndLeave : Prop :=
  ∀ (s : State) (f : FReg) (a d : KReg), s.me.handler = false →
    let w := s.myCrew
    let core := coreOf s.cur
    (s.me.index ≠ 0 → Traps (.launch f a) s .illegal 0x13 ∧ Traps .ljoin s .illegal 0x13)
    ∧ (s.me.index = 0 →
      let idle := laneIdle s.me = true ∧ s.readsOut s.cur = false
      (¬ idle → exec (.launch f a) s = .next s)
      ∧ (idle → badAddressTraps (.launch f a) s (s.kv a).toNat 128
        ∧ ∀ pa, s.ScalarPasses (s.kv a).toNat 128 .read false pa → s.freshBad core pa 128 = false →
          let bytes := s.readFresh core pa 128
          let multi := bitOf (leNat bytes) 303
          let room := s.tableFull = false ∧ s.host.taken.length < Config.heldLaunches ∧ (freeIndex w).isSome = true
          (multi = true → Traps (.launch f a) s .access 0)
          ∧ (multi = false → Config.maxDepth ≤ s.myComm.depth → Traps (.launch f a) s .depth 0)
          ∧ (multi = false → s.myComm.depth < Config.maxDepth → ¬ room → exec (.launch f a) s = .next s)
          ∧ (multi = false → s.myComm.depth < Config.maxDepth → room →
              ∃ t tag, exec (.launch f a) s = .next t ∧ IssuesFuture s t f 8 tag
                ∧ t = { s with ctxs := t.ctxs, crews := t.crews, mem := t.mem, ms := t.ms, host := t.host, freeCtr := t.freeCtr }
                ∧ t.host = { s.host with taken := s.host.taken ++ [{ window := s.myComm.key.ctx, fromLaunch := some (s.me.crew, tag)
                                                                     parent := some s.me.crew, bytes, group := none, valid := true, time := s.dev.time3 / 3 }] }
                ∧ t.mem = (s.sgbDrainCore core).mem ∧ (∀ c, c ≠ s.cur → t.ctx c = { s.ctx c with out := (t.ctx c).out })
                ∧ t.me = { s.me.afterCommit 4 with f := t.me.f, out := t.me.out
                                                   region := { s.me.region with committed := true, futures := t.me.region.futures } }))
      ∧ (s.childrenLeft s.me.crew = true → exec .ljoin s = .next s)
      ∧ (s.childrenLeft s.me.crew = false →
          ∃ t, exec .ljoin s = .next t ∧ t = { s with ctxs := t.ctxs, ms := t.ms } ∧ (∀ c, c ≠ s.cur → t.ctx c = s.ctx c)
            ∧ t.me = s.me.afterWord 4))
    ∧ (let want := (s.kv a).toNat % 2 ^ 16
       let die := s.die (crewDie w)
       let more := max want w.standHeld - max w.standing w.standHeld
       let granted := more = 0 ∨ (s.dev.clamp = false ∧ die.leaveQ = [] ∧ more ≤ die.share - 200 - die.granted)
       ∃ t, exec (.pwrq d a) s = .next t ∧ t = { s with ctxs := t.ctxs, crews := t.crews, dies := t.dies }
         ∧ (∀ c, c ≠ s.cur → t.ctx c = s.ctx c) ∧ t.me = { s.me.afterCommit 4 with k := t.me.k }
         ∧ (granted → t.myCrew = { w with standing := want }) ∧ (¬ granted → t.myCrew = w)
         ∧ ∀ r, t.kv r = if r = 0 then 0 else if r = d then BitVec.ofNat 64 (max t.myCrew.standing w.standHeld) else s.kv r)

/-- BCN and BEACON_ARRIVAL (R297, R432): a beacon joins its die's, with payload, time, COMMID and SKID, and waits while its die's queue of 16 is full; under
.sys a beacon of a multi-device launch is also sent to every other member of its group. A beacon reaches a bench once, after the earlier ones of its
sender; where the bench's BCNMATCH holds, the bench stops. -/
def Claims.BeaconsReachEveryBench : Prop :=
  (∀ (s : State) (a : KReg) (sys : Bool), s.me.handler = false →
    let k := dieOf s.cur
    let d := s.die k
    let b : Beacon := { payload := (s.kv a).setWidth 32, time := BitVec.ofNat 64 (s.dev.time3 / 3), reached := []
                        commid := BitVec.ofNat 64 (s.myComm.prio * 2 ^ 40 + s.myComm.tenant * 2 ^ 32 + s.myComm.key.id.toNat)
                        skid := BitVec.ofNat 64 (s.me.index + s.cur % 32 * 2 ^ 8 + s.cur / 32 % 4 * 2 ^ 16 + s.cur / 128 * 2 ^ 24)
                        sys := sys && s.myComm.multi }
    (Config.beaconQueue ≤ d.beacons.length → exec (.bcn sys a) s = .next s)
    ∧ (d.beacons.length < Config.beaconQueue →
        ∃ t, exec (.bcn sys a) s = .next t ∧ t = { s with ctxs := t.ctxs, dies := t.dies, fab := t.fab }
          ∧ (∀ c, c ≠ s.cur → t.ctx c = s.ctx c) ∧ t.me = s.me.afterCommit 4
          ∧ t.die k = { d with beacons := d.beacons ++ [b] } ∧ (∀ j, j ≠ k → t.die j = s.die j)
          ∧ (sys = false ∨ s.myComm.multi = false → t.fab = s.fab)
          ∧ (sys = true → s.myComm.multi = true → ∃ ms, t.fab = { s.fab with sent := s.fab.sent ++ ms } ∧ (∀ m ∈ ms, m.kind = .beacon)
              ∧ ∀ cm, s.commByHandle s.myComm.group = some cm → ms.map (·.peer) = (List.range cm.nranks).filter (· ≠ cm.rank))))
  ∧ ∀ (s : State) (bench pos : Nat) (b : Beacon), s.beacons[pos]? = some b → bench < Config.benches → bench ∉ b.reached →
      (∀ q ∈ s.beacons.take pos, q.commid = b.commid → q.skid = b.skid → bench ∈ q.reached) →
      ∃ t, exec (.beaconArrival bench pos) s = .next t
        ∧ t = { s with dies := t.dies, fab := t.fab, benches := t.benches, ctxs := t.ctxs }
        ∧ (∀ c, t.ctx c = { s.ctx c with out := (t.ctx c).out, unret := (t.ctx c).unret })
        ∧ (bitOf (s.bench bench).stopctl.toNat 1 = false → t.ctxs = s.ctxs)
        ∧ (b.reached.length + 1 < Config.benches → { b with reached := b.reached ++ [bench] } ∈ t.beacons)
        ∧ ((s.bench bench).stopped = false → bitOf (s.bench bench).stopctl.toNat 1 = true →
            bitsOf (s.bench bench).stopctl.toNat 63 32 = b.payload.toNat →
            (t.bench bench).stopped = true ∧ (t.bench bench).stopcause = 4)

/-- LAUNCH, LJOIN, PWRQ, and beacons.
Where the spec leaves a point open, this rests on the model's reading (log 4, 16, 32, 43, 70). -/
def Obligations.LaunchesJoinAndBeaconsReach : Prop := Claims.LaunchesJoinAndLeave ∧ Claims.BeaconsReachEveryBench

/-! ## Steps of contexts and of the memory system (05 R144; 06 R147; 08 R219; 11 R309, R312, R325, R326; 13 R376; 14 R378, R387) -/

/-- LANE_RETIRE, LOAD_RETURN, TAKE_TRAP, TRACE_BRANCH_FLUSH, FETCH_SWAP_OUT and SKEIN_END: the oldest lane word retires, and SKST shows its RANGE and depth, which a stopped bench holds until it resumes (R427);
the oldest operation of a path that has returned is counted no more; a trap that waited is taken; collected branch outcomes go out; a
fetch whose page is posted stops its skein and asks for its crew's save; a skein that has exited with nothing outstanding is gone, and
with its crew's last one go the stores that its core still buffers.
Where the spec leaves a point open, this rests on the model's reading (log 4, 56, 62). -/
def Obligations.ContextsMakeTheirOwnSteps : Prop :=
  ∀ (s : State) (c : Nat),
    let x := s.ctx c
    (∀ u rest, x.unret = u :: rest → u.awaits = none →
      let b := s.bench (benchOf c)
      let tagged := b.tagged.map fun r => if r.ctx = c % 32 then { r with left := r.left - 1 } else r
      ∃ t, exec (.laneRetire c) s = .next t ∧ t = { s with ctxs := t.ctxs, benches := t.benches } ∧ (∀ j, j ≠ c → t.ctx j = s.ctx j)
        ∧ (∀ j, j ≠ benchOf c → t.bench j = s.bench j)
        ∧ (b.stopped = false → t.ctx c = { x with unret := rest, range := x.range || u.range, mdepth := u.depth }
            ∧ t.bench (benchOf c) = { b with tagged })
        ∧ (b.stopped = true → t.ctx c = { x with unret := rest } ∧ ∃ hs, t.bench (benchOf c) = { b with tagged, held := b.held ++ hs }
            ∧ (∀ h ∈ hs, h.ctx = c % 32 ∧ ((h.kind = 17 ∧ h.value = BitVec.ofNat 64 u.depth) ∨ (h.kind = 16 ∧ u.range = true)))
            ∧ (∃ h ∈ hs, h.kind = 17) ∧ (u.range = true → ∃ h ∈ hs, h.kind = 16)))
    ∧ (∀ (p : Path) (pre post : List OutOp) (o : OutOp), x.out = pre ++ o :: post → (∀ q ∈ pre, q.path ≠ p) → o.path = p → o.lines = [] →
        ∃ t, exec (.loadReturn c p) s = .next t ∧ t = { s with ctxs := t.ctxs } ∧ (∀ j, j ≠ c → t.ctx j = s.ctx j)
          ∧ t.ctx c = { x with out := pre ++ post, unret := (t.ctx c).unret }
          ∧ (o.data = false → (t.ctx c).unret = x.unret)
          ∧ ∀ u rest, o.data = true → x.unret = u :: rest → u.awaits = some p → (t.ctx c).unret = { u with awaits := none } :: rest)
    ∧ (∀ r : Trap, x.pend = some r → s.TrapEnters c →
        ∃ t, exec (.takeTrap c) s = .next t ∧ TrapTaken s t c
          (BitVec.ofNat 64 (r.detail % 2 ^ 16 * 2 ^ 16 + (if r.replay then 2 ^ 9 else 0) + (if r.lane then 2 ^ 8 else 0) + causeCode r.cause))
          (if r.lane then r.lw else 0) r.mask)
    ∧ (x.branches ≠ [] → x.branchAt + 2047 ≤ s.dev.cycle →
        ∃ t, exec (.traceBranchFlush c) s = .next t ∧ t = { s with ctxs := t.ctxs, benches := t.benches }
          ∧ (∀ j, j ≠ c → t.ctx j = s.ctx j) ∧ t.ctx c = { x with branches := [], branchAt := 0 })
    ∧ (∀ r lane, x.live = true → x.stopped = false → s.fetchWait c = some (r, lane) →
        ∃ t, exec (.fetchSwapOut c) s = .next t ∧ t = { s with ctxs := t.ctxs, crews := t.crews, ms := t.ms }
          ∧ (t.ctx c).stopped = true ∧ (t.ctx c).pc = x.pc
          ∧ t.crew x.crew = { s.crew x.crew with
              saveKind := if (s.crew x.crew).saveKind = 0 then 2 else (s.crew x.crew).saveKind
              fetches := (s.crew x.crew).fetches ++ [{ who := 2 * x.index + (if lane then 1 else 0), page := r.page, denied := false }] }
          ∧ (∀ n, n ≠ x.crew → t.crew n = s.crew n))
    ∧ (x.live = true → x.exited = true → x.handler = false → x.pend = none → x.stopped = false → (s.bench (benchOf c)).stopped = false →
        x.queue = [] → x.unret = [] →
        ((∃ o ∈ x.out, o.lines ≠ []) → exec (.skeinEnd c) s = .next (s.sgbDrainCtx c))
        ∧ (x.out = [] → x.splits = [] → (s.commOf c).drover = none → (∀ p ∈ s.looms, ∀ q ∈ p.2.ops, q.2.left = []) →
          let last := (∀ p ∈ s.ctxs, p.2.live = true → p.2.crew = x.crew → p.1 = c) ∧ (s.crew x.crew).status = .running
          ∃ t, exec (.skeinEnd c) s = .next t ∧ t.vregs = s.vregs
            ∧ (t.ctx c).live = false
            ∧ (∀ j, j ≠ c → t.ctx j = { s.ctx j with wait := (t.ctx j).wait, out := (t.ctx j).out })
            ∧ (¬ last → t.mem = s.mem ∧ ∀ j, j ≠ c → (t.ctx j).out = (s.ctx j).out)
            ∧ (last → (t.crew x.crew).status = .ended ∧ t.mem = (s.sgbDrainCore (s.crew x.crew).core).mem)))

/-- TRANSLATION_WALK, SGB_IDLE_DRAIN, MERGE_WINDOW_EXPIRY, HBM_READ_RETURN and LEAVE_GRANT: a walk ends in a translation that the die's cache holds,
in a page request, whose record goes to the die's ring or is held while the ring cannot take it, or fails, or meets an error; every byte of an
idle entry reaches storage; a window closes after 64 cycles; a line is held by its slice once its window has ended; the first request
of a die that fits is granted whole.
Where the spec leaves a point open, this rests on the model's reading (log 63, 71). -/
def Obligations.MemoryAndLeaveSteps : Prop :=
  ∀ s : State,
    (∀ (die pos : Nat) (r : WalkReq), pos < Config.walksPerDie →
      (s.ms.walks.filter fun q => decide (q.die = die) && decide (q.status = .due))[pos]? = some r →
      let e := (s.dieWalk die r.tctx (4096 * r.page)).1
      (∀ l, e = .leaf l →
        ∃ t, exec (.translationWalk die pos) s = .next t ∧ t = { s with ms := t.ms, freeCtr := t.freeCtr } ∧ r ∉ t.ms.walks
          ∧ t.ms.sgb = s.ms.sgb ∧ (t.tlbAt (.die die) r.tctx (4096 * r.page)).isSome = true
          ∧ (s.tlbAt (.die die) r.tctx (4096 * r.page) = none → t.tlbAt (.die die) r.tctx (4096 * r.page) = some l))
      ∧ (∀ st, (e = .malformed ∧ st = .failed) ∨ (e = .error ∧ st = .error) →
        ∃ t, exec (.translationWalk die pos) s = .next t ∧ t = { s with ms := t.ms, freeCtr := t.freeCtr } ∧ { r with status := st } ∈ t.ms.walks)
      ∧ (e = .invalid →
        ∃ t, exec (.translationWalk die pos) s = .next t
          ∧ t = { s with ms := t.ms, mem := t.mem, host := t.host, freeCtr := t.freeCtr }
          ∧ { r with status := .posted } ∈ t.ms.walks
          ∧ (let ring := s.ring (2 * die)
             let rec_ := pageRecord (s.dev.time3 / 3) r.tctx r.page r.kind r.tenant
             let n := (ringLog ring.size).getD 4
             let at_ := ring.base.toNat + 32 * (ring.tail.toNat % 2 ^ n)
             (s.ringTakes (2 * die) = false → t.mem = s.mem ∧ (t.ring (2 * die)).held = ring.held ++ [rec_])
             ∧ (s.ringTakes (2 * die) = true → ring.held = [] → (∀ i, i < 32 → regionOf ((at_ + i) % 2 ^ 44) ≠ .hole) →
                t.devRead at_ 32 = leBytes 32 rec_.toNat ∧ (t.ring (2 * die)).held = []
                  ∧ (t.ring (2 * die)).tail = BitVec.ofNat 64 ((ring.tail.toNat + 1) % 2 ^ n)))))
    ∧ (∀ (core line : Nat) (e : SgbEntry), s.sgbFind core line = some e → e.last + 128 ≤ s.dev.cycle →
        exec (.sgbIdleDrain core line) s = .next (s.sgbDrain core line)
        ∧ (s.sgbDrain core line).sgbFind core line = none
        ∧ (∀ off b, off < 128 → smFind e.bytes off = some b → memByte (s.sgbDrain core line).mem (128 * line + off) = b)
        ∧ ∀ x, x / 128 ≠ line → memByte (s.sgbDrain core line).mem x = memByte s.mem x)
    ∧ (∀ line : Nat, (∃ w ∈ s.ms.windows, w.line = line ∧ w.closed = false ∧ w.opened + 64 ≤ s.dev.cycle) →
        ∃ t, exec (.mergeWindowExpiry line) s = .next t ∧ t = { s with ms := t.ms }
          ∧ ∀ w ∈ t.ms.windows, w.line = line → w.opened + 64 ≤ s.dev.cycle → w.closed = true)
    ∧ (∀ (line : Nat) (w : MergeWindow) (pre post : List MergeWindow), s.ms.windows = pre ++ w :: post → (∀ v ∈ pre, v.line ≠ line) →
        w.line = line → w.closed = true ∨ w.opened + 64 ≤ s.dev.cycle →
        ∃ t, exec (.hbmReadReturn line) s = .next t ∧ t = { s with ms := t.ms, freeCtr := t.freeCtr } ∧ t.ms.windows = pre ++ post ∧ line ∈ t.ms.l2)
    ∧ (∀ (die : Nat) (r : LeaveReq) (rest : List LeaveReq), (s.die die).leaveQ = r :: rest → s.dev.clamp = false →
        r.tokens ≤ (s.die die).share - 200 - (s.die die).granted →
        ∃ t, exec (.leaveGrant die) s = .next t ∧ (t.die die).leaveQ = rest ∧ (t.die die).granted = (s.die die).granted + r.tokens
          ∧ (∀ k i, r.owner = .loom k i → t = { s with dies := t.dies, looms := t.looms }
              ∧ ∀ o, smFind (s.loom k).ops i = some o → smFind (t.loom k).ops i = some { o with leave := r.tokens })
          ∧ (∀ i, r.owner = .copy i → t = { s with dies := t.dies, copies := t.copies }
              ∧ ∀ y ∈ t.copies, y.id = i → y.leave = r.tokens ∧ y.waiting = false))

/-! ## The scheduler (13 R347 to R370) -/

/-- Intake (R347, R348, R350, R366): a write that reaches the end of a launch slot takes the packet as the slot then stands, any other write only
fills the slot, and none is taken while 1024 launches are held; a peer's copy of a packet is taken in its communicator's context, and
refused with MULTI where the member has none; the oldest packet enters the table as REFUSED, READY
or QUEUED.
Where the spec leaves a point open, this rests on the model's reading (log 53, 70, 82). -/
def Obligations.LaunchesEnterTheTable : Prop :=
  ∀ s : State,
    (∀ (fn window slot off : Nat) (bytes : List Byte), fn ≤ 64 → window < 4096 → slot < 512 → bytes ≠ [] → off + bytes.length ≤ 128 →
      s.dev.ready = true → ctxFunc (s.ctxEntry window) = fn →
      let base := 65536 * window + 128 * slot
      let byte (t : State) (a : Nat) : Byte := smGet 0 t.host.windows a
      let stored (t : State) : Prop := t = { s with host := t.host, fab := t.fab }
        ∧ (∀ i, i < bytes.length → byte t (base + off + i) = bytes.getD i 0)
        ∧ ∀ a, a < base + off ∨ base + off + bytes.length ≤ a → byte t a = byte s a
      (Config.heldLaunches ≤ s.host.taken.length →
        exec (.launchSlotWrite fn window slot off bytes) s = .refused (.notEnabled "LAUNCH_SLOT_WRITE"))
      ∧ (off + bytes.length ≤ 0x78 → s.host.taken.length < Config.heldLaunches →
        ∃ t, exec (.launchSlotWrite fn window slot off bytes) s = .next t ∧ stored t ∧ t.host = { s.host with windows := t.host.windows })
      ∧ (0x78 < off + bytes.length → s.host.taken.length < Config.heldLaunches →
        ∃ t p, exec (.launchSlotWrite fn window slot off bytes) s = .next t ∧ stored t ∧ t.host.taken = s.host.taken ++ [p]
          ∧ p.window = window ∧ p.fromLaunch = none ∧ p.parent = none ∧ p.time = s.dev.time3 / 3 ∧ p.bytes = (List.range 128).map fun i => byte t (base + i)))
    ∧ (∀ (key : W64) (packet : List Byte) (cm : Communicator), packet.length = 128 → bitOf (leNat packet) 303 = true →
        s.part.is384P = false → s.host.taken.length < Config.heldLaunches → s.commByKey key true = some cm →
        ∃ t p, exec (.multiPacketReplica key packet) s = .next t ∧ t = { s with host := { s.host with taken := s.host.taken ++ [p] } }
          ∧ p.window = cm.tctx ∧ p.bytes = packet ∧ p.group = some cm.handle ∧ p.time = s.dev.time3 / 3)
    ∧ (∀ (key : W64) (packet : List Byte), packet.length = 128 → bitOf (leNat packet) 303 = true →
        s.part.is384P = false → s.host.taken.length < Config.heldLaunches → s.commByKey key true = none →
        ∃ t m, exec (.multiPacketReplica key packet) s = .next t ∧ t = { s with fab := t.fab } ∧ t.fab.sent = s.fab.sent ++ [m]
          ∧ m.kind = .refused ∧ m.bytes = le8 key ++ (packet.drop 48).take 4 ++ [11])
    ∧ (∀ (p : Taken) (rest : List Taken), s.host.taken = p :: rest → s.tableFull = false → (∀ o ∈ s.comms, o.uid ≠ s.nextReady) →
        p.parent = none → p.fromLaunch = none →
        let w := leNat p.bytes
        let key : CommKey := ⟨p.window, BitVec.ofNat 32 (bitsOf w 287 256)⟩
        ∃ t m, exec .commissionEnterTable s = .next t ∧ t.host.taken = rest ∧ t.commission s.nextReady = m ∧ t.mem = s.mem
          ∧ m.key = key ∧ m.tenant = bitsOf w 299 292 ∧ m.prio = bitsOf w 301 300 ∧ m.nx = bitsOf w 207 192 ∧ m.ny = bitsOf w 223 208
          ∧ m.nz = bitsOf w 239 224 ∧ m.depth = 0
          ∧ (packetBad w false = true → m.state = .refused ∧ m.reason = 1)
          ∧ (packetBad w false = false → bitsOf w 306 304 = 0 → m.state = .ready)
          ∧ (∀ o ∈ s.comms, packetBad w false = false → o.key.ctx = p.window → o.drover = none → isFinal o.state = false →
              1 ≤ bitsOf w 306 304 → o.key.id = BitVec.ofNat 32 (bitsOf w 479 448) → m.state = .queued))

/-- Admission and placement (R44, R45, R353, R356, R357, R360 to R364): the chosen commission is refused with the reason of its first failing
check, admitted, or left waiting; a crew is placed with the tables, barriers and lines of R45 at their start, zero storage and slots that nothing is
allocated in, and every skein at the entry of its image with the state of R44 and the seeds of R223; a waiting co-operative commission that fits is reserved whole, with its arguments as they then stand, once no reduce crew and no
saved crew of its priority goes ahead of it.
Where the spec leaves a point open, this rests on the model's reading (log 38, 48). -/
def Obligations.CommissionsAreAdmittedAndPlaced : Prop :=
  ∀ s : State,
    (∀ m, s.chosen = some m → (∀ o ∈ s.comms, o.uid = m.uid → o = m) → m ∈ s.comms →
      (s.tenantOk m = false →
        ∃ t, exec .commissionAdmit s = .next t ∧ (t.commission m.uid).state = .refused ∧ (t.commission m.uid).reason = 8 ∧ t.mem = s.mem)
      ∧ (s.tenantOk m = true → (∃ o ∈ s.comms, o.uid ≠ m.uid ∧ o.key = m.key ∧ isFinal o.state = false ∧ o.drover = none) →
        ∃ t, exec .commissionAdmit s = .next t ∧ (t.commission m.uid).state = .refused ∧ (t.commission m.uid).reason = 7 ∧ t.mem = s.mem)
      ∧ (∀ r, s.checkAdmit m = .refuse r →
        ∃ t, exec .commissionAdmit s = .next t ∧ (t.commission m.uid).state = .refused ∧ (t.commission m.uid).reason = r ∧ t.mem = s.mem
          ∧ (t.commission m.uid).tfinal = BitVec.ofNat 64 (s.dev.time3 / 3))
      ∧ (∀ m1, s.checkAdmit m = .admitted m1 → m1.uid = m.uid →
        ∃ t, exec .commissionAdmit s = .next t ∧ t = { s with comms := t.comms, ms := t.ms, freeCtr := t.freeCtr }
          ∧ (t.commission m.uid).state = .admitted
          ∧ (t.commission m.uid).tadmit = BitVec.ofNat 64 (s.dev.time3 / 3))
      ∧ (∀ m1, s.checkAdmit m = .wait m1 → m1.uid = m.uid →
        ∃ t, exec .commissionAdmit s = .next t ∧ t = { s with comms := t.comms, ms := t.ms, freeCtr := t.freeCtr }
          ∧ (t.commission m.uid).waiting = true))
    ∧ (∀ (m : Commission) (r : Room) (p : Spot), s.comms.filter wantsCrew = [m] → (∀ o ∈ s.comms, o.uid = m.uid → o = m) →
        firstFit s.room (s.coresFor m) (linesOf m) m.slots (unitsOf m) = some (r, p) → s.restorable = [] →
        ∃ t, exec .crewPlace s = .next t ∧ t.nextCrew = s.nextCrew + 1
          ∧ (t.commission m.uid).placed = m.placed + 1
          ∧ (let w := t.crew s.nextCrew
             w.comm = m.uid ∧ w.core = p.core ∧ w.baseLine = p.base ∧ w.nLines = linesOf m ∧ w.lin = m.placed
               ∧ w.x = m.placed % m.nx ∧ w.y = m.placed / m.nx % m.ny ∧ w.z = m.placed / (m.nx * m.ny)
               ∧ w.slots = List.replicate m.slots Slot.fresh ∧ w.rename = p.slots
               ∧ (∀ i, i < 4 → w.perms[i]? = some { len := 1, p := [0], loads := 0 })
               ∧ (∀ i, i < 8 → w.cbs[i]? = some (List.replicate 16 0))
               ∧ (∀ i j, i < 4 → j < 64 → (w.pats.getD i [])[j]? = some (BitVec.ofNat 6 j))
               ∧ (∀ i, i < 16 → w.bars[i]? = some { arrived := [], count := 0 })
               ∧ ∀ i, i < 64 → w.futs[i]? = some FutEntry.free)
          ∧ (∀ i, i < 128 * linesOf m → memByte t.mem (spadBase p.core + 128 * p.base + i) = 0)
          ∧ (∀ i, i < linesOf m → t.lineState (lineOf (spadBase p.core + 128 * p.base) + i) = { empty := false, tag := 0 })
          ∧ (∀ q ∈ p.slots, ∀ i, i < 4096 → memByte t.mem (tileBase p.core + 4096 * q + i) = 0)
          ∧ (∀ seat i, m.drover = none → p.seats[i]? = some seat → (∀ j q, p.seats[j]? = some q → j ≠ i →
                q.ctxs.headD 0 ≠ seat.ctxs.headD 0) →
              let x := t.ctx (seat.ctxs.headD 0)
              x.live = true ∧ x.crew = s.nextCrew ∧ x.index = i ∧ x.pc = BitVec.ofNat 64 (secOf m 0).1 ∧ x.width = m.width
                ∧ x.strand = BitVec.ofNat 6 seat.strand ∧ x.base = onesW m.width ∧ x.stack = [] ∧ x.queue = [] ∧ x.handler = false
                ∧ (∀ n, kGet x n = 0) ∧ x.c = 0 ∧ (∀ n, fGet x n = 0) ∧ (∀ h, hGet x h = 0)
                ∧ x.lpc = 0 ∧ x.control = 1 ∧ x.range = false ∧ x.fusecode = 0 ∧ x.child = 0 ∧ x.splits = [] ∧ x.back = [] ∧ x.out = []
                ∧ (∀ n, n ≠ 0 → mGet x n = 0) ∧ x.trapcause = 0 ∧ x.trappc = 0 ∧ x.traplw = 0 ∧ x.trapmask = 0
                ∧ x.stopped = (m.multi && !m.startOk))
          ∧ (∀ seat i, p.seats[i]? = some seat → (∀ q ∈ p.seats, q.strand + lanesOf m.width / 4 ≤ 64 ∧ q.bench < 4) →
              (∀ j q, p.seats[j]? = some q → j ≠ i → q.bench ≠ seat.bench ∨ q.strand + lanesOf m.width / 4 ≤ seat.strand
                ∨ seat.strand + lanesOf m.width / 4 ≤ q.strand) →
              ∀ l, l < lanesOf m.width →
                let lane := 256 * (4 * p.core + seat.bench) + 4 * seat.strand + l
                (∀ v, v < 256 → smGet 0 t.vregs (256 * lane + v) = 0)
                ∧ smGet 0 t.gens lane = seedOf m (m.placed % m.nx) (m.placed / m.nx % m.ny) (m.placed / (m.nx * m.ny)) i l))
    ∧ (∀ (m : Commission) (ps : List Spot), (s.comms.filter fun o => decide (o.state = .ready) && o.waiting && !o.paging) = [m] →
        (∀ o ∈ s.comms, o.uid = m.uid → o = m) → s.coopPlan m false = some ps → m.multi = false → s.aheadOfCoop m = false →
        let args := s.schedRead m.key.ctx m.tenant m.args.toNat (8 * m.arglen)
        (∀ bs, args = .ok bs →
          ∃ t, exec .coopReserve s = .next t ∧ t.nextCrew = s.nextCrew + ps.length ∧ (t.commission m.uid).reserved = true
            ∧ (t.commission m.uid).waiting = false ∧ (t.commission m.uid).argv = argvOf m.arglen bs)
        ∧ (args = .fault →
          ∃ t, exec .coopReserve s = .next t ∧ (t.commission m.uid).state = .refused ∧ (t.commission m.uid).reason = 9 ∧ t.mem = s.mem))

/-- Retirement, records, start barriers and slot tables (R359, R365 to R370): a draining commission with no child and no engine operation
retires; its 64 bytes of record are written, and then its message is sent; a start barrier that every other member has reported lets the
crews run, and one that a member refuses, or that 100 ms of TIME end, withdraws the commission; a slot-table write waits for its cycle, rules from it on, and then stands in the tables,
with reserved bits zero. (That bytes 0 to 7 of a record come last shows to no one here: the record is written in one step.)
Where the spec leaves a point open, this rests on the model's reading (log 39, 82). -/
def Obligations.CommissionsEndWithTheirRecords : Prop :=
  ∀ s : State,
    (∀ (k : CommKey) (m : Commission), s.findComm k = some m → m.state = .draining → s.childOpen m = false → s.opsOpen m = false →
      (∀ o ∈ s.comms, o.uid = m.uid → o = m) →
      ∃ t, exec (.commissionRetire k) s = .next t ∧ t.mem = s.mem ∧ (t.commission m.uid).state = .retired
        ∧ (t.commission m.uid).tfinal = BitVec.ofNat 64 (s.dev.time3 / 3)
        ∧ (t.commission m.uid).recordDue = (m.drover.isNone && (decide (m.record ≠ 0) || m.irq)))
    ∧ (∀ (k : CommKey) (m : Commission) (l : Leaf), (s.comms.find? fun o => decide (o.key = k) && o.recordDue) = some m →
        m.paging = false → m.record ≠ 0 → m.record.toNat < Config.windowBase → s.dieView 0 m.key.ctx m.record.toNat = .leaf l →
        pageOk l .write m.tenant m.record.toNat = true → s.lineBusy (lineOf (l.phys m.record.toNat)) = false →
        let a := l.phys m.record.toNat
        ∃ t, exec (.completionRecordWrite k) s = .next t
          ∧ t = { s with mem := t.mem, ms := t.ms, comms := t.comms, host := t.host, freeCtr := t.freeCtr }
          ∧ (∀ i, i < 64 → memByte t.mem (a + i) = (recordBytes m).getD i 0)
          ∧ (∀ x, x < a ∨ a + 64 ≤ x → memByte t.mem x = memByte s.mem x)
          ∧ (m.irq = false → t.host = s.host)
          ∧ (let fn := ctxFunc (s.ctxEntry m.key.ctx)
             let v := s.vector fn m.vector
             m.irq = true → fn ≤ 64 → m.vector < (if fn = 0 then 2048 else 32) → s.msixOpen fn = true → v.masked = false →
               t.host = { s.host with msgs := s.host.msgs ++ [(v.addr, v.data)] }))
    ∧ (∀ (group : Nat) (gen : W32) (m : Commission) (cm : Communicator),
        (s.comms.find? fun o => atBarrier group o && decide (o.gen = gen)) = some m → (∀ o ∈ s.comms, o.uid = m.uid → o = m) →
        s.commByHandle group = some cm →
        let placed := ∀ r, r < cm.nranks → r ≠ cm.rank → (r, gen.toNat) ∈ cm.reports
        let denied := ∃ q ∈ cm.refusals, q.2.1 = gen.toNat
        let late := m.taken + 100000000 ≤ s.dev.time3 / 3
        (placed → ¬ denied → ¬ late →
          ∃ t, exec (.startBarrierComplete group gen) s = .next t ∧ t = { s with comms := t.comms, ctxs := t.ctxs, fab := t.fab }
            ∧ (t.commission m.uid).state = .running ∧ (t.commission m.uid).startOk = true)
        ∧ (¬ placed ∨ denied ∨ late → exec (.startBarrierComplete group gen) s = .refused (.notEnabled "START_BARRIER_COMPLETE")))
    ∧ (∀ (group : Nat) (m : Commission) (cm : Communicator), (s.comms.find? (atBarrier group)) = some m → (∀ o ∈ s.comms, o.uid = m.uid → o = m) →
        s.commByHandle group = some cm →
        let denied := ∃ p ∈ cm.refusals, p.2.1 = m.gen.toNat
        let older := ∃ p ∈ cm.refusals, p.2.1 = m.gen.toNat ∧ p.2.2 = 10
        let late := m.taken + 100000000 ≤ s.dev.time3 / 3
        ∀ b : Bool, (b = true ↔ older) →
          (denied ∨ late → ∃ t, exec (.startBarrierTimeout group b) s = .next t ∧ (t.commission m.uid).state = .withdrawn
            ∧ (t.commission m.uid).reason = if b then 10 else 11)
          ∧ (¬ (denied ∨ late) → exec (.startBarrierTimeout group b) s = .refused (.notEnabled "START_BARRIER_TIMEOUT")))
    ∧ (∀ (core off : Nat) (v : W16), core < Config.cores → off < 0x60 → off % 2 = 0 → s.dev.ready = true →
        exec (.slotTableWrite core off v) s = .next (s.setCore core { s.core core with
          later := (s.core core).later ++ [((s.dev.cycle / 64 + 1) * 64, off, v)] }))
    ∧ ∀ (core at_ off : Nat) (v : W16), (s.core core).later = [(at_, off, v)] → at_ ≤ s.dev.cycle → off % 2 = 0 →
        (s.core core).slottab.length = 64 → (s.core core).tmap.length = 16 →
        ∃ t, exec (.slotTableTakeEffect core) s = .next t ∧ t = { s with coreSt := t.coreSt } ∧ (t.core core).later = [] ∧ s.tables core = t.core core
          ∧ (off < 64 → (t.core core).slottab[off]? = some ((v.extractLsb' 0 8) &&& 0x8F)
              ∧ (t.core core).slottab[off + 1]? = some ((v.extractLsb' 8 8) &&& 0x8F) ∧ (t.core core).tmap = (s.core core).tmap)
          ∧ (64 ≤ off → off < 96 → (t.core core).tmap[(off - 64) / 2]? = some (v &&& 0xC0FF) ∧ (t.core core).slottab = (s.core core).slottab)

/-! ## Pre-emption, save and restore (14 R386, R387, R390 to R400) -/

/-- PREEMPT_BUDGET_EXPIRY (R391 to R393): a skein whose region is committed, or that is in handler state, waits or has exited, stops as it stands;
any other is rolled back: its PC is the region's start, its live-in registers, mask stack and m-registers are those of the start, and the
region's entries are gone.
Where the spec leaves a point open, this rests on the model's reading (log 65). -/
def Obligations.BudgetEndStopsOrDiscards : Prop :=
  ∀ (s : State) (crew c : Nat), (s.crewCtxs crew).filter s.budgetDue = [c] →
    let x := s.ctx c
    let r := x.region
    (r.committed = true ∨ x.handler = true ∨ x.wait ≠ .none ∨ x.exited = true →
      ∃ t, exec (.preemptBudgetExpiry crew) s = .next t ∧ t = { s with ctxs := t.ctxs } ∧ (∀ j, j ≠ c → t.ctx j = s.ctx j)
        ∧ t.ctx c = { x with stopped := true, preempt := none })
    ∧ (r.committed = false → x.handler = false → x.wait = .none → x.exited = false →
        (∀ p ∈ (s.loom (coreOf c)).ops, p.2.ctx = c → p.2.crew = x.crew → p.2.region ≠ r.serial) →
        ∃ t, exec (.preemptBudgetExpiry crew) s = .next t
          ∧ t = { s with ctxs := t.ctxs, crews := t.crews, gens := t.gens, benches := t.benches }
          ∧ (∀ j, j ≠ c → t.ctx j = s.ctx j) ∧ (∀ b, t.bench b = { s.bench b with tagged := (t.bench b).tagged })
          ∧ (let y := t.ctx c
             y.stopped = true ∧ y.discarded = true ∧ y.preempt = none ∧ y.pc = r.start ∧ y.unret = []
               ∧ (∀ i, i < 64 → smGet 0 y.k i = if r.liveK.getLsbD i then smGet 0 r.k i else smGet 0 x.k i)
               ∧ (∀ n, n < 16 → y.c.getLsbD n = if r.liveC.getLsbD n then r.c.getLsbD n else x.c.getLsbD n)
               ∧ y.queue = x.queue.filter (fun e => e.region ≠ r.serial)
               ∧ (∀ n : FReg, n ∈ r.futures → fGet y n.toNat = 0)
               ∧ (∀ h, r.shadow = some h → y.stack = h.stack ∧ y.base = h.base ∧ y.m = h.m)
               ∧ (r.shadow = none → y.stack = x.stack ∧ y.base = x.base ∧ y.m = x.m ∧ t.gens = s.gens)))

/-- What a crew has fits an image's areas (R397 to R399): its crew indices, tables, lines, tile slots and queues are no more than the machine's. -/
def State.FitsImage (s : State) (n : Nat) : Prop :=
  let w := s.crew n
  let ixs := (s.crewCtxs n).map (fun c => (s.ctx c).index) ++ w.reserved
  ixs.Nodup ∧ (∀ i ∈ ixs, i < 128) ∧ w.nLines ≤ 4096 ∧ w.slots.length ≤ 256
    ∧ ((s.crewCtxs n).map fun c => lanesOf (s.ctx c).width / 4).sum ≤ 256
    ∧ w.perms.length = 4 ∧ (∀ p ∈ w.perms, p.p.length ≤ 4096) ∧ w.cbs.length = 8 ∧ (∀ t ∈ w.cbs, t.length = 16)
    ∧ w.pats.length = 4 ∧ (∀ t ∈ w.pats, t.length = 64) ∧ w.bars.length = 16 ∧ w.futs.length = 64
    ∧ ∀ c ∈ s.crewCtxs n, let x := s.ctx c
        x.queue.length ≤ 32 ∧ x.back.length ≤ 8 ∧ ∀ h, x.region.shadow = some h → h.gens.length ≤ 64

/-- What the image of a crew holds (R397 to R399), where its buffer is storage of the HBM in which no slot of the die's crew-fault ring lies, and the
store-gather buffer holds lines of the physical space: the header's MAGIC, VERSION, KIND, COMMID, CREWID, TSAVE, LINES, SLOTS, CONTEXT, PTAG and
CORE; each skein's k-registers with k0 as zero, c-bits, PC, CONTROL, TRAPCAUSE, TRAPPC, its handler state, committed region and crew index;
the v-registers of its lanes, strand by strand in crew-index order; the barriers' counts and the codebooks; the scratchpad allocation; and
the tile slots. -/
def Claims.SavedCrewsAreInTheirImages : Prop :=
  ∀ (s : State) (n : Nat), s.saveReady n = true → State.FitsImage s n →
    let w := s.crew n
    let m := s.commission w.comm
    let addr := (s.die (crewDie w)).pool.headD 0 % Config.physEnd
    addr + 0x400000 ≤ Config.hbmEnd →
    (∀ j, j < 32 * 2 ^ 16 → let p := ((s.ring (faultRing (crewDie w))).base.toNat + j) % Config.physEnd; p < addr ∨ addr + 0x400000 ≤ p) →
    (∀ e ∈ s.ms.sgb, 128 * e.line + 128 ≤ Config.physEnd) →
    ∃ t, exec (if w.saveKind = 3 then .crewFault n else .crewSave n) s = .next t
      ∧ let holds (off : Nat) (bs : List Byte) : Prop := t.devRead (addr + off) bs.length = bs
        holds 0 (leBytes 4 0x46575356) ∧ holds 4 (leBytes 2 1) ∧ holds 6 (leBytes 2 w.saveKind) ∧ holds 0x8 (leBytes 8 (commidOf m).toNat)
        ∧ holds 0x10 (leBytes 8 (crewidOf w)) ∧ holds 0x18 (leBytes 8 s.time) ∧ holds 0x30 (leBytes 4 w.nLines)
        ∧ holds 0x34 (leBytes 2 w.slots.length) ∧ holds 0x36 (leBytes 2 m.key.ctx) ∧ holds 0x38 (leBytes 4 w.ptag) ∧ holds 0x3C (leBytes 4 w.core)
        ∧ (∀ c ∈ s.crewCtxs n,
            let x := s.ctx c
            let rec_ := 0x1000 + 0x2000 * x.index
            (∀ i, i < 64 → holds (rec_ + 8 * i) (leBytes 8 (kGet x i).toNat))
            ∧ holds (rec_ + 0x200) (leBytes 8 x.c.toNat) ∧ holds (rec_ + 0x208) (leBytes 8 x.pc.toNat) ∧ holds (rec_ + 0x220) (leBytes 8 x.control.toNat)
            ∧ holds (rec_ + 0x228) (leBytes 8 x.trapcause.toNat) ∧ holds (rec_ + 0x230) (leBytes 8 x.trappc.toNat)
            ∧ (let st := leNat (t.devRead (addr + rec_ + 0x248) 8)
               bitOf st 0 = x.handler ∧ bitOf st 1 = x.region.committed ∧ bitsOf st 14 8 = x.index))
        ∧ (∀ cs : List Nat, cs.Perm (s.crewCtxs n) → cs.Pairwise (fun a b => (s.ctx a).index < (s.ctx b).index) →
            let lanes := cs.flatMap fun c => (List.range (lanesOf (s.ctx c).width)).map fun l => (c, l)
            ∀ j c l v, lanes[j]? = some (c, l) → v < 256 →
              holds (0x101000 + 0x1000 * (j / 4) + 16 * v + 4 * (j % 4)) (leBytes 4 (s.vGet c l v).toNat))
        ∧ (∀ i, i < 16 → holds (0x20B200 + 8 * i + 1) [BitVec.ofNat 8 (w.bars.getD i Barrier.fresh).count])
        ∧ (∀ i j, i < 8 → j < 16 → holds (0x20B000 + 32 * i + 2 * j) (leBytes 2 ((w.cbs.getD i []).getD j 0).toNat))
        ∧ holds 0x210000 (s.read (spadAddr w 0) (128 * w.nLines))
        ∧ (∀ i, i < w.slots.length → holds (0x290000 + 0x1000 * i) (s.tileBytes w i 0 4096))

/-- A crew that is saved leaves its core, and one that is restored runs at its new spot. -/
def Claims.SavedCrewsLeaveAndReturn : Prop :=
  (∀ (s : State) (n : Nat), s.saveReady n = true →
    let w := s.crew n
    let i : Instr := if w.saveKind = 3 then .crewFault n else .crewSave n
    ∃ t q, exec i s = .next t
      ∧ (∀ c ∈ s.crewCtxs n, t.ctx c = Skein.empty)
      ∧ (t.crew n).saveKind = 0 ∧ (t.crew n).status = (if w.saveKind = 3 ∨ ∃ h ∈ w.fetches, h.denied = false then .saved else .readyAgain)
      ∧ (t.die (crewDie w)).pool = (s.die (crewDie w)).pool.drop 1
      ∧ t.host.saved = s.host.saved ++ [q] ∧ q.crew = n ∧ q.was.fetches = w.fetches ∧ q.kind = w.saveKind ∧ q.addr = (s.die (crewDie w)).pool.headD 0
      ∧ q.held = false ∧ (∀ y ∈ t.copies, y.crew ≠ n))
  ∧ ∀ (s : State) (n : Nat) (v : SavedCrew) (r : Room) (p : Spot), s.restorable = [v] → v.crew = n → s.spotFor v = some (r, p) →
      s.comms.filter wantsCrew = [] → v.kind ≠ 3 → (((movesOf v p).flatMap fun m => m.ctxs.map (·.2))).Nodup →
      (∀ q ∈ s.usedSeqs (fun k _ => decide (k = n)), q ∉ s.usedSeqs fun k c => decide (k ≠ n) && decide (c = p.core)) →
      let rdOf (c off k : Nat) : Nat := leNat (s.devRead (v.addr + 0x1000 + 0x2000 * (smGet Skein.empty v.skeins c).index + off) k)
      (∀ m ∈ movesOf v p, ∀ c ∈ m.ctxs, bitsOf (rdOf c.1 0x248 8) 5 4 ≠ 2) →
      ∃ t, exec (.crewRestore n) s = .next t
        ∧ (t.crew n).status = .running ∧ (t.crew n).core = p.core ∧ (t.crew n).baseLine = p.base ∧ (t.crew n).rename = p.slots
        ∧ (∀ q ∈ t.host.saved, q.crew ≠ n)
        ∧ ((s.die (dieOfCore p.core)).pool.length < 1024 →
            (t.die (dieOfCore p.core)).pool = (s.die (dieOfCore p.core)).pool ++ [v.addr])
        ∧ ∀ m ∈ movesOf v p, ∀ c ∈ m.ctxs,
            let x := smGet Skein.empty v.skeins c.1
            let rd (off k : Nat) : Nat := rdOf c.1 off k
            let y := t.ctx c.2
            y.index = x.index ∧ y.stopped = false
              ∧ (∀ i, i < 64 → kGet y i = if i = 0 then 0 else BitVec.ofNat 64 (rd (8 * i) 8))
              ∧ y.c = BitVec.ofNat 16 (rd 0x200 2) ∧ y.pc = BitVec.ofNat 64 (rd 0x208 8 % 2 ^ 57 / 4 * 4)
              ∧ y.trapcause = BitVec.ofNat 64 (rd 0x228 8) ∧ y.trappc = BitVec.ofNat 64 (rd 0x230 8)
              ∧ y.handler = bitOf (rd 0x248 8) 0

/-- CREW_SAVE, CREW_FAULT and CREW_RESTORE (R386, R387, R395, R397 to R400): a crew whose skeins have all stopped and of which nothing is still to
end leaves its core for the first buffer of its die's pool, which then holds its image, and its contexts are free; one that waits for a
verdict or has faulted is not placed again by itself. A crew that is placed again runs at its new spot with k-registers, c-bits and PC as its
image has them, in handler state where the record says so, and its buffer returns to the pool; of its skeins none stands at a FUSE, whose
wait could end there.
The PC that the image gives without its bits 63 to 57 and its two lowest bits is the model's choice (log 26, 75), and a restore waits while
a pending operation of the core has a sequence number of the crew (log 33); other points that the spec leaves open rest on log 45, 46
and 64. -/
def Obligations.CrewsAreSavedAndRestored : Prop := Claims.SavedCrewsAreInTheirImages ∧ Claims.SavedCrewsLeaveAndReturn

/-! ## Commands (13 R354; 15 R409 to R417) -/

/-- The eight commands, an entry that is none, and the end of a set-up that is not answered (R326, R327, R354, R389, R390, R409 to R417): each takes its
entry, and completes with the code of its first failing check or has its effect: a commission withdrawn or aborted, crews asked to stop, a
saved crew let go or held, translations gone, a page request answered, a communicator set up, waiting for a page of its rank table, or
freeing.
Where the spec leaves a point open, this rests on the model's reading (log 40, 41). -/
def Obligations.CommandsCompleteWithTheirCodes : Prop :=
  (∀ (s : State) (fn i v : Nat), fn ≤ 64 → s.dev.ready = true → s.nextCmd fn = some (i, v) →
    let u := s.takeCmd fn
    let op := v % 2 ^ 16
    let f (b n : Nat) : Nat := v / 2 ^ (8 * b) % 2 ^ (8 * n)
    let answers (w : Instr) (code : Nat) : Prop := exec w s = .next (u.completeCmd fn i code 0)
    let named := argsOk v [(8, 2), (12, 4)] = true ∧ f 8 2 ≤ 4095
    let key : CommKey := ⟨f 8 2, BitVec.ofNat 32 (f 12 4)⟩
    let asks (crews : List Nat) : Prop :=
      ∃ t, exec (.preempt fn) s = .next t ∧ t = { u with ctxs := t.ctxs, crews := t.crews, host := t.host }
        ∧ t.host.busy = s.host.busy ++ [{ fn, entry := i, op := 3, crews, saved := 0, arg := 0, bufs := [] }]
        ∧ ∀ n ∈ crews, (s.commission (s.crew n).comm).drover = none →
            (t.crew n).saveKind = if (s.crew n).saveKind = 0 then 1 else (s.crew n).saveKind
    (op = 0 ∨ 8 < op ∨ f 2 2 ≠ 0 → answers (.malformedCommand fn) 1)
    ∧ (f 2 2 = 0 →
      (∀ p ∈ [(Instr.withdraw fn, 1), (.abort fn, 2)], op = p.2 →
        (¬ named → answers p.1 1) ∧ (named → u.mayName fn (f 8 2) = false → answers p.1 2)
        ∧ (named → u.mayName fn (f 8 2) = true → u.findComm key = none → answers p.1 3))
      ∧ (∀ m, op = 1 → named → u.mayName fn (f 8 2) = true → u.findComm key = some m → (∀ o ∈ s.comms, o.uid = m.uid → o = m) →
          (m.state ≠ .queued → m.state ≠ .ready → answers (.withdraw fn) 3)
          ∧ (m.state = .queued ∨ m.state = .ready →
              ∃ g : State, exec (.withdraw fn) s = .next (g.completeCmd fn i 0 0) ∧ (g.commission m.uid).state = .withdrawn))
      ∧ (∀ m, op = 2 → named → u.mayName fn (f 8 2) = true → u.findComm key = some m → (∀ o ∈ s.comms, o.uid = m.uid → o = m) →
          m.uid < s.nextReady →
          ∃ g : State, exec (.abort fn) s = .next (g.completeCmd fn i 0 0) ∧ (g.commission m.uid).state = .aborted)
      ∧ (op = 3 → preemptOk v = false → answers (.preempt fn) 1)
      ∧ (op = 3 → preemptOk v = true → fn ≠ 0 → answers (.preempt fn) 2)
      ∧ (op = 3 → preemptOk v = true → fn = 0 → f 10 1 = 1 ∨ f 10 1 = 2 →
          asks (u.namedCrews (f 10 1) (f 16 4) none))
      ∧ (op = 3 → preemptOk v = true → fn = 0 → f 10 1 = 0 ∨ f 10 1 = 3 →
          let found (m : Commission) : Prop := f 10 1 = 3 ∨ ∃ p ∈ u.crews, p.2.comm = m.uid ∧ p.2.lin = f 16 4 ∧ p.2.status ≠ .ended
          (u.mayName 0 (f 8 2) = false → answers (.preempt fn) 2)
          ∧ (u.mayName 0 (f 8 2) = true → (∀ m, u.findComm key = some m → ¬ found m) → answers (.preempt fn) 3)
          ∧ ∀ m, u.mayName 0 (f 8 2) = true → u.findComm key = some m → found m → asks (u.namedCrews (f 10 1) (f 16 4) (some m.uid)))
      ∧ (let good := argsOk v [(8, 8), (16, 1)] = true ∧ f 16 1 ≤ 1 ∧ f 8 8 % 2 ^ 22 = 0
         (op = 4 → ¬ good → answers (.restore fn) 1) ∧ (op = 4 → good → fn ≠ 0 → answers (.restore fn) 2)
         ∧ (op = 4 → good → fn = 0 → (∀ q ∈ s.host.saved, q.addr ≠ f 8 8) → answers (.restore fn) 3)
         ∧ ∀ q, op = 4 → good → fn = 0 → s.host.saved = [q] → q.addr = f 8 8 →
            ∃ g : State, exec (.restore fn) s = .next (g.completeCmd fn i 0 0) ∧ g.host.saved = [{ q with held := decide (f 16 1 = 1) }]
              ∧ (g.crew q.crew).status = if f 16 1 = 0 ∧ (s.crew q.crew).status = .saved then .readyAgain else (s.crew q.crew).status)
      ∧ (op = 5 → invalidateOk v = false → answers (.invalidate fn) 1)
      ∧ (op = 5 → invalidateOk v = true → fn ≠ 0 → answers (.invalidate fn) 2)
      ∧ (op = 5 → invalidateOk v = true → fn = 0 → f 10 1 = 2 ∨ u.mayName 0 (f 8 2) = true →
          ∃ t b, exec (.invalidate fn) s = .next t ∧ t.host.busy = s.host.busy ++ [b] ∧ b.op = 5 ∧ b.entry = i
            ∧ ∀ e ∈ t.ms.tlb, e ∈ s.ms.tlb ∧ ¬ (f 10 1 = 2 ∨ (e.tctx = f 8 2 ∧ (f 10 1 = 1
                ∨ (e.base / 2 ^ e.leaf.bits * 2 ^ e.leaf.bits < f 16 8 + f 24 8
                    ∧ f 16 8 < e.base / 2 ^ e.leaf.bits * 2 ^ e.leaf.bits + 2 ^ e.leaf.bits)))))
      ∧ (let good := argsOk v [(8, 2), (10, 1), (16, 8)] = true ∧ f 8 2 ≤ 4095 ∧ f 10 1 ≤ 1 ∧ f 16 8 < 2 ^ 45
         let mine := s.ms.walks.filter fun r => decide (r.tctx = f 8 2) && decide (r.page = f 16 8) && decide (r.status = .posted)
         (op = 6 → ¬ good → answers (.pageResponse fn) 1)
         ∧ (op = 6 → good → fn ≠ 0 ∨ u.mayName 0 (f 8 2) = false → answers (.pageResponse fn) 2)
         ∧ (op = 6 → good → fn = 0 → u.mayName 0 (f 8 2) = true → mine = [] → answers (.pageResponse fn) 0)
         ∧ ∀ r, op = 6 → good → fn = 0 → u.mayName 0 (f 8 2) = true → mine = [r] → f 10 1 = 1 → r.waiters ≠ [] →
            (∀ n ∈ r.waiters, n < 2 ^ 40) →
            ∃ g : State, exec (.pageResponse fn) s = .next (g.completeCmd fn i 0 0) ∧ { r with status := .failed } ∈ g.ms.walks
              ∧ r ∉ g.ms.walks)
      ∧ (∀ r, op = 6 → argsOk v [(8, 2), (10, 1), (16, 8)] = true → f 8 2 ≤ 4095 → f 16 8 < 2 ^ 45 → f 10 1 = 0 → fn = 0 →
          u.mayName 0 (f 8 2) = true →
          (s.ms.walks.filter fun q => decide (q.tctx = f 8 2) && decide (q.page = f 16 8) && decide (q.status = .posted)) = [r] →
          r.waiters ≠ [] → (∀ n ∈ r.waiters, n < 2 ^ 40) →
          let e := (u.dieWalk r.die r.tctx (4096 * r.page)).1
          ∃ g : State, exec (.pageResponse fn) s = .next (g.completeCmd fn i 0 0)
            ∧ (∀ l, e = .leaf l → r ∉ g.ms.walks ∧ { r with status := .due } ∉ g.ms.walks
                ∧ (g.tlbAt (.die r.die) r.tctx (4096 * r.page)).isSome = true)
            ∧ (e = .invalid → r ∈ g.ms.walks)
            ∧ (e = .malformed → r ∉ g.ms.walks ∧ { r with status := .failed } ∈ g.ms.walks)
            ∧ (e = .busy → r ∉ g.ms.walks ∧ { r with status := .due } ∈ g.ms.walks))
      ∧ (let good := argsOk v [(8, 8)] = true ∧ f 8 8 % 128 = 0
         let d := leNat (u.devRead (f 8 8) 128)
         (op = 7 → ¬ good → answers (.commSetup fn) 1)
         ∧ (op = 7 → good → s.part.is384P = true → answers (.commSetup fn) 4)
         ∧ (s.rangeBusy (f 8 8) 128 = false → op = 7 → good → s.part.is384P = false →
            (commDescOk d = false → answers (.commSetup fn) 1)
            ∧ (commDescOk d = true → u.mayName fn (cmdField d 16 2) = false → answers (.commSetup fn) 2)
            ∧ (commDescOk d = true → u.mayName fn (cmdField d 16 2) = true → u.rankWaits d = false →
              let pages := u.rankPages (cmdField d 16 2) (ctxTenant (u.ctxEntry (cmdField d 16 2))) (cmdField d 0x18 8) (64 * cmdField d 8 4)
              (pages = some none → ∃ g : State, exec (.commSetup fn) s = .next (g.completeCmd fn i 1 0)
                ∧ g = { u with ms := g.ms, freeCtr := g.freeCtr })
              ∧ (∀ va, pages = some (some va) → ∃ t b, exec (.commSetup fn) s = .next t ∧ t.host.busy = s.host.busy ++ [b] ∧ b.fn = fn
                  ∧ b.entry = i ∧ b.op = 9 ∧ b.arg = d ∧ b.saved = 0 ∧ t.fab = s.fab)
              ∧ ∀ h, pages = none → cmdField d 23 1 = 0 → u.freeHandle = some h →
                ∃ t m b, exec (.commSetup fn) s = .next t ∧ t = { u with fab := t.fab, host := t.host, ms := t.ms, freeCtr := t.freeCtr }
                  ∧ t.fab.comms = s.fab.comms ++ [m] ∧ m.handle = h ∧ m.ready = false ∧ m.key = BitVec.ofNat 64 (cmdField d 0 8)
                  ∧ m.nranks = cmdField d 8 4 ∧ m.rank = cmdField d 12 4 ∧ m.tctx = cmdField d 16 2
                  ∧ t.host.busy = s.host.busy ++ [b] ∧ b.op = 7 ∧ b.arg = h)))
      ∧ (let good := argsOk v [(8, 2)] = true ∧ f 8 2 ≠ 0 ∧ f 8 2 ≤ 4095
         (op = 8 → ¬ good → answers (.commFree fn) 1)
         ∧ (op = 8 → good → s.part.is384P = true → answers (.commFree fn) 4)
         ∧ (op = 8 → good → s.part.is384P = false → u.commByHandle (f 8 2) = none → answers (.commFree fn) 3)
         ∧ ∀ m, op = 8 → good → s.part.is384P = false → u.commByHandle (f 8 2) = some m → fn = 0 ∨ u.mayName fn m.tctx = true →
            m.freeing = false →
            ∃ t b, exec (.commFree fn) s = .next t ∧ t = { u with fab := t.fab, host := t.host }
              ∧ t.fab.comms = s.fab.comms.map (fun o => if o.handle = m.handle then { m with freeing := true } else o)
              ∧ t.host.busy = s.host.busy ++ [b] ∧ b.op = 8 ∧ b.arg = f 8 2)))
  ∧ ∀ (s : State) (h : Nat) (m : Communicator) (b : Busy), (s.fab.comms.find? fun m => decide (m.handle = h) && !m.ready) = some m →
      s.host.busy = [b] → b.op = 7 → b.arg = h → m.began + 1000000000 ≤ s.dev.time3 / 3 →
      ∃ g : State, exec (.commSetupTimeout h) s = .next (g.completeCmd b.fn b.entry 7 0) ∧ g.host.busy = []
        ∧ ∀ o ∈ g.fab.comms, o.handle ≠ h

/-! ## The debug block, trace and assay (16 R424 to R440) -/

/-- Only one bench's debug block differs. -/
def State.OnlyBench (s t : State) (b : Nat) : Prop := t = { s with benches := t.benches } ∧ ∀ k, k ≠ b → t.bench k = s.bench k

/-- Bench b stops for a cause: the first cause and TIME stand, the benches that SPREAD names are chosen, and a tagged word that has not retired is
marked. What of its contexts has returned is counted so, save in one whose accesses still wait (log 4). -/
def State.Stops (s t : State) (b cause : Nat) : Prop :=
  let x := s.bench b
  t = { s with benches := t.benches, ctxs := t.ctxs } ∧ (∀ k, k ≠ b → t.bench k = s.bench k)
    ∧ t.bench b = { x with stopped := true, stopcause := cause, stoptime := BitVec.ofNat 64 (s.dev.time3 / 3),
                           spreading := if cause = 5 then 0 else bitsOf x.stopctl.toNat 3 2, stood := (t.bench b).stood
                           tagged := x.tagged.map fun r => { r with stopped := r.stopped || decide (0 < r.left) } }
    ∧ (∀ c, t.ctx c = { s.ctx c with out := (t.ctx c).out, unret := (t.ctx c).unret })
    ∧ (∀ c, c / 32 ≠ b ∨ (∃ o ∈ s.late, o.ctx = c) → t.ctx c = s.ctx c)
    ∧ ∀ c o rest, c / 32 = b → (∀ o ∈ s.late, o.ctx ≠ c) → (t.ctx c).out = o :: rest → o.lines ≠ []

/-- DBG_STOP, DBG_RESUME, DBG_DUMP and BENCH_STOP_SPREAD (R426 to R428): a stop keeps its first cause and records TIME; resume applies the held
register writes in their order and starts the budgets that waited (R428); a dump is ignored while STOPPED is 0, and else has its header
at DUMPADDR (R430). TRRPTR_WRITE, TRACE_PACKET_WRITE (R437), ASRPTR_WRITE, ASSEED_WRITE and ASSAY_RECORD (R438, R439), which writes the record
of the oldest tagged word that has completed or trapped. The model's readings (log 4, 13): what has returned at a stop; that a stop spreads
though its bench has resumed; that a refused trace packet drops the queue behind it; that a disabled assay ring drops a record uncounted; and
that an ASSEED write draws the count of words to the next tag anew. -/
def Obligations.DebugBlocksStopTraceAndSample : Prop :=
  ∀ (s : State) (b : Nat) (v : W64), b < 768 →
    let x := s.bench b
    (∀ i ∈ [Instr.dbgStop b, .dbgResume b, .dbgDump b, .trrptrWrite b v, .asrptrWrite b v, .asseedWrite b v], s.dev.ready = false →
        exec i s = .next s)
    ∧ (s.dev.ready = true →
        (x.stopped = true → exec (.dbgStop b) s = .next s)
        ∧ (x.stopped = false → ∃ t, exec (.dbgStop b) s = .next t ∧ State.Stops s t b 0)
        ∧ (x.stopped = false → exec (.dbgResume b) s = .next s ∧ exec (.dbgDump b) s = .next s)
        ∧ (x.stopped = true → (∀ h ∈ x.held, h.ctx < 32) →
            ∃ t, exec (.dbgResume b) s = .next t ∧ t = { s with ctxs := t.ctxs, benches := t.benches, vregs := t.vregs }
              ∧ (∀ k, k ≠ b → t.bench k = s.bench k) ∧ t.bench b = { x with stopped := false, dumpdone := false, held := [], stood := [] }
              ∧ (∀ c, c / 32 ≠ b → t.ctx c = s.ctx c)
              ∧ (∀ c, c / 32 = b →
                  let y := s.ctx c
                  let now := y.asked && !y.stopped && y.preempt.isNone
                  let precise := y.handler || decide (y.wait ≠ .none)
                  t.ctx c = { y with k := (t.ctx c).k, f := (t.ctx c).f, mdepth := (t.ctx c).mdepth
                                     range := y.range || x.held.any fun h => decide (h.kind = 16) && decide (h.ctx = c % 32)
                                     asked := false, stopped := y.stopped || (now && precise)
                                     preempt := if now && !precise then some (s.dev.time3 + 60000) else y.preempt })
              ∧ (∀ l h r, x.held = l ++ h :: r → (∀ q ∈ r, q.kind = h.kind → q.ctx = h.ctx → h.kind = 17 ∨ q.reg = h.reg → False) →
                  (h.kind = 0 → h.reg ≠ 0 → kGet (t.ctx (32 * b + h.ctx)) h.reg = h.value)
                  ∧ (h.kind = 2 → fGet (t.ctx (32 * b + h.ctx)) h.reg = h.value)
                  ∧ (h.kind = 17 → (t.ctx (32 * b + h.ctx)).mdepth = h.value.toNat))
              ∧ (∀ l h r n, x.held = l ++ h :: r → h.kind = 5 → n < 64 → h.lanes.getLsbD n = true →
                  (∀ q ∈ r, ∀ j, j < 64 → q.kind = 5 → q.lanes.getLsbD j = true →
                    256 * physLane (s.ctx (32 * b + q.ctx)) (32 * b + q.ctx) j + q.reg
                      ≠ 256 * physLane (s.ctx (32 * b + h.ctx)) (32 * b + h.ctx) n + h.reg) →
                  t.vGet (32 * b + h.ctx) n h.reg = h.value.setWidth 32)
              ∧ (∀ c n, c / 32 = b → (∀ h ∈ x.held, h.kind = 0 → h.ctx = c % 32 → h.reg ≠ n) → kGet (t.ctx c) n = kGet (s.ctx c) n)
              ∧ (∀ c n, c / 32 = b → (∀ h ∈ x.held, h.kind = 2 → h.ctx = c % 32 → h.reg ≠ n) → fGet (t.ctx c) n = fGet (s.ctx c) n)
              ∧ (∀ c, c / 32 = b → (∀ h ∈ x.held, h.kind = 17 → h.ctx ≠ c % 32) → (t.ctx c).mdepth = (s.ctx c).mdepth)
              ∧ ((∀ h ∈ x.held, h.kind ≠ 5) → t.vregs = s.vregs))
        ∧ (x.stopped = true → (∀ p ∈ s.dumpAreas b, p.1 + p.2.length ≤ 0x93000) →
            (∀ i, i < 24 → regionOf ((x.dumpaddr.toNat + i) % 2 ^ 44) ≠ .hole) → s.rangeBusy x.dumpaddr.toNat 0x93000 = false →
            ∃ t, exec (.dbgDump b) s = .next t ∧ t = { s with benches := t.benches, mem := t.mem, ms := t.ms, freeCtr := t.freeCtr }
              ∧ (∀ k, k ≠ b → t.bench k = s.bench k) ∧ t.bench b = { x with dumpdone := true }
              ∧ t.devRead x.dumpaddr.toNat 24 = leBytes 4 0x46574442 ++ leBytes 4 b ++ leBytes 8 x.stoptime.toNat ++ leBytes 8 x.stopcause)
        ∧ (∃ t, exec (.trrptrWrite b v) s = .next t ∧ State.OnlyBench s t b
            ∧ (12 ≤ x.trsize.toNat → x.trsize.toNat ≤ 30 → (t.bench b).trrptr = BitVec.ofNat 64 (v.toNat % 2 ^ x.trsize.toNat)))
        ∧ (∃ t, exec (.asrptrWrite b v) s = .next t ∧ State.OnlyBench s t b
            ∧ (12 ≤ x.assize.toNat → x.assize.toNat ≤ 26 → t.bench b = { x with asrptr := BitVec.ofNat 64 (v.toNat % 2 ^ x.assize.toNat) }))
        ∧ (∃ t, exec (.asseedWrite b v) s = .next t ∧ State.OnlyBench s t b ∧ (v = 0 → exec (.asseedWrite b 1) s = .next t)
            ∧ t.bench b = drawInterval { x with asgen := if v = 0 then 1 else v }))
    ∧ (x.stopped = false → ∀ p ∈ s.benches, p.1 ≠ b → spreads p.2.spreading p.1 b = true →
        s.dev.time3 / 3 ≤ p.2.stoptime.toNat + 1500 → ¬ (p.2.stoptime.toNat ≤ x.stoptime.toNat ∧ x.stopcause = 5) →
        ∃ t, exec (.benchStopSpread b) s = .next t ∧ State.Stops s t b 5)
    ∧ (∀ p rest, x.packets = p :: rest → 12 ≤ x.trsize.toNat → x.trsize.toNat ≤ 30 →
        let size := 2 ^ x.trsize.toNat
        let free := size - (x.trwptr.toNat + size - x.trrptr.toNat % size) % size
        (∀ i, i < p.length → s.rangeBusy (x.trbase.toNat + (x.trwptr.toNat + 8 * i) % size) 8 = false) →
        (free < 8 * p.length + 8 → ∃ t, exec (.tracePacketWrite b) s = .next t ∧ State.OnlyBench s t b
          ∧ (t.bench b).full = true ∧ (t.bench b).packets = [] ∧ (t.bench b).trwptr = x.trwptr
          ∧ (t.bench b).trlost.toNat =
              min (x.trlost.toNat + (x.packets.filter fun q => bitsOf (q.headD 0).toNat 63 60 ≠ 6).length) (2 ^ 64 - 1))
        ∧ (8 * p.length + 8 ≤ free → x.lost = 0 → x.trwptr.toNat % 8 = 0 →
            (∀ i, i < size → regionOf ((x.trbase.toNat + i) % 2 ^ 44) ≠ .hole) →
            ∃ t, exec (.tracePacketWrite b) s = .next t
              ∧ t = { s with benches := t.benches, mem := t.mem, ms := t.ms, freeCtr := t.freeCtr }
              ∧ (∀ k, k ≠ b → t.bench k = s.bench k)
              ∧ t.bench b = { x with packets := rest, trwptr := BitVec.ofNat 64 ((x.trwptr.toNat + 8 * p.length) % size) }
              ∧ ∀ i w, p[i]? = some w →
                  t.devRead (x.trbase.toNat + (x.trwptr.toNat + 8 * i) % size) 8 = leBytes 8 w.toNat))
    ∧ ((∀ r ∈ x.tagged, r.left ≠ 0) → exec (.assayRecord b) s = .refused (.notEnabled "ASSAY_RECORD"))
    ∧ ∀ pre r post, x.tagged = pre ++ r :: post → (∀ q ∈ pre, q.left ≠ 0) → r.left = 0 →
        let rest := pre ++ post
        let n := x.assize.toNat
        (n < 12 ∨ 26 < n → ∃ t, exec (.assayRecord b) s = .next t ∧ State.OnlyBench s t b ∧ t.bench b = { x with tagged := rest })
        ∧ (12 ≤ n → n ≤ 26 → (x.aswptr.toNat + 64) % 2 ^ n = x.asrptr.toNat % 2 ^ n →
            ∃ t, exec (.assayRecord b) s = .next t ∧ State.OnlyBench s t b ∧ t.bench b = { x with tagged := rest, aslost := satInc x.aslost })
        ∧ (12 ≤ n → n ≤ 26 → (x.aswptr.toNat + 64) % 2 ^ n ≠ x.asrptr.toNat % 2 ^ n →
            s.rangeBusy (x.asbase.toNat + x.aswptr.toNat % 2 ^ n) 64 = false →
            ∃ t, exec (.assayRecord b) s = .next t
              ∧ t = { s with benches := t.benches, mem := t.mem, ms := t.ms, freeCtr := t.freeCtr } ∧ (∀ k, k ≠ b → t.bench k = s.bench k)
              ∧ t.bench b = { x with tagged := rest, aswptr := BitVec.ofNat 64 ((x.aswptr.toNat + 64) % 2 ^ n) }
              ∧ ((∀ i, i < 64 → regionOf ((x.asbase.toNat + x.aswptr.toNat % 2 ^ n + i) % 2 ^ 44) ≠ .hole) →
                  t.devRead (x.asbase.toNat + x.aswptr.toNat % 2 ^ n + 48) 16 = leBytes 8 r.tissue.toNat ++ leBytes 8 r.lw.toNat))

/-! ## The device and its registers (15 R403 to R416; 17 R441 to R451) -/

/-- A counter of R450 after one more. -/
def countedOnce (n : Nat) : Nat := if n < 2 ^ 32 - 1 then n + 1 else 2 ^ 32 - 1

/-- MODULE_RESET (R446): with four images of which the later three pass their checks, the module is at its reset values, MEAS has the four
digests and READY is 1; one whose signature is not accepted, or whose security version is below the rollback counter, stops the chain with
READY 0; after a thermal trip a reset waits until TMAX reads below 100. FUNCTION_LEVEL_RESET (R408). POWER_CLAMP, POWER_CLAMP_END and THERMAL_TRIP
(R444), SHARE_WRITE (R374), ATTESTATION_REQUEST (R447), PATROL_SCRUB (R449), ERROR_COUNTER_CLEAR and LINK_RETRY (R450), LINK_LOST.
Where the spec leaves a point open, this rests on the model's reading (log 10, 15, 50, 51, 52, 55). -/
def Obligations.DeviceStepsKeepTheirLimits : Prop :=
  ∀ (s : State),
    (s.dev.thermal = true → 100 ≤ s.dev.tmax.toNat → ∀ bs, bs.length = 4 → exec (.moduleReset bs) s = .next s)
    ∧ (∀ b0 b1 b2 b3 : BootStage, s.dev.thermal = false ∨ s.dev.tmax.toNat < 100 →
      let d (b : BootStage) : BitVec 256 := sm3 (beBytes 64 (sm3 b.image).toNat)
      let ok (b : BootStage) : Bool := sm2Accepts s.part.bootKey (sm3 b.image) b.signature && decide (s.part.rollback ≤ b.version)
      ∃ t, exec (.moduleReset [b0, b1, b2, b3]) s = .next t
        ∧ t.ctxs = [] ∧ t.crews = [] ∧ t.comms = [] ∧ t.mem = s.mem ∧ t.part = s.part
        ∧ t.dev.ready = (ok b1 && ok b2 && ok b3) ∧ t.dev.thermal = false ∧ t.dev.clamp = false
        ∧ (ok b1 = true → ok b2 = true → ok b3 = true →
            t.dev.meas = [d b0, d b1, d b2, d b3] ∧ ∀ k, k < 4 → (t.die k).share = 650))
    ∧ (s.dev.thermal = false ∨ s.dev.tmax.toNat < 100 → ∃ t, exec (.functionLevelReset 0) s = .next t ∧ t.ctxs = [] ∧ t.comms = [] ∧ t.dev.ready = false)
    ∧ (∀ fn, 0 < fn → fn ≤ 64 → (s.comms.map (·.uid)).Nodup → (∀ m ∈ s.comms, m.uid < s.nextReady) →
        ∃ t, exec (.functionLevelReset fn) s = .next t
          ∧ (∀ m ∈ s.comms, isFinal m.state = false → m.drover = none → ctxFunc (s.ctxEntry m.key.ctx) = fn →
              (t.commission m.uid).state = .aborted)
          ∧ (t.cmdRing fn).head = (t.cmdRing fn).tail ∧ (∀ p ∈ t.host.busy, p.fn ≠ fn)
          ∧ (∀ k, t.vector fn k = MsixVec.reset ∨ 2048 ≤ k) ∧ t.msixOpen fn = false
          ∧ ∀ m ∈ t.fab.comms, ctxFunc (s.ctxEntry m.tctx) ≠ fn)
    ∧ (s.dev.clamp = false → exec .powerClamp s = .next { s with dev := { s.dev with clamp := true, clamps := min (s.dev.clamps + 1) (2 ^ 32 - 1) } })
    ∧ (s.dev.clamp = true → exec .powerClampEnd s = .next { s with dev := { s.dev with clamp := false } })
    ∧ (∃ t, exec .thermalTrip s = .next t ∧ t.dev.thermal = true ∧ t.dev.tmax = 115 ∧ (∀ m ∈ t.comms, isFinal m.state = true)
        ∧ ∀ u, u ≠ Turn.idle → (∀ a l, u ≠ .hostMem a l) → (∀ l, u ≠ .event (.moduleReset l)) → u ≠ .event (.functionLevelReset 0) →
            runTurn u t = .fault .clocksStopped)
    ∧ (∀ die w, die < 4 →
        let sum := (if die = 0 then w else (s.die 0).share) + (if die = 1 then w else (s.die 1).share)
          + (if die = 2 then w else (s.die 2).share) + (if die = 3 then w else (s.die 3).share)
        (sum ≤ 2600 → w < 200 ∨ 800 < w → exec (.shareWrite die w) s = .next s)
        ∧ (2600 < sum → exec (.shareWrite die w) s = .next { s with host := { s.host with shareDrops := s.host.shareDrops + 1 } })
        ∧ (200 ≤ w → w ≤ 800 → sum ≤ 2600 → ∃ t, exec (.shareWrite die w) s = .next t ∧ t = { s with dies := t.dies }
            ∧ ∀ k, t.die k = if k = die then { s.die k with share := w } else s.die k))
    ∧ (∀ (nonce : BitVec 256) (addr : W64),
        (s.dev.ready = false → exec (.attestationRequest nonce addr) s = .next s)
        ∧ ∀ p : Nat → Nat, s.dev.ready = true → s.dev.meas.length = 4 → (∀ i, i < 240 → s.stewardAt (addr.toNat + i) = some (p i)) →
            (∀ i j, i < 240 → j < 240 → p i = p j → i = j) → (∀ i, i < 240 → s.lineBusy (lineOf (p i)) = false) →
            ∃ t, exec (.attestationRequest nonce addr) s = .next t ∧ t.host.mailNonce = nonce ∧ t.host.mailAddr = addr
              ∧ ∀ i, i < 176 → memByte t.mem (p i) = (leBytes 8 (devinfo s.part) ++ leBytes 8 (unitcap s.part)
                  ++ s.dev.meas.flatMap (fun m => leBytes 32 m.toNat) ++ leBytes 32 nonce.toNat).getD i 0)
    ∧ (∀ die kind a, die < 4 → s.scrubs die kind a = true → (s.die die).ce.length = 8 → (s.die die).ue.length = 8 →
        exec (.patrolScrub die kind a .clean) s = .next s
        ∧ (∃ t, exec (.patrolScrub die kind a .correctable) s = .next t ∧ t = { s with dies := t.dies } ∧ (t.die die).ue = (s.die die).ue
            ∧ ∀ k, (t.die die).ce.getD k 0 = if k = kind then countedOnce ((s.die die).ce.getD k 0) else (s.die die).ce.getD k 0)
        ∧ ∃ t, exec (.patrolScrub die kind a .uncorrectable) s = .next t ∧ (t.die die).ce = (s.die die).ce
            ∧ (∀ k, (t.die die).ue.getD k 0 = if k = kind then countedOnce ((s.die die).ue.getD k 0) else (s.die die).ue.getD k 0)
            ∧ (kind ≠ 0 → kind ≠ 6 → a < 2 ^ 46 → t.poisoned a 1 = true)
            ∧ (kind = 0 → a ∉ t.cachedCells ∧ t.mem = s.mem)
            ∧ (kind = 6 → a ∈ t.ms.badRegs ∧ t.ctxs = s.ctxs ∧ t.mem = s.mem))
    ∧ ∀ die, die < 4 →
        (s.dev.ready = true → ∃ t, exec (.errorCounterClear die) s = .next t ∧ t = { s with dies := t.dies }
          ∧ ∀ k, (t.die die).ce.getD k 0 = 0 ∧ (t.die die).ue.getD k 0 = 0)
        ∧ ((s.die die).ce.length = 8 → ∃ t, exec (.linkRetry die) s = .next t ∧ t = { s with dies := t.dies } ∧ (t.die die).ue = (s.die die).ue
            ∧ (t.die die).ce.getD 7 0 = countedOnce ((s.die die).ce.getD 7 0))
        ∧ exec (.linkLost die) s = .next s

/-- The bits of a word of a context table entry that hold state (R405). -/
def ctxWordBits (i : Nat) : W64 :=
  if i = 0 then 0xFF01FD else if i = 2 then BitVec.allOnes 64 else if i = 3 then 0xFFFFFFFFFFFFFF80 else if i = 5 then 0xFFFFFFFF00000000
  else if i = 6 then 0xFFFFFFFFFC000000 else if i = 7 then 0x1FF else 0

/-- REGISTER_WRITE (R403 to R409, R413, R414, R474, R451): writes are ignored until bring-up is complete, at offsets that hold nothing, and by a VF
outside its own block; else a register takes the value in the bits that it holds; the MSI-X tables take 32-bit writes too, and the mailbox
takes a nonce and, with its address, makes the request. BAR4_READ and BAR4_WRITE (R407), which wait for a copy that owns a line,
RING_HEAD_WRITE, SAVEPUSH,
MSIX_UNMASK, and system software's accesses to a scratchpad, which a stale placement tag turns away (R318).
Where the spec leaves a point open, this rests on the model's reading (log 42, 44, 54, 60). -/
def Obligations.RegistersAndAperturesAnswer : Prop :=
  ∀ (s : State),
    (∀ fn off v, fn ≤ 64 → off < 2 ^ 26 →
      (s.dev.ready = false ∨ (off % 8 ≠ 0 ∧ ¬ (off % 8 = 4 ∧ inMsix fn off = true)) → exec (.registerWrite fn off v) s = .next s)
      ∧ (s.dumpWrite fn off v = false → ¬ (fn = 0 ∧ off = 0x60020) → ∃ t, exec (.registerWrite fn off v) s = .next t)
      ∧ (0 < fn → 0x200 ≤ off → ¬ (0x10000 ≤ off ∧ off < 0x10028) → exec (.registerWrite fn off v) s = .next s))
    ∧ (s.dev.ready = true →
        (∀ i v, i < 4 → ∃ t, exec (.registerWrite 0 (0x60000 + 8 * i) v) s = .next t
          ∧ t = { s with host := { s.host with mailNonce := t.host.mailNonce } }
          ∧ ∀ j, j < 4 → t.host.mailNonce.toNat / 2 ^ (64 * j) % 2 ^ 64 =
              if j = i then v.toNat else s.host.mailNonce.toNat / 2 ^ (64 * j) % 2 ^ 64)
        ∧ (∀ v t, exec (.attestationRequest s.host.mailNonce v) s = .next t → exec (.registerWrite 0 0x60020 v) s = .next t)
        ∧ ∀ fn k v, fn ≤ 64 → k < (if fn = 0 then 2048 else 32) →
            ∃ t, exec (.registerWrite fn ((if fn = 0 then 0x300000 else 0) + 16 * k + 12) v) s = .next t
              ∧ t.vector fn k = { s.vector fn k with masked := v.getLsbD 0, pending := (t.vector fn k).pending })
    ∧ (s.dev.ready = true →
        (∀ i v, i < 32768 → ∃ t, exec (.registerWrite 0 (0x100000 + 8 * i) v) s = .next t ∧ t.bar0 0 (0x100000 + 8 * i) = v &&& ctxWordBits (i % 8)
          ∧ ∀ j, j ≠ i → j < 32768 → t.bar0 0 (0x100000 + 8 * j) = s.bar0 0 (0x100000 + 8 * j))
        ∧ (∀ v, ∃ t, exec (.registerWrite 0 0x400000 v) s = .next t ∧ t.bar0 0 0x400000 = v &&& ~~~0x1FFFFF#64)
        ∧ (∀ fn v, fn ≤ 64 →
            let r := s.cmdRing fn
            (∃ t, exec (.registerWrite fn 0x10000 v) s = .next t
              ∧ (r.head = r.tail → t.bar0 fn 0x10000 = v &&& ~~~0xFFF#64))
            ∧ (∃ t, exec (.registerWrite fn 0x10008 v) s = .next t ∧ t.bar0 fn 0x10008 = v &&& 0x1F)
            ∧ (∃ t, exec (.registerWrite fn 0x10010 v) s = .next t
                ∧ ∀ n, ringLog r.size = some n → t.bar0 fn 0x10010 = BitVec.ofNat 64 (v.toNat % 2 ^ n))
            ∧ exec (.registerWrite fn 0x10018 v) s = exec (.registerWrite fn 0x10018 0) s))
    ∧ (∀ off n, 0 < n → n ≤ 4096 → off + n ≤ 2 ^ 39 →
        let pa (i : Nat) : Nat := (s.host.apbase.toNat + off + i) % 2 ^ 44
        let shut (a : Nat) : Prop := regionOf a = .hole ∨ regionOf a = .host
        s.rangeBusy (s.host.apbase.toNat + off) n = false →
        (∃ t, exec (.bar4Read off n) s = .next t ∧ t.mem = s.mem ∧ t.ctxs = s.ctxs
          ∧ t.host.lastRead.length = n
          ∧ (∀ i, i < n → (shut (pa i) → t.host.lastRead[i]? = some 0xFF)
              ∧ (¬ shut (pa i) → t.host.lastRead[i]? = some (memByte s.mem (pa i))))
          ∧ ((∃ i, i < n ∧ shut (pa i)) → (t.die 0).bar4Drops = (s.die 0).bar4Drops + 1)
          ∧ ((∀ i, i < n → ¬ shut (pa i)) → t.dies = s.dies))
        ∧ ∀ bs : List Byte, bs.length = n → ∃ t, exec (.bar4Write off bs) s = .next t ∧ t.ctxs = s.ctxs
          ∧ (∀ i, i < n → ¬ shut (pa i) → memByte t.mem (pa i) = bs.getD i 0)
          ∧ ∀ a, (∀ i, i < n → ¬ shut (pa i) → a ≠ pa i) → memByte t.mem a = memByte s.mem a)
    ∧ (∀ die v, die < 4 →
        (s.dev.ready = true → (s.die die).pool.length < 1024 → ∃ t, exec (.savepush die v) s = .next t ∧ t = { s with dies := t.dies }
          ∧ (t.die die).pool = (s.die die).pool ++ [v.toNat / 0x400000 * 0x400000])
        ∧ (s.dev.ready = true → 1024 ≤ (s.die die).pool.length → ∃ t, exec (.savepush die v) s = .next t ∧ (t.die die).pool = (s.die die).pool
          ∧ (t.die die).poolDrops = (s.die die).poolDrops + 1)
        ∧ (s.dev.ready = false → ∀ f, exec (.ringHeadWrite die f v) s = .next s)
        ∧ ∀ f, s.dev.ready = true → (s.ring (2 * die + if f then 1 else 0)).held = [] → ∃ t, exec (.ringHeadWrite die f v) s = .next t
            ∧ t = { s with host := { s.host with rings := t.host.rings } }
            ∧ ∀ n, ringLog (s.ring (2 * die + if f then 1 else 0)).size = some n →
                (t.ring (2 * die + if f then 1 else 0)).head = BitVec.ofNat 64 (v.toNat % 2 ^ n))
    ∧ (∀ fn k, fn ≤ 64 → k < (if fn = 0 then 2048 else 32) →
        let x := s.vector fn k
        (s.dev.ready = false → exec (.msixUnmask fn k) s = .next s)
        ∧ (s.dev.ready = true → ∃ t, exec (.msixUnmask fn k) s = .next t ∧ (t.vector fn k).masked = false
          ∧ (x.pending = true → s.msixOpen fn = true → t.host.msgs = s.host.msgs ++ [(x.addr, x.data)] ∧ (t.vector fn k).pending = false)
          ∧ (x.pending = false ∨ s.msixOpen fn = false → t.host.msgs = s.host.msgs)))
    ∧ ∀ (a : W64) (tag core off : Nat) (bs : List Byte), tag < 4096 → core < 192 → 0 < bs.length → off + bs.length ≤ 2 ^ 19 →
        a = BitVec.ofNat 64 (0xA5 * 2 ^ 56 + tag * 2 ^ 27 + core * 2 ^ 19 + off) →
        let at_ := 2 ^ 44 + 2 ^ 19 * core + off
        ((∀ i, i < bs.length → (s.lineTag core ((off + i) / 128)).getD 0 = tag) →
            (∀ i, i < bs.length → s.lineBusy (lineOf (at_ + i)) = false) →
            (∃ t, exec (.systemSoftwareCopy a bs) s = .next t ∧ t.host.lastStale = false ∧ t.ctxs = s.ctxs
              ∧ ∀ x, memByte t.mem x = if at_ ≤ x ∧ x < at_ + bs.length then bs.getD (x - at_) 0 else memByte s.mem x)
            ∧ ∃ t, exec (.debugRead a bs.length) s = .next t ∧ t.host.lastStale = false ∧ t.host.lastRead = s.read at_ bs.length ∧ t.mem = s.mem)
        ∧ ((∃ i, i < bs.length ∧ (s.lineTag core ((off + i) / 128)).getD 0 ≠ tag) →
            ∀ i ∈ [Instr.systemSoftwareCopy a bs, .debugRead a bs.length],
              exec i s = .next { s with host := { s.host with lastRead := [], lastStale := true } })

/-! ## Reset, steps, decoding (04 R94 to R106; 17 R451) -/

/-- Reset (R38, R403, R405, R409, R413, R414, R424, R445, R446, R450, R451): READY is 0, TIME and the four measurement registers are zero, no skein, crew,
commission or communicator is in place, every register of a debug block and every error counter reads zero, and BAR0 reads zero but for
DEVSTAT. That storage lists no byte, so that every byte reads zero, is the model's choice (log 5). -/
def Obligations.ResetLeavesTheModuleEmpty : Prop :=
  let s := State.reset
  s.MemOk ∧ s.mem = [] ∧ s.dev.ready = false ∧ s.dev.clamp = false ∧ s.dev.thermal = false ∧ s.time = 0 ∧ s.dev.meas = [0, 0, 0, 0]
    ∧ s.ctxs = [] ∧ s.crews = [] ∧ s.comms = [] ∧ s.host.taken = [] ∧ s.host.saved = [] ∧ s.fab.comms = [] ∧ s.copies = [] ∧ s.late = []
    ∧ (∀ fn off, off ≠ 16 → s.bar0 fn off = 0)
    ∧ (∀ b off, seeDebug (s.bench b) off = 0)
    ∧ (∀ d, (s.die d).pool = [] ∧ (s.die d).poolDrops = 0 ∧ ∀ k, (s.die d).ce.getD k 0 = 0 ∧ (s.die d).ue.getD k 0 = 0)
    ∧ (∀ f, s.cmdRing f = ⟨0, 0, 0, 0, 0⟩) ∧ ∀ c, s.ctxEntry c = 0

/-- The storage of the machine stays in its canonical form: addresses strictly rising, and no byte listed that an unlisted address would read
as. Every step keeps it, from every state that has it, whatever turn it runs.
The form, and that an unlisted address reads as zero, are the model's choice and no rule's (log 5). -/
def Obligations.EveryStepKeepsStorageCanonical : Prop := ∀ s t : State, s.MemOk → step s = .next t → t.MemOk

/-- Decoding undoes encoding (R94 to R105): for every well-formed instruction that has words, the decoder reads the instruction, every
operand included, from the words that the encoding tables give it; and of all rows exactly the 81 steps of the device, named one by one, have
no words. -/
def Obligations.DecodingUndoesEncoding : Prop :=
  (∀ (i : Instr) (n w : Nat), i.wf = true → encode i = some (n, w) → w < 2 ^ n ∧ decodeTableWord n w = some i)
  ∧ ∀ i : Instr, (isEvent i = true → encode i = none) ∧ (isEvent i = false → ∃ n w, encode i = some (n, w) ∧ (n = 32 ∨ n = 64 ∨ n = 96))

/-- One step runs the decoded instruction (R94, R97, R106, R147): where the next turn is that of a context's scalar stream and its tenant, bench and
port let it be selected (R370 to R373), its PC lies in its
section, no breakpoint matches, and the bytes that are fetched decode to i, with the literal word where the first word has one, the step is
exec of i in that context, and then a cycle passes; likewise for the lane word at which its lanes stand. Where registers stand in error (R449), a word
that reads one traps ECC_UNCORR, and what an executed word writes is in error no more. Before a turn the accesses that it
does not leave waiting are performed (R334); a turn that leaves its own access waiting runs issueLate, and one that performs an access, performAt. A
cycle in which one word issues is that word's turn. The bytes fetched are those of storage where the instruction cache holds no copy of the line.
Where the spec leaves a point open, this rests on the model's reading (log 1, 3, 15, 61, 81). -/
def Obligations.AStepRunsTheDecodedInstruction : Prop :=
  ∀ (s : State) (c : Nat) (i : Instr) (rest : List Turn), s.dev.thermal = false →
    let u (t : Turn) : State := ({ s with agenda := rest } : State).passLate t
    let pc := (s.ctx c).pc
    let runs (v : State) : Prop := step s = ticked (State.runInstr { v with cur := c } i)
    let x := s.ctx c
    (∀ y, s.agenda = .scalar c :: rest → (u (.scalar c)).select (.scalar c) = some y → inSec (y.codeRange c) pc.toNat 4 = true →
      ∀ s1 w, y.fetch4 c false pc.toNat = .ok s1 w → s1.breakHit c false pc = none →
        let goes (v : State) : Prop := (v.scalarBad c i = false → runs v)
          ∧ (v.scalarBad c i = true → step s = .next (tick (v.takeTrap c (scalarTrap .eccUncorr 0))))
        (hasLiteral w = false → decodeScalar w 0 = .instr i → goes s1)
        ∧ ∀ s2 l, hasLiteral w = true → inSec (y.codeRange c) (pc.toNat + 4) 4 = true → s1.fetch4 c false (pc.toNat + 4) = .ok s2 l →
            decodeScalar w l = .instr i → goes s2)
    ∧ (∀ y, s.agenda = .lane c :: rest → (u (.lane c)).select (.lane c) = some y →
        ∀ s1 s2 s3 w0 w1 w2,
          let a := laneAddr x
          y.fetch4 c true a.toNat = .ok s1 w0 → s1.fetch4 c true (a.toNat + 4) = .ok s2 w1 → s2.fetch4 c true (a.toNat + 8) = .ok s3 w2 →
          s3.breakHit c true a = none → decodeLane (s3.commOf c).vregs (w0 + w1 * 2 ^ 32 + w2 * 2 ^ 64) = .instr i →
          (∀ m, s3.lanesBad c i m = []) → runs s3)
    ∧ (∀ v : State, (v.ms.badRegs = [] → State.runInstr v i = exec i v)
        ∧ (∀ t, exec i v = .next t → ∃ t', State.runInstr v i = .next t' ∧ t' = { t with ms := { t.ms with badRegs := t'.ms.badRegs } }
            ∧ ∀ r ∈ t'.ms.badRegs, r ∈ t.ms.badRegs))
    ∧ (s.agenda = .event i :: rest → encode i = none → (∀ k, i = .skeinEnd k → ((u (.event i)).commOf k).drover = none) →
        step s = ticked (exec i (u (.event i))))
    ∧ (∀ y, s.agenda = .event (.skeinEnd c) :: rest → ((u (.event (.skeinEnd c))).commOf c).drover.isSome = true →
        (u (.event (.skeinEnd c))).slotPick (coreOf c) ((u (.event (.skeinEnd c))).commOf c).tenant = some y → step s = ticked (exec (.skeinEnd c) y))
    ∧ (∀ y s1, s.agenda = .late c :: rest → (u (.late c)).select (.scalar c) = some y → y.nextScalar c = .instr s1 i →
        (memWord i = none → laneMem i = none → runs s1)
        ∧ ∀ m, memWord i = some m → step s = ticked (State.issueLate { s1 with cur := c } i m))
    ∧ (∀ y s1, s.agenda = .lateLane c :: rest → (u (.lateLane c)).select (.lane c) = some y → y.nextLane c = .instr s1 i → memWord i = none →
        (laneMem i = none → runs s1)
        ∧ ∀ o f, laneMem i = some (o, f) → step s = ticked (State.issueLateLane { s1 with cur := c } i o f))
    ∧ (∀ n k o, s.agenda = .perform n k :: rest → (u (.perform n k)).late[n]? = some o →
        (u (.perform n k)).mayPerform n o (fun p => p.scope.any fun sc => (u (.perform n k)).reaches p.ctx sc o.ctx) = true →
        step s = .next (tick ((u (.perform n k)).performAt n k o)))
    ∧ (s.late = [] → ∀ t, u t = { s with agenda := rest })
    ∧ (∀ lane, s.late = [] → runTurn (.cycle [(c, lane)]) s = runTurn (if lane then .lane c else .scalar c) s)
    ∧ (∀ t, ticked (.next t) = .next (tick t))
    ∧ ∀ (lane : Bool) (va : Nat) (l : Leaf), s.deniedFetch c lane va = none → va < Config.windowBase →
        s.tlbAt (.bench (benchOf c)) (s.commOf c).key.ctx (va / 4096 * 4096) = some l → l.phys va % 4 = 0 →
        l.x = true → pageOk l .fetch (s.commOf c).tenant va = true → s.poisoned (l.phys va) 4 = false → s.lineBusy (lineOf (l.phys va)) = false →
        (∀ e ∈ s.ms.ic, e.core = coreOf c → e.lane = lane → e.line ≠ l.phys va / 128) →
        ∃ s1, s.fetch4 c lane va = .ok s1 (leNat (s.read (l.phys va) 4)) ∧ s1 = { s with ms := s1.ms, freeCtr := s1.freeCtr }

/-- Words written out from the spec's encodings decode to the instructions that they stand for (R95 to R105, and the owning chapters' listings). -/
def Obligations.WrittenWordsDecode : Prop :=
  decodeTableWord 32 0x0471C800 = some (.add 7 7 8)
  ∧ decodeTableWord 32 0x4C400000 = some (.ldk 4 0)
  ∧ decodeTableWord 32 0x90600005 = some (.br 1 true (.short 5))
  ∧ decodeTableWord 32 0xBC20C103 = some (.split 2 3 1)
  ∧ decodeTableWord 32 0xBC008004 = some (.fuse 2)
  ∧ decodeTableWord 32 0xE8300100 = some (.srd 3 1)
  ∧ decodeTableWord 32 0xEC002A00 = some (.trap 0x2A)
  ∧ decodeTableWord 32 0xEC000101 = some .eretSkip
  ∧ decodeTableWord 32 0x04000017 = none

/-- Words that stand for nothing (R94, R96, R99, R105 to R107, R122, R126, R128): undefined majors, undefined values of FN and lane opcodes
give ILLEGAL with DETAIL 1, a nonzero reserved field DETAIL 2, a register field out of range DETAIL 3; the step of such a word takes that
trap in its context, before it changes anything, and a PC outside its section traps FETCH.
Where the spec leaves a point open, this rests on the model's reading (log 20). -/
def Obligations.UndefinedWordsTrap : Prop :=
  (∀ w lit : Nat, w < 2 ^ 32 →
    let major := w / 2 ^ 26
    let fn := w % 256
    let breg := w / 2 ^ 8 % 64
    let dreg := w / 2 ^ 20 % 64
    let areg := w / 2 ^ 14 % 64
    (major = 0 ∨ (0x06 ≤ major ∧ major ≤ 0x07) ∨ (0x14 ≤ major ∧ major ≤ 0x17) ∨ (0x21 ≤ major ∧ major ≤ 0x23) ∨ major = 0x2B
        ∨ (0x32 ≤ major ∧ major ≤ 0x33) ∨ 0x3C ≤ major → decodeScalar w lit = .illegal 1 ∧ hasLiteral w = false)
    ∧ (major = 0x01 → 0x17 ≤ fn → decodeScalar w lit = .illegal 1)
    ∧ (major = 0x01 → fn = 0x10 ∨ fn = 0x11 ∨ fn = 0x16 → breg ≠ 0 → decodeScalar w lit = .illegal 2)
    ∧ (0x0C ≤ major → major ≤ 0x0E → w / 2 ^ 6 % 256 ≠ 0 → decodeScalar w lit = .illegal 2)
    ∧ (major = 0x12 → 64 < w / 2 ^ 8 % 64 + (if w / 4 % 64 = 0 then 64 else w / 4 % 64) → decodeScalar w lit = .illegal 1)
    ∧ (major = 0x04 → fn % 16 ≤ 9 → 16 ≤ dreg → decodeScalar w lit = .illegal 2)
    ∧ (major = 0x05 → fn = 0 → breg = 0 → 16 ≤ dreg → decodeScalar w lit = .illegal 3)
    ∧ (major = 0x05 → fn = 1 → breg = 0 → 16 ≤ areg → decodeScalar w lit = .illegal 3))
  ∧ (∀ nv w : Nat, w < 2 ^ 95 →
      let op := w / 2 ^ 88
      op = 0 ∨ (0x18 ≤ op ∧ op ≤ 0x1F) ∨ (0x38 ≤ op ∧ op ≤ 0x3F) ∨ (0x4B ≤ op ∧ op ≤ 0x4F) ∨ (0x56 ≤ op ∧ op ≤ 0x5F) ∨ op = 0x6D ∨ 0x70 ≤ op →
        decodeLane nv w = .illegal 1)
  ∧ ∀ (s : State) (c d : Nat) (rest : List Turn), s.dev.thermal = false →
    let u (t : Turn) : State := ({ s with agenda := rest } : State).passLate t
    let pc := (s.ctx c).pc
    (∀ y, s.agenda = .scalar c :: rest → (u (.scalar c)).select (.scalar c) = some y →
      (inSec (y.codeRange c) pc.toNat 4 = false → step s = .next (tick (y.takeTrap c (scalarTrap .fetch 1))))
      ∧ (inSec (y.codeRange c) pc.toNat 4 = true → ∀ s1 w, y.fetch4 c false pc.toNat = .ok s1 w → s1.breakHit c false pc = none →
          (hasLiteral w = true → inSec (y.codeRange c) (pc.toNat + 4) 4 = false →
            step s = .next (tick (s1.takeTrap c (scalarTrap .fetch 1))))
          ∧ (hasLiteral w = false → decodeScalar w 0 = .illegal d →
            step s = .next (tick (s1.takeTrap c (scalarTrap .illegal d))))))
    ∧ (∀ y, s.agenda = .lane c :: rest → (u (.lane c)).select (.lane c) = some y →
        ∀ s1 s2 s3 w0 w1 w2,
          let a := laneAddr (s.ctx c)
          y.fetch4 c true a.toNat = .ok s1 w0 → s1.fetch4 c true (a.toNat + 4) = .ok s2 w1 → s2.fetch4 c true (a.toNat + 8) = .ok s3 w2 →
          s3.breakHit c true a = none → decodeLane (s3.commOf c).vregs (w0 + w1 * 2 ^ 32 + w2 * 2 ^ 64) = .illegal d →
          step s = .next (tick (s3.takeTrap c (fetchTrap (s3.ctx c) .illegal d))))
end

