-- ==== Sys2Proof/Laws/Store.lean ====
section
/-! SUPPORT. Laws of the maps by key and of storage: read after write, and the canonical form. -/

namespace Sys2Proof.Machine

section Maps
variable {α : Type}

@[simp] theorem smFind_nil (k : Nat) : smFind ([] : SMap α) k = none := rfl

theorem smFind_cons (j : Nat) (v : α) (m : SMap α) (k : Nat) :
    smFind ((j, v) :: m) k = if j = k then some v else smFind m k := rfl

/-- A read after a put of the same key gives the value put. -/
@[simp] theorem smFind_smPut_same (m : SMap α) (k : Nat) (v : α) : smFind (smPut m k v) k = some v := by
  induction m with
  | nil => simp [smPut, smFind]
  | cons p m ih =>
    obtain ⟨j, w⟩ := p
    simp only [smPut]
    split
    · simp [smFind]
    · split
      · simp [smFind]
      · next h => simp [smFind, Ne.symm h, ih]

/-- A put leaves every other key alone. -/
theorem smFind_smPut_ne (m : SMap α) {k j : Nat} (v : α) (h : j ≠ k) : smFind (smPut m k v) j = smFind m j := by
  induction m with
  | nil => simp [smPut, smFind, Ne.symm h]
  | cons p m ih =>
    obtain ⟨i, w⟩ := p
    simp only [smPut]
    split
    · simp [smFind, Ne.symm h]
    · split
      · next hi => subst hi; simp [smFind, Ne.symm h]
      · simp [smFind, ih]

/-- A key that is deleted has no entry. -/
@[simp] theorem smFind_smDel_same (m : SMap α) (k : Nat) : smFind (smDel m k) k = none := by
  induction m with
  | nil => rfl
  | cons p m ih =>
    obtain ⟨j, w⟩ := p
    by_cases h : j = k
    · simpa [smDel, h] using ih
    · simpa [smDel, h, smFind] using ih

/-- A deletion leaves every other key alone. -/
theorem smFind_smDel_ne (m : SMap α) {k j : Nat} (h : j ≠ k) : smFind (smDel m k) j = smFind m j := by
  induction m with
  | nil => rfl
  | cons p m ih =>
    obtain ⟨i, w⟩ := p
    by_cases hi : i = k
    · subst hi; simpa [smDel, smFind, Ne.symm h] using ih
    · by_cases hj : i = j <;> simp_all [smDel, smFind]

@[simp] theorem smGet_smPut_same (d : α) (m : SMap α) (k : Nat) (v : α) : smGet d (smPut m k v) k = v := by
  simp [smGet]

theorem smGet_smPut_ne (d : α) (m : SMap α) {k j : Nat} (v : α) (h : j ≠ k) :
    smGet d (smPut m k v) j = smGet d m j := by simp [smGet, smFind_smPut_ne m v h]

/-- A read after a set of the same key gives the value set. -/
@[simp] theorem smGet_smSet_same [DecidableEq α] (d : α) (m : SMap α) (k : Nat) (v : α) :
    smGet d (smSet d m k v) k = v := by
  unfold smSet
  split
  · next h => simp [smGet, h]
  · simp

/-- A set leaves every other key alone. -/
theorem smGet_smSet_ne [DecidableEq α] (d : α) (m : SMap α) {k j : Nat} (v : α) (h : j ≠ k) :
    smGet d (smSet d m k v) j = smGet d m j := by
  unfold smSet
  split
  · simp [smGet, smFind_smDel_ne m h]
  · exact smGet_smPut_ne d m v h

/-- What every key of a map reads as after a set. -/
theorem smGet_smSet [DecidableEq α] (d : α) (m : SMap α) (k : Nat) (v : α) (j : Nat) :
    smGet d (smSet d m k v) j = if j = k then v else smGet d m j := by
  split
  · next h => subst h; simp
  · next h => exact smGet_smSet_ne d m v h

/-- What every key of a map reads as after a put. -/
theorem smGet_smPut (d : α) (m : SMap α) (k : Nat) (v : α) (j : Nat) :
    smGet d (smPut m k v) j = if j = k then v else smGet d m j := by
  split
  · next h => subst h; simp
  · next h => exact smGet_smPut_ne d m v h

/-! ## Keys strictly rising -/

/-- The keys of a map. -/
theorem smSorted_iff_pairwise (m : SMap α) : smSorted m = true ↔ m.Pairwise fun p q => p.1 < q.1 := by
  induction m with
  | nil => simp [smSorted]
  | cons p m ih =>
    cases m with
    | nil => simp [smSorted]
    | cons q m =>
      obtain ⟨j, v⟩ := p
      obtain ⟨k, w⟩ := q
      simp only [smSorted, Bool.and_eq_true, decide_eq_true_eq, ih, List.pairwise_cons]
      constructor
      · rintro ⟨hjk, hk, hm⟩
        refine ⟨?_, hk, hm⟩
        intro r hr
        rcases List.mem_cons.mp hr with rfl | hr
        · exact hjk
        · exact Nat.lt_trans hjk (hk r hr)
      · rintro ⟨hj, hk, hm⟩
        exact ⟨hj (k, w) (by simp), hk, hm⟩

/-- The entries of a map after a put are the entry put and entries of the map. -/
theorem mem_smPut {m : SMap α} {k : Nat} {v : α} {p : Nat × α} (h : p ∈ smPut m k v) : p = (k, v) ∨ p ∈ m := by
  induction m with
  | nil => simpa [smPut] using h
  | cons q m ih =>
    obtain ⟨j, w⟩ := q
    simp only [smPut] at h
    split at h
    · simpa using h
    · split at h
      · rcases List.mem_cons.mp h with rfl | h <;> simp_all
      · rcases List.mem_cons.mp h with rfl | h
        · simp
        · rcases ih h with rfl | h <;> simp_all

theorem smPut_sorted {m : SMap α} (h : smSorted m = true) (k : Nat) (v : α) : smSorted (smPut m k v) = true := by
  rw [smSorted_iff_pairwise] at *
  induction m with
  | nil => simp [smPut]
  | cons q m ih =>
    obtain ⟨j, w⟩ := q
    rw [List.pairwise_cons] at h
    simp only [smPut]
    split
    · next hk =>
      refine List.pairwise_cons.mpr ⟨?_, List.pairwise_cons.mpr h⟩
      intro p hp
      rcases List.mem_cons.mp hp with rfl | hp
      · exact hk
      · exact Nat.lt_trans hk (h.1 p hp)
    · split
      · next hk => subst hk; exact List.pairwise_cons.mpr h
      · refine List.pairwise_cons.mpr ⟨?_, ih h.2⟩
        intro p hp
        rcases mem_smPut hp with rfl | hp
        · show j < k; omega
        · exact h.1 p hp

theorem smFilter_sorted {m : SMap α} (h : smSorted m = true) (f : Nat × α → Bool) : smSorted (m.filter f) = true := by
  rw [smSorted_iff_pairwise] at *
  exact h.filter f

end Maps

/-! ## Storage -/

@[simp] theorem memByte_memPut_same (m : List Host.Cell) (a : Nat) (b : Byte) : memByte (memPut m a b) a = b :=
  smGet_smSet_same 0 m a b

theorem memByte_memPut_ne (m : List Host.Cell) {a x : Nat} (b : Byte) (h : x ≠ a) :
    memByte (memPut m a b) x = memByte m x := smGet_smSet_ne 0 m b h

/-- Bytes outside those written read as before. -/
theorem memByte_memWrite_outside (bs : List Byte) (m : List Host.Cell) {a x : Nat} (h : x < a ∨ a + bs.length ≤ x) :
    memByte (memWrite m a bs) x = memByte m x := by
  induction bs generalizing m a with
  | nil => rfl
  | cons b bs ih =>
    simp only [List.length_cons] at h
    rw [memWrite, ih (memPut m a b) (a := a + 1) (by omega)]
    exact memByte_memPut_ne m b (by omega)

/-- A byte that is written reads as what was written there. -/
theorem memByte_memWrite_inside (bs : List Byte) (m : List Host.Cell) (a i : Nat) (h : i < bs.length) :
    memByte (memWrite m a bs) (a + i) = bs.getD i 0 := by
  induction bs generalizing m a i with
  | nil => simp at h
  | cons b bs ih =>
    cases i with
    | zero =>
      rw [memWrite, memByte_memWrite_outside bs _ (Or.inl (by omega))]
      simp
    | succ i =>
      have h' : i < bs.length := by simpa using h
      have := ih (memPut m a b) (a + 1) i h'
      rw [memWrite, show a + (i + 1) = a + 1 + i by omega, this]
      simp

/-- What every byte of storage reads as after a write. -/
theorem memByte_memWrite (bs : List Byte) (m : List Host.Cell) (a x : Nat) :
    memByte (memWrite m a bs) x = if a ≤ x ∧ x < a + bs.length then bs.getD (x - a) 0 else memByte m x := by
  split
  · next h =>
    have := memByte_memWrite_inside bs m a (x - a) (by omega)
    rwa [show a + (x - a) = x by omega] at this
  · next h => exact memByte_memWrite_outside bs m (by omega)

@[simp] theorem Memory.wf_nil : Memory.wf [] = true := rfl

theorem Memory.wf_iff (m : List Host.Cell) : Memory.wf m = true ↔ smSorted m = true ∧ ∀ c ∈ m, c.2 ≠ 0 := by
  simp [Memory.wf, List.all_eq_true]

theorem Memory.wf_filter {m : List Host.Cell} (h : Memory.wf m = true) (f : Host.Cell → Bool) :
    Memory.wf (m.filter f) = true := by
  rw [Memory.wf_iff] at *
  exact ⟨smFilter_sorted h.1 f, fun c hc => h.2 c (List.mem_filter.mp hc).1⟩

theorem Memory.wf_memPut {m : List Host.Cell} (h : Memory.wf m = true) (a : Nat) (b : Byte) :
    Memory.wf (memPut m a b) = true := by
  unfold memPut smSet
  split
  · exact Memory.wf_filter h _
  · next hb =>
    rw [Memory.wf_iff] at *
    refine ⟨smPut_sorted h.1 a b, fun c hc => ?_⟩
    rcases mem_smPut hc with rfl | hc
    · exact hb
    · exact h.2 c hc

theorem Memory.wf_memWrite (bs : List Byte) {m : List Host.Cell} (h : Memory.wf m = true) (a : Nat) :
    Memory.wf (memWrite m a bs) = true := by
  induction bs generalizing m a with
  | nil => exact h
  | cons b bs ih => exact ih (Memory.wf_memPut h a b) (a + 1)

theorem Memory.wf_memPuts (l : List (Nat × Byte)) {m : List Host.Cell} (h : Memory.wf m = true) :
    Memory.wf (l.foldl (fun m p => memPut m p.1 p.2) m) = true := by
  induction l generalizing m with
  | nil => exact h
  | cons p l ih => exact ih (Memory.wf_memPut h p.1 p.2)

/-- Two canonical storages that read alike at every address are one list. -/
theorem Memory.ext_of_wf {m m' : List Host.Cell} (h : Memory.wf m = true) (h' : Memory.wf m' = true)
    (e : ∀ a, memByte m a = memByte m' a) : m = m' := by
  rw [Memory.wf_iff, smSorted_iff_pairwise] at h h'
  have key : ∀ {m : List Host.Cell}, m.Pairwise (fun p q => p.1 < q.1) → ∀ a b, b ≠ 0 →
      ((a, b) ∈ m ↔ memByte m a = b) := by
    intro m
    induction m with
    | nil => intro _ a b hb; simpa [memByte, smGet, smFind] using Ne.symm hb
    | cons p m ih =>
      intro hp a b hb
      obtain ⟨j, w⟩ := p
      rw [List.pairwise_cons] at hp
      have := ih hp.2 a b hb
      by_cases hj : j = a
      · subst hj
        have hno : ∀ c, (j, c) ∉ m := fun c hc => Nat.lt_irrefl j (hp.1 (j, c) hc)
        simp [memByte, smGet, smFind, hno, eq_comm]
      · simp only [memByte, smGet, smFind, List.mem_cons, Prod.mk.injEq, hj, if_false] at this ⊢
        rw [← this]
        simp [Ne.symm hj]
  have hmem : ∀ p, p ∈ m ↔ p ∈ m' := by
    rintro ⟨a, b⟩
    by_cases hb : b = 0
    · subst hb
      exact ⟨fun hp => absurd rfl (h.2 _ hp), fun hp => absurd rfl (h'.2 _ hp)⟩
    · rw [key h.1 a b hb, key h'.1 a b hb, e]
  have nd : ∀ {m : List Host.Cell}, m.Pairwise (fun p q => p.1 < q.1) → m.Nodup := fun hp =>
    hp.imp fun hlt heq => by subst heq; exact Nat.lt_irrefl _ hlt
  refine ((List.perm_ext_iff_of_nodup (nd h.1) (nd h'.1)).mpr hmem).eq_of_pairwise ?_ h.1 h'.1
  intro p q _ _ h1 h2
  exact absurd (Nat.lt_trans h1 h2) (Nat.lt_irrefl _)

end Sys2Proof.Machine
end

