-- ==== Sys2Proof/Laws/State.lean ====
section
/-! SUPPORT. The small laws of the state's updates: for each update the fields it leaves, and for each record that an update
replaces what every key reads as. -/

namespace Sys2Proof.Machine

variable (s : State)

/-! ## Fields that an update leaves -/

@[simp] theorem State.setCtx_agenda (c : Nat) (x : Skein) : (s.setCtx c x).agenda = s.agenda := rfl
@[simp] theorem State.setCtx_cur (c : Nat) (x : Skein) : (s.setCtx c x).cur = s.cur := rfl
@[simp] theorem State.setCtx_rr (c : Nat) (x : Skein) : (s.setCtx c x).rr = s.rr := rfl
@[simp] theorem State.setCtx_freeCtr (c : Nat) (x : Skein) : (s.setCtx c x).freeCtr = s.freeCtr := rfl
@[simp] theorem State.setCtx_part (c : Nat) (x : Skein) : (s.setCtx c x).part = s.part := rfl
@[simp] theorem State.setCtx_dev (c : Nat) (x : Skein) : (s.setCtx c x).dev = s.dev := rfl
@[simp] theorem State.setCtx_vregs (c : Nat) (x : Skein) : (s.setCtx c x).vregs = s.vregs := rfl
@[simp] theorem State.setCtx_gens (c : Nat) (x : Skein) : (s.setCtx c x).gens = s.gens := rfl
@[simp] theorem State.setCtx_crews (c : Nat) (x : Skein) : (s.setCtx c x).crews = s.crews := rfl
@[simp] theorem State.setCtx_nextCrew (c : Nat) (x : Skein) : (s.setCtx c x).nextCrew = s.nextCrew := rfl
@[simp] theorem State.setCtx_families (c : Nat) (x : Skein) : (s.setCtx c x).families = s.families := rfl
@[simp] theorem State.setCtx_nextFamily (c : Nat) (x : Skein) : (s.setCtx c x).nextFamily = s.nextFamily := rfl
@[simp] theorem State.setCtx_mem (c : Nat) (x : Skein) : (s.setCtx c x).mem = s.mem := rfl
@[simp] theorem State.setCtx_lineSt (c : Nat) (x : Skein) : (s.setCtx c x).lineSt = s.lineSt := rfl
@[simp] theorem State.setCtx_ms (c : Nat) (x : Skein) : (s.setCtx c x).ms = s.ms := rfl
@[simp] theorem State.setCtx_looms (c : Nat) (x : Skein) : (s.setCtx c x).looms = s.looms := rfl
@[simp] theorem State.setCtx_copies (c : Nat) (x : Skein) : (s.setCtx c x).copies = s.copies := rfl
@[simp] theorem State.setCtx_nextCopy (c : Nat) (x : Skein) : (s.setCtx c x).nextCopy = s.nextCopy := rfl
@[simp] theorem State.setCtx_nextPlace (c : Nat) (x : Skein) : (s.setCtx c x).nextPlace = s.nextPlace := rfl
@[simp] theorem State.setCtx_coreSt (c : Nat) (x : Skein) : (s.setCtx c x).coreSt = s.coreSt := rfl
@[simp] theorem State.setCtx_dies (c : Nat) (x : Skein) : (s.setCtx c x).dies = s.dies := rfl
@[simp] theorem State.setCtx_benches (c : Nat) (x : Skein) : (s.setCtx c x).benches = s.benches := rfl
@[simp] theorem State.setCtx_comms (c : Nat) (x : Skein) : (s.setCtx c x).comms = s.comms := rfl
@[simp] theorem State.setCtx_nextReady (c : Nat) (x : Skein) : (s.setCtx c x).nextReady = s.nextReady := rfl
@[simp] theorem State.setCtx_nextId (c : Nat) (x : Skein) : (s.setCtx c x).nextId = s.nextId := rfl
@[simp] theorem State.setCtx_host (c : Nat) (x : Skein) : (s.setCtx c x).host = s.host := rfl
@[simp] theorem State.setCtx_fab (c : Nat) (x : Skein) : (s.setCtx c x).fab = s.fab := rfl
@[simp] theorem State.setCtx_late (c : Nat) (x : Skein) : (s.setCtx c x).late = s.late := rfl

@[simp] theorem State.setMe_agenda (x : Skein) : (s.setMe x).agenda = s.agenda := rfl
@[simp] theorem State.setMe_cur (x : Skein) : (s.setMe x).cur = s.cur := rfl
@[simp] theorem State.setMe_rr (x : Skein) : (s.setMe x).rr = s.rr := rfl
@[simp] theorem State.setMe_freeCtr (x : Skein) : (s.setMe x).freeCtr = s.freeCtr := rfl
@[simp] theorem State.setMe_part (x : Skein) : (s.setMe x).part = s.part := rfl
@[simp] theorem State.setMe_dev (x : Skein) : (s.setMe x).dev = s.dev := rfl
@[simp] theorem State.setMe_vregs (x : Skein) : (s.setMe x).vregs = s.vregs := rfl
@[simp] theorem State.setMe_gens (x : Skein) : (s.setMe x).gens = s.gens := rfl
@[simp] theorem State.setMe_crews (x : Skein) : (s.setMe x).crews = s.crews := rfl
@[simp] theorem State.setMe_nextCrew (x : Skein) : (s.setMe x).nextCrew = s.nextCrew := rfl
@[simp] theorem State.setMe_families (x : Skein) : (s.setMe x).families = s.families := rfl
@[simp] theorem State.setMe_nextFamily (x : Skein) : (s.setMe x).nextFamily = s.nextFamily := rfl
@[simp] theorem State.setMe_mem (x : Skein) : (s.setMe x).mem = s.mem := rfl
@[simp] theorem State.setMe_lineSt (x : Skein) : (s.setMe x).lineSt = s.lineSt := rfl
@[simp] theorem State.setMe_ms (x : Skein) : (s.setMe x).ms = s.ms := rfl
@[simp] theorem State.setMe_looms (x : Skein) : (s.setMe x).looms = s.looms := rfl
@[simp] theorem State.setMe_copies (x : Skein) : (s.setMe x).copies = s.copies := rfl
@[simp] theorem State.setMe_nextCopy (x : Skein) : (s.setMe x).nextCopy = s.nextCopy := rfl
@[simp] theorem State.setMe_nextPlace (x : Skein) : (s.setMe x).nextPlace = s.nextPlace := rfl
@[simp] theorem State.setMe_coreSt (x : Skein) : (s.setMe x).coreSt = s.coreSt := rfl
@[simp] theorem State.setMe_dies (x : Skein) : (s.setMe x).dies = s.dies := rfl
@[simp] theorem State.setMe_benches (x : Skein) : (s.setMe x).benches = s.benches := rfl
@[simp] theorem State.setMe_comms (x : Skein) : (s.setMe x).comms = s.comms := rfl
@[simp] theorem State.setMe_nextReady (x : Skein) : (s.setMe x).nextReady = s.nextReady := rfl
@[simp] theorem State.setMe_nextId (x : Skein) : (s.setMe x).nextId = s.nextId := rfl
@[simp] theorem State.setMe_host (x : Skein) : (s.setMe x).host = s.host := rfl
@[simp] theorem State.setMe_fab (x : Skein) : (s.setMe x).fab = s.fab := rfl
@[simp] theorem State.setMe_late (x : Skein) : (s.setMe x).late = s.late := rfl

@[simp] theorem State.setCrew_agenda (n : Nat) (w : Crew) : (s.setCrew n w).agenda = s.agenda := rfl
@[simp] theorem State.setCrew_cur (n : Nat) (w : Crew) : (s.setCrew n w).cur = s.cur := rfl
@[simp] theorem State.setCrew_rr (n : Nat) (w : Crew) : (s.setCrew n w).rr = s.rr := rfl
@[simp] theorem State.setCrew_freeCtr (n : Nat) (w : Crew) : (s.setCrew n w).freeCtr = s.freeCtr := rfl
@[simp] theorem State.setCrew_part (n : Nat) (w : Crew) : (s.setCrew n w).part = s.part := rfl
@[simp] theorem State.setCrew_dev (n : Nat) (w : Crew) : (s.setCrew n w).dev = s.dev := rfl
@[simp] theorem State.setCrew_ctxs (n : Nat) (w : Crew) : (s.setCrew n w).ctxs = s.ctxs := rfl
@[simp] theorem State.setCrew_vregs (n : Nat) (w : Crew) : (s.setCrew n w).vregs = s.vregs := rfl
@[simp] theorem State.setCrew_gens (n : Nat) (w : Crew) : (s.setCrew n w).gens = s.gens := rfl
@[simp] theorem State.setCrew_nextCrew (n : Nat) (w : Crew) : (s.setCrew n w).nextCrew = s.nextCrew := rfl
@[simp] theorem State.setCrew_families (n : Nat) (w : Crew) : (s.setCrew n w).families = s.families := rfl
@[simp] theorem State.setCrew_nextFamily (n : Nat) (w : Crew) : (s.setCrew n w).nextFamily = s.nextFamily := rfl
@[simp] theorem State.setCrew_mem (n : Nat) (w : Crew) : (s.setCrew n w).mem = s.mem := rfl
@[simp] theorem State.setCrew_lineSt (n : Nat) (w : Crew) : (s.setCrew n w).lineSt = s.lineSt := rfl
@[simp] theorem State.setCrew_ms (n : Nat) (w : Crew) : (s.setCrew n w).ms = s.ms := rfl
@[simp] theorem State.setCrew_looms (n : Nat) (w : Crew) : (s.setCrew n w).looms = s.looms := rfl
@[simp] theorem State.setCrew_copies (n : Nat) (w : Crew) : (s.setCrew n w).copies = s.copies := rfl
@[simp] theorem State.setCrew_nextCopy (n : Nat) (w : Crew) : (s.setCrew n w).nextCopy = s.nextCopy := rfl
@[simp] theorem State.setCrew_nextPlace (n : Nat) (w : Crew) : (s.setCrew n w).nextPlace = s.nextPlace := rfl
@[simp] theorem State.setCrew_coreSt (n : Nat) (w : Crew) : (s.setCrew n w).coreSt = s.coreSt := rfl
@[simp] theorem State.setCrew_dies (n : Nat) (w : Crew) : (s.setCrew n w).dies = s.dies := rfl
@[simp] theorem State.setCrew_benches (n : Nat) (w : Crew) : (s.setCrew n w).benches = s.benches := rfl
@[simp] theorem State.setCrew_comms (n : Nat) (w : Crew) : (s.setCrew n w).comms = s.comms := rfl
@[simp] theorem State.setCrew_nextReady (n : Nat) (w : Crew) : (s.setCrew n w).nextReady = s.nextReady := rfl
@[simp] theorem State.setCrew_nextId (n : Nat) (w : Crew) : (s.setCrew n w).nextId = s.nextId := rfl
@[simp] theorem State.setCrew_host (n : Nat) (w : Crew) : (s.setCrew n w).host = s.host := rfl
@[simp] theorem State.setCrew_fab (n : Nat) (w : Crew) : (s.setCrew n w).fab = s.fab := rfl
@[simp] theorem State.setCrew_late (n : Nat) (w : Crew) : (s.setCrew n w).late = s.late := rfl

@[simp] theorem State.setMyCrew_agenda (w : Crew) : (s.setMyCrew w).agenda = s.agenda := rfl
@[simp] theorem State.setMyCrew_cur (w : Crew) : (s.setMyCrew w).cur = s.cur := rfl
@[simp] theorem State.setMyCrew_rr (w : Crew) : (s.setMyCrew w).rr = s.rr := rfl
@[simp] theorem State.setMyCrew_freeCtr (w : Crew) : (s.setMyCrew w).freeCtr = s.freeCtr := rfl
@[simp] theorem State.setMyCrew_part (w : Crew) : (s.setMyCrew w).part = s.part := rfl
@[simp] theorem State.setMyCrew_dev (w : Crew) : (s.setMyCrew w).dev = s.dev := rfl
@[simp] theorem State.setMyCrew_ctxs (w : Crew) : (s.setMyCrew w).ctxs = s.ctxs := rfl
@[simp] theorem State.setMyCrew_vregs (w : Crew) : (s.setMyCrew w).vregs = s.vregs := rfl
@[simp] theorem State.setMyCrew_gens (w : Crew) : (s.setMyCrew w).gens = s.gens := rfl
@[simp] theorem State.setMyCrew_nextCrew (w : Crew) : (s.setMyCrew w).nextCrew = s.nextCrew := rfl
@[simp] theorem State.setMyCrew_families (w : Crew) : (s.setMyCrew w).families = s.families := rfl
@[simp] theorem State.setMyCrew_nextFamily (w : Crew) : (s.setMyCrew w).nextFamily = s.nextFamily := rfl
@[simp] theorem State.setMyCrew_mem (w : Crew) : (s.setMyCrew w).mem = s.mem := rfl
@[simp] theorem State.setMyCrew_lineSt (w : Crew) : (s.setMyCrew w).lineSt = s.lineSt := rfl
@[simp] theorem State.setMyCrew_ms (w : Crew) : (s.setMyCrew w).ms = s.ms := rfl
@[simp] theorem State.setMyCrew_looms (w : Crew) : (s.setMyCrew w).looms = s.looms := rfl
@[simp] theorem State.setMyCrew_copies (w : Crew) : (s.setMyCrew w).copies = s.copies := rfl
@[simp] theorem State.setMyCrew_nextCopy (w : Crew) : (s.setMyCrew w).nextCopy = s.nextCopy := rfl
@[simp] theorem State.setMyCrew_nextPlace (w : Crew) : (s.setMyCrew w).nextPlace = s.nextPlace := rfl
@[simp] theorem State.setMyCrew_coreSt (w : Crew) : (s.setMyCrew w).coreSt = s.coreSt := rfl
@[simp] theorem State.setMyCrew_dies (w : Crew) : (s.setMyCrew w).dies = s.dies := rfl
@[simp] theorem State.setMyCrew_benches (w : Crew) : (s.setMyCrew w).benches = s.benches := rfl
@[simp] theorem State.setMyCrew_comms (w : Crew) : (s.setMyCrew w).comms = s.comms := rfl
@[simp] theorem State.setMyCrew_nextReady (w : Crew) : (s.setMyCrew w).nextReady = s.nextReady := rfl
@[simp] theorem State.setMyCrew_nextId (w : Crew) : (s.setMyCrew w).nextId = s.nextId := rfl
@[simp] theorem State.setMyCrew_host (w : Crew) : (s.setMyCrew w).host = s.host := rfl
@[simp] theorem State.setMyCrew_fab (w : Crew) : (s.setMyCrew w).fab = s.fab := rfl
@[simp] theorem State.setMyCrew_late (w : Crew) : (s.setMyCrew w).late = s.late := rfl

@[simp] theorem State.setCore_agenda (k : Nat) (v : CoreSt) : (s.setCore k v).agenda = s.agenda := rfl
@[simp] theorem State.setCore_cur (k : Nat) (v : CoreSt) : (s.setCore k v).cur = s.cur := rfl
@[simp] theorem State.setCore_rr (k : Nat) (v : CoreSt) : (s.setCore k v).rr = s.rr := rfl
@[simp] theorem State.setCore_freeCtr (k : Nat) (v : CoreSt) : (s.setCore k v).freeCtr = s.freeCtr := rfl
@[simp] theorem State.setCore_part (k : Nat) (v : CoreSt) : (s.setCore k v).part = s.part := rfl
@[simp] theorem State.setCore_dev (k : Nat) (v : CoreSt) : (s.setCore k v).dev = s.dev := rfl
@[simp] theorem State.setCore_ctxs (k : Nat) (v : CoreSt) : (s.setCore k v).ctxs = s.ctxs := rfl
@[simp] theorem State.setCore_vregs (k : Nat) (v : CoreSt) : (s.setCore k v).vregs = s.vregs := rfl
@[simp] theorem State.setCore_gens (k : Nat) (v : CoreSt) : (s.setCore k v).gens = s.gens := rfl
@[simp] theorem State.setCore_crews (k : Nat) (v : CoreSt) : (s.setCore k v).crews = s.crews := rfl
@[simp] theorem State.setCore_nextCrew (k : Nat) (v : CoreSt) : (s.setCore k v).nextCrew = s.nextCrew := rfl
@[simp] theorem State.setCore_families (k : Nat) (v : CoreSt) : (s.setCore k v).families = s.families := rfl
@[simp] theorem State.setCore_nextFamily (k : Nat) (v : CoreSt) : (s.setCore k v).nextFamily = s.nextFamily := rfl
@[simp] theorem State.setCore_mem (k : Nat) (v : CoreSt) : (s.setCore k v).mem = s.mem := rfl
@[simp] theorem State.setCore_lineSt (k : Nat) (v : CoreSt) : (s.setCore k v).lineSt = s.lineSt := rfl
@[simp] theorem State.setCore_ms (k : Nat) (v : CoreSt) : (s.setCore k v).ms = s.ms := rfl
@[simp] theorem State.setCore_looms (k : Nat) (v : CoreSt) : (s.setCore k v).looms = s.looms := rfl
@[simp] theorem State.setCore_copies (k : Nat) (v : CoreSt) : (s.setCore k v).copies = s.copies := rfl
@[simp] theorem State.setCore_nextCopy (k : Nat) (v : CoreSt) : (s.setCore k v).nextCopy = s.nextCopy := rfl
@[simp] theorem State.setCore_nextPlace (k : Nat) (v : CoreSt) : (s.setCore k v).nextPlace = s.nextPlace := rfl
@[simp] theorem State.setCore_dies (k : Nat) (v : CoreSt) : (s.setCore k v).dies = s.dies := rfl
@[simp] theorem State.setCore_benches (k : Nat) (v : CoreSt) : (s.setCore k v).benches = s.benches := rfl
@[simp] theorem State.setCore_comms (k : Nat) (v : CoreSt) : (s.setCore k v).comms = s.comms := rfl
@[simp] theorem State.setCore_nextReady (k : Nat) (v : CoreSt) : (s.setCore k v).nextReady = s.nextReady := rfl
@[simp] theorem State.setCore_nextId (k : Nat) (v : CoreSt) : (s.setCore k v).nextId = s.nextId := rfl
@[simp] theorem State.setCore_host (k : Nat) (v : CoreSt) : (s.setCore k v).host = s.host := rfl
@[simp] theorem State.setCore_fab (k : Nat) (v : CoreSt) : (s.setCore k v).fab = s.fab := rfl
@[simp] theorem State.setCore_late (k : Nat) (v : CoreSt) : (s.setCore k v).late = s.late := rfl

@[simp] theorem State.setDie_agenda (d : Nat) (v : Die) : (s.setDie d v).agenda = s.agenda := rfl
@[simp] theorem State.setDie_cur (d : Nat) (v : Die) : (s.setDie d v).cur = s.cur := rfl
@[simp] theorem State.setDie_rr (d : Nat) (v : Die) : (s.setDie d v).rr = s.rr := rfl
@[simp] theorem State.setDie_freeCtr (d : Nat) (v : Die) : (s.setDie d v).freeCtr = s.freeCtr := rfl
@[simp] theorem State.setDie_part (d : Nat) (v : Die) : (s.setDie d v).part = s.part := rfl
@[simp] theorem State.setDie_dev (d : Nat) (v : Die) : (s.setDie d v).dev = s.dev := rfl
@[simp] theorem State.setDie_ctxs (d : Nat) (v : Die) : (s.setDie d v).ctxs = s.ctxs := rfl
@[simp] theorem State.setDie_vregs (d : Nat) (v : Die) : (s.setDie d v).vregs = s.vregs := rfl
@[simp] theorem State.setDie_gens (d : Nat) (v : Die) : (s.setDie d v).gens = s.gens := rfl
@[simp] theorem State.setDie_crews (d : Nat) (v : Die) : (s.setDie d v).crews = s.crews := rfl
@[simp] theorem State.setDie_nextCrew (d : Nat) (v : Die) : (s.setDie d v).nextCrew = s.nextCrew := rfl
@[simp] theorem State.setDie_families (d : Nat) (v : Die) : (s.setDie d v).families = s.families := rfl
@[simp] theorem State.setDie_nextFamily (d : Nat) (v : Die) : (s.setDie d v).nextFamily = s.nextFamily := rfl
@[simp] theorem State.setDie_mem (d : Nat) (v : Die) : (s.setDie d v).mem = s.mem := rfl
@[simp] theorem State.setDie_lineSt (d : Nat) (v : Die) : (s.setDie d v).lineSt = s.lineSt := rfl
@[simp] theorem State.setDie_ms (d : Nat) (v : Die) : (s.setDie d v).ms = s.ms := rfl
@[simp] theorem State.setDie_looms (d : Nat) (v : Die) : (s.setDie d v).looms = s.looms := rfl
@[simp] theorem State.setDie_copies (d : Nat) (v : Die) : (s.setDie d v).copies = s.copies := rfl
@[simp] theorem State.setDie_nextCopy (d : Nat) (v : Die) : (s.setDie d v).nextCopy = s.nextCopy := rfl
@[simp] theorem State.setDie_nextPlace (d : Nat) (v : Die) : (s.setDie d v).nextPlace = s.nextPlace := rfl
@[simp] theorem State.setDie_coreSt (d : Nat) (v : Die) : (s.setDie d v).coreSt = s.coreSt := rfl
@[simp] theorem State.setDie_benches (d : Nat) (v : Die) : (s.setDie d v).benches = s.benches := rfl
@[simp] theorem State.setDie_comms (d : Nat) (v : Die) : (s.setDie d v).comms = s.comms := rfl
@[simp] theorem State.setDie_nextReady (d : Nat) (v : Die) : (s.setDie d v).nextReady = s.nextReady := rfl
@[simp] theorem State.setDie_nextId (d : Nat) (v : Die) : (s.setDie d v).nextId = s.nextId := rfl
@[simp] theorem State.setDie_host (d : Nat) (v : Die) : (s.setDie d v).host = s.host := rfl
@[simp] theorem State.setDie_fab (d : Nat) (v : Die) : (s.setDie d v).fab = s.fab := rfl
@[simp] theorem State.setDie_late (d : Nat) (v : Die) : (s.setDie d v).late = s.late := rfl

@[simp] theorem State.setBench_agenda (b : Nat) (v : Bench) : (s.setBench b v).agenda = s.agenda := rfl
@[simp] theorem State.setBench_cur (b : Nat) (v : Bench) : (s.setBench b v).cur = s.cur := rfl
@[simp] theorem State.setBench_rr (b : Nat) (v : Bench) : (s.setBench b v).rr = s.rr := rfl
@[simp] theorem State.setBench_freeCtr (b : Nat) (v : Bench) : (s.setBench b v).freeCtr = s.freeCtr := rfl
@[simp] theorem State.setBench_part (b : Nat) (v : Bench) : (s.setBench b v).part = s.part := rfl
@[simp] theorem State.setBench_dev (b : Nat) (v : Bench) : (s.setBench b v).dev = s.dev := rfl
@[simp] theorem State.setBench_ctxs (b : Nat) (v : Bench) : (s.setBench b v).ctxs = s.ctxs := rfl
@[simp] theorem State.setBench_vregs (b : Nat) (v : Bench) : (s.setBench b v).vregs = s.vregs := rfl
@[simp] theorem State.setBench_gens (b : Nat) (v : Bench) : (s.setBench b v).gens = s.gens := rfl
@[simp] theorem State.setBench_crews (b : Nat) (v : Bench) : (s.setBench b v).crews = s.crews := rfl
@[simp] theorem State.setBench_nextCrew (b : Nat) (v : Bench) : (s.setBench b v).nextCrew = s.nextCrew := rfl
@[simp] theorem State.setBench_families (b : Nat) (v : Bench) : (s.setBench b v).families = s.families := rfl
@[simp] theorem State.setBench_nextFamily (b : Nat) (v : Bench) : (s.setBench b v).nextFamily = s.nextFamily := rfl
@[simp] theorem State.setBench_mem (b : Nat) (v : Bench) : (s.setBench b v).mem = s.mem := rfl
@[simp] theorem State.setBench_lineSt (b : Nat) (v : Bench) : (s.setBench b v).lineSt = s.lineSt := rfl
@[simp] theorem State.setBench_ms (b : Nat) (v : Bench) : (s.setBench b v).ms = s.ms := rfl
@[simp] theorem State.setBench_looms (b : Nat) (v : Bench) : (s.setBench b v).looms = s.looms := rfl
@[simp] theorem State.setBench_copies (b : Nat) (v : Bench) : (s.setBench b v).copies = s.copies := rfl
@[simp] theorem State.setBench_nextCopy (b : Nat) (v : Bench) : (s.setBench b v).nextCopy = s.nextCopy := rfl
@[simp] theorem State.setBench_nextPlace (b : Nat) (v : Bench) : (s.setBench b v).nextPlace = s.nextPlace := rfl
@[simp] theorem State.setBench_coreSt (b : Nat) (v : Bench) : (s.setBench b v).coreSt = s.coreSt := rfl
@[simp] theorem State.setBench_dies (b : Nat) (v : Bench) : (s.setBench b v).dies = s.dies := rfl
@[simp] theorem State.setBench_comms (b : Nat) (v : Bench) : (s.setBench b v).comms = s.comms := rfl
@[simp] theorem State.setBench_nextReady (b : Nat) (v : Bench) : (s.setBench b v).nextReady = s.nextReady := rfl
@[simp] theorem State.setBench_nextId (b : Nat) (v : Bench) : (s.setBench b v).nextId = s.nextId := rfl
@[simp] theorem State.setBench_host (b : Nat) (v : Bench) : (s.setBench b v).host = s.host := rfl
@[simp] theorem State.setBench_fab (b : Nat) (v : Bench) : (s.setBench b v).fab = s.fab := rfl
@[simp] theorem State.setBench_late (b : Nat) (v : Bench) : (s.setBench b v).late = s.late := rfl

@[simp] theorem State.setLoom_agenda (k : Nat) (v : Loom) : (s.setLoom k v).agenda = s.agenda := rfl
@[simp] theorem State.setLoom_cur (k : Nat) (v : Loom) : (s.setLoom k v).cur = s.cur := rfl
@[simp] theorem State.setLoom_rr (k : Nat) (v : Loom) : (s.setLoom k v).rr = s.rr := rfl
@[simp] theorem State.setLoom_freeCtr (k : Nat) (v : Loom) : (s.setLoom k v).freeCtr = s.freeCtr := rfl
@[simp] theorem State.setLoom_part (k : Nat) (v : Loom) : (s.setLoom k v).part = s.part := rfl
@[simp] theorem State.setLoom_dev (k : Nat) (v : Loom) : (s.setLoom k v).dev = s.dev := rfl
@[simp] theorem State.setLoom_ctxs (k : Nat) (v : Loom) : (s.setLoom k v).ctxs = s.ctxs := rfl
@[simp] theorem State.setLoom_vregs (k : Nat) (v : Loom) : (s.setLoom k v).vregs = s.vregs := rfl
@[simp] theorem State.setLoom_gens (k : Nat) (v : Loom) : (s.setLoom k v).gens = s.gens := rfl
@[simp] theorem State.setLoom_crews (k : Nat) (v : Loom) : (s.setLoom k v).crews = s.crews := rfl
@[simp] theorem State.setLoom_nextCrew (k : Nat) (v : Loom) : (s.setLoom k v).nextCrew = s.nextCrew := rfl
@[simp] theorem State.setLoom_families (k : Nat) (v : Loom) : (s.setLoom k v).families = s.families := rfl
@[simp] theorem State.setLoom_nextFamily (k : Nat) (v : Loom) : (s.setLoom k v).nextFamily = s.nextFamily := rfl
@[simp] theorem State.setLoom_mem (k : Nat) (v : Loom) : (s.setLoom k v).mem = s.mem := rfl
@[simp] theorem State.setLoom_lineSt (k : Nat) (v : Loom) : (s.setLoom k v).lineSt = s.lineSt := rfl
@[simp] theorem State.setLoom_ms (k : Nat) (v : Loom) : (s.setLoom k v).ms = s.ms := rfl
@[simp] theorem State.setLoom_copies (k : Nat) (v : Loom) : (s.setLoom k v).copies = s.copies := rfl
@[simp] theorem State.setLoom_nextCopy (k : Nat) (v : Loom) : (s.setLoom k v).nextCopy = s.nextCopy := rfl
@[simp] theorem State.setLoom_nextPlace (k : Nat) (v : Loom) : (s.setLoom k v).nextPlace = s.nextPlace := rfl
@[simp] theorem State.setLoom_coreSt (k : Nat) (v : Loom) : (s.setLoom k v).coreSt = s.coreSt := rfl
@[simp] theorem State.setLoom_dies (k : Nat) (v : Loom) : (s.setLoom k v).dies = s.dies := rfl
@[simp] theorem State.setLoom_benches (k : Nat) (v : Loom) : (s.setLoom k v).benches = s.benches := rfl
@[simp] theorem State.setLoom_comms (k : Nat) (v : Loom) : (s.setLoom k v).comms = s.comms := rfl
@[simp] theorem State.setLoom_nextReady (k : Nat) (v : Loom) : (s.setLoom k v).nextReady = s.nextReady := rfl
@[simp] theorem State.setLoom_nextId (k : Nat) (v : Loom) : (s.setLoom k v).nextId = s.nextId := rfl
@[simp] theorem State.setLoom_host (k : Nat) (v : Loom) : (s.setLoom k v).host = s.host := rfl
@[simp] theorem State.setLoom_fab (k : Nat) (v : Loom) : (s.setLoom k v).fab = s.fab := rfl
@[simp] theorem State.setLoom_late (k : Nat) (v : Loom) : (s.setLoom k v).late = s.late := rfl

@[simp] theorem State.setLine_agenda (l : Nat) (v : LineState) : (s.setLine l v).agenda = s.agenda := rfl
@[simp] theorem State.setLine_cur (l : Nat) (v : LineState) : (s.setLine l v).cur = s.cur := rfl
@[simp] theorem State.setLine_rr (l : Nat) (v : LineState) : (s.setLine l v).rr = s.rr := rfl
@[simp] theorem State.setLine_freeCtr (l : Nat) (v : LineState) : (s.setLine l v).freeCtr = s.freeCtr := rfl
@[simp] theorem State.setLine_part (l : Nat) (v : LineState) : (s.setLine l v).part = s.part := rfl
@[simp] theorem State.setLine_dev (l : Nat) (v : LineState) : (s.setLine l v).dev = s.dev := rfl
@[simp] theorem State.setLine_ctxs (l : Nat) (v : LineState) : (s.setLine l v).ctxs = s.ctxs := rfl
@[simp] theorem State.setLine_vregs (l : Nat) (v : LineState) : (s.setLine l v).vregs = s.vregs := rfl
@[simp] theorem State.setLine_gens (l : Nat) (v : LineState) : (s.setLine l v).gens = s.gens := rfl
@[simp] theorem State.setLine_crews (l : Nat) (v : LineState) : (s.setLine l v).crews = s.crews := rfl
@[simp] theorem State.setLine_nextCrew (l : Nat) (v : LineState) : (s.setLine l v).nextCrew = s.nextCrew := rfl
@[simp] theorem State.setLine_families (l : Nat) (v : LineState) : (s.setLine l v).families = s.families := rfl
@[simp] theorem State.setLine_nextFamily (l : Nat) (v : LineState) : (s.setLine l v).nextFamily = s.nextFamily := rfl
@[simp] theorem State.setLine_mem (l : Nat) (v : LineState) : (s.setLine l v).mem = s.mem := rfl
@[simp] theorem State.setLine_ms (l : Nat) (v : LineState) : (s.setLine l v).ms = s.ms := rfl
@[simp] theorem State.setLine_looms (l : Nat) (v : LineState) : (s.setLine l v).looms = s.looms := rfl
@[simp] theorem State.setLine_copies (l : Nat) (v : LineState) : (s.setLine l v).copies = s.copies := rfl
@[simp] theorem State.setLine_nextCopy (l : Nat) (v : LineState) : (s.setLine l v).nextCopy = s.nextCopy := rfl
@[simp] theorem State.setLine_nextPlace (l : Nat) (v : LineState) : (s.setLine l v).nextPlace = s.nextPlace := rfl
@[simp] theorem State.setLine_coreSt (l : Nat) (v : LineState) : (s.setLine l v).coreSt = s.coreSt := rfl
@[simp] theorem State.setLine_dies (l : Nat) (v : LineState) : (s.setLine l v).dies = s.dies := rfl
@[simp] theorem State.setLine_benches (l : Nat) (v : LineState) : (s.setLine l v).benches = s.benches := rfl
@[simp] theorem State.setLine_comms (l : Nat) (v : LineState) : (s.setLine l v).comms = s.comms := rfl
@[simp] theorem State.setLine_nextReady (l : Nat) (v : LineState) : (s.setLine l v).nextReady = s.nextReady := rfl
@[simp] theorem State.setLine_nextId (l : Nat) (v : LineState) : (s.setLine l v).nextId = s.nextId := rfl
@[simp] theorem State.setLine_host (l : Nat) (v : LineState) : (s.setLine l v).host = s.host := rfl
@[simp] theorem State.setLine_fab (l : Nat) (v : LineState) : (s.setLine l v).fab = s.fab := rfl
@[simp] theorem State.setLine_late (l : Nat) (v : LineState) : (s.setLine l v).late = s.late := rfl

@[simp] theorem State.setK_agenda (r : KReg) (v : W64) : (s.setK r v).agenda = s.agenda := rfl
@[simp] theorem State.setK_cur (r : KReg) (v : W64) : (s.setK r v).cur = s.cur := rfl
@[simp] theorem State.setK_rr (r : KReg) (v : W64) : (s.setK r v).rr = s.rr := rfl
@[simp] theorem State.setK_freeCtr (r : KReg) (v : W64) : (s.setK r v).freeCtr = s.freeCtr := rfl
@[simp] theorem State.setK_part (r : KReg) (v : W64) : (s.setK r v).part = s.part := rfl
@[simp] theorem State.setK_dev (r : KReg) (v : W64) : (s.setK r v).dev = s.dev := rfl
@[simp] theorem State.setK_vregs (r : KReg) (v : W64) : (s.setK r v).vregs = s.vregs := rfl
@[simp] theorem State.setK_gens (r : KReg) (v : W64) : (s.setK r v).gens = s.gens := rfl
@[simp] theorem State.setK_crews (r : KReg) (v : W64) : (s.setK r v).crews = s.crews := rfl
@[simp] theorem State.setK_nextCrew (r : KReg) (v : W64) : (s.setK r v).nextCrew = s.nextCrew := rfl
@[simp] theorem State.setK_families (r : KReg) (v : W64) : (s.setK r v).families = s.families := rfl
@[simp] theorem State.setK_nextFamily (r : KReg) (v : W64) : (s.setK r v).nextFamily = s.nextFamily := rfl
@[simp] theorem State.setK_mem (r : KReg) (v : W64) : (s.setK r v).mem = s.mem := rfl
@[simp] theorem State.setK_lineSt (r : KReg) (v : W64) : (s.setK r v).lineSt = s.lineSt := rfl
@[simp] theorem State.setK_ms (r : KReg) (v : W64) : (s.setK r v).ms = s.ms := rfl
@[simp] theorem State.setK_looms (r : KReg) (v : W64) : (s.setK r v).looms = s.looms := rfl
@[simp] theorem State.setK_copies (r : KReg) (v : W64) : (s.setK r v).copies = s.copies := rfl
@[simp] theorem State.setK_nextCopy (r : KReg) (v : W64) : (s.setK r v).nextCopy = s.nextCopy := rfl
@[simp] theorem State.setK_nextPlace (r : KReg) (v : W64) : (s.setK r v).nextPlace = s.nextPlace := rfl
@[simp] theorem State.setK_coreSt (r : KReg) (v : W64) : (s.setK r v).coreSt = s.coreSt := rfl
@[simp] theorem State.setK_dies (r : KReg) (v : W64) : (s.setK r v).dies = s.dies := rfl
@[simp] theorem State.setK_benches (r : KReg) (v : W64) : (s.setK r v).benches = s.benches := rfl
@[simp] theorem State.setK_comms (r : KReg) (v : W64) : (s.setK r v).comms = s.comms := rfl
@[simp] theorem State.setK_nextReady (r : KReg) (v : W64) : (s.setK r v).nextReady = s.nextReady := rfl
@[simp] theorem State.setK_nextId (r : KReg) (v : W64) : (s.setK r v).nextId = s.nextId := rfl
@[simp] theorem State.setK_host (r : KReg) (v : W64) : (s.setK r v).host = s.host := rfl
@[simp] theorem State.setK_fab (r : KReg) (v : W64) : (s.setK r v).fab = s.fab := rfl
@[simp] theorem State.setK_late (r : KReg) (v : W64) : (s.setK r v).late = s.late := rfl

@[simp] theorem State.setC_agenda (n : CBit) (b : Bool) : (s.setC n b).agenda = s.agenda := rfl
@[simp] theorem State.setC_cur (n : CBit) (b : Bool) : (s.setC n b).cur = s.cur := rfl
@[simp] theorem State.setC_rr (n : CBit) (b : Bool) : (s.setC n b).rr = s.rr := rfl
@[simp] theorem State.setC_freeCtr (n : CBit) (b : Bool) : (s.setC n b).freeCtr = s.freeCtr := rfl
@[simp] theorem State.setC_part (n : CBit) (b : Bool) : (s.setC n b).part = s.part := rfl
@[simp] theorem State.setC_dev (n : CBit) (b : Bool) : (s.setC n b).dev = s.dev := rfl
@[simp] theorem State.setC_vregs (n : CBit) (b : Bool) : (s.setC n b).vregs = s.vregs := rfl
@[simp] theorem State.setC_gens (n : CBit) (b : Bool) : (s.setC n b).gens = s.gens := rfl
@[simp] theorem State.setC_crews (n : CBit) (b : Bool) : (s.setC n b).crews = s.crews := rfl
@[simp] theorem State.setC_nextCrew (n : CBit) (b : Bool) : (s.setC n b).nextCrew = s.nextCrew := rfl
@[simp] theorem State.setC_families (n : CBit) (b : Bool) : (s.setC n b).families = s.families := rfl
@[simp] theorem State.setC_nextFamily (n : CBit) (b : Bool) : (s.setC n b).nextFamily = s.nextFamily := rfl
@[simp] theorem State.setC_mem (n : CBit) (b : Bool) : (s.setC n b).mem = s.mem := rfl
@[simp] theorem State.setC_lineSt (n : CBit) (b : Bool) : (s.setC n b).lineSt = s.lineSt := rfl
@[simp] theorem State.setC_ms (n : CBit) (b : Bool) : (s.setC n b).ms = s.ms := rfl
@[simp] theorem State.setC_looms (n : CBit) (b : Bool) : (s.setC n b).looms = s.looms := rfl
@[simp] theorem State.setC_copies (n : CBit) (b : Bool) : (s.setC n b).copies = s.copies := rfl
@[simp] theorem State.setC_nextCopy (n : CBit) (b : Bool) : (s.setC n b).nextCopy = s.nextCopy := rfl
@[simp] theorem State.setC_nextPlace (n : CBit) (b : Bool) : (s.setC n b).nextPlace = s.nextPlace := rfl
@[simp] theorem State.setC_coreSt (n : CBit) (b : Bool) : (s.setC n b).coreSt = s.coreSt := rfl
@[simp] theorem State.setC_dies (n : CBit) (b : Bool) : (s.setC n b).dies = s.dies := rfl
@[simp] theorem State.setC_benches (n : CBit) (b : Bool) : (s.setC n b).benches = s.benches := rfl
@[simp] theorem State.setC_comms (n : CBit) (b : Bool) : (s.setC n b).comms = s.comms := rfl
@[simp] theorem State.setC_nextReady (n : CBit) (b : Bool) : (s.setC n b).nextReady = s.nextReady := rfl
@[simp] theorem State.setC_nextId (n : CBit) (b : Bool) : (s.setC n b).nextId = s.nextId := rfl
@[simp] theorem State.setC_host (n : CBit) (b : Bool) : (s.setC n b).host = s.host := rfl
@[simp] theorem State.setC_fab (n : CBit) (b : Bool) : (s.setC n b).fab = s.fab := rfl
@[simp] theorem State.setC_late (n : CBit) (b : Bool) : (s.setC n b).late = s.late := rfl

@[simp] theorem State.goto_agenda (pc : W64) : (s.goto pc).agenda = s.agenda := rfl
@[simp] theorem State.goto_cur (pc : W64) : (s.goto pc).cur = s.cur := rfl
@[simp] theorem State.goto_rr (pc : W64) : (s.goto pc).rr = s.rr := rfl
@[simp] theorem State.goto_freeCtr (pc : W64) : (s.goto pc).freeCtr = s.freeCtr := rfl
@[simp] theorem State.goto_part (pc : W64) : (s.goto pc).part = s.part := rfl
@[simp] theorem State.goto_dev (pc : W64) : (s.goto pc).dev = s.dev := rfl
@[simp] theorem State.goto_vregs (pc : W64) : (s.goto pc).vregs = s.vregs := rfl
@[simp] theorem State.goto_gens (pc : W64) : (s.goto pc).gens = s.gens := rfl
@[simp] theorem State.goto_crews (pc : W64) : (s.goto pc).crews = s.crews := rfl
@[simp] theorem State.goto_nextCrew (pc : W64) : (s.goto pc).nextCrew = s.nextCrew := rfl
@[simp] theorem State.goto_families (pc : W64) : (s.goto pc).families = s.families := rfl
@[simp] theorem State.goto_nextFamily (pc : W64) : (s.goto pc).nextFamily = s.nextFamily := rfl
@[simp] theorem State.goto_mem (pc : W64) : (s.goto pc).mem = s.mem := rfl
@[simp] theorem State.goto_lineSt (pc : W64) : (s.goto pc).lineSt = s.lineSt := rfl
@[simp] theorem State.goto_ms (pc : W64) : (s.goto pc).ms = s.ms := rfl
@[simp] theorem State.goto_looms (pc : W64) : (s.goto pc).looms = s.looms := rfl
@[simp] theorem State.goto_copies (pc : W64) : (s.goto pc).copies = s.copies := rfl
@[simp] theorem State.goto_nextCopy (pc : W64) : (s.goto pc).nextCopy = s.nextCopy := rfl
@[simp] theorem State.goto_nextPlace (pc : W64) : (s.goto pc).nextPlace = s.nextPlace := rfl
@[simp] theorem State.goto_coreSt (pc : W64) : (s.goto pc).coreSt = s.coreSt := rfl
@[simp] theorem State.goto_dies (pc : W64) : (s.goto pc).dies = s.dies := rfl
@[simp] theorem State.goto_benches (pc : W64) : (s.goto pc).benches = s.benches := rfl
@[simp] theorem State.goto_comms (pc : W64) : (s.goto pc).comms = s.comms := rfl
@[simp] theorem State.goto_nextReady (pc : W64) : (s.goto pc).nextReady = s.nextReady := rfl
@[simp] theorem State.goto_nextId (pc : W64) : (s.goto pc).nextId = s.nextId := rfl
@[simp] theorem State.goto_host (pc : W64) : (s.goto pc).host = s.host := rfl
@[simp] theorem State.goto_fab (pc : W64) : (s.goto pc).fab = s.fab := rfl
@[simp] theorem State.goto_late (pc : W64) : (s.goto pc).late = s.late := rfl

@[simp] theorem State.past_agenda (n : W64) : (s.past n).agenda = s.agenda := rfl
@[simp] theorem State.past_cur (n : W64) : (s.past n).cur = s.cur := rfl
@[simp] theorem State.past_rr (n : W64) : (s.past n).rr = s.rr := rfl
@[simp] theorem State.past_freeCtr (n : W64) : (s.past n).freeCtr = s.freeCtr := rfl
@[simp] theorem State.past_part (n : W64) : (s.past n).part = s.part := rfl
@[simp] theorem State.past_dev (n : W64) : (s.past n).dev = s.dev := rfl
@[simp] theorem State.past_vregs (n : W64) : (s.past n).vregs = s.vregs := rfl
@[simp] theorem State.past_gens (n : W64) : (s.past n).gens = s.gens := rfl
@[simp] theorem State.past_crews (n : W64) : (s.past n).crews = s.crews := rfl
@[simp] theorem State.past_nextCrew (n : W64) : (s.past n).nextCrew = s.nextCrew := rfl
@[simp] theorem State.past_families (n : W64) : (s.past n).families = s.families := rfl
@[simp] theorem State.past_nextFamily (n : W64) : (s.past n).nextFamily = s.nextFamily := rfl
@[simp] theorem State.past_mem (n : W64) : (s.past n).mem = s.mem := rfl
@[simp] theorem State.past_lineSt (n : W64) : (s.past n).lineSt = s.lineSt := rfl
@[simp] theorem State.past_ms (n : W64) : (s.past n).ms = s.ms := rfl
@[simp] theorem State.past_looms (n : W64) : (s.past n).looms = s.looms := rfl
@[simp] theorem State.past_copies (n : W64) : (s.past n).copies = s.copies := rfl
@[simp] theorem State.past_nextCopy (n : W64) : (s.past n).nextCopy = s.nextCopy := rfl
@[simp] theorem State.past_nextPlace (n : W64) : (s.past n).nextPlace = s.nextPlace := rfl
@[simp] theorem State.past_coreSt (n : W64) : (s.past n).coreSt = s.coreSt := rfl
@[simp] theorem State.past_dies (n : W64) : (s.past n).dies = s.dies := rfl
@[simp] theorem State.past_benches (n : W64) : (s.past n).benches = s.benches := rfl
@[simp] theorem State.past_comms (n : W64) : (s.past n).comms = s.comms := rfl
@[simp] theorem State.past_nextReady (n : W64) : (s.past n).nextReady = s.nextReady := rfl
@[simp] theorem State.past_nextId (n : W64) : (s.past n).nextId = s.nextId := rfl
@[simp] theorem State.past_host (n : W64) : (s.past n).host = s.host := rfl
@[simp] theorem State.past_fab (n : W64) : (s.past n).fab = s.fab := rfl
@[simp] theorem State.past_late (n : W64) : (s.past n).late = s.late := rfl

@[simp] theorem State.result_agenda (d : KReg) (v n : W64) : (s.result d v n).agenda = s.agenda := rfl
@[simp] theorem State.result_cur (d : KReg) (v n : W64) : (s.result d v n).cur = s.cur := rfl
@[simp] theorem State.result_rr (d : KReg) (v n : W64) : (s.result d v n).rr = s.rr := rfl
@[simp] theorem State.result_freeCtr (d : KReg) (v n : W64) : (s.result d v n).freeCtr = s.freeCtr := rfl
@[simp] theorem State.result_part (d : KReg) (v n : W64) : (s.result d v n).part = s.part := rfl
@[simp] theorem State.result_dev (d : KReg) (v n : W64) : (s.result d v n).dev = s.dev := rfl
@[simp] theorem State.result_vregs (d : KReg) (v n : W64) : (s.result d v n).vregs = s.vregs := rfl
@[simp] theorem State.result_gens (d : KReg) (v n : W64) : (s.result d v n).gens = s.gens := rfl
@[simp] theorem State.result_crews (d : KReg) (v n : W64) : (s.result d v n).crews = s.crews := rfl
@[simp] theorem State.result_nextCrew (d : KReg) (v n : W64) : (s.result d v n).nextCrew = s.nextCrew := rfl
@[simp] theorem State.result_families (d : KReg) (v n : W64) : (s.result d v n).families = s.families := rfl
@[simp] theorem State.result_nextFamily (d : KReg) (v n : W64) : (s.result d v n).nextFamily = s.nextFamily := rfl
@[simp] theorem State.result_mem (d : KReg) (v n : W64) : (s.result d v n).mem = s.mem := rfl
@[simp] theorem State.result_lineSt (d : KReg) (v n : W64) : (s.result d v n).lineSt = s.lineSt := rfl
@[simp] theorem State.result_ms (d : KReg) (v n : W64) : (s.result d v n).ms = s.ms := rfl
@[simp] theorem State.result_looms (d : KReg) (v n : W64) : (s.result d v n).looms = s.looms := rfl
@[simp] theorem State.result_copies (d : KReg) (v n : W64) : (s.result d v n).copies = s.copies := rfl
@[simp] theorem State.result_nextCopy (d : KReg) (v n : W64) : (s.result d v n).nextCopy = s.nextCopy := rfl
@[simp] theorem State.result_nextPlace (d : KReg) (v n : W64) : (s.result d v n).nextPlace = s.nextPlace := rfl
@[simp] theorem State.result_coreSt (d : KReg) (v n : W64) : (s.result d v n).coreSt = s.coreSt := rfl
@[simp] theorem State.result_dies (d : KReg) (v n : W64) : (s.result d v n).dies = s.dies := rfl
@[simp] theorem State.result_benches (d : KReg) (v n : W64) : (s.result d v n).benches = s.benches := rfl
@[simp] theorem State.result_comms (d : KReg) (v n : W64) : (s.result d v n).comms = s.comms := rfl
@[simp] theorem State.result_nextReady (d : KReg) (v n : W64) : (s.result d v n).nextReady = s.nextReady := rfl
@[simp] theorem State.result_nextId (d : KReg) (v n : W64) : (s.result d v n).nextId = s.nextId := rfl
@[simp] theorem State.result_host (d : KReg) (v n : W64) : (s.result d v n).host = s.host := rfl
@[simp] theorem State.result_fab (d : KReg) (v n : W64) : (s.result d v n).fab = s.fab := rfl
@[simp] theorem State.result_late (d : KReg) (v n : W64) : (s.result d v n).late = s.late := rfl

@[simp] theorem State.commitMe_agenda : (s.commitMe).agenda = s.agenda := rfl
@[simp] theorem State.commitMe_cur : (s.commitMe).cur = s.cur := rfl
@[simp] theorem State.commitMe_rr : (s.commitMe).rr = s.rr := rfl
@[simp] theorem State.commitMe_freeCtr : (s.commitMe).freeCtr = s.freeCtr := rfl
@[simp] theorem State.commitMe_part : (s.commitMe).part = s.part := rfl
@[simp] theorem State.commitMe_dev : (s.commitMe).dev = s.dev := rfl
@[simp] theorem State.commitMe_vregs : (s.commitMe).vregs = s.vregs := rfl
@[simp] theorem State.commitMe_gens : (s.commitMe).gens = s.gens := rfl
@[simp] theorem State.commitMe_crews : (s.commitMe).crews = s.crews := rfl
@[simp] theorem State.commitMe_nextCrew : (s.commitMe).nextCrew = s.nextCrew := rfl
@[simp] theorem State.commitMe_families : (s.commitMe).families = s.families := rfl
@[simp] theorem State.commitMe_nextFamily : (s.commitMe).nextFamily = s.nextFamily := rfl
@[simp] theorem State.commitMe_mem : (s.commitMe).mem = s.mem := rfl
@[simp] theorem State.commitMe_lineSt : (s.commitMe).lineSt = s.lineSt := rfl
@[simp] theorem State.commitMe_ms : (s.commitMe).ms = s.ms := rfl
@[simp] theorem State.commitMe_looms : (s.commitMe).looms = s.looms := rfl
@[simp] theorem State.commitMe_copies : (s.commitMe).copies = s.copies := rfl
@[simp] theorem State.commitMe_nextCopy : (s.commitMe).nextCopy = s.nextCopy := rfl
@[simp] theorem State.commitMe_nextPlace : (s.commitMe).nextPlace = s.nextPlace := rfl
@[simp] theorem State.commitMe_coreSt : (s.commitMe).coreSt = s.coreSt := rfl
@[simp] theorem State.commitMe_dies : (s.commitMe).dies = s.dies := rfl
@[simp] theorem State.commitMe_benches : (s.commitMe).benches = s.benches := rfl
@[simp] theorem State.commitMe_comms : (s.commitMe).comms = s.comms := rfl
@[simp] theorem State.commitMe_nextReady : (s.commitMe).nextReady = s.nextReady := rfl
@[simp] theorem State.commitMe_nextId : (s.commitMe).nextId = s.nextId := rfl
@[simp] theorem State.commitMe_host : (s.commitMe).host = s.host := rfl
@[simp] theorem State.commitMe_fab : (s.commitMe).fab = s.fab := rfl
@[simp] theorem State.commitMe_late : (s.commitMe).late = s.late := rfl

@[simp] theorem State.vSet_agenda (c l n : Nat) (v : W32) : (s.vSet c l n v).agenda = s.agenda := rfl
@[simp] theorem State.vSet_cur (c l n : Nat) (v : W32) : (s.vSet c l n v).cur = s.cur := rfl
@[simp] theorem State.vSet_rr (c l n : Nat) (v : W32) : (s.vSet c l n v).rr = s.rr := rfl
@[simp] theorem State.vSet_freeCtr (c l n : Nat) (v : W32) : (s.vSet c l n v).freeCtr = s.freeCtr := rfl
@[simp] theorem State.vSet_part (c l n : Nat) (v : W32) : (s.vSet c l n v).part = s.part := rfl
@[simp] theorem State.vSet_dev (c l n : Nat) (v : W32) : (s.vSet c l n v).dev = s.dev := rfl
@[simp] theorem State.vSet_ctxs (c l n : Nat) (v : W32) : (s.vSet c l n v).ctxs = s.ctxs := rfl
@[simp] theorem State.vSet_gens (c l n : Nat) (v : W32) : (s.vSet c l n v).gens = s.gens := rfl
@[simp] theorem State.vSet_crews (c l n : Nat) (v : W32) : (s.vSet c l n v).crews = s.crews := rfl
@[simp] theorem State.vSet_nextCrew (c l n : Nat) (v : W32) : (s.vSet c l n v).nextCrew = s.nextCrew := rfl
@[simp] theorem State.vSet_families (c l n : Nat) (v : W32) : (s.vSet c l n v).families = s.families := rfl
@[simp] theorem State.vSet_nextFamily (c l n : Nat) (v : W32) : (s.vSet c l n v).nextFamily = s.nextFamily := rfl
@[simp] theorem State.vSet_mem (c l n : Nat) (v : W32) : (s.vSet c l n v).mem = s.mem := rfl
@[simp] theorem State.vSet_lineSt (c l n : Nat) (v : W32) : (s.vSet c l n v).lineSt = s.lineSt := rfl
@[simp] theorem State.vSet_ms (c l n : Nat) (v : W32) : (s.vSet c l n v).ms = s.ms := rfl
@[simp] theorem State.vSet_looms (c l n : Nat) (v : W32) : (s.vSet c l n v).looms = s.looms := rfl
@[simp] theorem State.vSet_copies (c l n : Nat) (v : W32) : (s.vSet c l n v).copies = s.copies := rfl
@[simp] theorem State.vSet_nextCopy (c l n : Nat) (v : W32) : (s.vSet c l n v).nextCopy = s.nextCopy := rfl
@[simp] theorem State.vSet_nextPlace (c l n : Nat) (v : W32) : (s.vSet c l n v).nextPlace = s.nextPlace := rfl
@[simp] theorem State.vSet_coreSt (c l n : Nat) (v : W32) : (s.vSet c l n v).coreSt = s.coreSt := rfl
@[simp] theorem State.vSet_dies (c l n : Nat) (v : W32) : (s.vSet c l n v).dies = s.dies := rfl
@[simp] theorem State.vSet_benches (c l n : Nat) (v : W32) : (s.vSet c l n v).benches = s.benches := rfl
@[simp] theorem State.vSet_comms (c l n : Nat) (v : W32) : (s.vSet c l n v).comms = s.comms := rfl
@[simp] theorem State.vSet_nextReady (c l n : Nat) (v : W32) : (s.vSet c l n v).nextReady = s.nextReady := rfl
@[simp] theorem State.vSet_nextId (c l n : Nat) (v : W32) : (s.vSet c l n v).nextId = s.nextId := rfl
@[simp] theorem State.vSet_host (c l n : Nat) (v : W32) : (s.vSet c l n v).host = s.host := rfl
@[simp] theorem State.vSet_fab (c l n : Nat) (v : W32) : (s.vSet c l n v).fab = s.fab := rfl
@[simp] theorem State.vSet_late (c l n : Nat) (v : W32) : (s.vSet c l n v).late = s.late := rfl

@[simp] theorem State.write_agenda (a : Nat) (bs : List Byte) : (s.write a bs).agenda = s.agenda := rfl
@[simp] theorem State.write_cur (a : Nat) (bs : List Byte) : (s.write a bs).cur = s.cur := rfl
@[simp] theorem State.write_rr (a : Nat) (bs : List Byte) : (s.write a bs).rr = s.rr := rfl
@[simp] theorem State.write_freeCtr (a : Nat) (bs : List Byte) : (s.write a bs).freeCtr = s.freeCtr := rfl
@[simp] theorem State.write_part (a : Nat) (bs : List Byte) : (s.write a bs).part = s.part := rfl
@[simp] theorem State.write_dev (a : Nat) (bs : List Byte) : (s.write a bs).dev = s.dev := rfl
@[simp] theorem State.write_ctxs (a : Nat) (bs : List Byte) : (s.write a bs).ctxs = s.ctxs := rfl
@[simp] theorem State.write_vregs (a : Nat) (bs : List Byte) : (s.write a bs).vregs = s.vregs := rfl
@[simp] theorem State.write_gens (a : Nat) (bs : List Byte) : (s.write a bs).gens = s.gens := rfl
@[simp] theorem State.write_crews (a : Nat) (bs : List Byte) : (s.write a bs).crews = s.crews := rfl
@[simp] theorem State.write_nextCrew (a : Nat) (bs : List Byte) : (s.write a bs).nextCrew = s.nextCrew := rfl
@[simp] theorem State.write_families (a : Nat) (bs : List Byte) : (s.write a bs).families = s.families := rfl
@[simp] theorem State.write_nextFamily (a : Nat) (bs : List Byte) : (s.write a bs).nextFamily = s.nextFamily := rfl
@[simp] theorem State.write_lineSt (a : Nat) (bs : List Byte) : (s.write a bs).lineSt = s.lineSt := rfl
@[simp] theorem State.write_looms (a : Nat) (bs : List Byte) : (s.write a bs).looms = s.looms := rfl
@[simp] theorem State.write_copies (a : Nat) (bs : List Byte) : (s.write a bs).copies = s.copies := rfl
@[simp] theorem State.write_nextCopy (a : Nat) (bs : List Byte) : (s.write a bs).nextCopy = s.nextCopy := rfl
@[simp] theorem State.write_nextPlace (a : Nat) (bs : List Byte) : (s.write a bs).nextPlace = s.nextPlace := rfl
@[simp] theorem State.write_coreSt (a : Nat) (bs : List Byte) : (s.write a bs).coreSt = s.coreSt := rfl
@[simp] theorem State.write_dies (a : Nat) (bs : List Byte) : (s.write a bs).dies = s.dies := rfl
@[simp] theorem State.write_benches (a : Nat) (bs : List Byte) : (s.write a bs).benches = s.benches := rfl
@[simp] theorem State.write_comms (a : Nat) (bs : List Byte) : (s.write a bs).comms = s.comms := rfl
@[simp] theorem State.write_nextReady (a : Nat) (bs : List Byte) : (s.write a bs).nextReady = s.nextReady := rfl
@[simp] theorem State.write_nextId (a : Nat) (bs : List Byte) : (s.write a bs).nextId = s.nextId := rfl
@[simp] theorem State.write_host (a : Nat) (bs : List Byte) : (s.write a bs).host = s.host := rfl
@[simp] theorem State.write_fab (a : Nat) (bs : List Byte) : (s.write a bs).fab = s.fab := rfl
@[simp] theorem State.write_late (a : Nat) (bs : List Byte) : (s.write a bs).late = s.late := rfl

/-! ## What a replaced record reads as -/

theorem State.ctx_setCtx (c : Nat) (x : Skein) (j : Nat) : (s.setCtx c x).ctx j = if j = c then x else s.ctx j :=
  smGet_smSet Skein.empty s.ctxs c x j
@[simp] theorem State.ctx_setCtx_same (c : Nat) (x : Skein) : (s.setCtx c x).ctx c = x := by simp [State.ctx_setCtx]
@[simp] theorem State.me_setMe (x : Skein) : (s.setMe x).me = x := State.ctx_setCtx_same s s.cur x
theorem State.ctx_setMe_ne (x : Skein) {j : Nat} (h : j ≠ s.cur) : (s.setMe x).ctx j = s.ctx j := by
  simp [State.setMe, State.ctx_setCtx, h]
theorem State.crew_setCrew (n : Nat) (w : Crew) (j : Nat) : (s.setCrew n w).crew j = if j = n then w else s.crew j :=
  smGet_smPut Crew.empty s.crews n w j
theorem State.core_setCore (k : Nat) (v : CoreSt) (j : Nat) : (s.setCore k v).core j = if j = k then v else s.core j :=
  smGet_smSet CoreSt.reset s.coreSt k v j
theorem State.die_setDie (d : Nat) (v : Die) (j : Nat) : (s.setDie d v).die j = if j = d then v else s.die j :=
  smGet_smSet Die.reset s.dies d v j
theorem State.bench_setBench (b : Nat) (v : Bench) (j : Nat) : (s.setBench b v).bench j = if j = b then v else s.bench j :=
  smGet_smSet Bench.reset s.benches b v j
theorem State.loom_setLoom (k : Nat) (v : Loom) (j : Nat) : (s.setLoom k v).loom j = if j = k then v else s.loom j :=
  smGet_smSet Loom.empty s.looms k v j
theorem State.lineState_setLine (l : Nat) (v : LineState) (j : Nat) :
    (s.setLine l v).lineState j = if j = l then v else s.lineState j := smGet_smSet LineState.full s.lineSt l v j

/-! ## Registers of the running context -/

@[simp] theorem commit_k (x : Skein) : (commit x).k = x.k := rfl
@[simp] theorem commit_c (x : Skein) : (commit x).c = x.c := rfl
@[simp] theorem commit_pc (x : Skein) : (commit x).pc = x.pc := rfl
@[simp] theorem commit_handler (x : Skein) : (commit x).handler = x.handler := rfl
@[simp] theorem commit_committed (x : Skein) : (commit x).region.committed = true := rfl
@[simp] theorem moveTo_pc (pc : W64) (x : Skein) : (moveTo pc x).pc = codeAddr pc := by unfold moveTo; split <;> rfl
@[simp] theorem moveTo_k (pc : W64) (x : Skein) : (moveTo pc x).k = x.k := by unfold moveTo; split <;> rfl
@[simp] theorem moveTo_c (pc : W64) (x : Skein) : (moveTo pc x).c = x.c := by unfold moveTo; split <;> rfl
@[simp] theorem moveTo_handler (pc : W64) (x : Skein) : (moveTo pc x).handler = x.handler := by
  unfold moveTo; split <;> rfl
/-- Moving on changes the PC and the test mark, and in handler state commits the region. -/
theorem moveTo_eq (pc : W64) (x : Skein) : moveTo pc x =
    { x with pc := codeAddr pc, untested := false,
             region := { x.region with committed := x.region.committed || x.handler } } := by
  unfold moveTo commit
  cases x.handler <;> simp

/-- kRead of every register after a write: k0 stays 0 (R16). -/
theorem kGet_kSet (x : Skein) (r : Nat) (v : W64) (j : Nat) :
    kGet (kSet x r v) j = if j = 0 then 0 else if j = r then v else kGet x j := by
  unfold kGet kSet
  by_cases hj : j = 0
  · simp [hj]
  · by_cases hr : r = 0
    · subst hr; simp [hj]
    · simp [hj, hr, smGet_smSet]
@[simp] theorem kGet_moveTo (pc : W64) (x : Skein) (j : Nat) : kGet (moveTo pc x) j = kGet x j := by simp [kGet]

/-- What a result leaves: the register, the PC, and k0 as 0. -/
theorem State.kv_result (d : KReg) (v n : W64) (r : KReg) :
    (s.result d v n).kv r = if r = 0 then 0 else if r = d then v else s.kv r := by
  have hr : ((r : KReg).toNat = 0) = (r = 0) := propext ⟨fun h => by bv_omega, fun h => by simp [h]⟩
  have hd : ((r : KReg).toNat = d.toNat) = (r = d) := propext ⟨BitVec.eq_of_toNat_eq, fun h => by rw [h]⟩
  show kGet (State.me _) _ = _
  simp only [State.result, State.past, State.goto, State.me_setMe, kGet_moveTo, State.setK, kGet_kSet, hr, hd]
  rfl
@[simp] theorem kSet_pc (x : Skein) (r : Nat) (v : W64) : (kSet x r v).pc = x.pc := by unfold kSet; split <;> rfl
@[simp] theorem State.pc_result (d : KReg) (v n : W64) : (s.result d v n).me.pc = codeAddr (s.me.pc + n) := by
  simp [State.result, State.past, State.goto, State.setK]
theorem State.ctx_result_ne (d : KReg) (v n : W64) {j : Nat} (h : j ≠ s.cur) : (s.result d v n).ctx j = s.ctx j := by
  rw [State.result, State.past, State.goto, State.ctx_setMe_ne (s.setK d v) _ h, State.setK, State.ctx_setMe_ne _ _ h]

end Sys2Proof.Machine
end

