-- ==== Sys2Proof/Laws/Memory.lean ====
section
/-! SUPPORT. One law for each operation over storage and translations: everything that it can do, and that it keeps the canonical
form of storage. -/

namespace Sys2Proof.Machine

/-! ## Frames -/

/-- What an operation of the slices and caches may change. -/
def MsFrame (s t : State) : Prop := t = { s with ms := t.ms, freeCtr := t.freeCtr }
/-- What a write of storage may change. -/
def StoreFrame (s t : State) : Prop := t = { s with mem := t.mem, ms := t.ms, freeCtr := t.freeCtr }
/-- What the draining of store-gather buffers may change. -/
def DrainFrame (s t : State) : Prop := t = { s with mem := t.mem, ms := t.ms, ctxs := t.ctxs, freeCtr := t.freeCtr }

theorem MsFrame.refl (s : State) : MsFrame s s := rfl
theorem StoreFrame.refl (s : State) : StoreFrame s s := rfl
theorem DrainFrame.refl (s : State) : DrainFrame s s := rfl
theorem MsFrame.trans {s t u : State} (h : MsFrame s t) (k : MsFrame t u) : MsFrame s u := by unfold MsFrame at *; rw [k, h]
theorem StoreFrame.trans {s t u : State} (h : StoreFrame s t) (k : StoreFrame t u) : StoreFrame s u := by
  unfold StoreFrame at *; rw [k, h]
theorem DrainFrame.trans {s t u : State} (h : DrainFrame s t) (k : DrainFrame t u) : DrainFrame s u := by
  unfold DrainFrame at *; rw [k, h]
theorem StoreFrame.drain {s t : State} (h : StoreFrame s t) : DrainFrame s t := by unfold StoreFrame DrainFrame at *; rw [h]
theorem MsFrame.store {s t : State} (h : MsFrame s t) : StoreFrame s t := by unfold MsFrame StoreFrame at *; rw [h]
theorem MsFrame.drain {s t : State} (h : MsFrame s t) : DrainFrame s t := h.store.drain
theorem MsFrame.mem {s t : State} (h : MsFrame s t) : t.mem = s.mem := by rw [h]

/-- A left fold keeps what every step of it keeps. -/
theorem foldl_keeps {α β : Type} (P : β → β → Prop) (refl : ∀ b, P b b) (trans : ∀ {a b c}, P a b → P b c → P a c) (f : β → α → β)
    (step : ∀ b a, P b (f b a)) : ∀ (l : List α) (b : β), P b (l.foldl f b)
  | [], b => refl b
  | a :: l, b => trans (step b a) (foldl_keeps P refl trans f step l (f b a))

/-! ## Slices, writes at the target -/

theorem State.l2Hold_frame (s : State) (line : Nat) : MsFrame s (s.l2Hold line) := by
  unfold State.l2Hold
  split
  · exact .refl s
  · simp only [State.draw]
    repeat' split
    all_goals rfl
theorem State.sliceWrite_frame (s : State) (a : Nat) : MsFrame s (s.sliceWrite a) := by
  unfold State.sliceWrite
  split
  · exact .refl s
  · refine MsFrame.trans ?_ (State.l2Hold_frame _ _)
    rfl
@[simp] theorem State.sliceWrite_mem (s : State) (a : Nat) : (s.sliceWrite a).mem = s.mem := (s.sliceWrite_frame a).mem
theorem State.sliceRead_frame (s : State) (reader a : Nat) : MsFrame s (s.sliceRead reader a) := by
  unfold State.sliceRead
  split
  · exact .refl s
  · simp only; split <;> rfl

theorem State.write_frame (s : State) (a : Nat) (bs : List Byte) : StoreFrame s (s.write a bs) := rfl
theorem State.writeHome_frame (s : State) (a : Nat) (bs : List Byte) : StoreFrame s (s.writeHome a bs) :=
  (s.write_frame a bs).trans (State.sliceWrite_frame _ a).store
@[simp] theorem State.writeHome_mem (s : State) (a : Nat) (bs : List Byte) : (s.writeHome a bs).mem = memWrite s.mem a bs := by
  simp [State.writeHome, State.write]

theorem sliceWrites_frame (l : List Nat) (s : State) : MsFrame s (l.foldl (fun s n => s.sliceWrite (Config.lineBytes * n)) s) :=
  foldl_keeps MsFrame MsFrame.refl MsFrame.trans _ (fun b _ => b.sliceWrite_frame _) l s

theorem State.writeBytes_frame (s : State) (l : List (Nat × Byte)) : StoreFrame s (s.writeBytes l) := by
  refine StoreFrame.trans ?_ (sliceWrites_frame _ _).store
  rfl
@[simp] theorem State.writeBytes_mem (s : State) (l : List (Nat × Byte)) :
    (s.writeBytes l).mem = l.foldl (fun m p => memPut m p.1 p.2) s.mem := (sliceWrites_frame _ _).mem

/-! ## The store-gather buffer -/

theorem State.sgbDrain_frame (s : State) (core line : Nat) : DrainFrame s (s.sgbDrain core line) := by
  unfold State.sgbDrain
  split
  · exact .refl s
  · exact .trans (s.writeBytes_frame _).drain rfl
theorem State.sgbDrainLines_frame (s : State) (core : Nat) (l : List Nat) : DrainFrame s (s.sgbDrainLines core l) :=
  foldl_keeps DrainFrame DrainFrame.refl DrainFrame.trans _ (fun b a => b.sgbDrain_frame core a) l s
theorem State.sgbDrainCore_frame (s : State) (core : Nat) : DrainFrame s (s.sgbDrainCore core) := s.sgbDrainLines_frame core _
theorem State.sgbDrainCtx_frame (s : State) (c : Nat) : DrainFrame s (s.sgbDrainCtx c) := s.sgbDrainLines_frame (coreOf c) _
theorem State.sgbDrainAll_frame (s : State) (line : Nat) : DrainFrame s (s.sgbDrainAll line) :=
  foldl_keeps DrainFrame DrainFrame.refl DrainFrame.trans _ (fun b a => b.sgbDrain_frame a line) _ s
theorem State.sgbStore_frame (s : State) (c a : Nat) (bs : List Byte) : DrainFrame s (s.sgbStore c a bs) := by
  unfold State.sgbStore
  simp only
  split
  · rfl
  · split
    · split
      · exact .trans (s.sgbDrain_frame _ _) rfl
      · rfl
    · rfl
/-- What is kept for copies changes nothing else. -/
theorem State.keepFor_frame (s : State) (places : List Nat) (core a n : Nat) : MsFrame s (s.keepFor places core a n) := by
  unfold State.keepFor; split <;> rfl
theorem State.keepMine_frame (s : State) (c a n : Nat) : MsFrame s (s.keepMine c a n) := s.keepFor_frame _ _ _ _
theorem State.store_frame (s : State) (c a : Nat) (bs : List Byte) : DrainFrame s (s.store c a bs).1 := by
  unfold State.store
  simp only
  split
  · exact (s.keepMine_frame _ _ _).drain.trans (State.sgbStore_frame _ _ _ _)
  · exact (s.keepMine_frame _ _ _).drain.trans (State.write_frame _ _ _).drain
theorem State.storeRun_frame (c : Nat) (l : List (Nat × List Byte)) (s : State) : DrainFrame s (s.storeRun c l) := by
  induction l generalizing s with
  | nil => exact .refl s
  | cons p l ih => exact (s.store_frame c p.1 p.2).trans (ih _)

/-! ## Translation -/

theorem State.tlbAdd_frame (s : State) (p : TlbPlace) (tctx va : Nat) (l : Leaf) : MsFrame s (s.tlbAdd p tctx va l) := by
  unfold State.tlbAdd
  split
  · exact .refl s
  · simp only [State.draw]
    repeat' split
    all_goals rfl
theorem State.tlbFill_frame (s : State) (c tctx va : Nat) (l : Leaf) : MsFrame s (s.tlbFill c tctx va l) :=
  ((s.tlbAdd_frame _ _ _ _).trans (State.tlbAdd_frame _ _ _ _ _)).trans (State.tlbAdd_frame _ _ _ _ _)
theorem State.tlbLook_frame {s t : State} {c tctx va : Nat} {l : Leaf} (h : s.tlbLook c tctx va = some (t, l)) : MsFrame s t := by
  unfold State.tlbLook at h
  split at h
  · cases h; exact .refl s
  · split at h
    · cases h; exact s.tlbAdd_frame _ _ _ _
    · split at h
      · cases h; exact s.tlbFill_frame _ _ _ _
      · cases h
theorem State.joinWalk_frame (s : State) (c tctx va kind tenant : Nat) : MsFrame s (s.joinWalk c tctx va kind tenant) := by
  unfold State.joinWalk; simp only; split <;> rfl
theorem State.translate_frame (s : State) (c va kind : Nat) : MsFrame s (s.translate c va kind).1 := by
  unfold State.translate
  simp only
  split
  · exact State.tlbLook_frame ‹_›
  · split
    · rfl
    · exact s.joinWalk_frame _ _ _ _ _

/-- The state of an answer. -/
def Reach.state : Reach → State
  | .ok s _ _ => s
  | .wait s => s
  | .trap s _ => s

theorem State.reach4_frame (s : State) (c va n align kind : Nat) : MsFrame s (s.reach4 c va n align kind).state := by
  unfold State.reach4
  split
  · exact .refl s
  · split
    · exact .refl s
    · split
      · simp only; split <;> exact .refl s
      · have h := s.translate_frame c va kind
        split <;> (rename_i e; rw [e] at h; exact h)
theorem pageGate_state (tenant va : Nat) (u : PageUse) (atomic : Bool) (r : Reach) : (pageGate tenant va u atomic r).state = r.state := by
  unfold pageGate
  split
  · split <;> rfl
  · rfl
/-- An address that is checked changes nothing but the caches of translations, the walks that are asked for, and the free values drawn. -/
theorem State.reach_frame (s : State) (c va n align kind : Nat) (u : PageUse) (atomic : Bool) :
    MsFrame s (s.reach c va n align kind u atomic).state := by
  unfold State.reach; rw [pageGate_state]; exact s.reach4_frame c va n align kind

/-! ## The canonical form -/

theorem State.memOk_of_mem_eq {s t : State} (h : s.MemOk) (e : t.mem = s.mem) : t.MemOk := by unfold State.MemOk at *; rw [e]; exact h
theorem State.memOk_reset : State.reset.MemOk := rfl
theorem State.MemOk.write {s : State} (h : s.MemOk) (a : Nat) (bs : List Byte) : (s.write a bs).MemOk := Memory.wf_memWrite bs h a
theorem State.MemOk.writeHome {s : State} (h : s.MemOk) (a : Nat) (bs : List Byte) : (s.writeHome a bs).MemOk := by
  unfold State.MemOk; rw [State.writeHome_mem]; exact Memory.wf_memWrite bs h a
theorem State.MemOk.writeBytes {s : State} (h : s.MemOk) (l : List (Nat × Byte)) : (s.writeBytes l).MemOk := by
  unfold State.MemOk; rw [State.writeBytes_mem]; exact Memory.wf_memPuts l h
theorem State.MemOk.zeroRange {s : State} (h : s.MemOk) (a n : Nat) : (s.zeroRange a n).MemOk := Memory.wf_filter h _
theorem State.MemOk.sgbDrain {s : State} (h : s.MemOk) (core line : Nat) : (s.sgbDrain core line).MemOk := by
  unfold State.sgbDrain
  split
  · exact h
  · exact h.writeBytes _
theorem State.MemOk.sgbDrainLines {s : State} (h : s.MemOk) (core : Nat) (l : List Nat) : (s.sgbDrainLines core l).MemOk := by
  unfold State.sgbDrainLines
  induction l generalizing s with
  | nil => exact h
  | cons a l ih => exact ih (h.sgbDrain core a)
theorem State.MemOk.sgbDrainCore {s : State} (h : s.MemOk) (core : Nat) : (s.sgbDrainCore core).MemOk := h.sgbDrainLines core _
theorem State.MemOk.sgbDrainCtx {s : State} (h : s.MemOk) (c : Nat) : (s.sgbDrainCtx c).MemOk := h.sgbDrainLines (coreOf c) _
theorem State.MemOk.sgbStore {s : State} (h : s.MemOk) (c a : Nat) (bs : List Byte) : (s.sgbStore c a bs).MemOk := by
  unfold State.sgbStore
  simp only
  split
  · exact h
  · split
    · split
      · exact h.sgbDrain _ _
      · exact h
    · exact h
theorem State.MemOk.keepMine {s : State} (h : s.MemOk) (c a n : Nat) : (s.keepMine c a n).MemOk :=
  State.memOk_of_mem_eq h (s.keepMine_frame c a n).mem
theorem State.MemOk.store {s : State} (h : s.MemOk) (c a : Nat) (bs : List Byte) : (s.store c a bs).1.MemOk := by
  have h := h.keepMine c a bs.length
  unfold State.store
  simp only
  split
  · exact h.sgbStore c a bs
  · exact h.write a bs
theorem State.MemOk.storeRun {s : State} (c : Nat) (l : List (Nat × List Byte)) (h : s.MemOk) : (s.storeRun c l).MemOk := by
  induction l generalizing s with
  | nil => exact h
  | cons p l ih => exact ih (h.store c p.1 p.2)

end Sys2Proof.Machine
end

