-- ==== Sys2Proof/Laws/Ops.lean ====
section
/-! SUPPORT. One law for each shared operation: everything that it can do. -/

namespace Sys2Proof.Machine

/-! ## Registers of a context -/

/-- A write of a k-register leaves everything but the k-registers. -/
theorem kSet_eq (x : Skein) (r : Nat) (v : W64) : kSet x r v = { x with k := (kSet x r v).k } := by
  unfold kSet; split <;> rfl

/-- What a result leaves of the running context. -/
theorem State.me_result (s : State) (d : KReg) (v n : W64) :
    (s.result d v n).me = moveTo (s.me.pc + n) (kSet s.me d.toNat v) := by
  simp [State.result, State.past, State.goto, State.setK]

@[simp] theorem State.me_past (s : State) (n : W64) : (s.past n).me = moveTo (s.me.pc + n) s.me := by
  simp [State.past, State.goto]
@[simp] theorem State.me_goto (s : State) (pc : W64) : (s.goto pc).me = moveTo pc s.me := by simp [State.goto]
@[simp] theorem State.me_setK (s : State) (r : KReg) (v : W64) : (s.setK r v).me = kSet s.me r.toNat v := by
  simp [State.setK]
@[simp] theorem State.me_setC (s : State) (n : CBit) (b : Bool) : (s.setC n b).me = cSet s.me n b := by
  simp [State.setC]

theorem State.ctx_past_ne (s : State) (n : W64) {j : Nat} (h : j ≠ s.cur) : (s.past n).ctx j = s.ctx j :=
  State.ctx_setMe_ne s _ h
theorem State.ctx_goto_ne (s : State) (pc : W64) {j : Nat} (h : j ≠ s.cur) : (s.goto pc).ctx j = s.ctx j :=
  State.ctx_setMe_ne s _ h
theorem State.ctx_setK_ne (s : State) (r : KReg) (v : W64) {j : Nat} (h : j ≠ s.cur) : (s.setK r v).ctx j = s.ctx j :=
  State.ctx_setMe_ne s _ h
theorem State.ctx_setC_ne (s : State) (n : CBit) (b : Bool) {j : Nat} (h : j ≠ s.cur) : (s.setC n b).ctx j = s.ctx j :=
  State.ctx_setMe_ne s _ h

/-- A bit of a 16-bit set after one bit is written. -/
theorem bitPut_get (w : W16) (n r : BitVec 4) (b : Bool) :
    (bitPut w n.toNat b).getLsbD r.toNat = if r = n then b else w.getLsbD r.toNat := by
  have hr : r.toNat < 16 := r.isLt
  have hn : n.toNat < 16 := n.isLt
  by_cases h : r = n
  · subst h; cases b <;> simp [bitPut, hr]
  · have hne : r.toNat ≠ n.toNat := fun e => h (BitVec.eq_of_toNat_eq e)
    have h2 : (r.toNat < n.toNat) ∨ r.toNat - n.toNat ≠ 0 := by omega
    cases b <;> rcases h2 with h2 | h2 <;> simp [bitPut, h, hr, h2]

/-- A condition bit after one is written. -/
theorem cGet_cSet (x : Skein) (n r : CBit) (b : Bool) : cGet (cSet x n b) r = if r = n then b else cGet x r :=
  bitPut_get x.c n r b

/-! ## Trace -/

/-- What making trace packets of context c may change: the debug blocks, and the branch outcomes that the context collects. -/
def TraceFrame (s t : State) (c : Nat) : Prop :=
  t = { s with ctxs := t.ctxs, benches := t.benches } ∧ (∀ j, j ≠ c → t.ctx j = s.ctx j)
    ∧ t.ctx c = { s.ctx c with branches := (t.ctx c).branches, branchAt := (t.ctx c).branchAt }

theorem TraceFrame.refl (s : State) (c : Nat) : TraceFrame s s c := ⟨rfl, fun _ _ => rfl, rfl⟩

theorem TraceFrame.trans {s t u : State} {c : Nat} (h : TraceFrame s t c) (k : TraceFrame t u c) : TraceFrame s u c := by
  refine ⟨?_, fun j hj => (k.2.1 j hj).trans (h.2.1 j hj), ?_⟩
  · rw [k.1, h.1]
  · rw [k.2.2, h.2.2]

theorem TraceFrame.benches (s : State) (c : Nat) (bs : SMap Bench) : TraceFrame s { s with benches := bs } c :=
  ⟨rfl, fun _ _ => rfl, rfl⟩

theorem TraceFrame.setCtx (s : State) (c : Nat) (l : List Bool) (n : Nat) :
    TraceFrame s (s.setCtx c { s.ctx c with branches := l, branchAt := n }) c :=
  ⟨rfl, fun j hj => by simp [State.ctx_setCtx, hj], by simp⟩

theorem State.traceSyncOnly_frame (s : State) (c : Nat) : TraceFrame s (s.traceSyncOnly c) c := TraceFrame.benches s c _

theorem State.tracePacket_frame (s : State) (sync : Bool) (c type payload : Nat) (rest : List W64) :
    TraceFrame s (s.tracePacket sync c type payload rest) c := by
  unfold State.tracePacket
  cases sync
  · exact TraceFrame.benches s c _
  · exact (State.traceSyncOnly_frame s c).trans (TraceFrame.benches _ c _)

theorem State.tracePlain_frame (s : State) (c type payload : Nat) (rest : List W64) :
    TraceFrame s (s.tracePlain c type payload rest) c := s.tracePacket_frame _ c type payload rest

theorem State.traceFlush_frame (s : State) (c : Nat) : TraceFrame s (s.traceFlush c) c := by
  unfold State.traceFlush
  by_cases h : (s.ctx c).branches = []
  · simp only [h, if_true]; exact TraceFrame.refl s c
  · simp only [h, if_false]
    split
    · exact (TraceFrame.setCtx s c [] 0).trans (State.tracePacket_frame _ _ _ _ _ _)
    · exact TraceFrame.setCtx s c [] 0

theorem State.traceMake_frame (s : State) (c type payload : Nat) (rest : List W64) :
    TraceFrame s (s.traceMake c type payload rest) c := by
  unfold State.traceMake
  by_cases h : (decide (type = 4) || s.syncDue c) = true
  · simp only [h, if_true]
    exact (State.traceFlush_frame s c).trans (State.tracePlain_frame _ _ _ _ _)
  · simp only [h]
    exact State.tracePlain_frame s c type payload rest

theorem State.trace_frame (s : State) (c bit type payload : Nat) (rest : List W64) :
    TraceFrame s (s.trace c bit type payload rest) c := by
  unfold State.trace
  dsimp only
  split
  · exact State.traceMake_frame s c type payload rest
  · exact TraceFrame.refl s c

theorem State.traceMask_frame (s : State) (c kind : Nat) (mask : W64) : TraceFrame s (s.traceMask c kind mask) c :=
  State.trace_frame s c 2 7 kind [mask]

theorem State.traceSync_frame (s : State) (c : Nat) : TraceFrame s (s.traceSync c) c := by
  unfold State.traceSync
  split
  · exact (State.traceFlush_frame s c).trans (State.traceSyncOnly_frame _ c)
  · exact TraceFrame.refl s c

theorem State.traceBranch_frame (s : State) (c : Nat) (taken : Bool) : TraceFrame s (s.traceBranch c taken) c := by
  unfold State.traceBranch
  dsimp only
  split
  · split
    · exact (TraceFrame.setCtx s c _ _).trans (State.traceFlush_frame _ c)
    · exact TraceFrame.setCtx s c _ _
  · exact TraceFrame.refl s c

end Sys2Proof.Machine
end

