-- ==== Sys2Proof/Laws/Exceptions.lean ====
section
/-! SUPPORT. One law for taking a trap, for a crew fault, and for each operation over futures: everything that it can do. -/

namespace Sys2Proof.Machine

/-- What a change of contexts and crews may change. -/
def CrewFrame (s t : State) : Prop := t = { s with ctxs := t.ctxs, crews := t.crews }
/-- What taking a trap may change. -/
def TrapFrame (s t : State) : Prop :=
  t = { s with ctxs := t.ctxs, crews := t.crews, benches := t.benches, mem := t.mem, ms := t.ms, freeCtr := t.freeCtr }

theorem CrewFrame.refl (s : State) : CrewFrame s s := rfl
theorem CrewFrame.trans {s t u : State} (h : CrewFrame s t) (k : CrewFrame t u) : CrewFrame s u := by unfold CrewFrame at *; rw [k, h]
theorem TrapFrame.refl (s : State) : TrapFrame s s := rfl
theorem TrapFrame.trans {s t u : State} (h : TrapFrame s t) (k : TrapFrame t u) : TrapFrame s u := by unfold TrapFrame at *; rw [k, h]
theorem CrewFrame.trap {s t : State} (h : CrewFrame s t) : TrapFrame s t := by unfold CrewFrame TrapFrame at *; rw [h]
theorem MsFrame.trap {s t : State} (h : MsFrame s t) : TrapFrame s t := by unfold MsFrame TrapFrame at *; rw [h]
theorem DrainFrame.trap {s t : State} (h : DrainFrame s t) : TrapFrame s t := by unfold DrainFrame TrapFrame at *; rw [h]
theorem TraceFrame.trap {s t : State} {c : Nat} (h : TraceFrame s t c) : TrapFrame s t := by
  unfold TraceFrame at h; unfold TrapFrame; rw [h.1]
theorem State.setCtx_frame (s : State) (c : Nat) (x : Skein) : CrewFrame s (s.setCtx c x) := rfl
theorem State.setCrew_frame (s : State) (n : Nat) (w : Crew) : CrewFrame s (s.setCrew n w) := rfl

/-! ## Traps -/

theorem State.requestStop_frame (s : State) (c : Nat) : CrewFrame s (s.requestStop c) := by
  unfold State.requestStop
  simp only
  repeat' split
  all_goals rfl
theorem State.requestStops_frame (s : State) (cs : List Nat) : CrewFrame s (s.requestStops cs) :=
  foldl_keeps CrewFrame CrewFrame.refl CrewFrame.trans _ State.requestStop_frame cs s
/-- A crew fault stops skeins and marks the crew; it changes nothing else. -/
theorem State.crewFaultAt_frame (s : State) (c : Nat) : CrewFrame s (s.crewFaultAt c) := by
  unfold State.crewFaultAt
  simp only
  split
  · rfl
  · exact ((State.setCtx_frame s c _).trans (State.setCrew_frame _ _ _)).trans (State.requestStops_frame _ _)
theorem State.forgetVerdicts_frame (s : State) (c : Nat) : MsFrame s (s.forgetVerdicts c) := rfl

/-- A trap changes contexts, the crew that it faults, its frame in the memory system, and the trace; it changes nothing else. -/
theorem State.takeTrap_frame (s : State) (c : Nat) (t : Trap) : TrapFrame s (s.takeTrap c t) := by
  unfold State.takeTrap
  simp only
  split
  · exact rfl
  · split
    · exact CrewFrame.trap ((State.setCtx_frame _ _ _).trans (State.crewFaultAt_frame _ c))
    · have h := s.reach_frame c (s.trapFrame c) 1024 8 1 .write false
      split <;> rename_i e <;> rw [e] at h
      · exact (MsFrame.trap h).trans rfl
      · exact (MsFrame.trap h).trans (CrewFrame.trap ((State.setCtx_frame _ _ _).trans (State.crewFaultAt_frame _ c)))
      · split
        · exact (MsFrame.trap h).trans rfl
        · rename_i s1 a w _
          exact (MsFrame.trap h).trans ((((State.storeRun_frame c (frameLines a (recordHead (trapRegs t (s.ctx c)) false)) s1).trap.trans
            (MsFrame.trap (State.forgetVerdicts_frame _ c))).trans (State.setCtx_frame _ c _).trap).trans (State.traceSync_frame _ c).trap)

theorem CrewFrame.mem {s t : State} (h : CrewFrame s t) : t.mem = s.mem := by rw [h]
theorem TraceFrame.mem {s t : State} {c : Nat} (h : TraceFrame s t c) : t.mem = s.mem := by rw [h.1]
@[simp] theorem State.crewFaultAt_mem (s : State) (c : Nat) : (s.crewFaultAt c).mem = s.mem := (s.crewFaultAt_frame c).mem
@[simp] theorem State.traceSync_mem (s : State) (c : Nat) : (s.traceSync c).mem = s.mem := (s.traceSync_frame c).mem
@[simp] theorem State.setCtx_mem_eq (s : State) (c : Nat) (x : Skein) : (s.setCtx c x).mem = s.mem := rfl

/-! ## Futures -/

theorem State.freeFuture_frame (s : State) (n tag : Nat) : CrewFrame s (s.freeFuture n tag) := by
  unfold State.freeFuture; split <;> rfl
theorem State.writeF_frame (s : State) (c : Nat) (r : FReg) (v : W64) : CrewFrame s (s.writeF c r v) := by
  unfold State.writeF
  simp only
  split
  · exact (s.freeFuture_frame _ _).trans rfl
  · rfl
theorem State.newFuture_frame (s : State) (i : Nat) (r : FReg) (kind : Nat) : CrewFrame s (s.newFuture i r kind).1 := by
  unfold State.newFuture
  exact (State.setCrew_frame _ _ _).trans (State.writeF_frame _ _ _ _)
/-- The end of an operation changes the context and the crew of its future, or the debug block that holds the write. -/
theorem State.endFuture_frame (s : State) (n tag state status : Nat) :
    s.endFuture n tag state status = { s with ctxs := (s.endFuture n tag state status).ctxs, crews := (s.endFuture n tag state status).crews,
                                              benches := (s.endFuture n tag state status).benches } := by
  unfold State.endFuture
  split
  · rfl
  · simp only
    split
    · rfl
    · split
      · unfold State.holdWrite; rw [State.freeFuture_frame s]; rfl
      · rw [State.freeFuture_frame s]; rfl

end Sys2Proof.Machine
end

