-- ==== Sys2Proof/Laws/Late.lean ====
section
/-! SUPPORT. What performing the accesses that wait can do (12 R334), and that it keeps the canonical form of storage. -/

namespace Sys2Proof.Machine

theorem State.l1Fill_frame (s : State) (core line : Nat) : MsFrame s (s.l1Fill core line) := by
  unfold State.l1Fill
  simp only [State.draw]
  repeat' split
  all_goals rfl
theorem State.loadBytes_frame (s : State) (core a n : Nat) (plain : Bool) : MsFrame s (s.loadBytes core a n plain).1 := by
  unfold State.loadBytes
  split
  · unfold State.readPlain
    repeat' split
    all_goals first
      | exact .refl s
      | exact (s.sliceRead_frame core a).trans (State.l1Fill_frame _ _ _)
  · exact s.sliceRead_frame core a

/-- What the accesses of skeins that issue now and are performed later may change. -/
def PerformFrame (s t : State) : Prop :=
  t = { s with mem := t.mem, ms := t.ms, ctxs := t.ctxs, vregs := t.vregs, benches := t.benches, freeCtr := t.freeCtr }

theorem PerformFrame.refl (s : State) : PerformFrame s s := rfl
theorem PerformFrame.trans {s t u : State} (h : PerformFrame s t) (k : PerformFrame t u) : PerformFrame s u := by
  unfold PerformFrame at *; rw [k, h]
theorem DrainFrame.perform {s t : State} (h : DrainFrame s t) : PerformFrame s t := by unfold DrainFrame PerformFrame at *; rw [h]
theorem StoreFrame.perform {s t : State} (h : StoreFrame s t) : PerformFrame s t := h.drain.perform
theorem MsFrame.perform {s t : State} (h : MsFrame s t) : PerformFrame s t := h.drain.perform

theorem State.touchLines_frame (s : State) (core : Nat) (plain : Bool) (lines : List Nat) : MsFrame s (s.touchLines core plain lines) :=
  foldl_keeps MsFrame MsFrame.refl MsFrame.trans _ (fun b line => by
    repeat' split
    · exact .refl b
    · exact (b.sliceRead_frame core _).trans (State.l1Fill_frame _ _ _)
    · exact b.sliceRead_frame core _) lines s
/-- A read, a change and a write of one place change storage, the buffer's entry there and what the caches hold. -/
theorem State.rmw_frame (s : State) (c a n : Nat) (g : Nat → Nat) : DrainFrame s (s.rmw c a n g).1 := by
  unfold State.rmw
  simp only
  refine DrainFrame.trans ?_ (State.writeHome_frame _ _ _).drain
  split
  · exact (s.keepMine_frame _ _ _).drain.trans (State.sgbDrain_frame _ _ _)
  · exact (s.keepMine_frame _ _ _).drain

/-- A register's write reaches its context, or is held by its bench. -/
theorem State.putK_frame (s : State) (c : Nat) (word : Issued) (d : KReg) (v : W64) : PerformFrame s (s.putK c word d v) := by
  unfold State.putK; split <;> rfl
theorem putRegs_frame (c : Nat) (word : Issued) (l : Nat) (vs : List W32) : ∀ (s : State) (r : Nat), PerformFrame s (putRegs s c word l r vs) := by
  induction vs with
  | nil => exact fun s _ => .refl s
  | cons v vs ih =>
    refine fun s r => PerformFrame.trans ?_ (ih _ _)
    unfold State.putReg; split <;> rfl
theorem State.updateLane_frame (c : Nat) (word : Issued) (a : Nat) (u : LaneUpdate) (s : State) (p : Nat × Nat × Nat) :
    PerformFrame s (State.updateLane c word a u s p) := by
  unfold State.updateLane
  simp only
  split
  · exact (s.rmw_frame _ _ _ _).perform
  · exact (s.rmw_frame _ _ _ _).perform.trans (putRegs_frame c word p.1 [_] _ _)
theorem State.applyUpdates_frame (s : State) (o : LateOp) : PerformFrame s (s.applyUpdates o) := by
  unfold State.applyUpdates
  split
  · exact foldl_keeps PerformFrame .refl (fun h k => h.trans k) _ (fun b p => State.updateLane_frame _ _ _ _ b p) _ _
  all_goals exact .refl s

/-- One access that is performed changes storage, the caches, and registers of its own context or held writes of its bench, and
nothing else. -/
theorem State.performOne_frame (s : State) (o : LateOp) : PerformFrame s (s.performOne o) := by
  unfold State.performOne
  split
  · exact (s.loadBytes_frame _ _ _ _).perform.trans (State.putK_frame _ _ _ _ _)
  · refine PerformFrame.trans ?_ ((State.keepMine_frame _ _ _ _).perform.trans (State.write_frame _ _ _).perform)
    split
    · exact (s.sgbDrainCore_frame _).perform
    · exact .refl s
  · exact (s.rmw_frame _ _ _ _).perform.trans (State.putK_frame _ _ _ _ _)
  · refine PerformFrame.trans ?_ (putRegs_frame _ _ _ _ _ _)
    split
    · exact (s.touchLines_frame _ _ _).perform
    · exact .refl s
  · exact s.applyUpdates_frame o
theorem State.performSome_frame (s : State) (p : LateOp → Bool) :
    PerformFrame { s with late := s.late.filter fun o => !p o } (s.performSome p) :=
  foldl_keeps PerformFrame .refl (fun h k => h.trans k) State.performOne (fun b a => b.performOne_frame a) _ _
/-- What a turn finds of what waits: some accesses are performed, in an order, and the others may have a wider scope. -/
theorem State.passLate_frame (s : State) (t : Turn) : PerformFrame { s with late := (s.passLate t).late } (s.passLate t) := by
  unfold State.passLate
  split
  · exact .refl s
  · have h := s.performSome_frame (s.seenIn t)
    have k := (s.performSome (s.seenIn t)).performSome_frame ((s.performSome (s.seenIn t)).goesBefore t)
    unfold PerformFrame at *
    simp only
    rw [k, h]
/-- After performLate nothing waits. -/
@[simp] theorem State.performLate_late (s : State) : s.performLate.late = [] := by
  have h := s.performSome_frame fun _ => true
  unfold PerformFrame at h
  unfold State.performLate
  rw [h]
  simp
/-- With nothing waiting, a turn performs nothing first. -/
@[simp] theorem State.passLate_nil {s : State} (h : s.late = []) (t : Turn) : s.passLate t = s := by simp [State.passLate, h]

theorem State.MemOk.rmw {s : State} (h : s.MemOk) (c a n : Nat) (g : Nat → Nat) : (s.rmw c a n g).1.MemOk := by
  unfold State.rmw
  simp only
  refine State.MemOk.writeHome ?_ _ _
  split
  · exact (h.keepMine _ _ _).sgbDrain _ _
  · exact h.keepMine _ _ _
theorem State.putReg_mem (s : State) (c : Nat) (word : Issued) (l r : Nat) (v : W32) : (s.putReg c word l r v).mem = s.mem := by
  unfold State.putReg; split <;> rfl
theorem putRegs_mem (c : Nat) (word : Issued) (l : Nat) (vs : List W32) : ∀ (s : State) (r : Nat), (putRegs s c word l r vs).mem = s.mem := by
  induction vs with
  | nil => exact fun _ _ => rfl
  | cons v vs ih => exact fun s r => (ih _ _).trans (s.putReg_mem c word l r v)
theorem State.putK_mem (s : State) (c : Nat) (word : Issued) (d : KReg) (v : W64) : (s.putK c word d v).mem = s.mem := by
  unfold State.putK; split <;> rfl
theorem State.MemOk.updateLane {s : State} (h : s.MemOk) (c : Nat) (word : Issued) (a : Nat) (u : LaneUpdate) (p : Nat × Nat × Nat) :
    (State.updateLane c word a u s p).MemOk := by
  unfold State.updateLane
  simp only
  split
  · exact h.rmw _ _ _ _
  · exact State.memOk_of_mem_eq (h.rmw _ _ _ _) (State.putReg_mem _ _ _ _ _ _)
theorem State.MemOk.applyUpdates {s : State} (h : s.MemOk) (o : LateOp) : (s.applyUpdates o).MemOk := by
  unfold State.applyUpdates
  split
  · next u lanes _ e =>
    clear e
    induction lanes generalizing s with
    | nil => exact h
    | cons p l ih => exact ih (h.updateLane o.ctx o.word o.addr u p)
  all_goals exact h
theorem State.MemOk.performOne {s : State} (h : s.MemOk) (o : LateOp) : (s.performOne o).MemOk := by
  unfold State.performOne
  split
  · exact State.memOk_of_mem_eq h ((State.putK_mem _ _ _ _ _).trans (s.loadBytes_frame _ _ _ _).mem)
  · refine State.MemOk.write (State.MemOk.keepMine ?_ _ _ _) _ _
    split
    · exact h.sgbDrainCore _
    · exact h
  · exact State.memOk_of_mem_eq (h.rmw _ _ _ _) (State.putK_mem _ _ _ _ _)
  · refine State.memOk_of_mem_eq h ((putRegs_mem _ _ _ _ _ _).trans ?_)
    split
    · exact (s.touchLines_frame _ _ _).mem
    · rfl
  · exact h.applyUpdates o
theorem State.MemOk.performSome {s : State} (h : s.MemOk) (p : LateOp → Bool) : (s.performSome p).MemOk := by
  have k : ∀ (l : List LateOp) (u : State), u.MemOk → (l.foldl State.performOne u).MemOk := by
    intro l
    induction l with
    | nil => exact fun _ h => h
    | cons a l ih => exact fun u hu => ih _ (hu.performOne a)
  exact k _ _ h
theorem State.MemOk.passLate {s : State} (h : s.MemOk) (t : Turn) : (s.passLate t).MemOk := by
  unfold State.passLate
  split
  · exact h
  · exact (h.performSome _).performSome _
theorem State.MemOk.performAt {s : State} (h : s.MemOk) (n k : Nat) (o : LateOp) : (s.performAt n k o).MemOk := by
  unfold State.performAt
  split
  · simp only
    split
    all_goals exact h.applyUpdates _
  all_goals exact State.MemOk.performOne (s := { s with late := s.late.eraseIdx n }) h o

end Sys2Proof.Machine
end

