-- ==== Sys2Proof/Tests/Slice0.lean ====
section
/-! SUPPORT. Tests: ill-formed terms that WellFormed refuses, words written out from the spec's encodings, steps whose results the spec
gives, and states that meet the hypotheses of the statements. -/

open Sys2Proof Sys2Proof.Machine

namespace Sys2Proof.Tests

set_option Elab.async false

/-! ## Ill-formed terms (R95 to R104) -/

theorem test_wf_sentinel : (Instr.addi 1 2 (.short 0x2000)).wf = false ∧ (Instr.addi 1 2 (.short 0x1FFF)).wf = true := by decide
theorem test_wf_ext : (Instr.ext 1 2 60 5 false).wf = false ∧ (Instr.ext 1 2 60 4 false).wf = true ∧ (Instr.ext 1 2 1 0 true).wf = false := by decide
theorem test_wf_captures :
    (Instr.lrun ⟨0, 9, 0, 3, 0⟩).wf = false ∧ (Instr.lrun ⟨0, 8, 57, 3, 0⟩).wf = false ∧ (Instr.lrun ⟨0, 0, 1, 3, 0⟩).wf = false
    ∧ (Instr.lrun ⟨0, 8, 56, 3, 0⟩).wf = true := by decide
theorem test_wf_runs_of_registers :
    (Instr.mloopMem 0 62 0 false false false).wf = false ∧ (Instr.mloopTile 0 0 15 false false false).wf = false
    ∧ (Instr.mstep 0 15 false false false).wf = false ∧ (Instr.cpy 0 59 0).wf = false ∧ (Instr.coll 0 63 0 0).wf = false := by decide
theorem test_wf_system_registers : (Instr.srd 1 0x00F).wf = false ∧ (Instr.swr 1 0x018).wf = false ∧ (Instr.lget 1 true 16).wf = false
    ∧ (Instr.lget 1 false 16).wf = true := by decide

/-- A lane word with every field zero but some. -/
def op0 : LaneOp :=
  { ty := .n32, dst := 0, s1 := 0, s2 := 0, s3 := 0, sq := 0, neg := 0, abs := 0, msel := 0, reach := 0, fill := false, sat := false
    rnd := .rne, imm := 0 }

theorem test_wf_lane_reserved : (Instr.vand { op0 with neg := 4 }).wf = false ∧ (Instr.vand op0).wf = true := by decide
theorem test_wf_lane_type : (Instr.vfadd op0).wf = false ∧ (Instr.vfadd { op0 with ty := .f32 }).wf = true := by decide
theorem test_wf_lane_range : (Instr.vatm { op0 with dst := 255, s3 := 255, imm := 0x0C8000 }).wf = false := by decide

/-- The halves of the pair of R103. -/
def half0 : HalfOp := { op := .vfadd, ty := .f32, dst := 4, s1 := 1, s2 := 2, s3 := 0, neg := 0, sat := false }
def half1 : HalfOp := { op := .vadd, ty := .s32, dst := 7, s1 := 3, s2 := 1, s3 := 0, neg := 0, sat := false }
theorem test_wf_pair : (Instr.pairedLaneWord half0 half1).wf = true ∧ (Instr.pairedLaneWord half0 { half1 with dst := 4 }).wf = false := by decide

/-! ## Words written out from the spec's encodings -/

/-- 05, worked example. -/
theorem test_words_int : decodeTableWord 32 0x0471C800 = some (.add 7 7 8) ∧ decodeTableWord 32 0x04700016 = some (.mov 7 0) := by decide
theorem test_words_imm : decodeTableWord 32 0x20410008 = some (.addi 4 4 (.short 8)) ∧ decodeTableWord 32 0x3C400000 = some (.movi 4 (.short 0))
    ∧ decodeTableWord 32 0x40400010 = some (.movh 4 (.short 0x10)) := by decide
theorem test_words_cmp : decodeTableWord 32 0x44114000 = some (.cmpi 1 .eq 5 (.short 0)) ∧ decodeTableWord 32 0x4C500001 = some (.ldk 5 1) := by decide
theorem test_words_memory : decodeTableWord 32 0x6C810000 = some (.ld64 8 4 .plain (.short 0))
    ∧ decodeTableWord 32 0x7C719A00 = some (.st64 7 6 (.rel .dev) (.short 0)) := by decide
theorem test_words_control : decodeTableWord 32 0x90600005 = some (.br 1 true (.short 5)) ∧ decodeTableWord 32 0x9C503FFD = some (.loop 5 (.short 0x3FFD))
    ∧ decodeTableWord 32 0xA4000001 = some .exit ∧ decodeTableWord 32 0xA4000000 = some .nop := by decide
/-- 06: `(m2) lloop.any spin, m5, k9, q0 = k4, q1 = k5`, the literal above the word; 04: `lrun body, q0 = k4`. -/
theorem test_words_queue : decodeTableWord 64 0x00003014B8884149 = some (.lloopAny ⟨2, 2, 4, 5, 0xC0⟩ 9 5)
    ∧ decodeTableWord 64 0xB00440C0 = some (.lrun ⟨0, 1, 4, 3, 0⟩) := by decide
theorem test_words_width : decodeTableWord 32 0xBC20C103 = some (.split 2 3 1) ∧ decodeTableWord 32 0xBC008004 = some (.fuse 2) := by decide
theorem test_words_tiles : decodeTableWord 32 0xC0214100 = some (.talloc 2 5 1) ∧ decodeTableWord 32 0xC070C902 = some (.thand 7 3 9) := by decide
theorem test_words_loom : decodeTableWord 32 0xC4120451 = some (.mloopMem 1 8 4 false true false) := by decide
theorem test_words_engines : decodeTableWord 32 0xD0229000 = some (.cpy 2 10 16) ∧ decodeTableWord 32 0xD0350824 = some (.coll 3 20 8 2) := by decide
theorem test_words_futures : decodeTableWord 32 0xD4504000 = some (.fwait 5 1) ∧ decodeTableWord 32 0xD490C003 = some (.fsto 9 3) := by decide
theorem test_words_barriers : decodeTableWord 32 0xD831C001 = some (.barn 3 7) ∧ decodeTableWord 32 0xDC000085 = some (.fence .rel .dev) := by decide
theorem test_words_launch : decodeTableWord 32 0xE0430000 = some (.launch 4 12) ∧ decodeTableWord 32 0xE4518001 = some (.bcn false 6) := by decide
theorem test_words_system : decodeTableWord 32 0xE8300100 = some (.srd 3 1) ∧ decodeTableWord 32 0xE8400701 = some (.swr 4 7)
    ∧ decodeTableWord 32 0xEC002A00 = some (.trap 0x2A) ∧ decodeTableWord 32 0xEC800003 = some (.lset 8 false 0) := by decide

/-- 04: `(m3) vfma v10.f32, -v2, q1, v10`. -/
theorem test_words_lane_fma : decodeTableWord 96 0x2300A02010A5018000000000 =
    some (.vfma { op0 with ty := .f32, dst := 10, s1 := 2, s2 := 1, s3 := 10, sq := 2, neg := 4, msel := 3 }) := by decide
/-- 04: the pair of R103. -/
theorem test_words_pair : decodeTableWord 96 0xA0004010200002A0E0602000 = some (.pairedLaneWord half0 half1) := by decide
/-- 07: `vqdot.e4m3 v8, v2, v3, v8`. -/
theorem test_words_lane_dot : decodeTableWord 96 0x343080203080000000000000 =
    some (.vqdot { op0 with ty := .e4m3, dst := 8, s1 := 2, s2 := 3, s3 := 8 }) := by decide
/-- 07: `(m1) vshf.up.fill.x4 v2, v1, 1`. -/
theorem test_words_lane_shuffle : decodeTableWord 96 0x506020100000009800000102 =
    some (.vshf { op0 with dst := 2, s1 := 1, msel := 1, reach := 1, fill := true, imm := 0x102 }) := by decide
/-- 08: `vld v0.f32, [q0 + v1<<2 + 0]`. -/
theorem test_words_lane_load : decodeTableWord 96 0x600000001008000000200000 =
    some (.vld { op0 with ty := .f32, s2 := 1, sq := 4, imm := 0x200000 }) := by decide
/-- An undefined function code of major 0x01, an undefined major, a nonzero reserved field. -/
theorem test_words_refused : decodeTableWord 32 0x04000017 = none ∧ decodeTableWord 32 0x00000000 = none ∧ decodeTableWord 32 0xA4000100 = none := by decide

/-! ## A word of every encoding, laid out by hand from R95, R99, R101 and R105 and the fields that each word's chapter gives -/

theorem test_words_of_integer_1 : ([
    (32, 0x04956600, .add 9 21 38),
    (32, 0x04956601, .sub 9 21 38),
    (32, 0x04956602, .mul 9 21 38),
    (32, 0x04956603, .mulh 9 21 38),
    (32, 0x04956604, .mulhn 9 21 38),
    (32, 0x04956605, .div 9 21 38),
    (32, 0x04956606, .divn 9 21 38),
    (32, 0x04956607, .rem 9 21 38),
    (32, 0x04956608, .remn 9 21 38),
    (32, 0x04956609, .and 9 21 38),
    (32, 0x0495660A, .or 9 21 38),
    (32, 0x0495660B, .xor 9 21 38)
    ] : List (Nat × Nat × Instr)).all (fun p => decodeTableWord p.1 p.2.1 = some p.2.2) = true := by decide +kernel
theorem test_words_of_integer_2 : ([
    (32, 0x0495660C, .andn 9 21 38),
    (32, 0x0495660D, .shl 9 21 38),
    (32, 0x0495660E, .shr 9 21 38),
    (32, 0x0495660F, .sra 9 21 38),
    (32, 0x04954010, .clz 9 21),
    (32, 0x04954011, .popc 9 21),
    (32, 0x04956612, .min 9 21 38),
    (32, 0x04956613, .max 9 21 38),
    (32, 0x04956614, .minn 9 21 38),
    (32, 0x04956615, .maxn 9 21 38),
    (32, 0x04954016, .mov 9 21)
    ] : List (Nat × Nat × Instr)).all (fun p => decodeTableWord p.1 p.2.1 = some p.2.2) = true := by decide +kernel
theorem test_words_of_select_and_immediate_1 : ([
    (32, 0x0895660B, .sel 9 11 21 38),
    (32, 0x0C956605, .lea 9 21 38 5),
    (32, 0x10B56609, .cmp 11 .gen 21 38),
    (32, 0x14B54000, .cset 11 21),
    (32, 0x1492C001, .cget 9 11),
    (32, 0x20955234, .addi 9 21 (.short 0x1234)),
    (32, 0x24955234, .andi 9 21 (.short 0x1234)),
    (32, 0x28955234, .ori 9 21 (.short 0x1234)),
    (32, 0x2C955234, .xori 9 21 (.short 0x1234)),
    (64, 0x89ABCDEF20956000, .addi 9 21 (.long 0x89ABCDEF)),
    (32, 0x30954025, .shli 9 21 37),
    (32, 0x34954025, .shri 9 21 37)
    ] : List (Nat × Nat × Instr)).all (fun p => decodeTableWord p.1 p.2.1 = some p.2.2) = true := by decide +kernel
theorem test_words_of_select_and_immediate_2 : ([
    (32, 0x38954025, .srai 9 21 37),
    (32, 0x3C903FFF, .movi 9 (.short 0x3FFF)),
    (32, 0x40900123, .movh 9 (.short 0x123)),
    (32, 0x44B561FF, .cmpi 11 .gtn 21 (.short 0x1FF)),
    (32, 0x4895515A, .ext 9 21 17 22 true),
    (32, 0x4C900155, .ldk 9 0x155)
    ] : List (Nat × Nat × Instr)).all (fun p => decodeTableWord p.1 p.2.1 = some p.2.2) = true := by decide +kernel
theorem test_words_of_memory_1 : ([
    (32, 0x609540F1, .ld8 9 21 .plain (.short 0xF1)),
    (32, 0x649558F1, .ld16 9 21 (.acq .die) (.short 0xF1)),
    (32, 0x689560F1, .ld32 9 21 .fresh (.short 0xF1)),
    (32, 0x6C955CF1, .ld64 9 21 (.acq .sys) (.short 0xF1)),
    (32, 0x709541F1, .st8 9 21 .plain (.short 0x1F1)),
    (32, 0x749553F1, .st16 9 21 (.rel .skein) (.short 0x1F1)),
    (32, 0x789555F1, .st32 9 21 (.rel .crew) (.short 0x1F1)),
    (32, 0x7C9557F1, .st64 9 21 (.rel .core) (.short 0x1F1)),
    (64, 0x123456786C955B00, .ld64 9 21 (.acq .dev) (.long 0x12345678)),
    (32, 0x80956601, .atm 9 21 38 .swap false .skein),
    (32, 0x8095661A, .atm 9 21 38 .add true .crew),
    (32, 0x80956623, .atm 9 21 38 .and false .core)
    ] : List (Nat × Nat × Instr)).all (fun p => decodeTableWord p.1 p.2.1 = some p.2.2) = true := by decide +kernel
theorem test_words_of_memory_2 : ([
    (32, 0x8095663C, .atm 9 21 38 .or true .die),
    (32, 0x80956645, .atm 9 21 38 .xor false .dev),
    (32, 0x8095665E, .atm 9 21 38 .min true .sys),
    (32, 0x80956661, .atm 9 21 38 .max false .skein),
    (32, 0x8095667A, .atm 9 21 38 .minn true .crew),
    (32, 0x80956683, .atm 9 21 38 .maxn false .core),
    (32, 0x8095669C, .atm 9 21 38 .cas true .die)
    ] : List (Nat × Nat × Instr)).all (fun p => decodeTableWord p.1 p.2.1 = some p.2.2) = true := by decide +kernel
theorem test_words_of_control : ([
    (32, 0x92FFFFFD, .br 11 true (.short 0x1FFFFD)),
    (32, 0x91000007, .br 4 false (.short 7)),
    (32, 0x94001234, .jmp (.short 0x1234)),
    (64, 0xFFFFFF0098100000, .call (.long 0xFFFFFF00)),
    (32, 0x9C903FFD, .loop 9 (.short 0x3FFD)),
    (32, 0xA0054000, .jr 21),
    (32, 0xA0000001, .ret),
    (32, 0xA4000000, .nop),
    (32, 0xA4000001, .exit),
    (32, 0xA8002ABC, .region 0x2ABC)
    ] : List (Nat × Nat × Instr)).all (fun p => decodeTableWord p.1 p.2.1 = some p.2.2) = true := by decide +kernel
theorem test_words_of_queue : ([
    (64, 0xAAF37BC0B14E6440, .lrun ⟨5, 3, 38, 17, 0x2ABCDEF⟩),
    (64, 0xAAF37BC0B54E6455, .lloopN ⟨5, 3, 38, 17, 0x2ABCDEF⟩ 21),
    (64, 0xAAF37BD8B94E6455, .lloopAny ⟨5, 3, 38, 17, 0x2ABCDEF⟩ 21 6),
    (32, 0xBC000000, .lsync),
    (32, 0xBC92C001, .vget 9 11),
    (32, 0xBC92C002, .votew 9 11),
    (32, 0xBC92C203, .split 9 11 2),
    (32, 0xBC054004, .fuse 21),
    (32, 0xBC900005, .width 9)
    ] : List (Nat × Nat × Instr)).all (fun p => decodeTableWord p.1 p.2.1 = some p.2.2) = true := by decide +kernel
theorem test_words_of_tiles_1 : ([
    (32, 0xC0754B00, .talloc 7 21 11),
    (32, 0xC001C001, .tfree 7),
    (32, 0xC091E602, .thand 9 7 38),
    (32, 0xC0754003, .ttake 7 21),
    (32, 0xC001C004, .tzero 7),
    (32, 0xC0730005, .tcopy 7 12),
    (32, 0xC4D1E620, .mbeamTile 13 7 38 .s1),
    (32, 0xC4D56650, .mbeamMem 13 21 38 .s01),
    (32, 0xC4D547B1, .mloopMem 13 21 7 true false true),
    (32, 0xC4D54741, .mloopTile 13 21 7 false true false),
    (32, 0xC40547C2, .mstep 21 7 false true true),
    (32, 0xC4732603, .mcvt 7 12 38)
    ] : List (Nat × Nat × Instr)).all (fun p => decodeTableWord p.1 p.2.1 = some p.2.2) = true := by decide +kernel
theorem test_words_of_tiles_2 : ([
    (32, 0xC4354004, .mperm 3 21),
    (32, 0xC4654005, .mcode 6 21)
    ] : List (Nat × Nat × Instr)).all (fun p => decodeTableWord p.1 p.2.1 = some p.2.2) = true := by decide +kernel
theorem test_words_of_engines_1 : ([
    (32, 0xD0D56600, .cpy 13 21 38),
    (32, 0xD0D56601, .cpyg 13 21 38),
    (32, 0xD0D56602, .cpyz 13 21 38),
    (32, 0xD0D56603, .mupd 13 21 38),
    (32, 0xD0D566A4, .coll 13 21 38 10),
    (32, 0xD4934000, .fwait 9 13),
    (32, 0xD4B34001, .ftest 11 13),
    (32, 0xD4034002, .fcan 13),
    (32, 0xD4934003, .fsto 9 13),
    (32, 0xD4D54004, .fldf 13 21),
    (32, 0xD8000000, .bar),
    (32, 0xD8B54001, .barn 11 21)
    ] : List (Nat × Nat × Instr)).all (fun p => decodeTableWord p.1 p.2.1 = some p.2.2) = true := by decide +kernel
theorem test_words_of_engines_2 : ([
    (32, 0xD8B54009, .barnArrive 11 21),
    (32, 0xDC000042, .fence .acq .crew),
    (32, 0xDC000084, .fence .rel .die),
    (32, 0xDC0000C6, .fence .ar .sys),
    (32, 0xE0D54000, .launch 13 21),
    (32, 0xE0000001, .ljoin),
    (32, 0xE4954000, .pwrq 9 21),
    (32, 0xE4554001, .bcn false 21),
    (32, 0xE4654001, .bcn true 21)
    ] : List (Nat × Nat × Instr)).all (fun p => decodeTableWord p.1 p.2.1 = some p.2.2) = true := by decide +kernel
theorem test_words_of_system : ([
    (32, 0xE8900D00, .srd 9 0x00D),
    (32, 0xE8900701, .swr 9 0x007),
    (32, 0xEC0ABC00, .trap 0xABC),
    (32, 0xEC000001, .eret),
    (32, 0xEC000101, .eretSkip),
    (32, 0xEC90C802, .lget 9 false 200),
    (32, 0xEC910B03, .lset 9 true 11),
    (32, 0xEC000004, .yield),
    (32, 0xEC012305, .brk 0x123)
    ] : List (Nat × Nat × Instr)).all (fun p => decodeTableWord p.1 p.2.1 = some p.2.2) = true := by decide +kernel
theorem test_words_of_lane_integer_1 : ([
    (96, 0x0170A8243000030400000000, .vadd { op0 with ty := .s8, dst := 10, s1 := 130, s2 := 67, msel := 6, sat := true }),
    (96, 0x0270A8243000030400000000, .vsub { op0 with ty := .s8, dst := 10, s1 := 130, s2 := 67, msel := 6, sat := true }),
    (96, 0x0350A8243000030400000000, .vmul { op0 with ty := .s32, dst := 10, s1 := 130, s2 := 67, msel := 6, sat := true }),
    (96, 0x0460A8243000030000000000, .vmulh { op0 with ty := .n32, dst := 10, s1 := 130, s2 := 67, msel := 6 }),
    (96, 0x0560A82432C0030000000000, .vmad { op0 with ty := .n32, dst := 10, s1 := 130, s2 := 67, msel := 6, s3 := 44 }),
    (96, 0x0660A8243000030000000000, .vand { op0 with ty := .n32, dst := 10, s1 := 130, s2 := 67, msel := 6 }),
    (96, 0x0760A8243000030000000000, .vor { op0 with ty := .n32, dst := 10, s1 := 130, s2 := 67, msel := 6 }),
    (96, 0x0860A8243000030000000000, .vxor { op0 with ty := .n32, dst := 10, s1 := 130, s2 := 67, msel := 6 }),
    (96, 0x0960A8243000030000000000, .vandn { op0 with ty := .n32, dst := 10, s1 := 130, s2 := 67, msel := 6 }),
    (96, 0x0A60A8243000030000000000, .vshl { op0 with ty := .n32, dst := 10, s1 := 130, s2 := 67, msel := 6 }),
    (96, 0x0B60A8243000030000000000, .vshr { op0 with ty := .n32, dst := 10, s1 := 130, s2 := 67, msel := 6 }),
    (96, 0x0C60A8243000030000000000, .vsra { op0 with ty := .n32, dst := 10, s1 := 130, s2 := 67, msel := 6 })
    ] : List (Nat × Nat × Instr)).all (fun p => decodeTableWord p.1 p.2.1 = some p.2.2) = true := by decide +kernel
theorem test_words_of_lane_integer_2 : ([
    (96, 0x0D60A8243000030000000000, .vmin { op0 with ty := .n32, dst := 10, s1 := 130, s2 := 67, msel := 6 }),
    (96, 0x0E60A8243000030000000000, .vmax { op0 with ty := .n32, dst := 10, s1 := 130, s2 := 67, msel := 6 }),
    (96, 0x0F60A8200000030000000000, .vclz { op0 with ty := .n32, dst := 10, s1 := 130, msel := 6 }),
    (96, 0x1060A8200000030000000000, .vpopc { op0 with ty := .n32, dst := 10, s1 := 130, msel := 6 }),
    (96, 0x1160A8200000030000000000, .vbrev { op0 with ty := .n32, dst := 10, s1 := 130, msel := 6 }),
    (96, 0x1250A8200000030000000131, .vbfx { op0 with ty := .s32, dst := 10, s1 := 130, msel := 6, imm := 305 }),
    (96, 0x1360A8243000030000000131, .vbfi { op0 with ty := .n32, dst := 10, s1 := 130, s2 := 67, msel := 6, imm := 305 }),
    (96, 0x1460A82430B0030000000000, .vsel { op0 with ty := .n32, dst := 10, s1 := 130, s2 := 67, msel := 6, s3 := 11 }),
    (96, 0x1560A8200000030000000000, .vmov { op0 with ty := .n32, dst := 10, s1 := 130, msel := 6 }),
    (96, 0x1660B8243000030000000009, .vcmp { op0 with ty := .n32, dst := 11, s1 := 130, s2 := 67, msel := 6, imm := 9 }),
    (96, 0x1760A0000000032000000001, .vlane { op0 with ty := .n32, dst := 10, msel := 6, reach := 2, imm := 1 })
    ] : List (Nat × Nat × Instr)).all (fun p => decodeTableWord p.1 p.2.1 = some p.2.2) = true := by decide +kernel
theorem test_words_of_lane_float_1 : ([
    (96, 0x2000A8243001230700000000, .vfadd { op0 with ty := .f32, dst := 10, s1 := 130, s2 := 67, neg := 4, abs := 4, msel := 6, rnd := .rdn, sat := true }),
    (96, 0x2110A8243001230700000000, .vfsub { op0 with ty := .bf16, dst := 10, s1 := 130, s2 := 67, neg := 4, abs := 4, msel := 6, rnd := .rdn, sat := true }),
    (96, 0x2220A8243001230700000000, .vfmul { op0 with ty := .f16, dst := 10, s1 := 130, s2 := 67, neg := 4, abs := 4, msel := 6, rnd := .rdn, sat := true }),
    (96, 0x2300A82432C1630700000000, .vfma { op0 with ty := .f32, dst := 10, s1 := 130, s2 := 67, neg := 5, abs := 4, msel := 6, rnd := .rdn, sat := true, s3 := 44 }),
    (96, 0x2410A8243001230000000000, .vfmin { op0 with ty := .bf16, dst := 10, s1 := 130, s2 := 67, neg := 4, abs := 4, msel := 6 }),
    (96, 0x2520A8243001230000000000, .vfmax { op0 with ty := .f16, dst := 10, s1 := 130, s2 := 67, neg := 4, abs := 4, msel := 6 }),
    (96, 0x2600B8243001230000000005, .vfcmp { op0 with ty := .f32, dst := 11, s1 := 130, s2 := 67, neg := 4, abs := 4, msel := 6, imm := 5 }),
    (96, 0x2710A8200001230200000000, .vfrnd { op0 with ty := .bf16, dst := 10, s1 := 130, neg := 4, abs := 4, msel := 6, rnd := .rup }),
    (96, 0x2820A8200001230200000000, .vfrcp { op0 with ty := .f16, dst := 10, s1 := 130, neg := 4, abs := 4, msel := 6, rnd := .rup }),
    (96, 0x2900A8200001230200000000, .vfrsq { op0 with ty := .f32, dst := 10, s1 := 130, neg := 4, abs := 4, msel := 6, rnd := .rup }),
    (96, 0x2A10A8200001230200000000, .vfsqrt { op0 with ty := .bf16, dst := 10, s1 := 130, neg := 4, abs := 4, msel := 6, rnd := .rup }),
    (96, 0x2B20A8200001230200000000, .vfex2 { op0 with ty := .f16, dst := 10, s1 := 130, neg := 4, abs := 4, msel := 6, rnd := .rup })
    ] : List (Nat × Nat × Instr)).all (fun p => decodeTableWord p.1 p.2.1 = some p.2.2) = true := by decide +kernel
theorem test_words_of_lane_float_2 : ([
    (96, 0x2C00A8200001230200000000, .vflg2 { op0 with ty := .f32, dst := 10, s1 := 130, neg := 4, abs := 4, msel := 6, rnd := .rup }),
    (96, 0x2D10A8200001230200000000, .vfsin { op0 with ty := .bf16, dst := 10, s1 := 130, neg := 4, abs := 4, msel := 6, rnd := .rup }),
    (96, 0x2E20A8200001230200000000, .vfcos { op0 with ty := .f16, dst := 10, s1 := 130, neg := 4, abs := 4, msel := 6, rnd := .rup }),
    (96, 0x2F00A8200001230200000000, .vftnh { op0 with ty := .f32, dst := 10, s1 := 130, neg := 4, abs := 4, msel := 6, rnd := .rup })
    ] : List (Nat × Nat × Instr)).all (fun p => decodeTableWord p.1 p.2.1 = some p.2.2) = true := by decide +kernel
theorem test_words_of_lane_packed : ([
    (96, 0x3010A8243000030000000000, .vhadd { op0 with ty := .bf16, dst := 10, s1 := 130, s2 := 67, msel := 6 }),
    (96, 0x3120A8243000030000000000, .vhmul { op0 with ty := .f16, dst := 10, s1 := 130, s2 := 67, msel := 6 }),
    (96, 0x3210A82432C0030000000000, .vhfma { op0 with ty := .bf16, dst := 10, s1 := 130, s2 := 67, msel := 6, s3 := 44 }),
    (96, 0x3320A82432C0030000000000, .vhdot { op0 with ty := .f16, dst := 10, s1 := 130, s2 := 67, msel := 6, s3 := 44 }),
    (96, 0x3440A82432C0030000000001, .vqdot { op0 with ty := .e5m2, dst := 10, s1 := 130, s2 := 67, msel := 6, s3 := 44, imm := 1 }),
    (96, 0x3530A8243000030100000592, .vcvt { op0 with ty := .e4m3, dst := 10, s1 := 130, s2 := 67, msel := 6, imm := 1426, rnd := .rtz }),
    (96, 0x3610A82430000300000000EE, .vcbx { op0 with ty := .bf16, dst := 10, s1 := 130, s2 := 67, msel := 6, imm := 238 }),
    (96, 0x3700A82432C0030000001EEE, .vcbq { op0 with ty := .f32, dst := 10, s1 := 130, s2 := 67, msel := 6, s3 := 44, imm := 7918 })
    ] : List (Nat × Nat × Instr)).all (fun p => decodeTableWord p.1 p.2.1 = some p.2.2) = true := by decide +kernel
theorem test_words_of_lane_mask : ([
    (96, 0x400090D07000030000000000, .mand { op0 with dst := 9, s1 := 13, s2 := 7, msel := 6, ty := .f32 }),
    (96, 0x410090D07000030000000000, .mor { op0 with dst := 9, s1 := 13, s2 := 7, msel := 6, ty := .f32 }),
    (96, 0x420090D07000030000000000, .mxor { op0 with dst := 9, s1 := 13, s2 := 7, msel := 6, ty := .f32 }),
    (96, 0x430090D00000030000000000, .mnot { op0 with dst := 9, s1 := 13, msel := 6, ty := .f32 }),
    (96, 0x440090500008030000000000, .mmov { op0 with dst := 9, s1 := 5, msel := 6, sq := 4, ty := .f32 }),
    (96, 0x450000D00000030000000000, .mpush { op0 with msel := 6, s1 := 13, ty := .f32 }),
    (96, 0x460000000000030000000000, .melse { op0 with msel := 6, ty := .f32 }),
    (96, 0x470000000000030000000000, .mpop { op0 with msel := 6, ty := .f32 }),
    (96, 0x480000000000030000000000, .mbreak { op0 with msel := 6, ty := .f32 }),
    (96, 0x490000D00000030000000000, .vote { op0 with msel := 6, s1 := 13, ty := .f32 }),
    (96, 0x4A0008200000030000000000, .vsend { op0 with msel := 6, s1 := 130, ty := .f32 })
    ] : List (Nat × Nat × Instr)).all (fun p => decodeTableWord p.1 p.2.1 = some p.2.2) = true := by decide +kernel
theorem test_words_of_lane_cross : ([
    (96, 0x5060A8200000033800001303, .vshf { op0 with ty := .n32, dst := 10, s1 := 130, msel := 6, reach := 3, imm := 4867, fill := true }),
    (96, 0x5160A8200000033800000002, .vprm { op0 with ty := .n32, dst := 10, s1 := 130, msel := 6, reach := 3, imm := 2, fill := true }),
    (96, 0x526008200000030000000003, .vptld { op0 with ty := .n32, s1 := 130, msel := 6, imm := 3 }),
    (96, 0x5360A8200000033000000002, .vred { op0 with ty := .n32, dst := 10, s1 := 130, msel := 6, reach := 3, imm := 2 }),
    (96, 0x5400A8200001033100000016, .vscn { op0 with ty := .f32, dst := 10, s1 := 130, msel := 6, reach := 3, imm := 22, neg := 4, rnd := .rtz }),
    (96, 0x5560A820000003300000131B, .vmatch { op0 with ty := .n32, dst := 10, s1 := 130, msel := 6, reach := 3, imm := 4891 })
    ] : List (Nat × Nat × Instr)).all (fun p => decodeTableWord p.1 p.2.1 = some p.2.2) = true := by decide +kernel
theorem test_words_of_lane_memory_1 : ([
    (96, 0x6052C0543008030000289ABC, .vld { op0 with ty := .s32, s1 := 5, s2 := 67, sq := 4, msel := 6, dst := 44, imm := 2661052 }),
    (96, 0x6150005432C8030000209ABC, .vst { op0 with ty := .s32, s1 := 5, s2 := 67, sq := 4, msel := 6, s3 := 44, imm := 2136764 }),
    (96, 0x6252C0500008030000405ABC, .vlds { op0 with ty := .s32, s1 := 5, sq := 4, msel := 6, dst := 44, imm := 4217532 }),
    (96, 0x6350005002C8030000401ABC, .vsts { op0 with ty := .s32, s1 := 5, sq := 4, msel := 6, s3 := 44, imm := 4201148 }),
    (96, 0x6452C8200000030000809ABC, .vldm { op0 with ty := .s32, s1 := 130, msel := 6, dst := 44, imm := 8428220 }),
    (96, 0x6550082002C0030000805ABC, .vstm { op0 with ty := .s32, s1 := 130, msel := 6, s3 := 44, imm := 8411836 }),
    (96, 0x6600A05432C80306001C0123, .vatm { op0 with ty := .f32, dst := 10, s1 := 5, s2 := 67, s3 := 44, sq := 4, msel := 6, rnd := .rup, sat := true, imm := 1835299 }),
    (96, 0x6760A05432C80300001B8123, .vatms { op0 with ty := .n32, dst := 10, s1 := 5, s2 := 67, s3 := 44, sq := 4, msel := 6, imm := 1802531 }),
    (96, 0x6860A05432C80300001E8123, .vatmm { op0 with ty := .n32, dst := 10, s1 := 5, s2 := 67, s3 := 44, sq := 4, msel := 6, imm := 1999139 }),
    (96, 0x690000500008030000482000, .vpre { op0 with ty := .f32, s1 := 5, sq := 4, msel := 6, imm := 4726784 }),
    (96, 0x6A00000000000000000420C4, .waitc { op0 with imm := 270532, ty := .f32 }),
    (96, 0x6B60A054303A030000056000, .vdec { op0 with ty := .n32, dst := 10, s1 := 5, s2 := 67, s3 := 3, sq := 5, msel := 6, imm := 352256 })
    ] : List (Nat × Nat × Instr)).all (fun p => decodeTableWord p.1 p.2.1 = some p.2.2) = true := by decide +kernel
theorem test_words_of_lane_memory_2 : ([
    (96, 0x6C00A0000000030000000000, .vrng { op0 with ty := .f32, dst := 10, msel := 6 }),
    (96, 0x6E52C054300803000001ABCD, .vtld { op0 with ty := .s32, s1 := 5, s2 := 67, sq := 4, msel := 6, imm := 109517, dst := 44 }),
    (96, 0x6F50005432C803000001ABCD, .vtst { op0 with ty := .s32, s1 := 5, s2 := 67, sq := 4, msel := 6, imm := 109517, s3 := 44 })
    ] : List (Nat × Nat × Instr)).all (fun p => decodeTableWord p.1 p.2.1 = some p.2.2) = true := by decide +kernel

/-! ## Steps with results that the spec gives -/

/-- A 32-lane skein alone on context 0 of core 0, placed as log 10 says, with nothing on the agenda. -/
def at0 : State := { State.reset.withFetchWord 32 0 with agenda := [] }
/-- The same with k-registers. -/
def withK (ks : List (Nat × W64)) (s : State) : State := s.setMe { s.me with k := ks.foldl (fun m p => smSet 0 m p.1 p.2) s.me.k }
/-- The same with a lane entry whose word stands next: a RUN of one word. -/
def withEntry (s : State) : State := s.setMe { s.me with queue := [{ testEntry with len := 1 }] }
/-- The same with lane registers: lane, register, value. -/
def withV (vs : List (Nat × Nat × W32)) (s : State) : State :=
  { s with vregs := vs.foldl (fun m p => smSet 0 m (s.vPlace p.1 p.2.1) p.2.2) s.vregs }
/-- The width and base of a narrower skein. -/
def withWidth (w : BitVec 3) (s : State) : State := s.setMe { s.me with width := w, base := onesW w }

/-- The state after a step, or reset where the step does not answer one. -/
def after (i : Instr) (s : State) : State :=
  match exec i s with
  | .next t => t
  | _ => State.reset

/-- 05 R123: −7 by 2. -/
theorem test_div : (after (.div 3 1 2) (withK [(1, 0xFFFFFFFFFFFFFFF9), (2, 2)] at0)).kv 3 = 0xFFFFFFFFFFFFFFFD
    ∧ (after (.rem 3 1 2) (withK [(1, 0xFFFFFFFFFFFFFFF9), (2, 2)] at0)).kv 3 = 0xFFFFFFFFFFFFFFFF
    ∧ (after (.divn 3 1 2) (withK [(1, 0xFFFFFFFFFFFFFFF9), (2, 2)] at0)).kv 3 = 0x7FFFFFFFFFFFFFFC := by decide +kernel
theorem test_div_zero : (after (.div 3 1 0) (withK [(1, 5)] at0)).kv 3 = 0xFFFFFFFFFFFFFFFF ∧ (after (.rem 3 1 0) (withK [(1, 5)] at0)).kv 3 = 5 := by
  decide +kernel
/-- 05: `movi k4, 0`, `movh k4, 0x10`. -/
theorem test_movh : (after (.movh 4 (.short 0x10)) (after (.movi 4 (.short 0)) at0)).kv 4 = 0x0000001000000000 := by decide +kernel
theorem test_k0 : (after (.addi 0 0 (.short 5)) at0).kv 0 = 0 ∧ (after (.addi 0 0 (.short 5)) at0).me.pc = at0.me.pc + 4 := by decide +kernel
theorem test_mulh : (after (.mulh 3 1 1) (withK [(1, 0xFFFFFFFFFFFFFFFF)] at0)).kv 3 = 0
    ∧ (after (.mulhn 3 1 1) (withK [(1, 0xFFFFFFFFFFFFFFFF)] at0)).kv 3 = 0xFFFFFFFFFFFFFFFE := by decide +kernel
/-- 07, worked example: one VQDOT under contracts 1, 5 and 6. -/
theorem test_vqdot (c : Nat × W32) (h : c ∈ [(1, (0x3F800000 : W32)), (5, 0x3F800800), (6, 0x3F800D00)]) :
    (let s := withV [(0, 2, 0x0C01FE7E), (0, 3, 0x08083838), (0, 8, 0x3F800000)] (withEntry at0)
     let u := s.setComm { s.myComm with contract := c.1 }
     (after (.vqdot { op0 with ty := .e4m3, dst := 8, s1 := 2, s2 := 3, s3 := 8 }) u).lv 0 8) = c.2 := by
  revert c; decide +kernel
/-- 07, worked example: VSHF.up on an 8-lane skein with lane 5 inactive. -/
theorem test_vshf :
    (let s := withV ((List.range 8).map fun l => (l, 1, BitVec.ofNat 32 (10 + l))) (withEntry (withWidth 1 at0))
     let u := s.setMe { s.me with m := [(1, 0xDF)] }
     let o := { op0 with dst := 2, s1 := 1, msel := 1, reach := 1, imm := 0x102 }
     (List.range 8).map (fun l => (after (.vshf { o with fill := true }) u).lv l 2) = [10, 10, 11, 12, 14, 0, 15, 16]
       ∧ (List.range 8).map (fun l => (after (.vshf o) u).lv l 2) = [0, 10, 11, 12, 0, 0, 15, 16]) := by decide +kernel
/-- 08, worked example: VDEC.eg on a 4-lane skein, and the next word, which meets the end. -/
theorem test_vdec :
    (let s := withEntry (withWidth 0 at0)
     let e : QEntry := { testEntry with len := 2, q := [0, 0, 2, 0, 0, 0, 0, 0] }
     let u := (s.setMe { s.me with queue := [e] }).write (spadAddr s.myCrew 0) [0x89, 0x38]
     let t := after (.vdec { op0 with dst := 4, s1 := 1, s2 := 7, s3 := 2, sq := 5, imm := 0x40000 }) u
     let t2 := after (.vdec { op0 with dst := 4, s1 := 1, s2 := 5, s3 := 2, sq := 5, imm := 0x40000 }) t
     (List.range 4).map (fun l => t.lv l 4) = [0, 3, 1, 6] ∧ t.lv 0 5 = 0x0000000E
       ∧ (List.range 4).map (fun l => t2.lv l 4) = [0, 0, 0, 0] ∧ t2.lv 0 5 = 0x8000000E) := by decide +kernel
/-- 08: VRNG from state 1. -/
theorem test_vrng :
    (let s := { withEntry (withWidth 0 at0) with gens := [(0, 1)] }
     (after (.vrng op0) s).lv 0 0 = 0x40822041 ∧ (after (.vrng { op0 with ty := .f32 }) s).lv 0 0 = 0x3E810440) := by decide +kernel
/-- 10 R299: TRAP with no handler is a crew fault, of cause SYSCALL. -/
theorem test_trap : (after (.trap 0x2A) at0).me.stopped = true ∧ (after (.trap 0x2A) at0).me.trapcause = 0x002A0014
    ∧ (after (.trap 0x2A) at0).myCrew.saveKind = 3 := by decide +kernel

/-! ## States that meet the hypotheses of the statements -/

/-- at0 with a handler at 0x10000, and the frame of context 0 at 0x30000, on a page that its bench holds. -/
def page3 : TlbEntry := { place := .bench 0, tctx := 0, base := 0x30000, leaf := { testLeaf 0x40000 with w := true } }
def atT : State :=
  { at0 with host := { at0.host with ctxTab := [(0, 1), (3, 0x800000), (6, 0x300000000)] }, ms := { at0.ms with tlb := page3 :: at0.ms.tlb } }
/-- In handler state. -/
def inH (s : State) : State := s.setMe { s.me with handler := true }
/-- Asked to pre-empt. -/
def asked (s : State) : State := s.setMe { s.me with preempt := some 5 }
/-- With a lane entry queued whose start is still to come, n of them. -/
def queued (n : Nat) (s : State) : State := s.setMe { s.me with queue := List.replicate n { testEntry with started := false } }
/-- Its queue empty, its lane words on their way. -/
def onItsWay (s : State) : State := s.setMe { s.me with unret := [{ range := true, depth := 1, awaits := none }] }

theorem reach_gives (r : Reach) (P : State → Nat → Option Leaf → Bool)
    (h : (match r with
      | .ok s1 a l => P s1 a l
      | _ => false) = true) : ∃ s1 a l, r = .ok s1 a l ∧ P s1 a l = true := by
  cases r with
  | ok s a l => exact ⟨s, a, l, rfl, h⟩
  | wait s => simp at h
  | trap s c => simp at h

theorem test_hyp_ComparisonImmediateAndSelectWords : (63 : BitVec 6).toNat + 1 ≤ 64 ∧ (0 : BitVec 6).toNat + 64 ≤ 64 := by decide
theorem test_hyp_ControlTransfersReachTheirTargets :
    (let s := withK [(1, 0x10000), (2, 0x10002), (63, 0x1FFFC)] at0
     (s.kv 1).toNat % 4 = 0 ∧ (s.kv 2).toNat % 4 ≠ 0 ∧ (s.kv 63).toNat % 4 = 0 ∧ ((withK [(63, 3)] at0).kv 63).toNat % 4 ≠ 0) := by decide +kernel

theorem test_hyp_TrapEnters : atT.TrapEnters 0 := by
  unfold State.TrapEnters
  refine ⟨by decide +kernel, by decide +kernel, by decide +kernel, by decide +kernel, ?_⟩
  obtain ⟨s1, a, l, h, p⟩ := reach_gives (atT.reach 0 (atT.trapFrame 0) 1024 8 1 .write false)
    (fun s1 a _ => (List.range 8).all fun i => !s1.lineBusy (lineOf a + i)) (by decide +kernel)
  exact ⟨s1, a, l, h, by simpa using p⟩
theorem test_hyp_TakingATrapSavesTheContext :
    ∃ s1 a l, atT.reach 0 (atT.trapFrame 0) 1024 8 1 .write false = .ok s1 a l ∧ a % 128 = 0
      ∧ (s1.ms.sgb.filter fun e => e.core = coreOf 0).length + 8 ≤ Config.sgbEntries := by
  obtain ⟨s1, a, l, h, p⟩ := reach_gives (atT.reach 0 (atT.trapFrame 0) 1024 8 1 .write false)
    (fun s1 a _ => decide (a % 128 = 0 ∧ (s1.ms.sgb.filter fun e => e.core = coreOf 0).length + 8 ≤ Config.sgbEntries)) (by decide +kernel)
  exact ⟨s1, a, l, h, of_decide_eq_true p⟩
theorem test_hyp_TrapWithoutHandlerIsACrewFault :
    (∀ s ∈ [at0, inH atT], (s.ctx 0).unret = [] ∧ (s.bench (benchOf 0)).stopped = false ∧ (s.crew (s.ctx 0).crew).saveKind ≠ 3
      ∧ ((s.ctx 0).handler = true ∨ ctxTrapVec (s.ctxEntry (s.commOf 0).key.ctx) = 0)) := by decide +kernel
theorem test_hyp_TrapBreakYieldExitAndRegion :
    (let s := at0.setComm { at0.myComm with secs := [(testCtrl, 4096), (testLane, 4096), (0x12000, 32)] }
     bitOf (atT.bench (benchOf atT.cur)).stopctl.toNat 0 = false
       ∧ bitOf ((atT.setBench 0 { atT.bench 0 with stopctl := 1 }).bench (benchOf atT.cur)).stopctl.toNat 0 = true
       ∧ s.me.handler = false ∧ (secOf s.myComm 2).2 / 16 ≤ (2 : BitVec 14).toNat ∧ (1 : BitVec 14).toNat < (secOf s.myComm 2).2 / 16
       ∧ s.me.preempt = none ∧ (asked s).me.preempt ≠ none ∧ (1 : BitVec 14).toNat < (secOf (asked s).myComm 2).2 / 16) := by decide +kernel
/-- A copy that owns a line. -/
def owner (line : Nat) : Copy :=
  { id := 0, crew := 0, core := 0, tctx := 0, tenant := 0, contract := 5, kind := .cpyz, desc := [], pages := [], started := true, again := false
    slices := [⟨0, 64, 0, 1, [line], 0⟩], recLeaf := none, cancelled := false, leave := 0, standing := false, waiting := false, expanded := []
    pos := 0, ended := false, produced := 0, flags := 0, code := 0, badPages := [], written := [], lastTime := 0 }
/-- An entry of the REGN table to be read: it answers, its line belongs to a copy, or it holds an error. -/
theorem test_hyp_RegionsReadTheirEntries :
    (let s := at0.setComm { at0.myComm with secs := [(testCtrl, 4096), (testLane, 4096), (0x12000, 32)] }
     let t : State := { s with ms := { s.ms with tlb := [{ place := .die 0, tctx := 0, base := 0x12000, leaf := testLeaf 0x40000 }] } }
     let owned : State := { t with copies := [owner 2048] }
     let bad : State := { t with ms := { t.ms with poison := [0x10004] } }
     (match t.regnEntry t.cur 1 with | .got _ _ => true | _ => false) = true ∧ owned.regnEntry owned.cur 1 = .wait
       ∧ (match bad.regnEntry bad.cur 1 with | .error _ => true | _ => false) = true
       ∧ (t.dieView (dieOf t.cur) t.myComm.key.ctx 0x12010 = .leaf (testLeaf 0x40000))) := by decide +kernel
theorem test_hyp_SystemRegistersAreReadAndWritten :
    (at0.myComm.contract = 5 ∧ ctxFrameBase (at0.ctxEntry at0.myComm.key.ctx) + 1024 * at0.cur < 2 ^ 57 ∧ at0.part.torhw = true
      ∧ ({ at0 with part := { at0.part with torhw := false } } : State).part.torhw = false
      ∧ (0x018 ≤ (0x018 : BitVec 12).toNat) ∧ ((0x017 : BitVec 12).toNat < 0x018 ∧ (0x017 : BitVec 12) ≠ 0x00F)) := by decide +kernel
/-- The trap registers of the cases of R385. -/
def trapped (cause : W64) (done push : Bool) : State :=
  let s := inH atT
  s.setMe { s.me with trapcause := cause, trapDone := done, trapPush := push, queue := [testEntry] }
/-- The frame of a trapped skein is reached, free and readable. -/
def frameReady (s : State) : Bool :=
  match s.reach s.cur (s.trapFrame s.cur) 1024 8 0 .read false with
  | .ok s1 a _ => ((List.range 8).all fun i => !s1.lineBusy (lineOf a + i)) && !s1.poisoned a 1024
  | _ => false
theorem test_hyp_HandlerWordsAndReturn :
    (at0.me.handler = false ∧ (15 : BitVec 8).toNat < 16
      ∧ ([((0 : W64), false, false), (0x300, false, false), (0x100, false, false), (0x100, true, false), (0x100, false, true)].all fun p =>
          (trapped p.1 p.2.1 p.2.2).me.handler && frameReady (trapped p.1 p.2.1 p.2.2)) = true) := by decide +kernel
theorem test_hyp_HandlerStateRefusesOtherWords : (inH at0).me.handler = true ∧ outsideOnly .exit = true ∧ outsideOnly (.talloc 0 0 0) = true := by
  decide +kernel
theorem test_hyp_EnqueueAppendsOneEntry :
    (let base : Nat := (secOf at0.myComm 1).1
     let full : State := queued 32 at0
     let code : State := { at0 with ms := { at0.ms with
       tlb := [{ place := .die 0, tctx := 0, base := testLane, leaf := testLeaf (testPhys + 4096) }] } }.write (testPhys + 4096 + 8) [0, 0, 0, 0x49]
     let stuck : State := code.setMe { at0.me with
       queue := testEntry :: (List.replicate 31 testEntry), back := List.replicate 8 ⟨true, true, 0⟩ }
     at0.me.handler = false ∧ base % 2 ^ 64 + 12 * 2 ≤ base + (secOf at0.myComm 1).2 ∧ at0.me.queue.length < 32
       ∧ ¬ ((base + 4 * 1023) % 2 ^ 64 + 12 * 64 ≤ base + (secOf at0.myComm 1).2)
       ∧ 32 ≤ full.me.queue.length ∧ full.backStuck full.cur = false ∧ 32 ≤ stuck.me.queue.length ∧ stuck.backStuck stuck.cur = true) := by
  decide +kernel
theorem test_hyp_EntriesStartAndLoopsTest :
    (let s := queued 1 at0
     let loop (n : W64) : QEntry := { testEntry with kind := .loopAny, count := n, started := false, tm := 1 }
     let deep : State := s.setMe { s.me with stack := List.replicate 32 ⟨1, 0, false⟩, queue := [loop 3] }
     let run : State := at0.setMe { at0.me with m := [(1, 3)], stack := [⟨7, 0, true⟩], queue := [{ loop 3 with started := true, word := 2 }] }
     let ended : State := run.setMe { run.me with m := [] }
     s.lanesGo 0 = true ∧ deep.lanesGo 0 = true ∧ (loop 0).kind ≠ .run ∧ (loop 0).count = 0 ∧ (loop 3).count ≠ 0 ∧ (deep.ctx 0).stack.length = 32
       ∧ run.lanesGo 0 = true ∧ (run.ctx 0).unret = [] ∧ (loop 3).len ≤ 2
       ∧ mGet (run.ctx 0) 1 &&& loopValue (run.ctx 0) 0 &&& onesW (run.ctx 0).width ≠ 0
       ∧ mGet (ended.ctx 0) 1 &&& loopValue (ended.ctx 0) 0 &&& onesW (ended.ctx 0).width = 0) := by decide +kernel
theorem test_hyp_LaneFactsReachTheScalarSide :
    (let b (v : Bool) : State := at0.setMe { at0.me with back := [⟨v, true, 5⟩] }
     at0.me.handler = false ∧ at0.me.queue = [] ∧ at0.me.unret = [] ∧ (∀ o ∈ at0.me.out, o.path = .w) ∧ at0.me.back = []
       ∧ ¬ ((onItsWay at0).me.queue = [] ∧ (onItsWay at0).me.unret = []) ∧ (onItsWay at0).me.back = []
       ∧ (b true).me.back = [⟨true, true, 5⟩] ∧ (b false).me.back = [⟨false, true, 5⟩]) := by decide +kernel
/-- Context 0 after a split into two halves, and its sibling. -/
def atS : State := after (.split 2 3 2) at0
theorem test_hyp_SplitAndFuse :
    (at0.me.live = true ∧ at0.me.width.toNat ≤ 3 ∧ (1 : BitVec 2).toNat < at0.me.width.toNat ∧ at0.me.out = []
      ∧ ((at0.freeCtxs (benchOf at0.cur)).take 3).length = 3 ∧ ((at0.freeIndices at0.me.crew).take 3).length = 3
      ∧ (let f := (List.range 31).foldl (fun (s : State) c => s.setCtx (c + 1) at0.me) at0
         ((f.freeCtxs (benchOf f.cur)).take 3).length < 3)
      ∧ at0.me.splits = []
      ∧ (let s := atS
         let one : State := s.setMe { s.me with wait := .fuse 7, region := { s.me.region with committed := true } }
         let o := ((s.crewCtxs s.me.crew).filter (· ≠ 0)).headD 0
         let two (tag : W64) (l : List MaskEntry) : State := s.setCtx o { s.ctx o with wait := .fuse tag, stack := l }
         let both (t : State) : State := t.setMe { t.me with wait := .fuse 7, region := { t.me.region with committed := true } }
         s.me.handler = false ∧ s.me.splits.length = 1 ∧ s.me.wait = .none ∧ o ≠ 0
           ∧ (one.arrived ((s.me.splits.map (·.family)).headD 0)).length = 1
           ∧ ((both (two 7 [])).arrived ((s.me.splits.map (·.family)).headD 0)).length = 2
           ∧ ((both (two 8 [])).arrived ((s.me.splits.map (·.family)).headD 0)).length = 2
           ∧ ((both (two 7 [⟨1, 0, false⟩])).arrived ((s.me.splits.map (·.family)).headD 0)).length = 2
           ∧ (let still (t : State) (e : Nat) : Bool := !(t.ctx e).stopped && !(t.ctx e).handler && (t.ctx e).pend.isNone
              let cs (t : State) : List Nat := t.arrived ((s.me.splits.map (·.family)).headD 0)
              let halted (t : State) : State := t.setCtx o { t.ctx o with stopped := true }
              (∀ e ∈ cs (both (two 7 [])), still (both (two 7 [])) e = true) ∧ (∃ e ∈ cs (halted (both (two 7 []))), still (halted (both (two 7 []))) e = false)))) := by
  decide +kernel
theorem test_hyp_WidthWordsWaitForQuiet :
    (let s := atS
     let b := onItsWay s
     let o : State := s.setMe { s.me with out := [⟨.g, [], false, false⟩] }
     (s.me.queue = [] ∧ s.me.unret = []) ∧ ¬ (b.me.queue = [] ∧ b.me.unret = []) ∧ (o.me.queue = [] ∧ o.me.unret = [] ∧ o.me.out ≠ [])
       ∧ o.me.splits.length = 1 ∧ o.me.wait = .none ∧ b.me.splits.length = 1 ∧ b.me.wait = .none ∧ s.readsOut s.cur = false
       ∧ (1 : BitVec 2).toNat < (onItsWay at0).me.width.toNat ∧ (onItsWay at0).me.live = true ∧ (onItsWay at0).me.handler = false) := by decide +kernel
theorem test_hyp_LanesMoveOnAndReport :
    (let s := withEntry at0
     s.me.queue = [{ testEntry with len := 1 }] ∧ (onItsWay s).me.unret ≠ [] ∧ s.me.unret = [] ∧ s.me.exited = false ∧ s.me.back.length < 8
       ∧ (let f : State := s.setMe { s.me with back := List.replicate 8 ⟨true, true, 0⟩ }
          8 ≤ f.me.back.length)
       ∧ 0 < s.w ∧ (s.act 0).getLsbD 0 = true ∧ (∀ l, l < 64 → ¬ (l < s.w ∧ (s.act 1).getLsbD l = true))) := by decide +kernel
theorem test_hyp_MaskWordsWriteMasks :
    (let d : State := at0.setMe { at0.me with stack := List.replicate 32 ⟨1, 0, false⟩ }
     let e (l : Bool) : State := at0.setMe { at0.me with stack := [⟨1, 2, l⟩] }
     d.me.stack.length = 32 ∧ at0.me.stack.length ≠ 32 ∧ at0.me.stack = [] ∧ (e true).me.stack = [⟨1, 2, true⟩] ∧ (e false).me.stack = [⟨1, 2, false⟩]
       ∧ (withEntry at0).me.queue = [{ testEntry with len := 1 }] ∧ testEntry.kind = .run
       ∧ (e true).me.stack = [] ++ (⟨1, 2, true⟩ : MaskEntry) :: []) := by decide +kernel
/-- A part whose vector unit is emulated: contract 1 without TORHW (R88). -/
def emulated : State := { at0 with part := { at0.part with torhw := false } }.setComm { at0.myComm with contract := 1 }
theorem test_hyp_LaneWords :
    (at0.capCode 3 ≠ 1 ∧ emulated.capCode 3 = 1 ∧ 1 ≤ immBits { op0 with imm := 0x20 } 10 5 ∧ immBits { op0 with imm := 0x20 } 4 0 + 1 ≤ 32
      ∧ immBits { op0 with imm := 2 } 1 0 = 2 ∧ immBits { op0 with imm := 1 } 1 0 = 1 ∧ condOf (immBits { op0 with imm := 9 } 3 0) = some .gen
      ∧ fmtOf (immBits { op0 with imm := 11 } 3 0) = some .cb4 ∧ half0.dst ≠ half1.dst ∧ pairFloat half0.op = true ∧ pairFloat half1.op = false
      ∧ 1 ≤ immBits { op0 with imm := 0x4000 } 14 9 ∧ immBits { op0 with imm := 0x4000 } 8 4 + immBits { op0 with imm := 0x4000 } 14 9 ≤ 32
      ∧ immBits op0 1 0 < at0.myCrew.pats.length ∧ (∀ l, l < 64 → l < at0.w → l < (at0.myCrew.pats.getD 0 []).length)) := by decide +kernel

/-! ### Memory -/

/-- atT with a lane word of q0 = 0x30000 at the head, a second page that is Mart, and every lane register zero. -/
def pageM : TlbEntry := { place := .bench 0, tctx := 0, base := 0x31000, leaf := { testLeaf 0x8000000000 with w := true, mart := true } }
def atM : State :=
  let s := atT.setMe { atT.me with queue := [{ testEntry with len := 1, q := [0x30000, 0x31000, 0, 0, 0, 0, 0, 0] }], k := [(1, 0x30000), (2, 0x2000000000000000)] }
  { s with ms := { s.ms with tlb := pageM :: s.ms.tlb } }
/-- The skein whose lane work is over, for scalar words. -/
def atK : State := atM.setMe { atM.me with queue := [] }
/-- One word per lane at q0 + v1 * 4, the same for the Mart page at q1, and at scratchpad offset v1. -/
def oG : LaneOp := { op0 with ty := .f32, s2 := 1, sq := 4, imm := 0x200000 }
def oM : LaneOp := { oG with s1 := 1 }
/-- VATM .add2b at the same address. -/
def oP : LaneOp := { oG with imm := 0x200000 + 9 * 0x8000 }
def oS : LaneOp := { op0 with ty := .f32, s1 := 2, s2 := 1, sq := 4, imm := 0x200000 }

theorem unwatched_atM : atM.unwatched := by unfold State.unwatched; decide +kernel
theorem addr_oG : ∀ l, l < atM.w → atM.addrOf oG l = 0x30000 := by decide +kernel
theorem addr_oP : ∀ l, l < atM.w → atM.addrOf oP l = 0x30000 := by decide +kernel
theorem addr_oM : ∀ l, l < atM.w → atM.addrOf oM l = 0x31000 := by decide +kernel
theorem addr_oS : ∀ l, l < atM.w → atM.addrOf oS l = 0 := by decide +kernel

theorem lanes_reach_g (kind : Nat) (h : kind = 0 ∨ kind = 1 ∨ kind = 2) :
    atM.LanesReach oG { n := 4, kind := kind, path := .g, stamped := true, plain := false } (fun _ => 0x40000) := by
  unfold State.LanesReach
  refine ⟨by decide +kernel, by decide +kernel, ?_, by decide +kernel, unwatched_atM, fun l hl => ?_⟩
  · obtain rfl | rfl | rfl := h <;> decide +kernel
  unfold State.LaneReaches
  simp only [addr_oG l hl.1]
  obtain rfl | rfl | rfl := h <;>
  · refine ⟨by decide +kernel, by decide +kernel, by decide +kernel, by decide +kernel, by decide +kernel, fun _ => ⟨by decide +kernel, by decide +kernel,
      fun _ => ⟨page3.leaf, ?_, by decide +kernel, by decide +kernel, by decide +kernel, by decide +kernel, by decide +kernel⟩⟩⟩
    unfold State.holdsPage; decide +kernel
theorem lanes_reach_s (kind : Nat) (h : kind = 0 ∨ kind = 1 ∨ kind = 2) :
    atM.LanesReach oS { n := 4, kind := kind, path := .s, stamped := false, plain := false } (fun _ => 2 ^ 44) := by
  unfold State.LanesReach
  refine ⟨by decide +kernel, by decide +kernel, ?_, by decide +kernel, unwatched_atM, fun l hl => ?_⟩
  · obtain rfl | rfl | rfl := h <;> decide +kernel
  unfold State.LaneReaches
  simp only [addr_oS l hl.1]
  obtain rfl | rfl | rfl := h <;>
  exact ⟨by decide +kernel, by decide +kernel, by decide +kernel, by decide +kernel, by decide +kernel, fun h => absurd rfl h⟩
theorem lanes_reach_m (kind : Nat) (h : kind = 0 ∨ kind = 1 ∨ kind = 2) :
    atM.LanesReach oM { n := 4, kind := kind, path := .m, stamped := true, plain := false } (fun _ => 0x8000000000) := by
  unfold State.LanesReach
  refine ⟨by decide +kernel, by decide +kernel, ?_, by decide +kernel, unwatched_atM, fun l hl => ?_⟩
  · obtain rfl | rfl | rfl := h <;> decide +kernel
  unfold State.LaneReaches
  simp only [addr_oM l hl.1]
  obtain rfl | rfl | rfl := h <;>
  · refine ⟨by decide +kernel, by decide +kernel, by decide +kernel, by decide +kernel, by decide +kernel, fun _ => ⟨by decide +kernel, by decide +kernel,
      fun _ => ⟨pageM.leaf, ?_, by decide +kernel, by decide +kernel, by decide +kernel, by decide +kernel, by decide +kernel⟩⟩⟩
    unfold State.holdsPage; decide +kernel
theorem unstamped {s : State} {o : LaneOp} {n kind : Nat} {p : Path} {b : Bool} {place : Nat → Nat} (h : s.LanesReach o ⟨n, kind, p, true, b⟩ place) :
    s.LanesReach o ⟨n, kind, p, false, b⟩ place :=
  ⟨h.1, h.2.1, h.2.2.1, h.2.2.2.1, h.2.2.2.2.1, fun l hl =>
    let r := h.2.2.2.2.2 l hl
    ⟨r.1, r.2.1, r.2.2.1, r.2.2.2.1, r.2.2.2.2.1, fun hp => ⟨(r.2.2.2.2.2 hp).1, (r.2.2.2.2.2 hp).2.1, fun hv =>
      let ⟨q, a⟩ := (r.2.2.2.2.2 hp).2.2 hv
      ⟨q, a.1, a.2.1, a.2.2.1, a.2.2.2.1, a.2.2.2.2.1, fun k => absurd k Bool.false_ne_true⟩⟩⟩⟩
theorem test_hyp_LaneLoadsReceiveTheirBytes :
    atM.LanesReach oG ⟨4, 0, .g, true, false⟩ (fun _ => 0x40000) ∧ atM.LanesReach oS ⟨4, 0, .s, false, false⟩ (fun _ => 2 ^ 44)
      ∧ atM.LanesReach oM ⟨4, 0, .m, true, false⟩ (fun _ => 0x8000000000) ∧ atM.l1Find 0 0 = none ∧ regionOf 0x40000 = .hbm :=
  ⟨lanes_reach_g 0 (.inl rfl), lanes_reach_s 0 (.inl rfl), lanes_reach_m 0 (.inl rfl), by decide +kernel, by decide +kernel⟩
theorem test_hyp_LaneStoresWriteTheirBytes :
    atM.LanesReach oG ⟨4, 1, .g, true, false⟩ (fun _ => 0x40000) ∧ atM.LanesReach oS ⟨4, 1, .s, false, false⟩ (fun _ => 2 ^ 44)
      ∧ atM.LanesReach oM ⟨4, 1, .m, true, false⟩ (fun _ => 0x8000000000)
      ∧ (atM.ms.sgb.filter fun e => e.core = coreOf atM.cur).length + atM.w ≤ Config.sgbEntries :=
  ⟨lanes_reach_g 1 (.inr (.inl rfl)), lanes_reach_s 1 (.inr (.inl rfl)), lanes_reach_m 1 (.inr (.inl rfl)), by decide +kernel⟩
theorem lanes_reach_p : atM.LanesReach oP { n := 4, kind := 2, path := .g, stamped := true, plain := false } (fun _ => 0x40000) := by
  unfold State.LanesReach
  refine ⟨by decide +kernel, by decide +kernel, by decide +kernel, by decide +kernel, unwatched_atM, fun l hl => ?_⟩
  unfold State.LaneReaches
  simp only [addr_oP l hl.1]
  refine ⟨by decide +kernel, by decide +kernel, by decide +kernel, by decide +kernel, by decide +kernel, fun _ => ⟨by decide +kernel,
    by decide +kernel, fun _ => ⟨page3.leaf, ?_, ?_⟩⟩⟩
  · unfold State.holdsPage; decide +kernel
  · decide +kernel
theorem test_hyp_PackedAtomicsUpdateHalfByHalf :
    atM.LanesReach oP ⟨4, 2, .g, true, false⟩ (fun _ => 0x40000) ∧ immBits oP 18 15 = 9 ∧ atM.capCode 3 ≠ 1
      ∧ regionOf 0x40000 = .hbm ∧ atM.sgbFind (coreOf atM.cur) (lineOf 0x40000) = none :=
  ⟨lanes_reach_p, by and_intros <;> decide +kernel⟩
theorem test_hyp_LaneAtomicsUpdateInLaneOrder :
    atM.LanesReach oG ⟨4, 2, .g, true, false⟩ (fun _ => 0x40000) ∧ atM.LanesReach oG ⟨4, 2, .g, false, false⟩ (fun _ => 0x40000)
      ∧ atM.LanesReach oS ⟨4, 2, .s, false, false⟩ (fun _ => 2 ^ 44)
      ∧ atM.LanesReach oM ⟨4, 2, .m, true, false⟩ (fun _ => 0x8000000000) ∧ atM.sgbFind (coreOf atM.cur) (lineOf 0x40000) = none
      ∧ atM.capCode 3 ≠ 1 ∧ emulated.capCode 3 = 1 :=
  ⟨lanes_reach_g 2 (.inr (.inr rfl)), unstamped (lanes_reach_g 2 (.inr (.inr rfl))), lanes_reach_s 2 (.inr (.inr rfl)), lanes_reach_m 2 (.inr (.inr rfl)), by decide +kernel, by decide +kernel, by decide +kernel⟩
/-- 08: VATM.fadd with RET, four lanes, one address that holds 1.0. -/
theorem test_vatm :
    (let s := withV ([0x33800000, 0x33800000, 0x3F800000, 0x33800000].zipIdx.map fun p => (p.2, 3, p.1)) (withWidth 0 atM)
     let u := s.write 0x40000 [0, 0, 0x80, 0x3F]
     let t := after (.vatm { oG with s3 := 3, dst := 9, imm := 0x2C0000 }) u
     (List.range 3).map (fun l => t.lv l 9) = [0x3F800000, 0x3F800000, 0x3F800000] ∧ t.lv 3 9 = 0x40000000) := by decide +kernel
theorem test_hyp_MisalignedLanesTrapAfterTheOthers :
    (let s := withV [(3, 1, 1)] (withWidth 0 atM)
     let o := { oS with imm := 0 }
     let bad (l : Nat) : Bool := (s.act o.msel).getLsbD l && decide (s.addrOf o l % 4 ≠ 0)
     o.dst.toNat + 1 ≤ 256 ∧ pathCount s.me .s < 63 ∧ wordOpen s.me = false ∧ 3 < s.w ∧ bad 3 = true ∧ (∀ l, l < 3 → bad l = false)
       ∧ ∀ l, l < 3 → spadIn s.myCrew (s.addrOf o l) 4 = true ∧ s.lineBusy (lineOf (spadAddr s.myCrew (s.addrOf o l))) = false
           ∧ s.poisoned (spadAddr s.myCrew (s.addrOf o l)) 4 = false) := by decide +kernel
theorem test_hyp_MemoryWordsWithoutLanesDoNothing : atM.act 1 = 0 ∧ atM.capCode 3 ≠ 1 := by decide +kernel
theorem test_hyp_PrefetchAndCounterWaits :
    (let s : State := atM.setMe { atM.me with out := [⟨.g, [], true, false⟩] }
     let t : State := atM.setMe { atM.me with out := [⟨.w, [], false, false⟩] }
     let crowd : State := { atM with ms := { atM.ms with walks := List.replicate Config.walksPerDie ⟨0, 0, 0x999, 0, 0, .due, []⟩ } }
     let at_ : LaneOp := { oG with s1 := 2 }
     (crowd.active at_.msel 0 ∧ crowd.addrOf at_ 0 % 4 = 0 ∧ crowd.addrOf at_ 0 < Config.windowBase ∧ (crowd.quietLeaf crowd.cur (crowd.addrOf at_ 0)).2 = .busy)
       ∧ (∀ l, l < 32 → (crowd.quietLeaf crowd.cur (crowd.addrOf oG l)).2 ≠ .busy)
       ∧ pathCount atM.me .g ≤ immBits op0 23 18 ∧ pathCount atM.me .s ≤ immBits op0 17 12 ∧ pathCount atM.me .m ≤ immBits op0 11 6
       ∧ pathCount atM.me .w ≤ immBits op0 5 0
       ∧ ¬ (pathCount s.me .g ≤ immBits op0 23 18) ∧ pathCount s.me .w ≤ immBits op0 5 0 ∧ ¬ (pathCount t.me .w ≤ immBits op0 5 0)) := by
  unfold State.active; decide +kernel
theorem test_hyp_DecodeGivesElementsAndEndPosition :
    (let q (len : W64) : State := (withWidth 0 atM).setMe { (withWidth 0 atM).me with queue := [{ testEntry with q := [0, 0, len, 0, 0, 0, 0, 0], control := 4 }] }
     let o := { op0 with dst := 4, s1 := 1, s2 := 7, s3 := 2, sq := 5, imm := 0x40000 }
     lanesIn (q 2).w ((q 2).act o.msel) = [0, 1, 2, 3] ∧ pathCount (q 2).me .s < 63 ∧ wordOpen (q 2).me = false
       ∧ 0 + 2 ≤ 128 * (q 2).myCrew.nLines ∧ ¬ (0 + 4097 ≤ 128 * (q 4097).myCrew.nLines)
       ∧ (q 2).me.replay = none ∧ (q 2).me.decodeAt = none ∧ ((q 2).bench (benchOf (q 2).cur)).stopped = false
       ∧ (decodeLanes o (fun _ => false) 16 [0, 1, 2, 3] 0 0).2.1 ≠ 0 ∧ bitOf (entryControl (q 2).me).toNat 2 = true) := by decide +kernel
theorem test_hyp_nothing_busy : (∀ x, atM.lineBusy (lineOf x) = false) ∧ ∀ x n, atM.poisoned x n = false := by
  have h1 : atM.lineSt = [] := by decide +kernel
  have h2 : atM.copies = [] := by decide +kernel
  have h3 : atM.ms.poison = [] := by decide +kernel
  exact ⟨fun x => by simp [State.lineBusy, State.lineState, h1, h2, smGet, smFind, LineState.full], fun x n => by simp [State.poisoned, h3]⟩
theorem test_hyp_RandomLanesStepTheirGenerators :
    (immBits op0 1 0 = 0 ∧ op0.ty = .n32 ∧ immBits { op0 with imm := 1 } 1 0 = 1 ∧ immBits { op0 with imm := 2 } 1 0 = 2 ∧ at0.capCode 3 ≠ 1) := by
  decide +kernel
theorem scalar_passes (u : PageUse) (h : u = .read ∨ u = .write) (n : Nat) (hn : n = 1 ∨ n = 4 ∨ n = 8 ∨ n = 128) (b : Bool) :
    atK.ScalarPasses 0x30000 n u b 0x40000 := by
  unfold State.ScalarPasses
  refine ⟨by decide, ?_, ?_, by decide +kernel, by unfold State.unwatched; decide +kernel, fun h => absurd h (by decide), fun _ => ⟨page3.leaf, ?_, by decide +kernel, ?_, fun _ => by decide +kernel⟩⟩
  · obtain rfl | rfl | rfl | rfl := hn <;> decide
  · obtain rfl | rfl | rfl | rfl := hn <;> decide
  · unfold State.holdsPage; decide +kernel
  · obtain rfl | rfl := h <;> decide +kernel
theorem test_hyp_ScalarMemoryAccesses :
    atK.ScalarReaches 0x30000 8 .read false .g 0x40000 ∧ atK.ScalarReaches 0x30000 1 .write false .w 0x40000
      ∧ ((atK.kv 1) + immValue (.short 0 : Lit 9)).toNat = 0x30000 ∧ atK.poisoned 0x40000 8 = false ∧ pathOf 0x40000 = .g
      ∧ laneIdle atK.me = true ∧ laneIdle atM.me = false ∧ 2 ^ 57 ≤ (atK.kv 2).toNat ∧ (0x30001 : Nat) % 2 ≠ 0
      ∧ (atK.ms.sgb.filter fun e => e.core = coreOf atK.cur).length < Config.sgbEntries ∧ atK.readsOut atK.cur = false := by
  unfold State.ScalarReaches
  exact ⟨⟨scalar_passes .read (.inl rfl) 8 (by simp) false, by decide +kernel⟩, ⟨scalar_passes .write (.inr rfl) 1 (by simp) false, by decide +kernel⟩,
    by decide +kernel, by decide +kernel, by decide +kernel, by decide +kernel, by decide +kernel, by decide +kernel, by decide, by decide +kernel⟩
/-- A load at the head of the reset machine's scalar stream, its address in k1 the scratchpad's first byte, behind a load that waits. -/
def waitingLoad (a : Nat) (d : KReg) : LateOp := { ctx := 0, word := ⟨0x20000, 0⟩, addr := a, size := 8, act := .load d false, scope := none }
def behind (o : LateOp) : State :=
  match encode (.ld64 3 1 .plain (.short 0)) with
  | some p =>
    let s := withK [(1, BitVec.ofNat 64 Config.windowBase)] (State.reset.withFetchWord p.1 p.2)
    { s with agenda := [], late := [o] }
  | none => State.reset
theorem scalar_passes_mart : atK.ScalarReaches 0x31000 8 .write false .w 0x8000000000 := by
  unfold State.ScalarReaches State.ScalarPasses
  refine ⟨⟨by decide, by decide, by decide, by decide +kernel, by unfold State.unwatched; decide +kernel, fun h => absurd h (by decide),
    fun _ => ⟨pageM.leaf, ?_, by decide +kernel, by decide +kernel, fun _ => by decide +kernel⟩⟩, by decide +kernel⟩
  unfold State.holdsPage; decide +kernel
theorem test_hyp_AccessesMayWait :
    atK.ScalarReaches 0x30000 8 .read false .g 0x40000 ∧ memWord (.ld64 3 1 (.acq .crew) (.short 0)) = some (.load 3 1 (.acq .crew) (.short 0) 8)
      ∧ atK.ScalarReaches 0x31000 8 .write false .w 0x8000000000 ∧ regionOf 0x8000000000 ≠ .hbm
      ∧ atK.ScalarReaches 0x30000 8 .write true .g 0x40000 ∧ memWord (.atm 3 1 2 .add true .crew) = some (.atomic 3 1 2 .add 8)
      ∧ memWord (.st8 2 1 .plain (.short 0)) = some (.store 2 1 .plain (.short 0) 1) ∧ atK.me.pend = none ∧ atM.me.pend = none
      ∧ (atK.bench (benchOf atK.cur)).stopped = false ∧ laneIdle atK.me = true ∧ atK.poisoned 0x40000 8 = false
      ∧ laneMem (.vld oG) = some (oG, ⟨4, 0, .g, true, true⟩) ∧ laneMem (.vsts oS) = some (oS, ⟨4, 1, .s, false, false⟩)
      ∧ laneMem (.vatm oG) = some (oG, ⟨4, 2, .g, false, false⟩) ∧ regionOf (2 ^ 44) ≠ .hbm ∧ atM.capCode 3 ≠ 1
      ∧ (let goes (s : State) : Bool := match s.nextScalar 0 with
          | .instr s1 i => (memWord i).any (fun m => ((({ s1 with cur := 0 } : State).memPlace m).any fun p => decide (p.2 = 2 ^ 44) && decide (m.size = 8)))
              && s.overtakes 0 false
          | _ => false
         goes (behind (waitingLoad (2 ^ 44 + 8) 4)) = true ∧ goes (behind (waitingLoad (2 ^ 44 + 7) 4)) = false
           ∧ goes (behind (waitingLoad (2 ^ 44 + 8) 1)) = false) := by
  unfold State.ScalarReaches
  refine ⟨⟨scalar_passes .read (.inl rfl) 8 (by simp) false, by decide +kernel⟩, by decide +kernel, scalar_passes_mart, by decide +kernel,
    ⟨scalar_passes .write (.inr rfl) 8 (by simp) true, by decide +kernel⟩, ?_⟩
  and_intros <;> decide +kernel
theorem test_hyp_PerformingWhatWaits :
    (let stop : State := { atK with benches := (atK.stopBench 0 1).benches }
     let u : LaneUpdate := { aop := 0, ty := .n32, rnd := .rne, sat := false, flush := false, lw := 0, half := none, dst := none }
     let o : LateOp := { waitingLoad 0x40000 3 with size := 4, act := .update u [(0, 1, 0)] false }
     (atK.bench (benchOf o.ctx)).stopped = false ∧ (stop.bench (benchOf o.ctx)).stopped = true ∧ (none : Option Scope).any scopeDie = false
       ∧ (some Scope.core).any scopeDie = false ∧ regionOf o.addr = .hbm ∧ atK.sgbFind (coreOf o.ctx) (lineOf o.addr) = none ∧ o.size = u.size) := by
  decide +kernel
/-- 12 R334, Test 6: a store to one scratchpad word waits while the store that follows it is performed. -/
theorem test_late_store :
    (let s := withK [(1, 1), (4, BitVec.ofNat 64 Config.windowBase), (5, BitVec.ofNat 64 Config.windowBase + 64)] at0
     let first := s.issueLate (.st32 1 4 .plain (.short 0)) (.store 1 4 .plain (.short 0) 4)
     (match first with
      | .next t => decide (memByte t.mem (spadAddr t.myCrew 0) = 0) && decide (t.late.length = 1)
          && (t.late.all fun o => o.apart ⟨[1, 5], [], [(spadAddr t.myCrew 64, 4)]⟩ && !o.apart ⟨[6, 4], [], [(spadAddr t.myCrew 0, 4)]⟩)
          && decide (memByte t.performLate.mem (spadAddr t.myCrew 0) = 1)
      | _ => false) = true) := by decide +kernel
/-- 12 R334: an ADDI goes before a load that waits, unless it names its register. -/
theorem test_late_addi :
    (let s (d : KReg) : State := match encode (.addi 5 4 (.short 1)) with
        | some p => { State.reset.withFetchWord p.1 p.2 with agenda := [], late := [waitingLoad (2 ^ 44 + 8) d] }
        | none => State.reset
     ((s 6).passLate (.scalar 0)).late.length = 1 ∧ ((s 4).passLate (.scalar 0)).late = []) := by decide +kernel
/-- 12 R340: a load .acq.core may be performed after a load that follows it; what follows it is not seen before it by a skein of its core. -/
theorem test_late_acquire :
    (let o : LateOp := { waitingLoad (2 ^ 44 + 8) 4 with scope := some .core }
     let s := behind o
     (s.passLate (.scalar 0)).late = [o] ∧ s.seenIn (.scalar 32) o = true ∧ s.seenIn (.scalar 128) o = false) := by decide +kernel
/-- 16 R427, R431: a load that is performed after its bench has stopped is in the pending list, first as awaited and then as held. -/
theorem test_late_load_held :
    (let o : LateOp := { ctx := 0, word := ⟨0x20000, 0⟩, addr := 0x40000, size := 8, act := .load 3 false, scope := none }
     let s := { atK.stopBench 0 1 with late := [o] }
     (s.pendingHeld 0).map (fun h => (h.kind, h.reg, h.ready)) = [(0, 3, false)]
       ∧ ((s.performLate.bench 0).held.map fun h => (h.kind, h.reg, h.ready)) = [(0, 3, true)] ∧ s.performLate.kv 3 = atK.kv 3) := by
  decide +kernel
theorem test_hyp_AtomicsReturnOldAndFencesRelease :
    atK.ScalarReaches (atK.kv 1).toNat 8 .write true (pathOf 0x40000) 0x40000 ∧ atK.poisoned 0x40000 8 = false
      ∧ laneIdle atM.me = false ∧ laneIdle atK.me = true := by
  unfold State.ScalarReaches
  exact ⟨⟨scalar_passes .write (.inr rfl) 8 (by simp) true, by decide +kernel⟩, by decide +kernel, by decide +kernel, by decide +kernel⟩

/-! ### Tiles, the Loom, copies -/

def descW (f r c : Nat) : W64 := BitVec.ofNat 64 (f * 2 ^ 28 + r * 2 ^ 14 + c)
/-- A crew with eight slots, three of them tiles: an f32 accumulator in h0, a bf16 A operand in h1, a bf16 B operand in h2. -/
def atW : State :=
  let s := atK.setCrew atK.me.crew { atK.myCrew with slots := List.replicate 8 Slot.fresh, rename := List.range 8 }
  let s := withK [(3, descW 0 1 2), (4, descW 1 1 2), (5, descW 1 2 2)] s
  after (.talloc 2 5 0) (after (.talloc 1 4 0) (after (.talloc 0 3 0) s))
/-- The layout word of that B operand, the Loom with the operand queued, and the same with a lane entry for the tiles. -/
def lay0 : W64 := BitVec.ofNat 64 (1 * 2 ^ 31)
def atB : State := after (.mbeamTile 0 2 6 .s01) (withK [(6, lay0)] atW)
/-- The beam resident, and a loop over it at the head of the queue, started. -/
def atL : State :=
  let s := (after (.mbeamTile 0 2 6 .s01) (withK [(6, lay0)] atW))
  let s := s.setCrew s.me.crew { s.myCrew with standing := 1000000 }
  let s := after (.loomOpComplete 0 0) (after (.loomOpStart 0 0) s)
  after (.loomOpStart 0 0) (after (.mloopTile 1 7 0 false false false) s)

theorem test_valid_desc : validDesc (descW 1 2 2) ∧ ¬ validDesc (descW 12 2 2) ∧ ¬ validDesc (descW 1 2 1) ∧ validDesc (descW 0 512 512)
    ∧ ¬ validDesc (descW 0 513 512) := by
  unfold validDesc; decide +kernel
theorem test_hyp_TileWordsUseHandles :
    (let w := atW.myCrew
     let run (i : Nat) (n : Nat) : Bool := decide (i + n ≤ w.slots.length)
       && (List.range n).all fun j => !(slotOf w (i + j)).alloc && !(slotOf w (i + j)).withdrawn
     atW.me.handler = false ∧ (∀ i, i < 3 → run i 1 = false) ∧ run 3 1 = true ∧ (∀ i, i < 9 → run i 6 = false)
       ∧ HandleIs w atW.me.index (hGet atW.me 0) 0 ∧ HandleIs w atW.me.index (hGet atW.me 2) 2 ∧ HandleStale w 0x0103 ∧ HandleStale w 0x0201
       ∧ HandleForeign { w with slots := listSet w.slots 1 { slotOf w 1 with owner := none } } atW.me.index (hGet atW.me 1)
       ∧ (∀ j, j < 8 → (slotOf w j).freeing = false ∧ descSlots (slotOf w 1).desc = 1) ∧ laneIdle atW.me = true
       ∧ laneIdle (withEntry atW).me = false ∧ 3 ≤ atW.me.width.toNat ∧ (withWidth 2 atW).me.width.toNat < 3
       ∧ descFmt (slotOf w 1).desc = descFmt (slotOf w 2).desc ∧ descRows (slotOf w 1).desc ≠ descRows (slotOf w 2).desc
       ∧ descFmt (slotOf w 0).desc ≠ descFmt (slotOf w 2).desc) := by
  unfold HandleIs HandleStale HandleForeign; decide +kernel
/-- A zeroing queued, and a lane word whose handle is q0. -/
def atZ : State := after (.tzero 1) atW
def onTile (h : W16) (s : State) : State := s.setMe { s.me with queue := [{ testEntry with len := 1, q := [h.setWidth 64, 0, 0, 0, 0, 0, 0, 0] }] }
theorem test_hyp_TilesAreReadWrittenAndFilled :
    (let s := withV [(1, 1, 1)] (withWidth 0 (onTile 0x0100 atW))
     let o := { op0 with ty := .f32, s2 := 1 }
     let w := s.myCrew
     s.act o.msel ≠ 0 ∧ (s.qv o.s1.toNat).setWidth 16 = (0x0100 : W16) ∧ HandleIs w s.me.index 0x0100 0
       ∧ s.tileWaits s.me.crew 0 true w.tileSeq = false ∧ (onTile 0x0101 atZ).tileWaits atZ.me.crew 1 true atZ.myCrew.tileSeq = true
       ∧ (∀ l, l < s.w → ((s.lv l o.s2.toNat).toNat + immBits o 15 0 + 1) * 4 ≤ descBits (slotOf w 0).desc / 8)
       ∧ (slotOf w 0).poisoned = false
       ∧ (∀ l, l < s.w → s.tileErr s.me.crew 0 (tileParts (((s.lv l o.s2.toNat).toNat + immBits o 15 0) * 4) 4) = false)
       ∧ (∃ t, atZ.myCrew.tileOps[0]? = some t ∧ t.act = .zero ∧ atZ.tileWaits atZ.me.crew t.dst true t.seq = false
           ∧ atZ.tileWaits atZ.me.crew t.src false t.seq = false)) := by
  refine ⟨by decide +kernel, by decide +kernel, by unfold HandleIs; decide +kernel, by decide +kernel, by decide +kernel, by decide +kernel, by decide +kernel,
    by decide +kernel, _, rfl, by decide +kernel, by decide +kernel, by decide +kernel⟩
/-- Memory that begins with a table of one entry, 0, or of another, or with none; and MPERM's two reads of it, and MCODE's. -/
def tableAt (len entry : Nat) : State := atK.write 0x40000 (leBytes 8 len ++ leBytes 2 entry)
theorem test_hyp_TablesAreRead :
    (let w := atK.myCrew
     let reads (s u : State) (n : Nat) : Option (List (Nat × Leaf)) := match u.reachRange u.cur 0x30000 n 0 .read false [] with
       | .inl (v, ps) => if decide (v = u) && (ps.all fun p => decide (regionOf (p.2.phys (4096 * p.1)) ≠ .mart)) && ((List.range n).all fun i =>
           !s.lineBusy (lineOf (leafAddr w ps (0x30000 + i))) && !s.poisoned (leafAddr w ps (0x30000 + i)) 1) then some ps else none
       | .inr _ => none
     let touched (s u : State) (len : Nat) (ps : List (Nat × Leaf)) : State :=
       u.sliceReads (coreOf s.cur) ((List.range len).map fun i => leafAddr w ps (0x30000 + i))
     (∀ p ∈ [(1, 0), (1, 5), (0, 0)], let s := tableAt p.1 p.2
       (reads s s 8).any (fun ps => decide (leafAddr w ps 0x30000 = 0x40000) && (reads s (touched s s 8 ps) 10).isSome) = true)
       ∧ (reads atK atK 32).isSome = true ∧ atK.me.handler = false
       ∧ (match atK.reachRange atK.cur 0x31000 32 0 .read false [] with
           | .inl (v, ps) => decide (v = atK) && ps.any fun p => decide (regionOf (p.2.phys (4096 * p.1)) = .mart)
           | .inr _ => false) = true
       ∧ List.Perm [0] (List.range 1) ∧ ¬ List.Perm [5] (List.range 1)) := by decide +kernel
theorem test_hyp_LoomWordsQueueOperations :
    (let s := withK [(6, lay0)] atW
     layBad lay0.toNat false = false ∧ layFmt lay0.toNat = .bf16 ∧ s.BeamFits .s01 lay0.toNat 2 2 ∧ (freeIndex s.myCrew).isSome = true
       ∧ s.setsFree true 0 ∧ claimOf (s.loom 0) 0 s.me.crew = none
       ∧ ∃ beam, atB.LoopFits 0 (slotOf atB.myCrew 0).desc 0 (descFmt (slotOf atB.myCrew 1).desc) beam ∧ beam.kb = 2 ∧ beam.fmt = .bf16 ∧ atB.setsFree true 0) := by
  refine ⟨by decide +kernel, by decide +kernel, ?_, by decide +kernel, ?_, by decide +kernel, ?_⟩
  · unfold State.BeamFits; decide +kernel
  · unfold State.setsFree; decide +kernel
  · refine ⟨{ fmt := .bf16, kb := 2, nb := 2, perm := 0, table := PermTable.identity, elems := [], cb := [], bad := false }, ?_⟩
    unfold State.LoopFits State.setsFree; decide +kernel
/-- The beam of atB, and the words of R266 in handler state: a tile to MBEAM, one element in memory, and rows of A in memory and in a tile. -/
def beam0 : Beam := { fmt := .bf16, kb := 2, nb := 2, perm := 0, table := PermTable.identity, elems := [], cb := [], bad := false }
theorem test_hyp_HandlerStateRefusesLoomWords :
    (let s := inH (withK [(6, lay0)] atW)
     let b := inH (atB.setMe { atB.me with k := smSet 0 atB.me.k 9 lay0 })
     let w := s.myCrew
     s.me.handler = true ∧ b.me.handler = true ∧ 3 ≤ s.me.width.toNat ∧ layPitch lay0.toNat = 0 ∧ laySpan lay0.toNat = 0 ∧ layBad lay0.toNat false = false
       ∧ HandleIs w s.me.index (hGet s.me 2) 2 ∧ layFmt lay0.toNat = descFmt (slotOf w 2).desc ∧ s.BeamFits .s01 lay0.toNat 2 2 ∧ s.BeamFits .s01 lay0.toNat 1 1
       ∧ HandleIs b.myCrew b.me.index (hGet b.me 0) 0 ∧ HandleIs b.myCrew b.me.index (hGet b.me 1) 1
       ∧ b.LoopFits 0 (slotOf b.myCrew 0).desc 0 (descFmt (slotOf b.myCrew 1).desc) beam0 ∧ layFmt lay0.toNat = descFmt (slotOf b.myCrew 1).desc
       ∧ loopKinc (0 : W64).toNat = 0 ∧ layBad lay0.toNat true = false ∧ layPerm lay0.toNat = beam0.perm ∧ loopRows 0 = 1 ∧ loopSteps 0 = 1
       ∧ beam0.kb ≤ descCols (slotOf b.myCrew 1).desc ∧ 0 < descRows (slotOf b.myCrew 1).desc) := by
  unfold HandleIs State.LoopFits State.BeamFits; and_intros <;> decide +kernel
theorem test_hyp_LoomOperationsAdvance :
    ((atB.loomAt 0 0).any fun p => !p.2.started && !p.2.cancelled && decide (p.2.failed = 0) && atB.loomTilesFree p.2 && decide (p.2.kind = .mbeam)) = true
    ∧ ((atL.loomAt 0 0).any fun p => match (loomSet (atL.loom 0) p.2.set).beam with
        | some b => decide (p.2.kind = .mloop) && p.2.started && decide (p.2.row = 0) && !b.bad && !p.2.mem && decide (fmtBits (descFmt p.2.accDesc) = 32)
            && decide (b.nb = descCols p.2.accDesc) && !(slotOf atL.myCrew p.2.accSlot).poisoned && !(slotOf atL.myCrew p.2.tileSlot).poisoned
        | none => false) = true
    ∧ ((atL.loomAt 0 0).any fun p => decide (atL.tileCode p.2.crew p.2.accSlot (accParts p.2 (loopArow0 p.2.loopw.toNat + p.2.row)) = 0)
        && decide (atL.tileCode p.2.crew p.2.tileSlot (rowParts p.2) = 0)
        && (let lines := elemLines (rowElems { p.2 with mem := true } 0)
            let o : LoomOp := { p.2 with mem := true, left := [], data := [] }
            decide (linesCode o (rowElems o 0) = some 0) && decide (linesCode { o with left := lines } (rowElems o 0) = none)
              && decide (linesCode { o with data := lines.map fun l => ⟨l, [], [], true⟩ } (rowElems o 0) = some 2)
              && decide (linesCode { o with data := lines.map fun l => ⟨l, [], List.range 128, false⟩ } (rowElems o 0) = some 1))) = true
    ∧ (let s := after (.loomOpStart 0 0) (atB.setCrew atB.me.crew { atB.myCrew with standing := 1000000 })
       (s.loomAt 0 0).any fun p => decide (p.2.kind = .mbeam) && p.2.started && !p.2.cancelled && decide (p.2.failed = 0) && !p.2.mem
         && decide ((s.crew p.2.crew).status ≠ .ended) && decide (s.tileCode p.2.crew p.2.tileSlot (tileWhole p.2.tileDesc) = 0)
         && decide (linesCode { p.2 with mem := true, left := [] } (beamElems 0 lay0.toNat 2 2 p.2.table).flatten = some 0)) = true
    ∧ ((after (.loomRowCommit 0 0 false) atL).loomAt 0 0).map (fun p => p.2.row) = some 1 := by decide +kernel

/-- Descriptors of a CPYZ in k10 and of a CPY in k20, of one row each; the die holds the page as well. -/
def atC : State :=
  let s := withK [(10, 0x30000), (11, 0xAABBCCDD), (12, 128), (16, 0), (20, 0x30000), (21, 0x30800), (22, 128)] atK
  { s with ms := { s.ms with tlb := { page3 with place := .die 0 } :: { pageM with place := .die 0 } :: s.ms.tlb } }
/-- The halves of a split skein, the first with a copy whose source bytes are still to be read. -/
def atSC : State := { atS with copies := (after (.cpy 3 20 16) atC).copies }
theorem test_hyp_FuseWaitsForSourceReads : atSC.readsOut atSC.cur = true ∧ atSC.me.splits.length = 1 ∧ atSC.me.wait = .none
    ∧ atSC.me.queue = [] ∧ atSC.me.unret = [] ∧ atSC.me.out = [] ∧ atSC.me.handler = false := by decide +kernel
def zCopy : State := after (.cpyz 2 10 16) atC
def cCopy : State := after (.cpy 3 20 16) atC
theorem test_hyp_ReleasesWaitForSourceReads : cCopy.readsOut cCopy.cur = true ∧ laneIdle cCopy.me = true ∧ zCopy.readsOut zCopy.cur = false := by
  decide +kernel
theorem test_hyp_CopyWordsAddSlices :
    (let w := atC.myCrew
     let rs : List (Nat × Nat) := (List.range 8).map fun i => (0x30000 + 16 * i, 16)
     atC.me.handler = false ∧ atC.openCopy atC.me.crew 0 = none ∧ copyBad .cpyz 0x30000 128 0 0 = false ∧ copyBad .cpyz 0x30000 2 0 0 = true
       ∧ sliceRow0 0 + sliceRows 0 = ctlRows 128 ∧ ctlRows 128 < 1 + sliceRows 0 ∧ (freeIndex w).isSome = true
       ∧ reachPages atC.cur 5 atC.myComm.tenant .write false (distinct (((rs.filter fun r => decide (r.1 < Config.windowBase)).flatMap fun r =>
           pagesOf r.1 r.2).filter fun _ => true)) atC [] = .inl (atC, [(0x30, page3.leaf)])
       ∧ (let two := withK [(12, 0x1000000 + 128)] atC
          let s := after (.cpyz 2 10 16) two
          (s.openCopy s.me.crew 0).isSome = true ∧ (s.openCopy s.me.crew 0).map (·.desc) ≠ some [0x30000, 0x30800, 128, 0, 0, 0])) := by decide +kernel
/-- A CPYZ of two rows of which row 0 is given, and the slices that would follow. -/
def twoRows : State := after (.cpyz 2 10 16) (withK [(12, 0x1000000 + 128), (13, 0x8000000000)] atC)
theorem test_hyp_CopyWordsMeetAnOpenCopy :
    (twoRows.openCopy twoRows.me.crew 0).any (fun y => decide (y.kind = .cpyz) && decide (y.desc = [0x30000, 0xAABBCCDD, 0x1000080, 0x8000000000, 0, 0])
        && (y.slices.any fun z => decide (z.row0 < 0 + sliceRows 0) && decide (sliceRow0 0 < z.row0 + z.rows))
        && (y.slices.all fun z => decide (z.row0 + z.rows ≤ sliceRow0 (2 ^ 32)))
        && decide (sliceRow0 (2 ^ 32) + sliceRows (2 ^ 32) = ctlRows 0x1000080) && decide ((y.slices.map fun z => z.rows).sum + 1 = ctlRows 0x1000080)
        && (match reachPages twoRows.cur 5 twoRows.myComm.tenant .write false [0x30] twoRows y.pages with
            | .inl (v, qs) => decide (v = twoRows) && decide (chunkLines twoRows.myCrew qs (sliceChunks y 1 1) = [2049])
            | .inr _ => false)
        && !y.started && decide (y.slices.map (·.lines) = [[2048]]) && twoRows.lineBusy 2048) = true
      ∧ (freeIndex twoRows.myCrew).isSome = true := by decide +kernel
theorem test_hyp_CopiesWriteLinesAndEnd :
    (zCopy.copies.map fun y => (y.id, y.kind, y.started, y.again, y.waiting, y.cancelled)) = [(0, .cpyz, true, false, false, false)]
    ∧ (zCopy.copies.map fun y => y.slices.flatMap (·.lines)) = [[2048]]
    ∧ (cCopy.copies.map fun y => (y.kind, y.slices.flatMap (·.lines), y.slices.map fun z => cCopy.lineBefore 2048 z.seq || cCopy.readersBefore 0 2048 z.seq))
        = [(.cpy, [2048], [false])]
    ∧ (cCopy.copies.map fun y => copyAddr cCopy.myCrew y.pages 0x3087F) = [some 0x4087F]
    ∧ ((after (.copyLineWrite 0) zCopy).copies.map fun y => y.slices.flatMap (·.lines)) = [[]]
    ∧ futEntry (after (.copyLineWrite 0) zCopy).myCrew 64 ≠ none := by decide +kernel
/-- A gather of one row by the index at 0x30C00, an update of Mart words from 0x30800, and a row of a compressed stream that has ended. -/
def gCopy : State := after (.cpyg 3 20 16) (withK [(25, 0x30C00)] atC)
def mCopy : State := after (.mupd 3 20 16) (withK [(20, 0x31000), (22, 128 + 6 * 2 ^ 47)] atC)
def dCopy : State := { cCopy with copies := cCopy.copies.map fun y => { y with desc := listSet y.desc 2 (128 + 2 ^ 54), ended := true } }
def firstLine (s : State) (k : CopyKind) (p : Copy → Slice → Nat → List (Nat × Nat × Nat) → Bool) : Bool :=
  s.copies.any fun y => decide (y.kind = k) && !y.again && !y.waiting && decide (y.badPages = []) && y.started && !y.cancelled
    && (match y.slices.flatMap fun z => z.lines.map fun l => (z, l) with
      | (z, l) :: _ => !s.lineBefore l z.seq && !s.readersBefore y.id l z.seq && (s.looms.all fun p => p.2.ops.all fun q => decide (q.2.left = []))
          && p y z l (lineBytesOf (s.crew y.crew) y.pages (sliceChunks y z.row0 z.rows) l)
      | [] => false)
def readableAt (s : State) (y : Copy) (z : Slice) (v : Nat) : Bool :=
  match (if y.pages.any fun q => decide (q.1 = v / 4096) then copyAddr (s.crew y.crew) y.pages v
      else (s.tlbAt (.die (dieOfCore y.core)) y.tctx (4096 * (v / 4096))).map fun l => l.phys v) with
  | some p => !s.poisoned p 1 && (smFind s.ms.kept (keptKey z.seq p)).isNone && !s.otherBefore y.id (lineOf p) z.seq && (s.sgbFind y.core (lineOf p)).isNone
  | none => false
theorem test_hyp_CopyKindsWriteLines :
    firstLine zCopy .cpyz (fun _ _ _ all => all.all fun b => decide (all.countP (fun c => c.1 = b.1) = 1)) = true
      ∧ firstLine cCopy .cpy (fun y z _ all => all.all fun b => readableAt cCopy y z (copySrc y + b.2.2) && !ownDest y (copySrc y + b.2.2)) = true
      ∧ firstLine dCopy .cpy (fun y _ _ all => decide (all ≠ []) && ctlDecomp (copyCtl y) && y.ended) = true
      ∧ firstLine gCopy .cpyg (fun y z _ all => ((List.range 4).all fun i => readableAt gCopy y z (copyIdx y + i))
          && all.all fun b => readableAt gCopy y z (copySrc y + b.2.2) && !ownDest y (copySrc y + b.2.2)) = true
      ∧ firstLine mCopy .mupd (fun y z _ all => let starts := all.filter fun b => b.2.2 % 4 = 0
          decide (starts.length = 32) && starts.all fun b => (List.range 4).all fun i => readableAt mCopy y z (copySrc y + b.2.2 + i)
            && decide (copyAddr (mCopy.crew y.crew) y.pages (elemAddr (copyDst y) 0 (copyDpitch y) b.2.1 (8 * (b.2.2 + i) : Nat)) = some (b.1 + i))
            && !ownDest y (copySrc y + b.2.2 + i)) = true := by
  and_intros <;> decide +kernel
/-- A copy of two slices, each with its future: once no line is left, both end. -/
theorem test_hyp_CopiesOfSeveralSlicesEnd :
    (let s := after (.cpyz 4 10 16) (withK [(16, 2 ^ 32)] twoRows)
     let t := after (.copyLineWrite 0) (after (.copyLineWrite 0) s)
     (t.copies.map fun y => (y.slices.map (·.lines), y.started, y.again, y.waiting)) = [([[], []], true, false, false)]
       ∧ (t.copies.all fun y => match y.slices with
          | [a, b] => decide (a.fut % 64 ≠ b.fut % 64) && (futEntry t.myCrew a.fut).any fun e => (futEntry t.myCrew b.fut).any fun g =>
              decide (e.ctx = g.ctx) && decide (e.reg ≠ g.reg)
          | _ => false) = true
       ∧ futState (fGet (after (.copyEnd 0) t).me 2) = 2 ∧ futState (fGet (after (.copyEnd 0) t).me 4) = 2) := by decide +kernel
/-- 10 R281: the fill pattern, and its end DONE. -/
theorem test_cpyz :
    (let t := after (.copyEnd 0) (after (.copyLineWrite 0) zCopy)
     t.copies = [] ∧ (List.range 4).map (fun i => memByte t.mem (0x40000 + i)) = [0xDD, 0xCC, 0xBB, 0xAA] ∧ futState (fGet t.me 2) = 2) := by decide +kernel

/-! ### Collectives, futures, barriers, launches -/

def comm0 : Communicator :=
  { handle := 1, key := 7, nranks := 2, rank := 0, tctx := 0, tenant := 0, clo := 1, chi := 6, mode := 1, delivery := 0, cc := 0, group := true
    ranktab := 0, buf := 0x50000, buflen := 0x1000, stage := 0x52000, enttab := 0x54000, stride := 0, tlate := 1, tfail := 1, agreed := 5
    ready := true, answers := [], mismatch := false, began := 0, lastgen := 0, freeing := false, reports := [], refusals := [] }
/-- A communicator of two, its pages mapped as they are by a table at 0x100000, and a REDUCE of one chunk of lane 0 to rank 1 in k10. -/
def atF : State :=
  let s := withV [(0, 0, 1), (0, 1, 0x50100)] (withK [(10, 0x0001100000000010), (11, 0)] atK)
  let s := s.setMe { s.me with m := [(1, 1)] }
  let t : TlbEntry := { place := .bench 0, tctx := 0, base := 0x50000, leaf := { testLeaf 0x50000 with w := true } }
  let u : State := { s with host := { s.host with ctxTab := [(0, 1), (2, 0x100001), (3, 0x800000), (6, 0x300000000)] }
                            ms := { s.ms with tlb := t :: s.ms.tlb }, fab := { s.fab with comms := [comm0] } }
  ((u.write 0x100000 [1, 0x10, 0x10]).write 0x101000 [1, 0x20, 0x10]).write 0x102000 [7]
def atF1 : State := after (.coll 3 10 0 1) atF
def later (n : Nat) (s : State) : State := { s with dev := { s.dev with time3 := s.dev.time3 + n } }
def part1 : PartialMsg := { key := 7, step := 0, owner := 1, offset := 0x100, chunk := 16, bytes := List.replicate 16 0x11, late := [], failed := false, fcode := 0 }
def atF2 : State := after (.collPartialArrival part1) atF1
theorem test_hyp_CollectivesAreTakenOrTrap :
    (let w := (atF.kv 10).toNat
     let lanes := (List.range (lanesOf atF.me.width)).filter fun l => (heldLanes atF.me 1).getLsbD l
     atF.me.handler = false ∧ atF.part.is384P = false ∧ atF.commByHandle (bitsOf w 63 48) = some comm0 ∧ collBad w = false
       ∧ (0 : BitVec 6).toNat + 2 < atF.myComm.vregs ∧ laneIdle atF.me = true ∧ laneIdle (withEntry atF).me = false ∧ lanes = [0] ∧ collFails comm0 16 (atF.collLane 0 0) = false
       ∧ collFails comm0 16 (atF.collLane 1 0) = true
       ∧ (match atF.collSources 16 [(0, 0x50100)] [] with
           | .inl r => decide (r = (atF, [(0x50, { testLeaf 0x50000 with w := true })]))
           | .inr _ => false) = true
       ∧ atF.countersFree 0 1 = true ∧ (freeIndex atF.myCrew).isSome = true ∧ (∀ o ∈ atF.fab.ops, o.id ≠ atF.fab.nextId)
       ∧ (let ls := [(0x50, { testLeaf 0x50000 with w := true })]
          (∀ j, j < 16 → atF.lineBusy (lineOf (leafAddr atF.myCrew ls (0x50100 + j))) = false
            ∧ atF.freshBad (coreOf atF.cur) (leafAddr atF.myCrew ls (0x50100 + j)) 1 = false)
          ∧ atF.collReady comm0 (dieOf atF.cur) (bitsOf w 39 32) 16 (decide (bitsOf w 47 44 = 1)) [((atF.collLane 0 0).1, 0x100)] = true)
       ∧ (let inside (r : Nat) : Bool := decide (Config.windowBase ≤ r) && decide (Config.windowBase + 128 * atF.myCrew.nLines < r + 128)
          ¬ (2 ^ 57 ≤ (0 : W64).toNat) ∧ 2 ^ 57 ≤ (0x200000000000000 : W64).toNat ∧ (0x1FFFFFFFFFFFFFF : W64).toNat < 2 ^ 57
            ∧ (0x40 : W64).toNat % 128 ≠ 0 ∧ inside (Config.windowBase + 128 * atF.myCrew.nLines) = true ∧ inside 0 = false
            ∧ inside (Config.windowBase + 128 * (atF.myCrew.nLines - 1)) = false ∧ (Config.windowBase + 128 * atF.myCrew.nLines) % 128 = 0
            ∧ Config.windowBase + 128 * atF.myCrew.nLines < 2 ^ 57)) := by decide +kernel
def sendF : State := after (.coll 3 10 0 1) (withK [(10, 0x0001000000000010), (11, 0)] atF)
def lateF : State := later 3000 (after (.collPartialArrival part1) atF)
def endF : State := after (.collFailTimeout 2) (later 3000 atF1)
theorem test_hyp_DroverStepsServeCollectives :
    sendF.fab.ops.map (·.toAck) = [1] ∧ atF.commByKey 7 false = some comm0 ∧ atF.counterOf 1 0 1 0x100 16 = none
      ∧ atF.countersFree (chunkDie 0x100) 1 = true ∧ atF.sendBusy comm0 1 0x100 0 = false
      ∧ (lateF.fab.counters.all fun k => !lateF.flushBusy comm0 k) = true ∧ ((later 3000 atF1).fab.counters.all fun k =>
          !(later 3000 atF1).sendBusy comm0 k.owner k.offset k.step) = true
      ∧ (endF.fab.ops.all fun o => decide (o.locals = []) && decide (endF.collRecordWalk o ≠ some .busy)) = true
      ∧ (atF.commLeaves 0 0 0 .write 0x52100 16).isSome = true ∧ (atF.commLeaves 0 0 0 .write 0x50100 16).isSome = true
      ∧ (lateF.fab.counters.map fun k => k.part && k.own.isNone && !k.flushed && decide (k.partTime + 1000 * comm0.tlate ≤ lateF.time)) = [true]
      ∧ ((later 3000 atF1).fab.counters.map fun k => decide (k.op = some 1) && !k.part
          && decide (k.ownTime + 1000 * comm0.tfail ≤ (later 3000 atF1).time)) = [true]
      ∧ (atF2.fab.counters.map fun k => k.part && k.own.isSome && !k.flushed && !k.sent) = [true]
      ∧ (endF.fab.ops.map fun o => decide (o.id = 1) && !o.waiting && o.toAck = 0 && o.toFold = 0 && o.owned = [] && !endF.collRecordWaits o) = [true] :=
  by and_intros <;> decide +kernel

/-- A packet of rank 1 for communicator 7. -/
def packetOf (k : PacketKind) (msg : Nat) (gen : W32) : FabricPacket :=
  { kind := k, key := 7, msg, total := 16, offset := 0x100, bytes := List.replicate 16 0x11, rank := 1, step := 0, nranks := 2, clo := 1, chi := 6
    mode := 1, caps := [], late := [], failed := false, fcode := 0, gen, reason := 0, source := 9 }
theorem test_hyp_PacketsFollowTheirOrder :
    (let m : Communicator := { comm0 with delivery := 1 }
     let f : Fabric := { atF.fab with comms := [m], rodNext := [(9, 0, 2)] }
     rodPermits f comm0 (packetOf .send 5 0) = true ∧ rodPermits f m (packetOf .send 2 0) = true ∧ (packetOf .send 5 0).msg ≠ rodTurn f 9 (chunkDie 0x100)
       ∧ rodPermits f m (packetOf .result 5 0) = true
       ∧ ({ atF with fab := f } : State).commByKey 7 false = some m
       ∧ atF.awaits comm0 3 = true ∧ atF.awaits { comm0 with lastgen := 3 } 3 = false
       ∧ (packetOf .placed 0 3).rank ≠ comm0.rank ∧ (packetOf .placed 0 3).rank < comm0.nranks ∧ atF.commByKey 7 true = some comm0) := by
  decide +kernel
/-- 15 R418: a packet's bytes land at BUF + OFFSET; 13 R368: a member's report is kept. -/
theorem test_packets :
    (let t := after (.fabricPacketReceive (packetOf .send 0 0)) atF
     memByte t.mem 0x50100 = 0x11 ∧ memByte t.mem 0x5010F = 0x11 ∧ memByte t.mem 0x50110 = 0 ∧ ((after (.fabricPacketReceive (packetOf .placed 0 3)) atF).fab.comms.map (·.reports)) = [[(1, 3)]]) := by
  decide +kernel

/-- A register that holds a future with this state, KIND and STATUS. -/
def withF (st kind status : Nat) (s : State) : State := s.setMe { s.me with f := [(1, futVal st kind 64 status)] }
theorem test_hyp_FutureWordsFollowTheTable :
    (let at_ (st kind status : Nat) : W64 := fGet (withF st kind status atK).me 1
     let cause (st kind status : Nat) (ctl : W64) : Bool := (waitTrap (at_ st kind status) ctl).isSome
     isPending (at_ 1 5 0) = true ∧ futState (at_ 3 1 2) = 3 ∧ futKind (at_ 3 1 2) = 1 ∧ futStatus (at_ 3 1 2) % 2 ^ 16 = 2
       ∧ (∀ p ∈ [(3, 1, 2), (3, 2, 1), (3, 2, 3), (3, 2, 4), (3, 3, 0x1000000), (3, 6, 0x2000000), (3, 4, 0x3000000)], cause p.1 p.2.1 p.2.2 0 = true)
       ∧ cause 2 3 0x100 4 = true ∧ cause 2 7 1 8 = true ∧ cause 2 5 0 0 = false ∧ cause 0 0 0 0 = false ∧ cause 4 8 0 0 = false
       ∧ isPending (fGet zCopy.me 2) = true
       ∧ ((zCopy.copies.find? fun z => decide (z.crew = zCopy.me.crew) && z.slices.any fun u => decide (u.fut = futTag (fGet zCopy.me 2))).map (·.cancelled)) = some false
       ∧ (atB.loomOf atB.myCrew.core atB.me.crew (futTag (fGet atB.me 0))).isSome = true ∧ (futEntry atB.myCrew (futTag (fGet atB.me 0))).isSome = true
       ∧ (let t : State := after (.fsto 9 2) zCopy
          (futEntry t.myCrew (futTag (t.kv 9))).map (·.detached) = some true ∧ isPending (fGet t.me 2) = false ∧ futKind (t.kv 9) ≤ 8
            ∧ futState (t.kv 9) = 1)) := by decide +kernel
theorem test_hyp_BarriersReleaseTogether :
    (let w (x : Wait) : State := atK.setMe { atK.me with wait := x }
     let r : State := atK.setMe { atK.me with control := 2, range := true }
     (0 : Nat) < atK.myCrew.bars.length ∧ (15 : Nat) < atK.myCrew.bars.length ∧ (w (.released 0)).me.wait = .released 0 ∧ (w (.barrier 0)).me.wait = .barrier 0
       ∧ atK.me.wait = .none ∧ laneIdle atK.me = true ∧ laneIdle atM.me = false ∧ (r.me.control.getLsbD 1 && r.me.range) = true
       ∧ (atK.me.control.getLsbD 1 && atK.me.range) = false ∧ atK.me.live = true ∧ (atK.crewCtxs atK.me.crew).length = 1 ∧ atK.readsOut atK.cur = false
       ∧ (let t : State := after (.barnArrive 1 3) (withK [(3, 2)] atK)
          (barrierOf t.myCrew 1).arrived.length = 1 ∧ (barrierOf t.myCrew 1).count ≠ 3)) := by decide +kernel
theorem test_hyp_LaunchesJoinAndBeaconsReach :
    atK.ScalarPasses 0x30000 128 .read false 0x40000 ∧ atK.freshBad 0 0x40000 128 = false ∧ atK.readsOut atK.cur = false
      ∧ (let bytes := atK.readFresh 0 0x40000 128
         bitOf (leNat bytes) 303 = false ∧ atK.myComm.depth < Config.maxDepth ∧ atK.tableFull = false ∧ atK.host.taken.length < Config.heldLaunches
           ∧ (freeIndex atK.myCrew).isSome = true ∧ atK.me.index = 0 ∧ (atK.setMe { atK.me with index := 1 }).me.index ≠ 0)
      ∧ atK.childrenLeft atK.me.crew = false ∧ (atK.die 0).beacons.length < Config.beaconQueue
      ∧ (let t : State := after (.bcn false 1) atK
         (t.beacons.map (·.reached)) = [[]] ∧ (767 : Nat) < Config.benches) :=
  ⟨scalar_passes .read (.inl rfl) 128 (by simp) false, by decide +kernel, by decide +kernel, by decide +kernel, by decide +kernel, by decide +kernel⟩

/-! ### Steps of the device's own units, the scheduler, the host interface -/

/-- A fetch whose page is posted, a skein that has exited, a store in its buffer, an operation that waits for leave. -/
def waitsF : State := { at0 with ms := { at0.ms with tlb := [], walks := [⟨0, 0, 0x10, 0, 0, .posted, [0]⟩] } }
def ending : State := atK.setMe { atK.me with exited := true }
def stored : State := after (.st8 2 1 .plain (.short 0)) atK
def dueF (va : Nat) (s : State) : State := { s with ms := { s.ms with walks := [⟨0, 0, va / 4096, 5, 0, .due, [0]⟩] } }
theorem test_hyp_ContextsMakeTheirOwnSteps :
    (onItsWay atK).me.unret = [⟨true, 1, none⟩] ∧ ((onItsWay atK).bench 0).stopped = false
      ∧ (atK.setMe { atK.me with out := [⟨.g, [], true, false⟩] }).me.out = [] ++ ⟨.g, [], true, false⟩ :: []
      ∧ (later 100000 (atK.setMe { atK.me with branches := [true], branchAt := 0 })).me.branches ≠ []
      ∧ (let u : Unretired := ⟨true, 1, none⟩
         let b : State := (onItsWay atK).setBench 0 { (onItsWay atK).bench 0 with stopped := true }
         (b.bench (benchOf 0)).stopped = true ∧ (u.range = true ∨ u.depth ≠ b.me.mdepth))
      ∧ waitsF.me.live = true ∧ waitsF.me.stopped = false ∧ (waitsF.fetchWait 0).isSome = true
      ∧ (ending.me.live && ending.me.exited && !ending.me.handler && ending.me.pend.isNone && !ending.me.stopped) = true
      ∧ ending.me.queue = [] ∧ ending.me.unret = [] ∧ ending.me.out = [] ∧ ending.me.splits = [] ∧ (ending.commOf 0).drover = none
      ∧ (∀ p ∈ ending.ctxs, p.2.live = true → p.2.crew = 0 → p.1 = 0) ∧ (ending.crew 0).status = .running
      ∧ (∃ o ∈ (after .exit stored).me.out, o.lines ≠ []) := by and_intros <;> decide +kernel
theorem test_hyp_MemoryAndLeaveSteps :
    (let leaf (s : State) : Bool := match (s.dieWalk 0 0 0x50000).1 with
      | .leaf _ => true
      | _ => false
     leaf atF = true ∧ (atF.dieWalk 0 0 0x40000000).1 = .invalid ∧ ((atF.write 0x102000 [0x83]).dieWalk 0 0 0x50000).1 = .malformed
       ∧ (({ atF with ms := { atF.ms with poison := [0x40800] } } : State).dieWalk 0 0 0x50000).1 = .error
       ∧ ((dueF 0x50000 atF).ms.walks.filter fun q => decide (q.die = 0) && decide (q.status = .due)).length = 1
       ∧ atF.tlbAt (.die 0) 0 0x50000 = none
       ∧ (let s := dueF 0x40000000 atF
          let r : State := s.setRing 0 { base := 0x500000, size := 4, head := 0, tail := 0, vec := 0, held := [] }
          s.ringTakes 0 = false ∧ r.ringTakes 0 = true ∧ (r.ring 0).held = [] ∧ (r.dieWalk 0 0 0x40000000).1 = .invalid
            ∧ (∀ i, i < 32 → regionOf ((0x500000 + i) % 2 ^ 44) ≠ .hole))
       ∧ (let s : State := { stored with dev := { stored.dev with cycle := 128 } }
          (s.sgbFind 0 2048).map (fun e => (e.bytes, decide (e.last + 128 ≤ s.dev.cycle))) = some ([(0, 0)], true))
       ∧ ((after (.loomOpStart 0 0) atB).die 0).leaveQ.map (fun r => (r.owner, decide (r.tokens ≤ 450))) = [(.loom 0 0, true)]
       ∧ ((after (.loomOpStart 0 0) atB).die 0).share - 200 - ((after (.loomOpStart 0 0) atB).die 0).granted = 450
       ∧ (let w : MergeWindow := { line := 5, opened := 0, readers := [0], closed := false }
          (64 : Nat) ≥ w.opened + 64 ∧ w.closed = false ∧ [w] = [] ++ w :: [])) := by decide +kernel

/-- A launch packet, its image, and the states that follow: in the table, admitted, placed. -/
def packet0 : List Byte := leBytes 128 (2 ^ 960 + 2 ^ 192 + 2 ^ 208 + 2 ^ 224 + 5 * 2 ^ 256 + 0x60000)
def secT (i off len : Nat) : Nat := off * 2 ^ (128 * i + 64) + len * 2 ^ (128 * i + 128)
def header0 : Nat :=
  0x4E494D44 + 2 ^ 32 + 128 * 2 ^ 48 + secT 0 0x1000 4 + secT 1 0x1000 0 + secT 2 0x1000 0 + secT 3 0x1000 0 + secT 4 0x2000 16 + secT 5 0x1000 0
def imaged : State :=
  let s := (atF.write 0x60000 (leBytes 128 header0)).write 0x62000 (leBytes 16 (5 + 3 * 2 ^ 8 + 2 ^ 16 + 16 * 2 ^ 32))
  let s := s.setCore 0 { CoreSt.reset with tmap := 0x8000 :: List.replicate 15 0 }
  { s with host := { s.host with taken := [{ window := 0, fromLaunch := none, parent := none, bytes := packet0, group := none, valid := true, time := 0 }] }
           dev := { s.dev with ready := true } }
def inTable : State := after .commissionEnterTable imaged
def admitted : State := after .commissionAdmit inTable
theorem test_hyp_LaunchesEnterTheTable :
    packetBad (leNat packet0) false = false ∧ packetBad (leNat (leBytes 128 0)) false = true ∧ bitsOf (leNat packet0) 306 304 = 0
      ∧ imaged.dev.ready = true ∧ ctxFunc (imaged.ctxEntry 0) = 0 ∧ imaged.host.taken.length < Config.heldLaunches ∧ imaged.tableFull = false
      ∧ (∀ o ∈ imaged.comms, o.uid ≠ imaged.nextReady) ∧ (atF.commByKey 7 true).isSome = true ∧ imaged.commByKey 8 true = none
      ∧ bitOf (leNat (leBytes 128 (2 ^ 303))) 303 = true := by decide +kernel
def refuses (s : State) (r : Nat) : Bool := match s.chosen with
  | some m => decide (s.checkAdmit m = .refuse r)
  | none => false
theorem test_hyp_CommissionsAreAdmittedAndPlaced :
    (inTable.chosen.any fun m => inTable.tenantOk m && (match inTable.checkAdmit m with
      | .admitted m1 => decide (m1.uid = m.uid)
      | _ => false)) = true
    ∧ refuses ({ inTable with coreSt := [] } : State) 8 = true ∧ refuses (inTable.write 0x60000 [0]) 2 = true
    ∧ (inTable.comms.map (·.uid)).Nodup
    ∧ ((admitted.comms.filter wantsCrew).map fun m =>
        (firstFit admitted.room (admitted.coresFor m) (linesOf m) m.slots (unitsOf m)).map fun p => p.2.seats.map (·.ctxs)) = [some [[32]]]
    ∧ ((admitted.comms.filter wantsCrew).map fun m => (m.drover, lanesOf m.width, m.multi, linesOf m, m.slots)) = [(none, 32, false, 0, 0)]
    ∧ ((admitted.comms.filter wantsCrew).all fun m => (firstFit admitted.room (admitted.coresFor m) (linesOf m) m.slots (unitsOf m)).any fun p =>
        p.2.seats.all fun q => decide (q.strand + lanesOf m.width / 4 ≤ 64) && decide (q.bench < 4)) = true
    ∧ admitted.restorable = [] ∧ inTable.schedRead 0 0 0 0 = .ok [] ∧ inTable.schedRead 0 0 (2 ^ 57) 8 = .fault
    ∧ (let s : State := { admitted with comms := admitted.comms.map fun m => if m.uid = 1 then { m with state := .ready, waiting := true, coop := true } else m }
       ((s.comms.filter fun o => decide (o.state = .ready) && o.waiting && !o.paging).map fun m =>
          (((s.coopPlan m false).map (·.length)), m.multi, s.aheadOfCoop m)) = [(some 1, false, false)]) :=
  by and_intros <;> decide +kernel

/-- The commission of context 0 about to retire, retired with a record due, at a start barrier; a slot-table write that waits. -/
def draining : State := (ending.setCtx 0 Skein.empty).setComm { (ending.commission 0) with state := .draining }
def recordDue : State := atF.setComm { atF.myComm with state := .retired, recordDue := true, record := 0x50000 }
def atGate : State :=
  let s := imaged.setComm { imaged.myComm with state := .admitted, multi := true, group := 1, gen := 3, reserved := true }
  { s with fab := { s.fab with comms := [{ comm0 with reports := [(1, 3)] }] } }
/-- The same with these refusals, GEN and REASON, in place of the report. -/
def refusedGate (l : List (Nat × Nat)) : State :=
  { atGate with fab := { atGate.fab with comms := [{ comm0 with refusals := l.map fun p => (1, p.1, p.2) }] } }
theorem test_hyp_StartBarriersCompleteOrEnd :
    (let placed (s : State) : Bool := (s.commByHandle 1).any fun cm => (List.range cm.nranks).all fun r => r = cm.rank || cm.reports.contains (r, 3)
     let late (s : State) : Bool := (s.comms.find? (atBarrier 1)).any fun m => decide (m.taken + 100000000 ≤ s.dev.time3 / 3)
     placed atGate = true ∧ (atGate.fab.comms.map (·.refusals)) = [[]] ∧ late (later 300000000 atGate) = true ∧ placed (later 300000000 atGate) = true
       ∧ placed (refusedGate []) = false ∧ late atGate = false ∧ late (later 300000000 (refusedGate [])) = true
       ∧ ((refusedGate [(3, 10), (2, 11)]).fab.comms.map fun cm => cm.refusals.map fun p => (decide (p.2.1 = 3), p.2.2)) = [[(true, 10), (false, 11)]]
       ∧ ((after (.startBarrierComplete 1 3) atGate).comms.map fun m => (m.state, m.startOk)) = [(.running, true)]
       ∧ ((after (.startBarrierTimeout 1 true) (refusedGate [(3, 10)])).comms.map fun m => (m.state, m.reason)) = [(.withdrawn, 10)]
       ∧ ((after (.startBarrierTimeout 1 false) (later 300000000 (refusedGate []))).comms.map fun m => (m.state, m.reason)) = [(.withdrawn, 11)]) := by
  decide +kernel
theorem test_hyp_CommissionsEndWithTheirRecords :
    (draining.findComm ⟨0, 1⟩).any (fun m => decide (m.state = .draining) && !draining.childOpen m && !draining.opsOpen m) = true
      ∧ (recordDue.comms.find? fun o => decide (o.key = ⟨0, 1⟩) && o.recordDue).any (fun m => !m.paging && decide (m.record = (0x50000 : W64))
          && (match recordDue.dieView 0 0 0x50000 with
            | .leaf l => pageOk l .write 0 0x50000 && !recordDue.lineBusy (lineOf (l.phys 0x50000))
            | _ => false)) = true
      ∧ (atGate.comms.find? fun o => atBarrier 1 o && decide (o.gen = 3)).isSome = true ∧ atGate.dev.ready = true
      ∧ (let c := (after (.slotTableWrite 0 0x5E 0xFFFF) atGate).core 0
         c.later = [(64, 0x5E, 0xFFFF)] ∧ c.slottab.length = 64 ∧ c.tmap.length = 16
           ∧ (let s := (after (.slotTableWrite 0 0x5E 0xFFFF) atGate)
              let t : State := { s with dev := { s.dev with cycle := 64 } }
              64 ≤ t.dev.cycle ∧ (t.tables 0).tmap[15]? = some 0xC0FF ∧ (s.tables 0).tmap[15]? = some 0)) :=
  by and_intros <;> decide +kernel
/-- Asked to stop with the budget at its end, its region committed or not. -/
def budget (b : Bool) : State := atK.setMe { atK.me with preempt := some 0, region := { atK.me.region with committed := b } }
theorem test_hyp_BudgetEndStopsOrDiscards :
    (∀ b, ((budget b).crewCtxs 0).filter (budget b).budgetDue = [0] ∧ (budget b).me.region.committed = b)
      ∧ (budget false).me.handler = false ∧ (budget false).me.wait = .none ∧ (budget false).me.exited = false
      ∧ (∀ p ∈ ((budget false).loom 0).ops, p.2.region ≠ (budget false).me.region.serial) := by decide +kernel
/-- A crew that has stopped to be saved, with one buffer in its die's pool; and the same crew saved. -/
def stopping : State :=
  let s := imaged.setMe { imaged.me with stopped := true, unret := [], queue := [] }
  (s.setCrew 0 { s.crew 0 with saveKind := 2 }).setDie 0 { s.die 0 with pool := [0x800000] }
def saved1 : State :=
  let s := { stopping with ctxs := [], crews := [(0, { stopping.crew 0 with status := .readyAgain, saveKind := 0 })] }
  let v : SavedCrew := { crew := 0, was := stopping.crew 0, addr := 0x800000, kind := 2, skeins := [(0, stopping.me)], copies := [], beams := [], regs := [], gens := [], held := false }
  { s with host := { s.host with saved := [v] }, comms := s.comms.map fun m => { m with diemask := 15 } }
theorem test_hyp_CrewsAreSavedAndRestored :
    State.FitsImage stopping 0 ∧ (0x800000 : Nat) % Config.physEnd + 0x400000 ≤ Config.hbmEnd
      ∧ (let r : State := stopping.setRing (faultRing (crewDie (stopping.crew 0))) { base := 0x2000000, size := 16, head := 0, tail := 0, vec := 0, held := [] }
         (r.ring (faultRing (crewDie (r.crew 0)))).base.toNat + 32 * 2 ^ 16 ≤ Config.physEnd ∧ 0x800000 + 0x400000 ≤ (r.ring (faultRing (crewDie (r.crew 0)))).base.toNat
           ∧ r.saveReady 0 = true) ∧ stopping.ms.sgb = []
      ∧ stopping.crewCtxs 0 = [0] ∧ (∃ cs : List Nat, cs.Perm (stopping.crewCtxs 0) ∧ cs.Pairwise (fun a b => (stopping.ctx a).index < (stopping.ctx b).index))
      ∧ saved1.usedSeqs (fun k _ => decide (k = 0)) = []
      ∧ (saved1.restorable.all fun v => (saved1.spotFor v).all fun p => (movesOf v p.2).all fun m => m.ctxs.all fun c =>
          decide (bitsOf (leNat (saved1.devRead (v.addr + 0x1000 + 0x2000 * (smGet Skein.empty v.skeins c.1).index + 0x248) 8)) 5 4 ≠ 2)) = true
      ∧ stopping.saveReady 0 = true ∧ (saved1.restorable.map fun v => (v.crew, v.addr, v.kind)) = [(0, 0x800000, 2)]
      ∧ (saved1.restorable.map fun v => (saved1.spotFor v).map fun p => ((movesOf v p.2).flatMap fun m => m.ctxs.map (·.2)).length) = [some 1]
      ∧ saved1.comms.filter wantsCrew = [] ∧ (saved1.die 0).pool.length < 1024 := by
  refine ⟨by unfold State.FitsImage; decide +kernel, by decide +kernel, by decide +kernel, by decide +kernel, by decide +kernel, ⟨[0], ?_, by decide +kernel⟩, ?_⟩
  · rw [show stopping.crewCtxs 0 = [0] by decide +kernel]
  · and_intros <;> decide +kernel
/-- The PF's command ring at 0x200000, of 16 entries, with one entry of these 64 bytes. -/
def commanded (v : Nat) : State :=
  let s := imaged.write 0x200000 (leBytes 64 v)
  { s with host := { s.host with cmd := [(0, { base := 0x200000, size := 4, tail := 1, head := 0, vec := 0 })] } }
theorem test_hyp_CommandsCompleteWithTheirCodes :
    (∀ v ∈ [9, 1, 2 + 2 ^ 96, 3, 4, 5, 6, 7, 8 + 2 ^ 64], (commanded v).nextCmd 0 = some (0x200000, v)) ∧ imaged.dev.ready = true
      ∧ (let u (v : Nat) : State := (commanded v).takeCmd 0
         argsOk (2 + 2 ^ 96) [(8, 2), (12, 4)] = true ∧ (u 1).mayName 0 0 = true ∧ (u 1).findComm ⟨0, 0⟩ = none ∧ ((u 1).findComm ⟨0, 1⟩).isSome = true
           ∧ (∀ o ∈ imaged.comms, o.uid < imaged.nextReady) ∧ (u 8).commByHandle 1 = some comm0 ∧ (u 8).commByHandle 2 = none) :=
  by and_intros <;> decide +kernel
/-- A page request of context 0, posted, for a walk that waits; and the answer RETRY. -/
def asks0 (page : Nat) (s : State) : State := { s with ms := { s.ms with walks := s.ms.walks ++ [⟨0, 0, page, 0, 0, .posted, [0]⟩] } }
def retry0 (page : Nat) : State := asks0 page (commanded (6 + page * 2 ^ 128))
theorem test_hyp_PreemptAndPageResponse :
    (∀ v ∈ [3, 3 + 2 ^ 96, 3 + 3 * 2 ^ 80 + 2 ^ 96, 3 + 2 ^ 80], preemptOk v = true ∧ (commanded v).nextCmd 0 = some (0x200000, v))
    ∧ (let u := (commanded 3).takeCmd 0
       u.mayName 0 0 = true ∧ u.mayName 0 5 = false ∧ u.findComm ⟨0, 0⟩ = none
         ∧ (u.findComm ⟨0, 1⟩).any (fun m => u.crews.any fun p => decide (p.2.comm = m.uid) && decide (p.2.lin = 0) && decide (p.2.status ≠ .ended)) = true
         ∧ (u.namedCrews 0 0 ((u.findComm ⟨0, 1⟩).map (·.uid))).length = 1 ∧ (u.commission (u.crew 0).comm).drover = none)
    ∧ argsOk (6 + 0x50 * 2 ^ 128) [(8, 2), (10, 1), (16, 8)] = true
    ∧ (∀ p ∈ [0x50, 0x40000], let s := retry0 p
        s.nextCmd 0 = some (0x200000, 6 + p * 2 ^ 128) ∧ (s.takeCmd 0).mayName 0 0 = true
          ∧ (s.ms.walks.filter fun q => decide (q.tctx = 0) && decide (q.page = p) && decide (q.status = .posted)) = [⟨0, 0, p, 0, 0, .posted, [0]⟩])
    ∧ (match ((retry0 0x50).takeCmd 0).dieWalk 0 0 0x50000 with | (.leaf _, _) => true | _ => false) = true
    ∧ (((retry0 0x40000).takeCmd 0).dieWalk 0 0 0x40000000).1 = .invalid
    ∧ ((((retry0 0x50).write 0x102000 [0x83]).takeCmd 0).dieWalk 0 0 0x50000).1 = .malformed
    ∧ ((({ retry0 0x50 with copies := [owner 0x2040] } : State).takeCmd 0).dieWalk 0 0 0x50000).1 = .busy := by
  and_intros <;> decide +kernel
/-- A descriptor with a rank table at this address. -/
def desc0 (ranktab : Nat) : Nat :=
  5 + 2 * 2 ^ 64 + 2 ^ 144 + 6 * 2 ^ 152 + ranktab * 2 ^ 192 + 0x1000 * 2 ^ 320 + 2 ^ 544 + 2 ^ 576
theorem test_hyp_SetUpNeedsItsRankTable :
    (let s (r : Nat) : State := (commanded (7 + 0x70000 * 2 ^ 64)).write 0x70000 (leBytes 128 (desc0 r))
     let u (r : Nat) : State := (s r).takeCmd 0
     (s 0x50000).nextCmd 0 = some (0x200000, 7 + 0x70000 * 2 ^ 64) ∧ argsOk (7 + 0x70000 * 2 ^ 64) [(8, 8)] = true
       ∧ leNat ((u 0x50000).devRead 0x70000 128) = desc0 0x50000 ∧ commDescOk (desc0 0x50000) = true ∧ commDescOk (desc0 0x50000 + 2 ^ 96 * 9) = false
       ∧ (u 0).mayName 0 (cmdField (desc0 0) 16 2) = true ∧ (s 0x50000).rangeBusy 0x70000 128 = false
       ∧ (∀ r ∈ [0x50000, 0x40000000, 0x50004], (u r).rankWaits (desc0 r) = false) ∧ (u 0).rankPages 0 0 0x50000 128 = none ∧ (u 0).rankPages 0 0 0x40000000 128 = some (some 0x40000000)
       ∧ (u 0).rankPages 0 0 0x50004 128 = some none ∧ (u 0).freeHandle = some 2) := by decide +kernel
/-- A tagged word whose record may be written, and one that has not completed. -/
def tagged0 (left : Nat) : Assay :=
  { lw := 0x11000, tissue := 7, comm := 1, tenant := 0, ctx := 0, active := 32, passes := 1, trapped := false, stopped := false, level := 0, left }
theorem test_hyp_BenchesSpreadAndSample :
    (let s : State := imaged.setBench 767 { imaged.bench 767 with trsize := 12, assize := 26, packets := [[1, 2]], trbase := 0x300000, asbase := 0x400000,
                                                                  tagged := [tagged0 1, tagged0 0] }
     let o : State := imaged.setBench 766 { imaged.bench 766 with stopped := true, spreading := 1 }
     [tagged0 1, tagged0 0] = [tagged0 1] ++ tagged0 0 :: [] ∧ (tagged0 1).left ≠ 0 ∧ (tagged0 0).left = 0
       ∧ s.rangeBusy 0x400000 64 = false ∧ (∀ i, i < 2 → s.rangeBusy (0x300000 + 8 * i) 8 = false) ∧ s.rangeBusy 0 0x93000 = false
       ∧ (o.bench 767).stopped = false ∧ spreads 1 766 767 = true ∧ o.dev.time3 / 3 ≤ (o.bench 766).stoptime.toNat + 1500
       ∧ (o.bench 767).stopcause ≠ 5
       ∧ ((after (.assayRecord 767) s).bench 767).tagged = [tagged0 1]) := by decide +kernel
theorem test_hyp_DebugBlocksStopTraceAndSample :
    (let s : State := imaged.setBench 767 { imaged.bench 767 with trsize := 12, assize := 26, packets := [[1, 2]], trbase := 0x300000, asbase := 0x400000 }
     let d : State := after (.dbgStop 767) s
     (767 : Nat) < 768 ∧ s.dev.ready = true ∧ (s.bench 767).stopped = false ∧ (d.bench 767).stopped = true ∧ (d.bench 767).held = []
       ∧ (∀ p ∈ d.dumpAreas 767, p.1 + p.2.length ≤ 0x93000)
       ∧ (let free := 2 ^ 12 - ((s.bench 767).trwptr.toNat + 2 ^ 12 - (s.bench 767).trrptr.toNat % 2 ^ 12) % 2 ^ 12
          8 * 2 + 8 ≤ free ∧ (s.bench 767).lost = 0)
       ∧ ((0 : Nat) + 64) % 2 ^ 26 ≠ 0 ∧ (2 ^ 26 - 64 + 64) % 2 ^ 26 = 0) := by decide +kernel
/-- Writes that a stopped bench holds, of each kind; two of one register, the later one standing. -/
theorem test_hyp_HeldWritesWait :
    (let h (ctx kind reg : Nat) (v : W64) : Held := { ctx, kind, reg, value := v, producer := ⟨0, 0⟩, lane := decide (kind = 5), ready := true, lanes := 1 }
     let hs := [h 0 0 3 1, h 0 0 3 2, h 0 2 1 7, h 0 5 4 9, h 0 16 0 1, h 0 17 0 2]
     let s : State := { (imaged.stopBench 0 0) with benches := (imaged.setBench 0 { (imaged.stopBench 0 0).bench 0 with held := hs }).benches }
     (∀ x ∈ (s.bench 0).held, x.ctx < 32) ∧ (s.bench 0).stopped = true ∧ (s.bench 0).held = [h 0 0 3 1] ++ h 0 0 3 2 :: (hs.drop 2)
       ∧ (∀ q ∈ hs.drop 2, ¬ (q.kind = 0 ∧ q.ctx = 0 ∧ q.reg = 3))
       ∧ kGet ((after (.dbgResume 0) s).ctx 0) 3 = 2 ∧ ((after (.dbgResume 0) s).ctx 0).range = true) := by decide +kernel
theorem test_hyp_DeviceStepsKeepTheirLimits :
    at0.dev.thermal = false ∧ at0.dev.ready = false ∧ imaged.dev.ready = true ∧ at0.dev.clamp = false ∧ (after .powerClamp at0).dev.clamp = true
      ∧ (at0.comms.map (·.uid)).Nodup ∧ (∀ m ∈ at0.comms, m.uid < at0.nextReady) ∧ imaged.dev.meas.length = 4
      ∧ at0.scrubs 0 1 (2 ^ 44) = true ∧ (at0.die 0).ce.length = 8 ∧ (at0.die 3).ue.length = 8
      ∧ (200 + 650 + 650 + 650 ≤ 2600) ∧ 2600 < 800 + 650 + 650 + 650 := by decide +kernel
theorem test_hyp_ScrubsFindCachesAndRegisters :
    (let s : State := { atK with ms := { atK.ms with l1 := [{ core := 0, line := 2048, data := [] }] } }
     let l := cacheCells 0 0 2048
     s.scrubs 0 0 l = true ∧ at0.scrubs 0 0 l = false ∧ l ∈ s.cachedCells ∧ at0.scrubs 0 6 0 = true ∧ (after (.patrolScrub 0 0 l .uncorrectable) s).ms.l1 = []
       ∧ (after (.patrolScrub 0 6 0 .uncorrectable) at0).ms.badRegs = [0] ∧ (after (.patrolScrub 0 6 0 .uncorrectable) at0).ctxs = at0.ctxs) := by decide +kernel
/-- The worked example of the SM2 signature standard (GM/T 0003.5; PRESUMED, log 15): public key, signed bytes, digest, signature. -/
def bootKey0 : BitVec 512 := 0x09F9DF311E5421A150DD7D161E4BC5C672179FAD1833FC076BB08FF356F35020CCEA490CE26775A52DC6EA718CC1AA600AED05FBF35E084A6632F6072DA9AD13
def stage0 : BootStage :=
  { image := beBytes 32 0xB2E14C5C79C6DF5B85F4FE7ED8DB7A262B9DA7E07CCB0EA9F4747B8CCDA8A4F3 ++ beBytes 14 0x6D65737361676520646967657374
    signature := 0xF5A03B0648D2C4630EEAC513E1BB81A15944DA3827D5B74143AC7EACEEE720B3B1B6AA29DF212FD8763182BC0D421CA1BB9038FD1F7F42D4840B69C485BBC1AA
    version := 5 }
theorem test_sm2 :
    sm3 stage0.image = 0xF0B43E94BA45ACCAACE692ED534382EB17E6AB5A19CE7B31F4486FDFC0D28640
      ∧ sm2Accepts bootKey0 0xF0B43E94BA45ACCAACE692ED534382EB17E6AB5A19CE7B31F4486FDFC0D28640 stage0.signature = true
      ∧ sm2Accepts bootKey0 0xF0B43E94BA45ACCAACE692ED534382EB17E6AB5A19CE7B31F4486FDFC0D28641 stage0.signature = false := by decide +kernel
/-- The reset part's key has signatures: r = e + x1 and s = (k - r) / 2 for the private key 1 and k = 0x123456789ABCDEF0 (log 15). -/
theorem test_reset_part_boots :
    sm2Accepts Part.full.bootKey (sm3 stage0.image)
      0x6F6891F45C40409220396CF31C4023074989C2F964497842EFD5A3FCF481AF9CC84BB704D1DFDFB6EFE3498671DFEE7BCD3EFDEE6FA14909E4EB4D470CF2D8CD = true := by decide +kernel
theorem test_hyp_BootStagesPass :
    (let s : State := { State.reset with part := { State.reset.part with bootKey := bootKey0, rollback := 5 } }
     (sm2Accepts s.part.bootKey (sm3 stage0.image) stage0.signature && decide (s.part.rollback ≤ stage0.version)) = true
       ∧ s.dev.thermal = false) := by decide +kernel
/-- 17 R447: the nonce's second word, and a 32-bit write of a vector's control (15 R474). -/
theorem test_mailbox_and_vector_control :
    (let t := after (.registerWrite 0 0x60008 0x1234) imaged
     t.host.mailNonce = 0x12340000000000000000 ∧ (imaged.vector 0 1).masked = true
       ∧ ((after (.registerWrite 0 0x30001C 0) imaged).vector 0 1).masked = false
       ∧ ((after (.registerWrite 0 0x30001C 1) imaged).vector 0 1).masked = true) := by decide +kernel
theorem test_hyp_RegistersAndAperturesAnswer :
    imaged.dev.ready = true ∧ at0.dev.ready = false ∧ ((imaged.cmdRing 64).head = (imaged.cmdRing 64).tail) ∧ ringLog (commanded 1 |>.cmdRing 0).size = some 4
      ∧ regionOf 0 ≠ .hole ∧ regionOf (2 ^ 42) = .host ∧ (imaged.die 3).pool.length < 1024 ∧ (imaged.ring 7).held = []
      ∧ (imaged.lineTag 0 0).getD 0 = 1 ∧ (imaged.lineTag 0 31).getD 0 = 1 ∧ (imaged.lineTag 0 32).getD 0 ≠ 1 := by decide +kernel
theorem test_hyp_EveryStepKeepsStorageCanonical : State.reset.MemOk ∧ atF.MemOk ∧ ∃ t, step State.reset = .next t :=
  ⟨by unfold State.MemOk; decide, by unfold State.MemOk; decide +kernel, _, rfl⟩
theorem test_hyp_DecodingUndoesEncoding :
    (Instr.vfma { op0 with ty := .f32, dst := 255, s1 := 255, s2 := 1, s3 := 10, sq := 2, neg := 4, msel := 15 }).wf = true
      ∧ (∃ w, encode (.addi 63 1 (.long 0x80000000)) = some (64, w)) ∧ (Instr.addi 63 1 (.long 0x80000000)).wf = true
      ∧ (∃ w, encode (.eretSkip) = some (32, w)) ∧ isEvent .eretSkip = false :=
  ⟨by decide, ⟨_, rfl⟩, by decide, ⟨_, rfl⟩, by decide⟩
theorem test_hyp_AStepRunsTheDecodedInstruction :
    (let s : State := State.reset.withFetchWord 64 0x0000000123FC4001
     let f : State := State.reset.withFetchWord 96 0x600000001008000000200000
     s.dev.thermal = false ∧ s.late = [] ∧ s.agenda = [.scalar 0] ∧ (({ s with agenda := [] } : State).select (.scalar 0)).isSome = true
       ∧ inSec (s.codeRange 0) testCtrl 8 = true ∧ f.agenda = [.lane 0] ∧ (({ f with agenda := [] } : State).select (.lane 0)).isSome = true
       ∧ s.ms.badRegs = [] ∧ (({ s with ms := { s.ms with badRegs := [kWord 0 1] } } : State).scalarBad 0 (.mov 2 1)) = true
       ∧ s.deniedFetch 0 false testCtrl = none ∧ (s.tlbAt (.bench 0) (s.commOf 0).key.ctx testCtrl).any (fun l => l.x && decide (l.phys testCtrl % 4 = 0)
           && pageOk l .fetch (s.commOf 0).tenant testCtrl && !s.poisoned (l.phys testCtrl) 4 && !s.lineBusy (lineOf (l.phys testCtrl))) = true ∧ s.ms.ic = []) := by
  decide +kernel
/-- The turns of R334: the word at the PC is a load that may wait, or its lanes' are, and what waits may be performed. -/
theorem test_hyp_TurnsThatLeaveAccessesWaiting :
    (let s := behind (waitingLoad (2 ^ 44 + 8) 4)
     let f : State := State.reset.withFetchWord 96 0x600000001008000000200000
     let u : State := s.passLate (.late 0)
     (u.select (.scalar 0)).any (fun y => match y.nextScalar 0 with | .instr _ i => (memWord i).isSome | _ => false) = true ∧ u.late.length = 1
       ∧ (((({ f with agenda := [] } : State).passLate (.lateLane 0)).select (.lane 0)).any fun y =>
            match y.nextLane 0 with | .instr _ i => (memWord i).isNone && (laneMem i).isSome | _ => false) = true
       ∧ (s.passLate (.perform 0 0)).late[0]? = some (waitingLoad (2 ^ 44 + 8) 4)
       ∧ (s.passLate (.perform 0 0)).mayPerform 0 (waitingLoad (2 ^ 44 + 8) 4)
           (fun p => p.scope.any fun sc => (s.passLate (.perform 0 0)).reaches p.ctx sc 0) = true) := by decide +kernel

theorem test_hyp_UndefinedWordsTrap :
    (decodeScalar 0 0 = .illegal 1 ∧ decodeScalar 0xFFFFFFFF 0 = .illegal 1 ∧ decodeScalar 0x04000017 0 = .illegal 1 ∧ decodeScalar 0x04000116 0 = .illegal 2
      ∧ decodeScalar 0x30000040 0 = .illegal 2 ∧ decodeScalar 0x48003C14 0 = .illegal 1 ∧ decodeScalar 0x11000000 0 = .illegal 2
      ∧ decodeScalar 0x15000000 0 = .illegal 3 ∧ decodeScalar 0x14040001 0 = .illegal 3 ∧ decodeLane 16 0 = .illegal 1 ∧ decodeLane 16 (0x6D * 2 ^ 88) = .illegal 1)
    ∧ (let s : State := State.reset.withFetchWord 32 0
       let f : State := State.reset.withFetchWord 96 0
       s.agenda = [.scalar 0] ∧ (({ s with agenda := [] } : State).select (.scalar 0)).isSome = true ∧ inSec (s.codeRange 0) testCtrl 4 = true
         ∧ inSec (s.codeRange 0) (testCtrl - 4) 4 = false ∧ inSec (s.codeRange 0) (testCtrl + 4096) 4 = false ∧ inSec (s.codeRange 0) (testCtrl + 4092) 4 = true
         ∧ (({ f with agenda := [] } : State).select (.lane 0)).isSome = true) := by
  constructor <;> decide +kernel

end Sys2Proof.Tests
end

section
/-! PROOFS. Scalar integer division (05 R122, R123). -/

namespace Sys2Proof.Machine

/-! ## Words that write one k-register -/

/-- The frame of every word with a k-register result, once for all values and lengths: a word whose meaning is to write it completes, in every
state, and changes nothing else. -/
theorem writesK_of_result {i : Instr} {s : State} {d : KReg} {v n : W64} (h : exec i s = .next (s.result d v n)) :
    WritesK i s d v n := by
  refine ⟨s.result d v n, h, ⟨rfl, fun _ hc => State.ctx_result_ne s d v n hc, fun _ => rfl⟩, ?_, State.kv_result s d v n⟩
  rw [State.me_result, moveTo_eq, kSet_eq]
  rfl

/-! ## The quotients and remainders of R123 as operations on words -/

/-- A signed word is the wrapped integer that it stands for. -/
theorem wrap64_eq_of_toInt {x : Int} {w : W64} (h : w.toInt = x) : wrap64 x = w := by
  rw [wrap64, ← h, BitVec.ofInt_toInt]

/-- The quotient of the most negative word by -1 leaves the signed range, and both sides wrap it: so the two are compared modulo 2^64. -/
theorem wrap64_tdiv (x y : W64) : wrap64 (x.toInt.tdiv y.toInt) = x.sdiv y := by
  apply BitVec.eq_of_toInt_eq
  rw [wrap64, BitVec.toInt_ofInt, BitVec.toInt_sdiv]

theorem quotS_eq_sdiv (x y : W64) : quotS x y = if y = 0 then BitVec.allOnes 64 else x.sdiv y := by
  rw [quotS, wrap64_tdiv]

/-- What the truncated quotient leaves is the remainder with the dividend's sign. -/
theorem remS_eq_srem (x y : W64) : remS x y = if y = 0 then x else x.srem y := by
  have htmod : (x.srem y).toInt = x.toInt - x.toInt.tdiv y.toInt * y.toInt := by
    rw [BitVec.toInt_srem, Int.tmod_def, Int.mul_comm]
  rw [remS, wrap64_eq_of_toInt htmod]

theorem quotN_eq_udiv (x y : W64) : quotN x y = if y = 0 then BitVec.allOnes 64 else x / y := by
  rw [quotN, BitVec.udiv_def]

theorem remN_eq_umod (x y : W64) : remN x y = if y = 0 then x else x % y := by
  have hmod : x.toNat - x.toNat / y.toNat * y.toNat = (x % y).toNat := by
    rw [BitVec.toNat_umod, Nat.mod_eq_sub_div_mul]
  rw [remN, hmod, BitVec.ofNat_toNat, BitVec.setWidth_eq]

/-! ## The division words -/

/-- Settles O1: each division word writes its quotient or remainder, which is the corresponding operation on words. -/
theorem divisionRoundsTowardZero : Obligations.DivisionRoundsTowardZero := by
  unfold Obligations.DivisionRoundsTowardZero
  intro s d a b x y
  have hdiv : WritesK (.div d a b) s d (quotS x y) 4 := writesK_of_result rfl
  have hrem : WritesK (.rem d a b) s d (remS x y) 4 := writesK_of_result rfl
  have hdivn : WritesK (.divn d a b) s d (quotN x y) 4 := writesK_of_result rfl
  have hremn : WritesK (.remn d a b) s d (remN x y) 4 := writesK_of_result rfl
  rw [quotS_eq_sdiv] at hdiv
  rw [remS_eq_srem] at hrem
  rw [quotN_eq_udiv] at hdivn
  rw [remN_eq_umod] at hremn
  exact ⟨hdiv, hrem, hdivn, hremn⟩

end Sys2Proof.Machine
end

section
/-! PROOFS. Lane words that complete in the turn in which they issue, and memory words with no active lane (07 R172; 08 R225). -/

namespace Sys2Proof.Machine

/-! ## Lane words that complete in the turn in which they issue -/

/-- The lanes move on by the queue and, where a loop ends, by the mask stack that its trips have left (R152, R157). -/
theorem laneNext_eq (x : Skein) : laneNext x = { x with queue := (laneNext x).queue, stack := (laneNext x).stack } := by
  unfold laneNext cutTo
  split
  · rfl
  · split
    · rfl
    · split
      · rfl
      · split <;> rfl
      · rfl

/-- The branch outcomes that the trace collects are the scalar stream's. -/
@[simp] theorem laneStep_branches (range : Bool) (awaits : Option Path) (x : Skein) :
    (laneStep range awaits x).branches = x.branches := by
  rw [laneStep, laneNext_eq]
@[simp] theorem laneStep_branchAt (range : Bool) (awaits : Option Path) (x : Skein) :
    (laneStep range awaits x).branchAt = x.branchAt := by
  rw [laneStep, laneNext_eq]

/-- Counting a lane word for assay sampling touches the debug block only (R438, R439). -/
theorem State.assay_frame (s : State) (act : W64) (passes level : Nat) (trapped : Bool) :
    s.assay act passes level trapped = { s with benches := (s.assay act passes level trapped).benches } := by
  unfold State.assay
  dsimp only
  split
  · rfl
  · split <;> rfl

@[simp] theorem State.assay_cur (s : State) (act : W64) (passes level : Nat) (trapped : Bool) :
    (s.assay act passes level trapped).cur = s.cur := by
  rw [State.assay_frame]
@[simp] theorem State.assay_me (s : State) (act : W64) (passes level : Nat) (trapped : Bool) :
    (s.assay act passes level trapped).me = s.me := by
  rw [State.assay_frame]
  rfl

/-- A word whose meaning is to issue and complete in one turn changes its own context and the debug block, and its lanes stand at the next
word. -/
theorem laneCompletes_of_laneDone {i : Instr} {s : State} {act : W64} {range : Bool} {passes level : Nat}
    (h : exec i s = .next (s.laneDone act range passes level)) : LaneCompletes i s range s.me := by
  rw [State.laneDone, State.assay_frame] at h
  refine ⟨_, h, rfl, fun c hc => State.ctx_setMe_ne _ _ hc, ?_⟩
  simp only [State.laneEnd, State.me_setMe, laneStep_branches, laneStep_branchAt]
  rfl

/-! ## Memory words with no active lane -/

theorem lanesIn_zero (w : Nat) : lanesIn w 0 = [] := by simp [lanesIn]

section NoActiveLane
variable {s : State} {o : LaneOp} (hact : s.act o.msel = 0)
include hact

/-- R225 for every load, store and atomic: that no lane is active is found before the word counts, translates or performs anything. -/
theorem State.laneWord_of_act_zero (f : MemForm) (perform : State → List (Nat × Nat) → Performed) :
    s.laneWord o f perform = .next (s.laneDone 0 false) := by
  simp only [State.laneWord, hact, if_true]

theorem State.atomicWord_of_act_zero (path : Path) :
    s.atomicWord o path = s.cvecGate (floatAtomic o) 0 (.next (s.laneDone 0 false)) := by
  rw [State.atomicWord, State.laneWord_of_act_zero hact, hact]

theorem execVpre_of_act_zero : execVpre o s = .next (s.laneDone 0 false) := by
  simp only [execVpre, hact, lanesIn_zero, List.map_nil, List.any_nil, List.foldl_nil]
  rfl

/-- The lanes that a VDEC decodes for may be more than those that issue again; with none to issue it completes either way. -/
theorem execVdec_of_act_zero : execVdec o s = .next (s.laneDone 0 false) := by
  simp only [execVdec, hact, lanesIn_zero]
  cases lanesIn s.w (s.actAll o.msel) <;> rfl

theorem execVrng_of_act_zero :
    execVrng o s = s.cvecGate (immBits o 1 0 = 0 && decide (o.ty = .f32)) 0 (.next (s.laneDone 0 false)) := by
  simp only [execVrng, hact, lanesIn_zero, List.foldl_nil]

end NoActiveLane

/-- A word with nothing to do behind the gate of R88 completes, unless it is a floating-point form under an emulated vector unit, which
traps. -/
theorem completes_or_traps_of_cvecGate {i : Instr} {s : State} {fp : Bool}
    (h : exec i s = s.cvecGate fp 0 (.next (s.laneDone 0 false))) :
    (fp = false ∨ s.capCode 3 ≠ 1 → LaneCompletes i s false s.me)
      ∧ (fp = true → s.capCode 3 = 1 → TrapsWhole i s .illegal 0x103 0 0) := by
  constructor
  · intro hopen
    have hgate : ¬ (fp && decide (s.capCode 3 = 1)) = true := by
      rcases hopen with hfp | hcap
      · simp [hfp]
      · simp [hcap]
    rw [State.cvecGate, if_neg hgate] at h
    exact laneCompletes_of_laneDone h
  · intro hfp hcap
    have hgate : (fp && decide (s.capCode 3 = 1)) = true := by simp [hfp, hcap]
    rw [State.cvecGate, if_pos hgate, State.trapWhole, State.trapWord, State.assay_cur, State.assay_me] at h
    exact h

/-- Settles O27: with no active lane a memory word completes as it issues, whatever its kind, and only the gate of R88 stands before an atomic
and a draw. -/
theorem memoryWordsWithoutLanesDoNothing : Obligations.MemoryWordsWithoutLanesDoNothing := by
  unfold Obligations.MemoryWordsWithoutLanesDoNothing
  intro s o hact
  have hlanes {f : MemForm} {perform : State → List (Nat × Nat) → Performed} := State.laneWord_of_act_zero hact f perform
  have hatomic (path : Path) : s.atomicWord o path
      = s.cvecGate (decide (8 ≤ immBits o 18 15 ∧ immBits o 18 15 ≤ 12)) 0 (.next (s.laneDone 0 false)) := by
    rw [State.atomicWord_of_act_zero hact, floatAtomic, Bool.decide_and]
  have hvrng : execVrng o s = s.cvecGate (decide (immBits o 1 0 = 0 ∧ o.ty = .f32)) 0 (.next (s.laneDone 0 false)) := by
    rw [execVrng_of_act_zero hact, Bool.decide_and]
  constructor
  · simp only [List.forall_mem_cons]
    exact ⟨laneCompletes_of_laneDone hlanes, laneCompletes_of_laneDone hlanes, laneCompletes_of_laneDone hlanes,
      laneCompletes_of_laneDone hlanes, laneCompletes_of_laneDone hlanes, laneCompletes_of_laneDone hlanes,
      laneCompletes_of_laneDone (execVpre_of_act_zero hact), laneCompletes_of_laneDone (execVdec_of_act_zero hact),
      List.forall_mem_nil _⟩
  · simp only [List.forall_mem_cons]
    exact ⟨completes_or_traps_of_cvecGate (hatomic .g), completes_or_traps_of_cvecGate (hatomic .s),
      completes_or_traps_of_cvecGate (hatomic .m), completes_or_traps_of_cvecGate hvrng, List.forall_mem_nil _⟩

end Sys2Proof.Machine
end
